-- ==== Sys2Proof/Word.lean ====
section
/-! DEFINITION. The words the manual counts in: bytes, 32-bit registers, 12-bit sequence numbers. -/

namespace Sys2Proof

/-- One byte of a block, of a coded payload or of a host record. -/
abbrev Byte := BitVec 8

/-- One 32-bit register or host address (00_scope.md, pin summary: a 32-bit local bus). -/
abbrev Word := BitVec 32

/-- A sequence number, 0 to 4095, wrapping (00_scope.md, Conventions). -/
abbrev Seq := BitVec 12

end Sys2Proof
end

