-- ==== Sys2Proof/Syntax.lean ====
section
/-! DEFINITION. The commands of the block: one constructor for each row of spec/opcode_table.json. -/

namespace Sys2Proof

/-- A level of the line pair (R1). -/
inductive LineLevel
  | low
  | high
deriving DecidableEq, Repr

/-- A driven bit cell (R1): a valid 0 or 1 with its transition at the middle, or a violation, whose level is held
across the middle. -/
inductive LineCell
  | zero
  | one
  | held (level : LineLevel)
deriving DecidableEq, Repr

/-- What the receiver reads in one bit time (R1): a driven cell, or none on a released line. -/
abbrev LineReading := Option LineCell

/-- What becomes of a selected frame's first cell (R25): it goes out, or activity is read after the selection
and before it, and the attempt is abandoned. -/
inductive FirstCell
  | sent
  | forestalled (heard : List LineReading)
deriving DecidableEq, Repr

/-- The two registers that place and size the event ring (R155). -/
inductive RingRegister
  | eventBase
  | eventCtrl
deriving DecidableEq, Repr

/-- How a transfer that writes host memory ends (R146). -/
inductive Completion
  | ok
  | error
deriving DecidableEq, Repr

/-- How a transfer that reads host memory ends (R146, R148): a read hands its bytes over only if it ends OK. -/
inductive ReadCompletion
  | ok (bytes : List Byte)
  | error
deriving DecidableEq, Repr

/-- One bit time of a released line, the plainest reading by which a frame breaks (R9) or a read-back fails (R2). -/
def lineReleased : List LineReading := [none]

/-- The four bit times of a verdict slot that holds a spoil (R13). -/
def spoiledSlot : List LineReading := List.replicate 4 (some (.held .low))

/-- The 4096 bit times of a line held at one level, the plainest stuck condition (R15). -/
def heldLine : List LineReading := List.replicate 4096 (some (.held .low))

/-- The commands, in the order of spec/opcode_table.json. Operands that the table leaves out are the inputs
the row's rule reads: the strap pins, the stream field of the COMMAND word, a value written, what the line
shows, what the host bus answers. `heard` are the bit times read since the last command that told of the line, in
order; the last of them is the one at which the event happens (log 6). A command whose row has no operand may be written
without them: it then stands for the event at its plainest reading. -/
inductive Instr
  /-- R36: the RESET pin, with the levels of the strap pins. -/
  | powerOnReset (station ring : BitVec 6) (rate : BitVec 2)
  /-- R168: COMMAND 1, and whether the line is driven at that moment (R19, R20). -/
  | attach (lineDriven : Bool)
  /-- R169: COMMAND 2. -/
  | detach
  /-- R170: COMMAND 3. -/
  | rejoin
  /-- R171: COMMAND 4. -/
  | resetStation
  /-- R172: COMMAND 5. -/
  | openPublish (stream : BitVec 16)
  /-- R173: COMMAND 6. -/
  | openSubscribe (stream : BitVec 16)
  /-- R174: COMMAND 7. -/
  | resume (stream : BitVec 16)
  /-- R175: COMMAND 8. -/
  | close (stream : BitVec 16)
  /-- R176: COMMAND 9. -/
  | abort (stream : BitVec 16)
  /-- R177: COMMAND 10. -/
  | info (stream : BitVec 16)
  /-- R167: a COMMAND word whose code names none of the ten commands. -/
  | unknownCommand (code stream : BitVec 16)
  /-- R52, R165: a read of STATION, whole or of `width` bytes from a byte of its word. -/
  | stationRead (lane : BitVec 2) (width : Nat)
  /-- R155: a 32-bit write of EVENT_BASE or EVENT_CTRL. -/
  | eventRingConfigWrite (reg : RingRegister) (value : Word)
  /-- R158: a 32-bit write of EVENT_CONSUMER. -/
  | eventConsumerWrite (value : Word)
  /-- R162: a 32-bit write of INT_STATUS. -/
  | intStatusWrite (value : Word)
  /-- R165: a write of `width` bytes at an offset of the window. `lineDriven` is what the line shows at that
  moment; only a write that is an ATTACH reads it. -/
  | registerWrite (offset : BitVec 7) (width : Nat) (value : Word) (lineDriven : Bool)
  /-- R21: the receive phase leaves REST. -/
  | activityBegins (heard : List LineReading)
  /-- R17: the stream field of a DATA frame, 11 cells, is complete. -/
  | stagingClaim (stream : BitVec 11)
  /-- R13: the end mark ends the frame. `heard` goes from the end of the start mark to the end of the end mark; of
  this station's own frame it is the read-back of every cell (R2). -/
  | frameEnd (heard : List LineReading)
  /-- R14: the verdict slot of another station's frame ends spoiled; `heard` are its four bit times. -/
  | spoiledVerdict (heard : List LineReading := spoiledSlot)
  /-- R14: the verdict slot ends clean for a frame this station found a fault in while not ACTIVE. -/
  | cleanFaultyFrame
  /-- R110: the verdict slot ends clean for the DATA frame in the receive record. -/
  | cleanData
  /-- R101: the same for a REPAIR. -/
  | cleanRepair
  /-- R128: the same for a GONE. -/
  | cleanGone
  /-- R62: the same for a CLAIM. -/
  | cleanClaim
  /-- R67: the same for a DISPUTE. -/
  | cleanDispute
  /-- R69: the same for a YIELD. -/
  | cleanYield
  /-- R11: a broken frame has been followed by one released slot time. -/
  | brokenFrameEnd
  /-- R45: in HOLD, an activity has been followed by one released slot time. -/
  | holdActivityEnd
  /-- R16: the stuck count reaches 4096. -/
  | stuckCondition (heard : List LineReading := heldLine)
  /-- R16: the stuck condition ends, at a valid cell or at a released bit time. -/
  | stuckEnd (atValidCell : Bool)
  /-- R21: one released slot time has passed since the stuck condition ended. -/
  | stuckWaitEnd
  /-- R23: a whole window passes with no activity. -/
  | windowPassesEmpty
  /-- R26: the urgent slot starts. -/
  | urgentSlotStart (first : FirstCell)
  /-- R25: this station's own rotation slot starts. -/
  | rotationSlotStart (first : FirstCell)
  /-- R27: the hold-off timer expires. -/
  | holdOffExpiry (first : FirstCell)
  /-- R2: the first read-back mismatch of this station's own frame; `heard` is the read-back from its first cell. -/
  | attemptCollided (heard : List LineReading := lineReleased)
  /-- R33: the verdict slot of this station's own frame ends; `heard` are its four bit times. -/
  | attemptVerdict (heard : List LineReading)
  /-- R61: the claim settle timer of the entry at a table index expires. -/
  | claimSettleExpiry (index : Nat)
  /-- R123: the repair delay of the entry at a table index expires. -/
  | repairDelayExpiry (index : Nat)
  /-- R125: the repair wait of the entry at a table index expires. -/
  | repairWaitExpiry (index : Nat)
  /-- R84: the head of the global replay age list reaches the age limit. -/
  | replayAgeLimit
  /-- R161: the coalescing timer's count reaches 0. -/
  | coalescingTimerExpiry
  /-- R148: the arbiter grants a request. -/
  | transferGrant
  /-- R140: the read of a chain head ends. -/
  | headDescriptorReadEnd (c : ReadCompletion)
  /-- R141: a look-ahead read ends. -/
  | lookAheadReadEnd (c : ReadCompletion)
  /-- R142: a second read of the tail ends. -/
  | lastLookEnd (c : ReadCompletion)
  /-- R92: a payload read ends. -/
  | txPayloadReadEnd (c : ReadCompletion)
  /-- R94: a SENT write-back ends. -/
  | txWriteBackEnd (c : Completion)
  /-- R116: a receive payload write ends. -/
  | rxPayloadWriteEnd (c : Completion)
  /-- R118: a receive write-back ends. -/
  | rxWriteBackEnd (c : Completion)
  /-- R157: an event record write ends. -/
  | eventWriteEnd (c : Completion)
  /-- R9: the activity in FRAME becomes a broken frame. -/
  | frameBecomesBroken (heard : List LineReading := lineReleased)
deriving DecidableEq, Repr

end Sys2Proof
end

