-- ==== Sys2Proof/Decode.lean ====
section
/-! DEFINITION. The command that a word spells by the table's bits. No row of spec/opcode_table.json gives bits
(every row's "fields" is empty and none has a "fixed"), so no word spells a command. -/

namespace Sys2Proof

/-- The command whose bits, as the table numbers them, are the `nbits` low bits of `w`: none, for every word. -/
def decodeTableWord (_nbits _w : Nat) : Option Instr := none

end Sys2Proof
end

