-- ==== Sys2Proof/Config.lean ====
section
/-! DEFINITION. What is fixed for the part: limits and lengths of the manual, and the strap setting of the
modelled board. No result is called undefined by the manual, so there is no free value here. -/

namespace Sys2Proof
namespace Config

/-- Bit times in one slot (R23; 02_turn_taking: slot time). -/
def slotTime : Nat := 16
/-- Entries of the stream table (R53). -/
def tableSize : Nat := 32
/-- Stream numbers are 0 to 1023 (R53). -/
def streamCount : Nat := 1024
/-- Cells of the pool (R76). -/
def poolCells : Nat := 160
/-- Most cells of a send queue (R76). -/
def sendLimit : Nat := 8
/-- Most cells of a replay queue (R76). -/
def replayLimit : Nat := 32
/-- Most cells of a reorder list, written and waiting together (R112). -/
def reorderLimit : Nat := 8
/-- Most entries of the resend list (R97). -/
def resendLimit : Nat := 16
/-- Most entries of the GONE list (R99). -/
def goneLimit : Nat := 4
/-- Most sequences one GONE entry or one REPAIR covers (R99, R124). -/
def rangeLimit : Nat := 16
/-- Most outcomes of the history (R41). -/
def historyLimit : Nat := 16
/-- The failure count that sends an ACTIVE station to QUIET (R42). -/
def failureLimit : Nat := 8
/-- Most events of the backlog (R159). -/
def backlogLimit : Nat := 4
/-- Most block bytes one segment carries (06_publishing: segmenting; R91). -/
def segmentBytes : Nat := 240
/-- Continuous bit times without a valid cell that make the line stuck (R16). -/
def stuckLimit : Nat := 4096
/-- Length of the claim settle timer in bit times (R61). -/
def claimSettle : Nat := 4096
/-- Length of the repair delay in bit times (R122). -/
def repairDelay : Nat := 2048
/-- Length of the repair wait in bit times (R122). -/
def repairWait : Nat := 8192
/-- Most REPAIR attempts for one gap without progress (R125). -/
def repairAttempts : Nat := 3
/-- The age at which a replay cell is released, in bit times (R84). -/
def replayAge : Nat := 65536
/-- The unit of the coalescing timer in bit times (R161). -/
def coalescingUnit : Nat := 256
/-- Bit times of the verdict slot (R3). -/
def verdictSlot : Nat := 4
/-- Cells of a frame's header: kind code and sender (R3, R180). -/
def headerCells : Nat := 9
/-- Cells between the start mark and the end mark of the longest frame (11.1). -/
def longestFrameCells : Nat := 2003
/-- Forward distances from expected that count as ahead go up to this (00_scope.md, Forward distance). -/
def aheadLimit : Nat := 127
/-- Forward distances up to this are not behind (00_scope.md, Forward distance). -/
def farLimit : Nat := 2047

/-- The straps of the modelled board, read when the model starts at `State.reset`.
DESIGN CHOICE, unsafe (log 4): the manual gives the pins, not one board's levels;
POWER_ON_RESET takes any strap values. -/
def strapStation : BitVec 6 := 1
/-- Ring size strap of the modelled board. DESIGN CHOICE, unsafe (log 4). -/
def strapRing : BitVec 6 := 4
/-- Rate strap of the modelled board. DESIGN CHOICE, unsafe (log 4). -/
def strapRate : BitVec 2 := 0

end Config
end Sys2Proof
end

