-- ==== Sys2Proof/Machine/State.lean ====
section
/-! DEFINITION. Everything the manual gives the station to hold, as plain data, and the state after power-on reset. -/

namespace Sys2Proof
namespace Machine

/-- Why a command stops the machine. There is no constructor: every row of the table has an effect in the manual,
or leaves the state as it is where the manual says its event does not occur (log 2). -/
inductive Fault
deriving DecidableEq, Repr

/-- A command without a meaning. -/
inductive Refusal
  /-- Raised by an arm of `exec` that has no meaning yet; safe. No arm raises it. -/
  | notModelled (mnemonic : String)
deriving DecidableEq, Repr

/-! ### Station control (03_station_states.md) -/

/-- The six station states (R36 to R47). -/
inductive StationState
  | disabled | detached | joining | active | quiet | hold
deriving DecidableEq, Repr

/-- The state the station returns to when HOLD ends (R44). -/
inductive ResumeTo
  | joining | quiet
deriving DecidableEq, Repr

/-- The outcome of an attempt (R32). -/
inductive AttemptOutcome
  | delivered | spoiled | collided
deriving DecidableEq, Repr

/-- The strap values as sampled at power-on reset (R36). -/
structure Straps where
  station : BitVec 6
  ring : BitVec 6
  rate : BitVec 2
deriving DecidableEq, Repr

/-- What station control holds (03_station_states.md, before R36). -/
structure StationControl where
  state : StationState
  resumeTo : ResumeTo
  /-- Oldest first (R41). -/
  history : List AttemptOutcome
  stateChanged : Bool
  stuckSeen : Bool
  straps : Straps
deriving DecidableEq, Repr

/-! ### Frames and the line interface (01_the_shared_line_and_its_frames.md) -/

/-- A frame of a valid kind with its header and body fields (R4). The coded length of DATA is the length of its
coded payload. -/
inductive Frame
  | data (sender stream : Nat) (sequence : Seq) (first last replayed : Bool) (decodedLength : Nat)
      (coded : List Byte)
  | repair (sender stream target : Nat) (first : Seq) (count : Nat)
  | gone (sender stream : Nat) (first : Seq) (count : Nat)
  | claim (sender stream : Nat)
  | dispute (sender stream owner : Nat)
  | yield (sender stream : Nat)
deriving DecidableEq, Repr

/-- The faults found in a frame (R12). -/
structure FrameFaults where
  violation : Bool
  check : Bool
  format : Bool
  coding : Bool
deriving DecidableEq, Repr

/-- The phases of reception (01, section 1.5). -/
inductive ReceivePhase
  | off | rest | frame | verdict | broken | stuck
deriving DecidableEq, Repr

/-- What the phase BROKEN waits out (R11, R16). -/
inductive BrokenWait
  /-- A broken frame, or in HOLD any activity. -/
  | activity
  /-- The broken frame made by driven cells at or after the end of a stuck condition. -/
  | afterStuck
  /-- The released slot time after a stuck condition, with no driven cell so far. -/
  | stuckWait
deriving DecidableEq, Repr

/-- A segment in a held staging buffer: the fields of its DATA frame and its coded payload. -/
structure StagedSegment where
  stream : Nat
  sender : Nat
  sequence : Seq
  first : Bool
  last : Bool
  replayed : Bool
  decodedLength : Nat
  coded : List Byte
deriving DecidableEq, Repr

/-- A staging buffer (01, section 1.7). -/
inductive StagingBuffer
  | free
  | filling (coded : List Byte)
  | held (segment : StagedSegment)
deriving DecidableEq, Repr

/-- The two staging buffers. -/
inductive BufferId
  | a | b
deriving DecidableEq, Repr

/-- What the line interface holds (R9, R10, R13, R15, R17). -/
structure LineInterface where
  phase : ReceivePhase
  brokenWait : BrokenWait
  stuckCount : Nat
  /-- The receive record: the frame heard, once its end mark has ended (R10). -/
  record : Option Frame
  faults : FrameFaults
  /-- A spoil is driven in the present verdict slot (R13). -/
  spoiling : Bool
  bufferA : StagingBuffer
  bufferB : StagingBuffer
deriving DecidableEq, Repr

/-! ### Turn unit (02_turn_taking_on_the_line.md) -/

/-- The line as this station judges it (R20). -/
inductive LineCondition
  | ignored | opened | window | busy | stuck
deriving DecidableEq, Repr

/-- What a frame was built from: that thing itself, by its serial, not the place it stands in (R32). -/
inductive AttemptSource
  | dispute (serial : Nat)
  /-- A GONE list entry and the range it held when the frame was built (R102). -/
  | gone (serial : Nat) (first : Seq) (count : Nat)
  | repair (serial : Nat)
  | claim (serial : Nat)
  | yield (serial : Nat)
  /-- A resend list entry: its publish entry and its sequence. -/
  | resend (serial : Nat) (sequence : Seq)
  /-- A send-queue head cell: its publish entry, that entry's table index, and the cell. -/
  | newData (serial index cell : Nat)
deriving DecidableEq, Repr

/-- The attempt record when it is not empty (R20, R32). -/
structure Attempt where
  frame : Frame
  source : AttemptSource
  urgentSlot : Bool
deriving DecidableEq, Repr

/-- What the turn unit holds (R20). The urgent-retry marks stand with the frames they mark. -/
structure TurnUnit where
  condition : LineCondition
  /-- The moment the windows are counted from, in the model's bit-time clock. -/
  anchor : Option Nat
  emptyWindows : Nat
  lastSender : Nat
  pointer : Nat
  /-- Stopped, or running with the bit times left (R27). -/
  holdOff : Option Nat
  attempt : Option Attempt
deriving DecidableEq, Repr

/-! ### Chains and the stream table (04, 06, 07, 08) -/

/-- The causes of a host-memory fault (R147). -/
inductive FaultCause
  | badDescriptor | fence | busError
deriving DecidableEq, Repr

/-- The copy the chain unit keeps of a descriptor (R134, R135): `length` is the length of a TX descriptor, the
capacity of an RX descriptor. -/
structure Descriptor where
  link : Word
  buffer : Word
  length : Nat
  notify : Bool
deriving DecidableEq, Repr

/-- The current descriptor (R139). -/
inductive CurrentDescriptor
  | none
  | reading (address : Word)
  | held (address : Word) (record : Descriptor)
deriving DecidableEq, Repr

/-- The look-ahead (R139). -/
inductive LookAhead
  | none
  | reading (address : Word)
  | held (address : Word) (record : Descriptor)
  | faulty (address : Word) (cause : FaultCause)
  | ended
  | looking
deriving DecidableEq, Repr

/-- The chain context of an entry (R139). -/
structure Chain where
  /-- LINKED, else EMPTY. -/
  linked : Bool
  current : CurrentDescriptor
  lookAhead : LookAhead
  tail : Option Word
deriving DecidableEq, Repr

/-- The claim states of a publish entry (R57). -/
inductive ClaimState
  | claiming | owned | closing | lost | fault
deriving DecidableEq, Repr

/-- The segmenter conditions (R89). -/
inductive Segmenter
  | noChain | ready | waitCell | filling | stopped
deriving DecidableEq, Repr

/-- The block tag of a LAST cell (R76, R91). -/
structure BlockTag where
  descriptor : Word
  length : Nat
  notify : Bool
deriving DecidableEq, Repr

/-- A cell of a send or replay queue (R76). The coded length is the length of the coded payload. -/
structure PublishCell where
  cell : Nat
  sequence : Seq
  first : Bool
  last : Bool
  decodedLength : Nat
  coded : List Byte
  complete : Bool
  tag : Option BlockTag
deriving DecidableEq, Repr

/-- A record of the write-back list (R94). -/
structure WriteBack where
  descriptor : Word
  length : Nat
  lastSequence : Seq
  notify : Bool
deriving DecidableEq, Repr

/-- A publish entry: its claim (R54, R57) and its queues (R89). -/
structure PublishEntry where
  claim : ClaimState
  claimDue : Bool
  disputeDue : Bool
  disputeMark : Bool
  yieldDue : Bool
  claimSent : Bool
  closeRequested : Bool
  /-- The claim settle timer: stopped, or the bit times left; paused in HOLD (R61). -/
  settleTimer : Option Nat
  segmenter : Segmenter
  position : Nat
  nextSequence : Seq
  sendQueue : List PublishCell
  replayQueue : List PublishCell
  writeBacks : List WriteBack
  segmentsSent : BitVec 32
  resendsSent : BitVec 32
deriving DecidableEq, Repr

/-- The two entry states of a subscribe entry (R58). -/
inductive SubscribeState
  | opened | fault
deriving DecidableEq, Repr

/-- The repair states (R122). -/
inductive RepairState
  | idle | waiting | due | requested
deriving DecidableEq, Repr

/-- Where the bytes of a segment being placed stand (R108). -/
inductive SegmentSource
  | staging (buffer : BufferId)
  | cell (cell : Nat)
deriving DecidableEq, Repr

/-- The segment being placed (R108). -/
structure Placing where
  source : SegmentSource
  sequence : Seq
  first : Bool
  last : Bool
  sender : Nat
  length : Nat
  /-- The number of its bytes placed so far. -/
  placed : Nat
deriving DecidableEq, Repr

/-- The block being built (R108, R117). -/
structure OpenBlock where
  descriptor : Word
  sequence : Seq
  bytes : Nat
  publisher : Nat
deriving DecidableEq, Repr

/-- A cell of a reorder list with its decoded bytes (R76). -/
structure ReorderCell where
  cell : Nat
  sequence : Seq
  first : Bool
  last : Bool
  sender : Nat
  bytes : List Byte
deriving DecidableEq, Repr

/-- A subscribe entry: what the stream table and the subscribe engine keep (R58, R69, R108). -/
structure SubscribeEntry where
  state : SubscribeState
  closing : Bool
  publisher : Option Nat
  /-- The expected sequence; none is UNSYNCED. -/
  expected : Option Seq
  placing : Option Placing
  partPlaced : Nat
  block : Option OpenBlock
  /-- Of the current descriptor: its write offset, whether it is the block's first descriptor, and the sequence
  of the first segment placed in it. -/
  writeOffset : Nat
  firstOfBlock : Bool
  descriptorSequence : Option Seq
  /-- The reorder list: its written cells, then its waiting segments. -/
  written : List ReorderCell
  waiting : List ReorderCell
  highestSeen : Option Seq
  repair : RepairState
  /-- Stopped, or the bit times left; paused in HOLD and while the entry is starved (R122). -/
  repairTimer : Option Nat
  repairMark : Bool
  attempts : Nat
  requested : Option (Seq × Nat)
  starved : Bool
  /-- A take has found the chain at its END, and no RESUME has come since: the tail is not read again (R144). -/
  chainEnded : Bool
deriving DecidableEq, Repr

/-- The role of an entry with the fields of the role (R53). -/
inductive Role
  | publish (p : PublishEntry)
  | subscribe (u : SubscribeEntry)
deriving DecidableEq, Repr

/-- One entry of the stream table (R53). `serial` is the model's own (log 16). -/
structure Entry where
  index : Nat
  serial : Nat
  stream : Nat
  chain : Chain
  role : Role
deriving DecidableEq, Repr

/-! ### Cell pool and the publish engine's lists (05, 06) -/

/-- A place in the global replay age list: the cell, the table index of the entry whose replay queue holds it,
and its age in bit times (R82, R84). -/
structure AgedCell where
  cell : Nat
  index : Nat
  age : Nat
deriving DecidableEq, Repr

/-- What the pool keeps besides the cells the queues hold (R77, R80, R82). -/
structure Pool where
  free : List Nat
  aged : List AgedCell
  waiting : List Nat
  waitingPointer : Nat
deriving DecidableEq, Repr

/-- An entry of the resend list: a publish entry, by table index, and a sequence (R97). -/
structure Resend where
  index : Nat
  sequence : Seq
deriving DecidableEq, Repr

/-- An entry of the GONE list with its urgent-retry mark (R99, R28). `serial` is the model's own (log 16). -/
structure GoneEntry where
  serial : Nat
  stream : Nat
  first : Seq
  count : Nat
  mark : Bool
deriving DecidableEq, Repr

/-- The publish engine's two station-wide lists (R89). -/
structure PublishLists where
  resend : List Resend
  gone : List GoneEntry
deriving DecidableEq, Repr

/-! ### Events and the host port (08, 09) -/

/-- The kinds of event (R154). -/
inductive EventKind
  | blockSent | blockReceived | txChainEnd | rxStarved | claimWon | claimLost | publisherSet | segmentsLost
  | streamClosed | streamFault | stationState
deriving DecidableEq, Repr

/-- An event with its eight fields (R154); `entered` and `left` are the state codes that STATION_STATE carries
beside its cause. -/
structure Event where
  kind : EventKind
  code : Nat
  entered : Nat
  left : Nat
  number : BitVec 16
  stream : Option Nat
  station : Nat
  sequence : Nat
  count : Nat
  descriptor : Word
deriving DecidableEq, Repr

/-- The status a closing write-back gives a block (R117). -/
inductive BlockStatus
  | ok | lost | aborted
deriving DecidableEq, Repr

/-- A write-back into an RX descriptor (R117): a closing one carries the block it closes. -/
structure RxWriteBack where
  descriptor : Word
  used : Nat
  start : Bool
  endFlag : Bool
  status : BlockStatus
  sequence : Seq
  closes : Option OpenBlock
deriving DecidableEq, Repr

/-- A request at the arbiter (R148). Entries are named by table index. -/
inductive Request
  | headRead (index : Nat) (address : Word)
  | lookAheadRead (index : Nat) (address : Word)
  | lastLook (index : Nat) (address : Word)
  | txPayload (index cell : Nat) (address : Word) (length : Nat)
  | txWriteBack (index : Nat) (record : WriteBack)
  | rxPayload (index : Nat) (source : SegmentSource) (descriptor address : Word) (offset length : Nat)
  | rxWriteBack (index : Nat) (record : RxWriteBack)
  | eventWrite (place : Nat) (event : Event)
deriving DecidableEq, Repr

/-- The classes of the arbiter (R148). -/
inductive PortClass
  | first | second | third
deriving DecidableEq, Repr

/-- The granted transfer: the bus address of its first byte (R181), the bytes a write took at its grant, and whether
its result is discarded (R150). -/
structure Granted where
  request : Request
  address : Nat
  bytes : List Byte
  discarded : Bool
deriving DecidableEq, Repr

/-- The host-port arbiter (R148): FREE when `granted` is none. -/
structure HostPort where
  granted : Option Granted
  firstClass : List Request
  secondClass : List Request
  thirdClass : List Request
deriving DecidableEq, Repr

/-- The fence registers as taken (R137). -/
structure Fence where
  base : Word
  limit : Word
deriving DecidableEq, Repr

/-- The coalescing timer (R161). -/
inductive CoalescingTimer
  | stopped
  | running (left : Nat)
  | expired
deriving DecidableEq, Repr

/-- The ring registers as taken (R155). -/
structure RingConfig where
  base : Word
  sizeCode : BitVec 4
  threshold : BitVec 10
  coalescing : BitVec 8
deriving DecidableEq, Repr

/-- What the event unit holds (09, section 9.1). -/
structure EventUnit where
  /-- RING_READY, else RING_UNSET. -/
  ready : Bool
  config : RingConfig
  number : BitVec 16
  writeIndex : Nat
  producer : Nat
  consumer : Nat
  backlog : List Event
  writesStopped : Bool
  timer : CoalescingTimer
  overflow : Bool
  hostFault : Bool
  enable : BitVec 3
deriving DecidableEq, Repr

/-! ### The register window and the counters (10) -/

/-- The results of a command (R167). -/
inductive Result
  | done | badState | badStream | noEntry | inUse | tableFull | badAddress | badConfig | streamsOpen | badCommand
deriving DecidableEq, Repr

/-- What the register window keeps (R166, R177, R178), and the HD pins as the last read drove them (R165). -/
structure Window where
  argument : Word
  result : Result
  counterIndex : BitVec 4
  info0 : Word
  info1 : Word
  info2 : Word
  info3 : Word
  readData : Word
deriving DecidableEq, Repr

/-- The sixteen counters (10, section 10.5). -/
structure Counters where
  cleanFrames : BitVec 32
  spoiledSeen : BitVec 32
  spoilsDriven : BitVec 32
  brokenFrames : BitVec 32
  ownCollisions : BitVec 32
  stagingOverruns : BitVec 32
  foreignData : BitVec 32
  staleDuplicates : BitVec 32
  orphanSegments : BitVec 32
  reorderDrops : BitVec 32
  replayEvictions : BitVec 32
  replayReleases : BitVec 32
  repairsSent : BitVec 32
  repairsSuppressed : BitVec 32
  gonesSent : BitVec 32
  eventsLost : BitVec 32
deriving DecidableEq, Repr

/-- The station. -/
structure State where
  station : StationControl
  line : LineInterface
  turn : TurnUnit
  /-- The entries of the stream table, in rising order of index (R53). -/
  table : List Entry
  pool : Pool
  lists : PublishLists
  port : HostPort
  fence : Fence
  events : EventUnit
  window : Window
  counters : Counters
  /-- The model's own: bit times since power-on reset (log 16). -/
  clock : Nat
  /-- The model's own: what falls due in the present bit time has been queued (log 1). -/
  momentTaken : Bool
  /-- The model's own: the serial the next entry or GONE list entry takes (log 16). -/
  nextSerial : Nat
  /-- The commands that wait, first in, first out. -/
  pending : List Instr
deriving DecidableEq, Repr

/-! ### Power-on reset -/

/-- The sampled straps make the station usable: ring size 2 to 32, station number 1 to the ring size (R36). -/
def Straps.valid (p : Straps) : Bool :=
  2 ≤ p.ring.toNat && p.ring.toNat ≤ 32 && 1 ≤ p.station.toNat && p.station.toNat ≤ p.ring.toNat

/-- Every counter at 0 (R178). -/
def Counters.zero : Counters := ⟨0, 0, 0, 0, 0, 0, 0, 0, 0, 0, 0, 0, 0, 0, 0, 0⟩

/-- No fault found. -/
def FrameFaults.clear : FrameFaults := ⟨false, false, false, false⟩

/-- Station control after power-on reset (R48). -/
def StationControl.powerOn (p : Straps) : StationControl where
  state := if p.valid then .detached else .disabled
  resumeTo := .joining
  history := []
  stateChanged := false
  stuckSeen := false
  straps := p

/-- The line interface after power-on reset (R19). -/
def LineInterface.powerOn : LineInterface where
  phase := .off
  brokenWait := .activity
  stuckCount := 0
  record := none
  faults := .clear
  spoiling := false
  bufferA := .free
  bufferB := .free

/-- The turn unit after power-on reset (R20). -/
def TurnUnit.powerOn : TurnUnit where
  condition := .ignored
  anchor := none
  emptyWindows := 0
  lastSender := 0
  pointer := 31
  holdOff := none
  attempt := none

/-- The pool after power-on reset: all 160 cells free (R77), the waiting pointer 31 (R80). -/
def Pool.powerOn : Pool where
  free := List.range Config.poolCells
  aged := []
  waiting := []
  waitingPointer := 31

/-- The event unit after power-on reset (R163). -/
def EventUnit.powerOn : EventUnit where
  ready := false
  config := ⟨0, 4, 1, 0⟩
  number := 0
  writeIndex := 0
  producer := 0
  consumer := 0
  backlog := []
  writesStopped := false
  timer := .stopped
  overflow := false
  hostFault := false
  enable := 0

/-- The register window after power-on reset (R166, R177, R178). -/
def Window.powerOn : Window := ⟨0, .done, 0, 0, 0, 0, 0, 0⟩

/-- The station right after power-on reset with the given strap levels, and an empty queue. -/
def State.powerOn (p : Straps) : State where
  station := .powerOn p
  line := .powerOn
  turn := .powerOn
  table := []
  pool := .powerOn
  lists := ⟨[], []⟩
  port := ⟨none, [], [], []⟩
  fence := ⟨0, 0⟩
  events := .powerOn
  window := .powerOn
  counters := .zero
  clock := 0
  momentTaken := false
  nextSerial := 0
  pending := []

/-- The machine right after reset, on the modelled board's straps (log 4). -/
def State.reset : State := .powerOn ⟨Config.strapStation, Config.strapRing, Config.strapRate⟩

end Machine
end Sys2Proof
end

