-- ==== Sys2Proof/Machine/Operands.lean ====
section
/-! DEFINITION. The forms the station reads and writes: sequence arithmetic, bit cells (R1), payload coding (R5 to
R7), the check (R8), line frames (R3, R4, R9, R180), host records (R181) and fields of registers (R182). -/

namespace Sys2Proof
namespace Machine

/-! ### Numbers and fields -/

/-- The forward distance from `a` to `b`, modulo 4096 (00_scope.md, Forward distance). -/
def forwardDistance (a b : Seq) : Nat := (b - a).toNat

/-- The sequence `n` places after `q`, wrapping. -/
def seqAfter (q : Seq) (n : Nat) : Seq := q + BitVec.ofNat 12 n

/-- A word whose fields stand at the given bit positions: pairs of position and value. -/
def packFields (fields : List (Nat × Nat)) : Word :=
  BitVec.ofNat 32 (fields.foldl (fun w f => w + f.2 * 2 ^ f.1) 0)

/-- The `count` bits of a word from bit `low`, as a number. -/
def fieldOf (w : Word) (low count : Nat) : Nat := w.toNat / 2 ^ low % 2 ^ count

/-- A number as `n` bytes, least significant first (00_scope.md, Byte order). -/
def littleEndian (n v : Nat) : List Byte := (List.range n).map fun i => BitVec.ofNat 8 (v / 256 ^ i)

/-- The number that bytes spell, least significant first. -/
def fromLittleEndian : List Byte → Nat
  | [] => 0
  | b :: rest => b.toNat + 256 * fromLittleEndian rest

/-- 1 for a set flag. -/
def flagBit (b : Bool) : Nat := if b then 1 else 0

/-! ### Bit cells -/

/-- The bit time in nanoseconds at a rate code: 1, 2, 4 or 8 Mbit/s (R1). -/
def bitTimeNanoseconds (rate : BitVec 2) : Nat := 1000 / 2 ^ rate.toNat

/-- The levels of a driven cell before and after its middle (R1): low to high is a 1, high to low is a 0, and a
violation is held across the middle. -/
def cellLevels : LineCell → LineLevel × LineLevel
  | .one => (.low, .high)
  | .zero => (.high, .low)
  | .held level => (level, level)

/-- The cell that two levels make, before and after the middle (R1). -/
def cellOfLevels : LineLevel → LineLevel → LineCell
  | .low, .high => .one
  | .high, .low => .zero
  | .low, .low => .held .low
  | .high, .high => .held .high

/-- The line changes level at the boundary between two cells (R1). -/
def boundaryTransition (a b : LineCell) : Bool := (cellLevels a).2 != (cellLevels b).1

/-- A cell with its transition at the middle (R1). -/
def validCell : LineCell → Bool
  | .zero => true
  | .one => true
  | .held _ => false

/-- What a receiver may read in a bit time in which stations drive the given cells (R1): a released line without a
driver, the cell of a single driver, and a violation where drivers overlap, at a level that R1 leaves open. -/
def readsAs (driven : List LineCell) (r : LineReading) : Bool :=
  match driven with
  | [] => r == none
  | [c] => r == some c
  | _ => r == some (.held .low) || r == some (.held .high)

/-- The stuck count after one bit time (R15): one more at a driven cell that is not valid, 0 at a valid cell and on a
released line. It stands still at 4096, where the line is stuck (R16). -/
def stuckStep (count : Nat) : LineReading → Nat
  | some (.held _) => min Config.stuckLimit (count + 1)
  | some .zero => 0
  | some .one => 0
  | none => 0

/-- The stuck count after the bit times read (R15). -/
def stuckAfter (count : Nat) (heard : List LineReading) : Nat := heard.foldl stuckStep count

/-- The line is stuck at one of the bit times read: the count reaches 4096 there (R16). -/
def reachesStuck : Nat → List LineReading → Bool
  | _, [] => false
  | count, r :: heard => stuckStep count r == Config.stuckLimit || reachesStuck (stuckStep count r) heard

/-! ### Payload coding -/

/-- A closed literal group: a literal token with value one less than its length, followed by its bytes; an empty
group emits nothing (R6). -/
def closeGroup (group : List Byte) : List Byte :=
  if group.isEmpty then [] else BitVec.ofNat 8 (group.length - 1) :: group

/-- How many bytes at the front equal `b`. -/
def leadingEqual (b : Byte) : List Byte → Nat
  | [] => 0
  | c :: rest => if c == b then leadingEqual b rest + 1 else 0

/-- The encoder's scan (R6): `group` is the open literal group. Each round takes one byte or one run, so a fuel
of the number of bytes left is enough. -/
def encodeScan : Nat → List Byte → List Byte → List Byte
  | 0, _, group => closeGroup group
  | _ + 1, [], group => closeGroup group
  | fuel + 1, b :: rest, group =>
    if 2 ≤ leadingEqual b rest then
      let run := min 130 (leadingEqual b rest + 1)
      closeGroup group ++ (BitVec.ofNat 8 (128 + (run - 3)) :: b :: encodeScan fuel (rest.drop (run - 1)) [])
    else if (group ++ [b]).length == 128 then
      closeGroup (group ++ [b]) ++ encodeScan fuel rest []
    else
      encodeScan fuel rest (group ++ [b])

/-- The coded payload of a segment's decoded bytes (R6). -/
def encodePayload (bytes : List Byte) : List Byte := encodeScan bytes.length bytes []

/-- The token decoder (R5, R7): none where a token reaches past the coded length. Each round takes one token, so a
fuel of the coded length is enough. -/
def decodeTokens : Nat → List Byte → Option (List Byte)
  | _, [] => some []
  | 0, _ :: _ => none
  | fuel + 1, h :: rest =>
    if h.toNat < 128 then
      if h.toNat + 1 ≤ rest.length then
        (decodeTokens fuel (rest.drop (h.toNat + 1))).map (rest.take (h.toNat + 1) ++ ·)
      else none
    else
      match rest with
      | [] => none
      | b :: rest' => (decodeTokens fuel rest').map (List.replicate (h.toNat - 128 + 3) b ++ ·)

/-- The decoded bytes of a coded payload, if no token reaches past its end (R7). -/
def decodePayload (coded : List Byte) : Option (List Byte) := decodeTokens coded.length coded

/-- The decoded bytes of a staged segment. A held segment passed the coding check (R7, R14). -/
def StagedSegment.bytes (g : StagedSegment) : List Byte := (decodePayload g.coded).getD []

/-! ### The check -/

/-- One covered bit of the check computation (R8). -/
def checkStep (r : BitVec 16) (bit : Bool) : BitVec 16 :=
  if xor r.msb bit then (r <<< 1) ^^^ 0x1021#16 else r <<< 1

/-- The check over the covered bits, in the order they are sent (R8). -/
def checkOf (bits : List Bool) : BitVec 16 := bits.foldl checkStep 0xFFFF#16

/-! ### Line frames -/

/-- A field of a frame: `n` bits, most significant first (R180). -/
def bitsOf (n v : Nat) : List Bool := (List.range n).map fun i => v.testBit (n - 1 - i)

/-- The number that bits spell, most significant first. -/
def fromBits (bits : List Bool) : Nat := bits.foldl (fun v b => 2 * v + flagBit b) 0

/-- The kind code of a frame (R4). -/
def Frame.kindCode : Frame → Nat
  | .data .. => 1
  | .repair .. => 2
  | .gone .. => 3
  | .claim .. => 4
  | .dispute .. => 5
  | .yield .. => 6

/-- The sender of a frame. -/
def Frame.sender : Frame → Nat
  | .data s .. => s
  | .repair s .. => s
  | .gone s .. => s
  | .claim s _ => s
  | .dispute s .. => s
  | .yield s _ => s

/-- The stream of a frame. -/
def Frame.stream : Frame → Nat
  | .data _ t .. => t
  | .repair _ t .. => t
  | .gone _ t .. => t
  | .claim _ t => t
  | .dispute _ t _ => t
  | .yield _ t => t

/-- The body of a frame in the order and widths of 11.1. -/
def Frame.bodyBits : Frame → List Bool
  | .data _ stream q first last replayed decoded coded =>
    bitsOf 11 stream ++ bitsOf 12 q.toNat ++ [first, last, replayed] ++ bitsOf 8 decoded
      ++ bitsOf 8 coded.length ++ coded.flatMap (fun b => bitsOf 8 b.toNat)
  | .repair _ stream target first count =>
    bitsOf 11 stream ++ bitsOf 6 target ++ bitsOf 12 first.toNat ++ bitsOf 5 count
  | .gone _ stream first count => bitsOf 11 stream ++ bitsOf 12 first.toNat ++ bitsOf 5 count
  | .claim _ stream => bitsOf 11 stream
  | .dispute _ stream owner => bitsOf 11 stream ++ bitsOf 6 owner
  | .yield _ stream => bitsOf 11 stream

/-- The covered bits of a frame: kind code, sender, body (R8). -/
def Frame.coveredBits (f : Frame) : List Bool := bitsOf 3 f.kindCode ++ bitsOf 6 f.sender ++ f.bodyBits

/-- The bits of a frame between its start mark and its end mark: the covered bits and the check (R3, R8). -/
def Frame.bits (f : Frame) : List Bool := f.coveredBits ++ bitsOf 16 (checkOf f.coveredBits).toNat

/-- A valid cell carrying a bit. -/
def cellOf (b : Bool) : LineCell := if b then .one else .zero

/-- The cells a sender drives between the start mark and the end mark. -/
def Frame.cells (f : Frame) : List LineCell := f.bits.map cellOf

/-- The start mark (R3): six valid cells, then one cell held high and one held low. -/
def startMark : List LineCell := [.one, .zero, .one, .zero, .one, .zero, .held .high, .held .low]

/-- The end mark (R3): one cell held low and one held high. -/
def endMark : List LineCell := [.held .low, .held .high]

/-- The cells a sender drives for a frame, first to last (R3). -/
def Frame.onLine (f : Frame) : List LineCell := startMark ++ f.cells ++ endMark

/-- What a spoil drives: the low level for the four bit times of the verdict slot (R3, R13). -/
def spoil : List LineCell := List.replicate Config.verdictSlot (.held .low)

/-- The bit a cell is taken as. A violation is a fault of the frame, and its frame is discarded, so what it is
taken as decides nothing (R12, R14). -/
def bitOfCell : LineCell → Bool
  | .one => true
  | .zero => false
  | .held _ => false

/-! ### How the line is followed (R2, R9, R13) -/

/-- How far the bit times heard in REST have come (R9). -/
inductive StartProgress
  /-- No cell yet. -/
  | quiet
  /-- So many valid cells that alternate, the last of them carrying the bit given. -/
  | alternating (count : Nat) (last : Bool)
  /-- The first of the two mark cells. -/
  | marked
  /-- A whole start mark: the receive phase becomes FRAME. -/
  | framed
  /-- Any other activity: the receive phase becomes BROKEN. -/
  | other
deriving DecidableEq, Repr

/-- A valid cell carrying a bit, heard in REST (R9; log 31). -/
def StartProgress.hearBit (b : Bool) : StartProgress → StartProgress
  | .quiet => .alternating 1 b
  | .alternating n last => if b = last then .other else .alternating (n + 1) b
  | .marked => .other
  | .framed => .framed
  | .other => .other

/-- A cell held at a level, heard in REST: the mark pair, high and then low, after at least two alternating cells, or
else other activity (R9). -/
def StartProgress.hearHeld (level : LineLevel) : StartProgress → StartProgress
  | .quiet => .other
  | .alternating n _ => if 2 ≤ n ∧ level = .high then .marked else .other
  | .marked => if level = .low then .framed else .other
  | .framed => .framed
  | .other => .other

/-- A released bit time, heard in REST: before a cell nothing has begun, before the mark pair it is other activity
(R9). -/
def StartProgress.hearReleased : StartProgress → StartProgress
  | .quiet => .quiet
  | .alternating _ _ => .other
  | .marked => .other
  | .framed => .framed
  | .other => .other

/-- One more bit time heard in REST (R9). -/
def StartProgress.hear (p : StartProgress) : LineReading → StartProgress
  | some .zero => p.hearBit false
  | some .one => p.hearBit true
  | some (.held level) => p.hearHeld level
  | none => p.hearReleased

/-- How the receive phase leaves REST (R9): on a whole start mark, or on any other activity. -/
inductive Activity
  | startMark
  | other
deriving DecidableEq, Repr

/-- The activity that the bit times heard in REST make, once they make one (R9). -/
def activityOf (heard : List LineReading) : Option Activity :=
  match heard.foldl StartProgress.hear .quiet with
  | .framed => some .startMark
  | .other => some .other
  | .quiet => none
  | .alternating _ _ => none
  | .marked => none

/-- What the bit times after a start mark have come to (R9). -/
inductive FrameProgress
  /-- Still in FRAME. -/
  | going
  /-- The end mark ended the frame after these cells. -/
  | ended (cells : List LineCell)
  /-- The activity is a broken frame. -/
  | broken
deriving DecidableEq, Repr

/-- A cell of the frame before what follows it. -/
def FrameProgress.after (c : LineCell) : FrameProgress → FrameProgress
  | .going => .going
  | .ended cells => .ended (c :: cells)
  | .broken => .broken

/-- Follows a frame through the bit times after its start mark, `n` cells having come before (R9): a cell held low and
then one held high end it; a release before them breaks it, and so does another violation among the 9 header cells.
What comes after the end mark is not of the frame. -/
def followFrame : Nat → List LineReading → FrameProgress
  | _, [] => .going
  | _, none :: _ => .broken
  | n, some (.held .low) :: rest =>
    match rest with
    | [] => .going
    | some (.held .high) :: _ => .ended []
    | _ => if n < Config.headerCells then .broken else (followFrame (n + 1) rest).after (.held .low)
  | n, some (.held .high) :: rest =>
    if n < Config.headerCells then .broken else (followFrame (n + 1) rest).after (.held .high)
  | n, some .zero :: rest => (followFrame (n + 1) rest).after .zero
  | n, some .one :: rest => (followFrame (n + 1) rest).after .one

/-- The read-back of a frame differs at some cell from what its sender drives (R2). -/
def readBackFails : List LineCell → List LineReading → Bool
  | c :: driven, r :: heard => if r = some c then readBackFails driven heard else true
  | _ :: _, [] => false
  | [], _ => false

/-- A driven bit time anywhere in the verdict slot makes the frame spoiled (R13). -/
def slotSpoiled (heard : List LineReading) : Bool := heard.any Option.isSome

/-! ### Reading a frame -/

/-- The bytes of a coded payload, each most significant bit first (11.1). -/
def bytesOfBits : Nat → List Bool → List Byte
  | 0, _ => []
  | n + 1, bits => BitVec.ofNat 8 (fromBits (bits.take 8)) :: bytesOfBits n (bits.drop 8)

/-- The number in the `n` bits from position `at`. -/
def bitField (bits : List Bool) (start n : Nat) : Nat := fromBits ((bits.drop start).take n)

/-- The flag at a position. -/
def bitFlag (bits : List Bool) (start : Nat) : Bool := (bits.drop start).headD false

/-- The frame of a kind whose fields the body's bits hold, if the kind is valid and the body has the length the
kind calls for (R12, R180). -/
def frameOfBody (kind sender : Nat) (body : List Bool) : Option Frame :=
  match kind with
  | 1 =>
    if 42 ≤ body.length ∧ body.length = 42 + 8 * bitField body 34 8 then
      some (.data sender (bitField body 0 11) (BitVec.ofNat 12 (bitField body 11 12)) (bitFlag body 23)
        (bitFlag body 24) (bitFlag body 25) (bitField body 26 8) (bytesOfBits (bitField body 34 8) (body.drop 42)))
    else none
  | 2 =>
    if body.length = 34 then
      some (.repair sender (bitField body 0 11) (bitField body 11 6) (BitVec.ofNat 12 (bitField body 17 12))
        (bitField body 29 5))
    else none
  | 3 =>
    if body.length = 28 then
      some (.gone sender (bitField body 0 11) (BitVec.ofNat 12 (bitField body 11 12)) (bitField body 23 5))
    else none
  | 4 => if body.length = 11 then some (.claim sender (bitField body 0 11)) else none
  | 5 => if body.length = 17 then some (.dispute sender (bitField body 0 11) (bitField body 11 6)) else none
  | 6 => if body.length = 11 then some (.yield sender (bitField body 0 11)) else none
  | _ => none

/-- A station number a receiver accepts: 1 to its ring size (R12). -/
def stationInRing (ring n : Nat) : Bool := 1 ≤ n && n ≤ ring

/-- A stream number a receiver accepts (R12). -/
def streamInRange (n : Nat) : Bool := n < Config.streamCount

/-- A REPAIR or GONE count a receiver accepts (R12). -/
def countInRange (n : Nat) : Bool := 1 ≤ n && n ≤ Config.rangeLimit

/-- Every field of the frame holds what R4 allows, for a receiver of the given ring size (R12, R180). -/
def Frame.inRange (ring : Nat) (f : Frame) : Bool :=
  stationInRing ring f.sender && streamInRange f.stream &&
    match f with
    | .data _ _ _ _ _ _ decoded coded =>
      1 ≤ decoded && decoded ≤ Config.segmentBytes && 2 ≤ coded.length && coded.length ≤ Config.segmentBytes + 2
    | .repair _ _ target _ count => stationInRing ring target && countInRange count
    | .gone _ _ _ count => countInRange count
    | .claim _ _ => true
    | .dispute _ _ owner => stationInRing ring owner
    | .yield _ _ => true

/-- A DATA frame fails the token decoder's checks (R7). -/
def Frame.codingError : Frame → Bool
  | .data _ _ _ _ _ _ decoded coded => (decodePayload coded).map List.length != some decoded
  | _ => false

/-- The frame that the cells between start mark and end mark spell, if they spell one (R10): 3 bits of kind, 6 of
sender, the body, and the last 16 cells as the check (R3). -/
def readFrame (cells : List LineCell) : Option Frame :=
  let bits := cells.map bitOfCell
  if 25 ≤ bits.length then
    frameOfBody (bitField bits 0 3) (bitField bits 3 6) ((bits.drop 9).take (bits.length - 25))
  else none

/-- The token decoder reads the coded payload of a DATA frame as it passes, whatever the frame's other faults (R7):
of the body's payload the bytes that its coded-length field counts, or those that came if they are fewer. -/
def payloadFault (bits : List Bool) : Bool :=
  let body := (bits.drop 9).take (bits.length - 25)
  if bitField bits 0 3 = 1 ∧ 42 ≤ body.length then
    let payload := bytesOfBits (min (bitField body 34 8) ((body.length - 42) / 8)) (body.drop 42)
    (decodePayload payload).map List.length != some (bitField body 26 8)
  else false

/-- The faults a receiver of the given ring size finds in those cells (R12, R180). A frame that cannot be read, or
that is shorter than a header and a check (log 9), has a format error. -/
def readFaults (ring : Nat) (cells : List LineCell) : FrameFaults :=
  let bits := cells.map bitOfCell
  let covered := bits.take (bits.length - 16)
  { violation := cells.any (!validCell ·)
    check := bitsOf 16 (checkOf covered).toNat != bits.drop (bits.length - 16)
    format := Config.longestFrameCells < cells.length || !((readFrame cells).map (Frame.inRange ring)).getD false
    coding := payloadFault bits }

/-- Any fault at all: the kind of fault decides nothing further (R12). -/
def FrameFaults.any (f : FrameFaults) : Bool := f.violation || f.check || f.format || f.coding

/-! ### Host records -/

/-- The number in `n` bytes of a record from an offset. -/
def recordField (bytes : List Byte) (offset n : Nat) : Nat := fromLittleEndian ((bytes.drop offset).take n)

/-- The copy the chain unit keeps of the 16 bytes of a TX descriptor (R134, R181): link, buffer address, length and
bit 0 of the control byte. -/
def descriptorOf (bytes : List Byte) : Descriptor where
  link := BitVec.ofNat 32 (recordField bytes 0 4)
  buffer := BitVec.ofNat 32 (recordField bytes 4 4)
  length := recordField bytes 8 2
  notify := (recordField bytes 10 1).testBit 0

/-- The copy the chain unit keeps of the 16 bytes of an RX descriptor (R135, R181): link, buffer address and capacity;
the byte at offset 10 is of the used count, which is not read. -/
def rxDescriptorOf (bytes : List Byte) : Descriptor := { descriptorOf bytes with notify := false }

/-- The copy the chain unit keeps of a descriptor of an entry of the role (R134, R135). -/
def Role.descriptorOf : Role → List Byte → Descriptor
  | .publish _ => Machine.descriptorOf
  | .subscribe _ => rxDescriptorOf

/-- The code of a kind of event (11.2). -/
def EventKind.code : EventKind → Nat
  | .blockSent => 1
  | .blockReceived => 2
  | .txChainEnd => 3
  | .rxStarved => 4
  | .claimWon => 5
  | .claimLost => 6
  | .publisherSet => 7
  | .segmentsLost => 8
  | .streamClosed => 9
  | .streamFault => 10
  | .stationState => 11

/-- The code of a host-memory fault's cause (11.2). -/
def FaultCause.code : FaultCause → Nat
  | .badDescriptor => 1
  | .fence => 2
  | .busError => 3

/-- The code of a block's status, in an RX descriptor and in BLOCK_RECEIVED (11.2). -/
def BlockStatus.code : BlockStatus → Nat
  | .ok => 1
  | .lost => 2
  | .aborted => 3

/-- The code of a station state (11.2, 11.3). -/
def StationState.code : StationState → Nat
  | .disabled => 0
  | .detached => 1
  | .joining => 2
  | .active => 3
  | .quiet => 4
  | .hold => 5

/-- The causes of a loss (R129). -/
inductive LossCause
  | gone | noAnswer | noPublisher | farJump
deriving DecidableEq, Repr

/-- The code of a loss's cause (11.2). -/
def LossCause.code : LossCause → Nat
  | .gone => 1
  | .noAnswer => 2
  | .noPublisher => 3
  | .farJump => 4

/-- How a stream was closed (R74). -/
inductive CloseHow
  | close | abort
deriving DecidableEq, Repr

/-- The code of how a stream was closed (11.2). -/
def CloseHow.code : CloseHow → Nat
  | .close => 1
  | .abort => 2

/-- The causes of a change of station state (R49). -/
inductive StateCause
  | attach | joinedByFrame | joinedByOpen | failureHistory | lineStuck | lineRecovered | rejoin | detach | softReset
deriving DecidableEq, Repr

/-- The code of a cause of a change of state (11.2). -/
def StateCause.code : StateCause → Nat
  | .attach => 1
  | .joinedByFrame => 2
  | .joinedByOpen => 3
  | .failureHistory => 4
  | .lineStuck => 5
  | .lineRecovered => 6
  | .rejoin => 7
  | .detach => 8
  | .softReset => 9

/-- The 32 bytes of an event record (11.2). A stream of none is written as 65 535 (R154). -/
def Event.bytes (e : Event) : List Byte :=
  littleEndian 1 e.kind.code ++ littleEndian 1 e.code ++ littleEndian 1 e.entered ++ littleEndian 1 e.left
    ++ littleEndian 2 e.number.toNat ++ littleEndian 2 (e.stream.getD 65535) ++ littleEndian 1 e.station ++ [0]
    ++ littleEndian 2 e.sequence ++ littleEndian 4 e.count ++ littleEndian 4 e.descriptor.toNat
    ++ List.replicate 12 0

/-- Where a SENT write-back begins in its TX descriptor: status and last sequence (R134, R181). -/
def txWriteBackOffset : Nat := 12

/-- Where a receive write-back begins in its RX descriptor: used, flags, status and first sequence (R135, R181). -/
def rxWriteBackOffset : Nat := 10

/-- A host record after a transfer has written some of its bytes: the others keep what the host left there (R181). -/
def writeInto (record : List Byte) (offset : Nat) (bytes : List Byte) : List Byte :=
  record.take offset ++ bytes ++ record.drop (offset + bytes.length)

/-- The 4 bytes of a SENT write-back, offsets 12 to 15 (R181). -/
def WriteBack.bytes (r : WriteBack) : List Byte := [1, 0] ++ littleEndian 2 r.lastSequence.toNat

/-- The 6 bytes of a receive write-back, offsets 10 to 15 (R181). -/
def RxWriteBack.bytes (r : RxWriteBack) : List Byte :=
  littleEndian 2 r.used ++ littleEndian 1 (flagBit r.start + 2 * flagBit r.endFlag)
    ++ littleEndian 1 r.status.code ++ littleEndian 2 r.sequence.toNat

/-! ### Codes of the register map (11.3, 11.4) -/

/-- The code of a result (11.3). -/
def Result.code : Result → Nat
  | .done => 0
  | .badState => 1
  | .badStream => 2
  | .noEntry => 3
  | .inUse => 4
  | .tableFull => 5
  | .badAddress => 6
  | .badConfig => 7
  | .streamsOpen => 8
  | .badCommand => 9

/-- The code of the resume-to record (11.3). -/
def ResumeTo.code : ResumeTo → Nat
  | .joining => 0
  | .quiet => 1

/-- The code of a line condition (11.3). -/
def LineCondition.code : LineCondition → Nat
  | .ignored => 0
  | .opened => 1
  | .window => 2
  | .busy => 3
  | .stuck => 4

/-- The code of a claim state (11.4). -/
def ClaimState.code : ClaimState → Nat
  | .claiming => 0
  | .owned => 1
  | .closing => 2
  | .lost => 3
  | .fault => 4

/-- The code of a segmenter condition (11.4). -/
def Segmenter.code : Segmenter → Nat
  | .noChain => 0
  | .ready => 1
  | .waitCell => 2
  | .filling => 3
  | .stopped => 4

/-- The code of a repair state (11.4). -/
def RepairState.code : RepairState → Nat
  | .idle => 0
  | .waiting => 1
  | .due => 2
  | .requested => 3

/-- The code of the current descriptor's condition (11.4). -/
def CurrentDescriptor.code : CurrentDescriptor → Nat
  | .none => 0
  | .reading _ => 1
  | .held _ _ => 2

/-- The current descriptor's address, or 0 when none (R177). -/
def CurrentDescriptor.address : CurrentDescriptor → Word
  | .none => 0
  | .reading a => a
  | .held a _ => a

/-- The code of the look-ahead's condition (11.4). -/
def LookAhead.code : LookAhead → Nat
  | .none => 0
  | .reading _ => 1
  | .held _ _ => 2
  | .faulty _ _ => 3
  | .ended => 4
  | .looking => 5

end Machine
end Sys2Proof
end

