-- ==== Sys2Proof/Machine/Flags.lean ====
section
/-! DEFINITION. What is computed from the state and not stored: conditions, interrupt causes, and the words the
registers read as. -/

namespace Sys2Proof
namespace Machine

/-! ### Station control -/

/-- SPOILED and COLLIDED are failures (R41). -/
def AttemptOutcome.isFailure : AttemptOutcome → Bool
  | .delivered => false
  | .spoiled => true
  | .collided => true

/-- The failure count: the failures the history holds (R41). -/
def failureCount (history : List AttemptOutcome) : Nat := history.countP AttemptOutcome.isFailure

/-- The ring size K (R36). -/
def State.ringSize (s : State) : Nat := s.station.straps.ring.toNat

/-- This station's number (R36). -/
def State.ownNumber (s : State) : Nat := s.station.straps.station.toNat

/-- The states that follow the line and keep entries: JOINING, ACTIVE, QUIET, HOLD (R35, R56). -/
def StationState.attached : StationState → Bool
  | .joining | .active | .quiet | .hold => true
  | .disabled | .detached => false

/-- The states in which frames are checked and delivered, and the line's timers count: JOINING, ACTIVE, QUIET
(R19, R61, R84, R122). -/
def StationState.receiving : StationState → Bool
  | .joining | .active | .quiet => true
  | .disabled | .detached | .hold => false

/-- The states in which the fence and the ring registers may be written (R137, R155). -/
def StationState.configurable : StationState → Bool
  | .disabled | .detached => true
  | .joining | .active | .quiet | .hold => false

/-- The state HOLD resumes to (R44). -/
def ResumeTo.state : ResumeTo → StationState
  | .joining => .joining
  | .quiet => .quiet

/-! ### Fence and ring -/

/-- `n` bytes from address `a` lie inside the fence, the sum taken without wrapping (R138). -/
def Fence.contains (f : Fence) (a n : Nat) : Bool := f.base.toNat ≤ a && a + n ≤ f.limit.toNat + 1

/-- The fence is valid when the base is below the limit (R137). -/
def Fence.valid (f : Fence) : Bool := f.base.toNat < f.limit.toNat

/-- The check of a descriptor address before its read is requested (R136). -/
def Fence.checkDescriptor (f : Fence) (a : Word) : Option FaultCause :=
  if a.toNat % 16 ≠ 0 then some .badDescriptor
  else if f.contains a.toNat 16 then none
  else some .fence

/-- The records in the ring: 2 raised to the size code (09, section 9.1). -/
def RingConfig.size (r : RingConfig) : Nat := 2 ^ r.sizeCode.toNat

/-- The ring configuration is valid (R155). -/
def RingConfig.valid (r : RingConfig) : Bool :=
  4 ≤ r.sizeCode.toNat && r.sizeCode.toNat ≤ 10 && 1 ≤ r.threshold.toNat && r.threshold.toNat ≤ r.size - 1

/-- Every byte of the ring lies inside the fence (R156). -/
def RingConfig.inside (r : RingConfig) (f : Fence) : Bool := f.contains r.base.toNat (32 * r.size)

/-- The address of the ring's record at a place (09, section 9.3). -/
def RingConfig.recordAddress (r : RingConfig) (place : Nat) : Nat := r.base.toNat + 32 * place

/-- The ring has room for a record (R157). -/
def EventUnit.hasRoom (e : EventUnit) : Bool := (e.writeIndex + 1) % e.config.size != e.consumer

/-- The number of unconsumed records (R158). -/
def EventUnit.unconsumed (e : EventUnit) : Nat := (e.producer + e.config.size - e.consumer) % e.config.size

/-- The EVENTS cause, a level (R161). -/
def EventUnit.eventsCause (e : EventUnit) : Bool :=
  e.ready && (e.config.threshold.toNat ≤ e.unconsumed || e.timer == .expired)

/-- The INT pin: high while a cause is set whose enable is set (R162). -/
def State.intPin (s : State) : Bool :=
  (s.events.eventsCause && s.events.enable.getLsbD 0) || (s.events.overflow && s.events.enable.getLsbD 1)
    || (s.events.hostFault && s.events.enable.getLsbD 2)

/-! ### The host port -/

/-- The bus address of a transfer's first byte: a write-back begins at its offset in the descriptor (R181), an event
record at its place in the ring (R157). -/
def State.transferAddress (s : State) : Request → Nat
  | .headRead _ address => address.toNat
  | .lookAheadRead _ address => address.toNat
  | .lastLook _ address => address.toNat
  | .txPayload _ _ address _ => address.toNat
  | .txWriteBack _ r => r.descriptor.toNat + txWriteBackOffset
  | .rxPayload _ _ _ address _ _ => address.toNat
  | .rxWriteBack _ r => r.descriptor.toNat + rxWriteBackOffset
  | .eventWrite place _ => s.events.config.recordAddress place

/-- The number of bytes of a transfer (R181; R91 and R115 for payload). -/
def Request.byteCount : Request → Nat
  | .headRead _ _ => 16
  | .lookAheadRead _ _ => 16
  | .lastLook _ _ => 16
  | .txPayload _ _ _ length => length
  | .txWriteBack _ _ => 4
  | .rxPayload _ _ _ _ _ length => length
  | .rxWriteBack _ _ => 6
  | .eventWrite _ _ => 32

/-- The HREQ pin: driven for a granted transfer until its end, released while the port is FREE (R148, R151). HGNT and
HRDY pace the transfer on the bus; the command that ends it reports what they and HERR brought (log 5). -/
def State.hreqPin (s : State) : Bool := s.port.granted.isSome

/-! ### Entries -/

/-- The publish fields of an entry, if it is a publish entry. -/
def Entry.publish? (e : Entry) : Option PublishEntry :=
  match e.role with
  | .publish p => some p
  | .subscribe _ => none

/-- The subscribe fields of an entry, if it is a subscribe entry. -/
def Entry.subscribe? (e : Entry) : Option SubscribeEntry :=
  match e.role with
  | .publish _ => none
  | .subscribe u => some u

/-- The states in which a publish entry owns its stream: it sends, defends and serves (R57, R65, R101). -/
def ClaimState.owns : ClaimState → Bool
  | .owned | .closing => true
  | .claiming | .lost | .fault => false

/-- The states a chain of a publish entry works in; LOST and FAULT take no further event (R139). -/
def ClaimState.live : ClaimState → Bool
  | .claiming | .owned | .closing => true
  | .lost | .fault => false

/-- The subscribe entry takes frames: OPEN with closing clear (R58, R131). -/
def SubscribeEntry.takesFrames (u : SubscribeEntry) : Bool := u.state == .opened && !u.closing

/-- The cells of the reorder list, written and waiting (R112). -/
def SubscribeEntry.reorderCount (u : SubscribeEntry) : Nat := u.written.length + u.waiting.length

/-- The current block is partly segmented: a cell of it has joined the send queue and its LAST cell is not yet
complete (R104). -/
def PublishEntry.partlySegmented (p : PublishEntry) : Bool := p.segmenter == .filling || 0 < p.position

/-- The oldest held sequence (R96). -/
def PublishEntry.oldestHeld (p : PublishEntry) : Seq :=
  match p.replayQueue, p.sendQueue with
  | c :: _, _ => c.sequence
  | [], c :: _ => c.sequence
  | [], [] => p.nextSequence

/-- Where a requested sequence stands (R96). -/
inductive SequenceStanding
  | older | inReplay | inSendQueue | notYetMade
deriving DecidableEq, Repr

/-- Where sequence `q` stands (R96). -/
def PublishEntry.standing (p : PublishEntry) (q : Seq) : SequenceStanding :=
  let back := forwardDistance q p.oldestHeld
  let ahead := forwardDistance p.oldestHeld q
  if 1 ≤ back ∧ back ≤ Config.farLimit then .older
  else if ahead < p.replayQueue.length then .inReplay
  else if ahead < p.replayQueue.length + p.sendQueue.length then .inSendQueue
  else .notYetMade

/-- A range given as first and count covers a sequence (R127, R99). -/
def rangeCovers (first : Seq) (count : Nat) (q : Seq) : Bool := forwardDistance first q < count

/-- The count a REPAIR carries: the forward distance from expected to the first waiting segment, or to the sequence
after highest seen, at most 16 (R124). -/
def SubscribeEntry.repairCount (u : SubscribeEntry) (expected : Seq) : Nat :=
  match u.waiting, u.highestSeen with
  | c :: _, _ => min Config.rangeLimit (forwardDistance expected c.sequence)
  | [], some h => min Config.rangeLimit (forwardDistance expected (seqAfter h 1))
  | [], none => 0

/-- The timer's repair counting is paused: in HOLD, and while the entry is starved (R122). -/
def State.repairPaused (s : State) (u : SubscribeEntry) : Bool := !s.station.state.receiving || u.starved

/-! ### What the registers read as -/

/-- STRAPS (11.3, R179). -/
def Straps.word (p : Straps) : Word := packFields [(0, p.station.toNat), (8, p.ring.toNat), (16, p.rate.toNat)]

/-- STATION (R51, 11.3). -/
def State.stationWord (s : State) : Word :=
  packFields [(0, s.station.state.code), (3, s.station.resumeTo.code), (4, s.turn.condition.code),
    (8, s.turn.lastSender), (16, failureCount s.station.history), (24, flagBit s.station.stateChanged),
    (25, flagBit s.station.stuckSeen)]

/-- EVENT_CTRL (11.3). -/
def RingConfig.ctrlWord (r : RingConfig) : Word :=
  packFields [(0, r.sizeCode.toNat), (8, r.threshold.toNat), (24, r.coalescing.toNat)]

/-- INT_STATUS (R162, 11.3). -/
def EventUnit.statusWord (e : EventUnit) : Word :=
  packFields [(0, flagBit e.eventsCause), (1, flagBit e.overflow), (2, flagBit e.hostFault)]

/-- POOL (R77, 11.3). -/
def Pool.word (p : Pool) : Word := packFields [(0, p.free.length), (8, p.aged.length), (16, p.waiting.length)]

/-- The counter an index selects (11.5). -/
def Counters.select (c : Counters) (index : BitVec 4) : Word :=
  match index.toNat with
  | 0 => c.cleanFrames
  | 1 => c.spoiledSeen
  | 2 => c.spoilsDriven
  | 3 => c.brokenFrames
  | 4 => c.ownCollisions
  | 5 => c.stagingOverruns
  | 6 => c.foreignData
  | 7 => c.staleDuplicates
  | 8 => c.orphanSegments
  | 9 => c.reorderDrops
  | 10 => c.replayEvictions
  | 11 => c.replayReleases
  | 12 => c.repairsSent
  | 13 => c.repairsSuppressed
  | 14 => c.gonesSent
  | _ => c.eventsLost

/-- The word a 32-bit read of the window returns; a read of any width or alignment returns the whole word that
contains the addressed byte (R165, 11.3). -/
def State.readRegister (s : State) (offset : BitVec 7) : Word :=
  match offset.toNat / 4 with
  | 0 => 0x03400001#32
  | 1 => s.station.straps.word
  | 2 => s.stationWord
  | 3 => packFields [(0, s.window.result.code)]
  | 4 => s.window.argument
  | 5 => s.fence.base
  | 6 => s.fence.limit
  | 7 => s.events.config.base
  | 8 => s.events.config.ctrlWord
  | 9 => packFields [(0, s.events.producer)]
  | 10 => packFields [(0, s.events.consumer)]
  | 11 => s.events.statusWord
  | 12 => packFields [(0, s.events.enable.toNat)]
  | 13 => packFields [(0, s.window.counterIndex.toNat)]
  | 14 => s.counters.select s.window.counterIndex
  | 15 => s.window.info0
  | 16 => s.window.info1
  | 17 => s.window.info2
  | 18 => s.window.info3
  | 19 => s.pool.word
  | _ => 0

/-! ### The INFO snapshot (R177, 11.4) -/

/-- INFO0 to INFO3 of a publish entry. -/
def publishInfo (e : Entry) (p : PublishEntry) : Word × Word × Word × Word :=
  (packFields [(0, e.stream), (10, e.index), (15, 0), (16, p.claim.code), (19, p.segmenter.code),
      (22, flagBit p.claimDue), (23, flagBit p.disputeDue), (24, flagBit p.yieldDue), (25, flagBit p.claimSent),
      (26, flagBit p.closeRequested), (27, e.chain.current.code), (29, e.chain.lookAhead.code)],
    packFields [(0, p.nextSequence.toNat), (12, p.oldestHeld.toNat), (24, p.sendQueue.length),
      (28, p.writeBacks.length)],
    e.chain.current.address,
    packFields [(0, p.segmentsSent.toNat % 65536), (16, p.resendsSent.toNat % 65536)])

/-- The highest-seen field: its forward distance from expected, or 0 when absent. -/
def SubscribeEntry.highestDistance (u : SubscribeEntry) : Nat :=
  match u.expected, u.highestSeen with
  | some x, some h => forwardDistance x h
  | _, _ => 0

/-- INFO0 to INFO3 of a subscribe entry. -/
def subscribeInfo (e : Entry) (u : SubscribeEntry) : Word × Word × Word × Word :=
  (packFields [(0, e.stream), (10, e.index), (15, 1), (16, flagBit (u.state == .fault)), (17, flagBit u.closing),
      (18, flagBit u.expected.isSome), (19, flagBit u.starved), (20, flagBit u.block.isSome),
      (21, u.repair.code), (23, u.attempts), (27, e.chain.current.code), (29, e.chain.lookAhead.code)],
    packFields [(0, (u.expected.map BitVec.toNat).getD 0), (12, u.highestDistance), (19, u.publisher.getD 0),
      (25, u.reorderCount)],
    e.chain.current.address,
    packFields [(0, u.writeOffset), (16, u.partPlaced), (24, (u.requested.map Prod.snd).getD 0)])

/-- The snapshot of an entry. -/
def Entry.info (e : Entry) : Word × Word × Word × Word :=
  match e.role with
  | .publish p => publishInfo e p
  | .subscribe u => subscribeInfo e u

end Machine
end Sys2Proof
end

