-- ==== Sys2Proof/Machine/Ops.lean ====
section
/-! DEFINITION. The named operations every meaning is built from: counters, the table, staging buffers, the
arbiter's queues, events, and the report of a change of state. Reads first, then updates. -/

namespace Sys2Proof
namespace Machine

/-! ### Counters -/

/-- The counters (10, section 10.5). -/
inductive Counter
  | cleanFrames | spoiledSeen | spoilsDriven | brokenFrames | ownCollisions | stagingOverruns | foreignData
  | staleDuplicates | orphanSegments | reorderDrops | replayEvictions | replayReleases | repairsSent
  | repairsSuppressed | gonesSent | eventsLost
deriving DecidableEq, Repr

/-- Adds `n` to one counter, wrapping (00_scope.md, Counters). -/
def Counters.add (c : Counters) (which : Counter) (n : Nat) : Counters :=
  let d := BitVec.ofNat 32 n
  match which with
  | .cleanFrames => { c with cleanFrames := c.cleanFrames + d }
  | .spoiledSeen => { c with spoiledSeen := c.spoiledSeen + d }
  | .spoilsDriven => { c with spoilsDriven := c.spoilsDriven + d }
  | .brokenFrames => { c with brokenFrames := c.brokenFrames + d }
  | .ownCollisions => { c with ownCollisions := c.ownCollisions + d }
  | .stagingOverruns => { c with stagingOverruns := c.stagingOverruns + d }
  | .foreignData => { c with foreignData := c.foreignData + d }
  | .staleDuplicates => { c with staleDuplicates := c.staleDuplicates + d }
  | .orphanSegments => { c with orphanSegments := c.orphanSegments + d }
  | .reorderDrops => { c with reorderDrops := c.reorderDrops + d }
  | .replayEvictions => { c with replayEvictions := c.replayEvictions + d }
  | .replayReleases => { c with replayReleases := c.replayReleases + d }
  | .repairsSent => { c with repairsSent := c.repairsSent + d }
  | .repairsSuppressed => { c with repairsSuppressed := c.repairsSuppressed + d }
  | .gonesSent => { c with gonesSent := c.gonesSent + d }
  | .eventsLost => { c with eventsLost := c.eventsLost + d }

/-- Increases a counter by `n`. -/
def State.countBy (s : State) (which : Counter) (n : Nat) : State := { s with counters := s.counters.add which n }

/-- Increases a counter by one. -/
def State.bump (s : State) (which : Counter) : State := s.countBy which 1

/-! ### The stream table -/

/-- The entry at a table index (R53). -/
def State.entryAt (s : State) (index : Nat) : Option Entry := s.table.find? (·.index == index)

/-- The entry of a stream (R53, R59). -/
def State.entryOf (s : State) (stream : Nat) : Option Entry := s.table.find? (·.stream == stream)

/-- The entry with a serial: that entry itself, not one created later at the same index (R32). -/
def State.entryBySerial (s : State) (serial : Nat) : Option Entry := s.table.find? (·.serial == serial)

/-- The publish fields of the entry at an index. -/
def State.publishAt (s : State) (index : Nat) : Option PublishEntry := (s.entryAt index).bind Entry.publish?

/-- The subscribe fields of the entry at an index. -/
def State.subscribeAt (s : State) (index : Nat) : Option SubscribeEntry := (s.entryAt index).bind Entry.subscribe?

/-- Updates the chain context of the entry at an index. -/
def State.modifyChain (s : State) (index : Nat) (f : Chain → Chain) : State :=
  { s with table := s.table.map fun e => if e.index = index then { e with chain := f e.chain } else e }

/-- The role with its publish fields updated. -/
def Role.mapPublish (f : PublishEntry → PublishEntry) : Role → Role
  | .publish p => .publish (f p)
  | .subscribe u => .subscribe u

/-- The role with its subscribe fields updated. -/
def Role.mapSubscribe (f : SubscribeEntry → SubscribeEntry) : Role → Role
  | .publish p => .publish p
  | .subscribe u => .subscribe (f u)

/-- Updates the publish fields of the entry at an index. -/
def State.modifyPublish (s : State) (index : Nat) (f : PublishEntry → PublishEntry) : State :=
  { s with table := s.table.map fun e => if e.index = index then { e with role := e.role.mapPublish f } else e }

/-- Updates the subscribe fields of the entry at an index. -/
def State.modifySubscribe (s : State) (index : Nat) (f : SubscribeEntry → SubscribeEntry) : State :=
  { s with table := s.table.map fun e => if e.index = index then { e with role := e.role.mapSubscribe f } else e }

/-- The lowest free index (R53). -/
def State.lowestFree (s : State) : Option Nat :=
  (List.range Config.tableSize).find? fun i => !(s.table.any (·.index == i))

/-- Puts a new entry in its place in the order of index. -/
def insertEntry (new : Entry) : List Entry → List Entry
  | [] => [new]
  | e :: rest => if new.index < e.index then new :: e :: rest else e :: insertEntry new rest

/-! ### Staging buffers -/

/-- A staging buffer. -/
def LineInterface.buffer (l : LineInterface) : BufferId → StagingBuffer
  | .a => l.bufferA
  | .b => l.bufferB

/-- Sets a staging buffer. -/
def LineInterface.setBuffer (l : LineInterface) (k : BufferId) (v : StagingBuffer) : LineInterface :=
  match k with
  | .a => { l with bufferA := v }
  | .b => { l with bufferB := v }

/-- Sets a staging buffer. -/
def State.setBuffer (s : State) (k : BufferId) (v : StagingBuffer) : State := { s with line := s.line.setBuffer k v }

/-- A filling buffer becomes free; a held one stays held (R18). -/
def StagingBuffer.discardFilling : StagingBuffer → StagingBuffer
  | .free => .free
  | .filling _ => .free
  | .held g => .held g

/-- The frame in progress is discarded: its record, its faults and its filling buffer (R14, R18). A spoil under
way stops with it. -/
def LineInterface.discardFrame (l : LineInterface) : LineInterface :=
  { l with record := none, faults := .clear, spoiling := false, bufferA := l.bufferA.discardFilling,
           bufferB := l.bufferB.discardFilling }

/-- The buffer that is filling, if one is (01, section 1.7). -/
def LineInterface.fillingBuffer (l : LineInterface) : Option BufferId :=
  match l.bufferA, l.bufferB with
  | .filling _, _ => some .a
  | _, .filling _ => some .b
  | _, _ => none

/-- A free buffer, if one is (R17). DESIGN CHOICE, safe (log 33): with both free the claim takes A; R17 says only "a
buffer". -/
def LineInterface.freeBuffer (l : LineInterface) : Option BufferId :=
  match l.bufferA, l.bufferB with
  | .free, _ => some .a
  | _, .free => some .b
  | _, _ => none

/-- A held buffer whose segment is of the stream becomes free (R18, R55). -/
def StagingBuffer.discardHeldOf (stream : Nat) : StagingBuffer → StagingBuffer
  | .free => .free
  | .filling c => .filling c
  | .held g => if g.stream = stream then .free else .held g

/-- Frees the held buffers of a stream (R18, R55). -/
def State.discardHeldOf (s : State) (stream : Nat) : State :=
  { s with line := { s.line with bufferA := s.line.bufferA.discardHeldOf stream,
                                 bufferB := s.line.bufferB.discardHeldOf stream } }

/-! ### The arbiter's queues -/

/-- The table index of the entry a request belongs to, if it is not the event unit's. -/
def Request.index? : Request → Option Nat
  | .headRead i _ => some i
  | .lookAheadRead i _ => some i
  | .lastLook i _ => some i
  | .txPayload i .. => some i
  | .txWriteBack i _ => some i
  | .rxPayload i .. => some i
  | .rxWriteBack i _ => some i
  | .eventWrite _ _ => none

/-- A receive payload write from the given source (R116). -/
def Request.writesFrom (source : SegmentSource) : Request → Bool
  | .rxPayload _ src _ _ _ _ => src == source
  | _ => false

/-- A receive payload write or write-back of the entry at an index (R131). -/
def Request.receiveWriteOf (index : Nat) : Request → Bool
  | .rxPayload i .. => i == index
  | .rxWriteBack i _ => i == index
  | _ => false

/-- A TX payload read of the entry at an index. -/
def Request.payloadReadOf (index : Nat) : Request → Bool
  | .txPayload i .. => i == index
  | _ => false

/-- A request that writes an event record. -/
def Request.isEventWrite : Request → Bool
  | .eventWrite _ _ => true
  | _ => false

/-- Joins a request to the tail of its class queue (R148). -/
def State.request (s : State) (cls : PortClass) (r : Request) : State :=
  match cls with
  | .first => { s with port := { s.port with firstClass := s.port.firstClass ++ [r] } }
  | .second => { s with port := { s.port with secondClass := s.port.secondClass ++ [r] } }
  | .third => { s with port := { s.port with thirdClass := s.port.thirdClass ++ [r] } }

/-- A request for which `p` holds waits, or is in flight with its result still wanted. -/
def HostPort.outstanding (port : HostPort) (p : Request → Bool) : Bool :=
  port.firstClass.any p || port.secondClass.any p || port.thirdClass.any p
    || (port.granted.map fun g => !g.discarded && p g.request).getD false

/-- Withdraws the waiting requests for which `p` holds, and marks such a request in flight: it finishes on the bus
and its result is discarded (R150). -/
def HostPort.withdraw (port : HostPort) (p : Request → Bool) : HostPort where
  granted := port.granted.map fun g => if p g.request then { g with discarded := true } else g
  firstClass := port.firstClass.filter (!p ·)
  secondClass := port.secondClass.filter (!p ·)
  thirdClass := port.thirdClass.filter (!p ·)

/-- Withdraws every request of the entry at an index (R147, R150). -/
def State.withdrawOf (s : State) (index : Nat) : State :=
  { s with port := s.port.withdraw fun r => r.index? == some index }

/-- The class of an entry's descriptor reads (R148). -/
def Entry.readClass (e : Entry) : PortClass :=
  match e.role with
  | .publish _ => .third
  | .subscribe _ => .first

/-- The port becomes FREE at the end of a transfer (R148). -/
def State.freePort (s : State) : State := { s with port := { s.port with granted := none } }

/-! ### Events -/

/-- Latches HOST_FAULT for the record at a place, which is lost: writes stop and the write index goes back to that
place (R160). -/
def State.latchHostFault (s : State) (place : Nat) : State :=
  { s.bump .eventsLost with
    events := { s.events with hostFault := true, writesStopped := true, writeIndex := place } }

/-- Gives an event the record at the write index, and requests its write if the record lies inside the fence
(R157, R160). -/
def State.placeEvent (s : State) (ev : Event) : State :=
  let place := s.events.writeIndex
  if s.fence.contains (s.events.config.recordAddress place) 32 then
    { s with events := { s.events with writeIndex := (place + 1) % s.events.config.size } }.request .second
      (.eventWrite place ev)
  else s.latchHostFault place

/-- A numbered event goes to the ring, to the backlog, or is lost (R157, R159). -/
def State.deliverEvent (s : State) (ev : Event) : State :=
  if s.events.backlog.isEmpty && !s.events.writesStopped && s.events.hasRoom then s.placeEvent ev
  else if s.events.backlog.length < Config.backlogLimit then
    { s with events := { s.events with backlog := s.events.backlog ++ [ev] } }
  else { s.bump .eventsLost with events := { s.events with overflow := true } }

/-- A request for an event: generated only while the ring is RING_READY, with the current event number (R153). -/
def State.emit (s : State) (ev : Event) : State :=
  if s.events.ready then
    { s with events := { s.events with number := s.events.number + 1 } }.deliverEvent
      { ev with number := s.events.number }
  else s

/-- Drains the backlog, oldest first, while the ring has room and writes are not stopped (R158). -/
def drainEvents : List Event → State → State
  | [], s => { s with events := { s.events with backlog := [] } }
  | ev :: rest, s =>
    if s.events.writesStopped || !s.events.hasRoom then
      { s with events := { s.events with backlog := ev :: rest } }
    else drainEvents rest (s.placeEvent ev)

/-- An event about a stream; a field a kind does not use is 0 (R154). -/
def streamEvent (kind : EventKind) (code stream station sequence count : Nat) (descriptor : Word) : Event where
  kind := kind
  code := code
  entered := 0
  left := 0
  number := 0
  stream := some stream
  station := station
  sequence := sequence
  count := count
  descriptor := descriptor

/-! ### Reports of station control -/

/-- Changes the station state and reports the change: STATE_CHANGED, then a STATION_STATE event with its cause, the
two states, the station and the failure count (R49, R50). -/
def State.reportState (s : State) (new : StationState) (cause : StateCause) (station : Nat) : State :=
  { s with station := { s.station with state := new, stateChanged := true } }.emit
    { kind := .stationState, code := cause.code, entered := new.code, left := s.station.state.code, number := 0,
      stream := none, station := station, sequence := 0, count := failureCount s.station.history, descriptor := 0 }

/-- A JOINING station whose line condition is OPEN enters ACTIVE at once (R39). -/
def State.joinIfOpen (s : State) : State :=
  if s.station.state = .joining ∧ s.turn.condition = .opened then s.reportState .active .joinedByOpen 0 else s

/-! ### Anchors -/

/-- A new anchor at this moment: the line condition becomes WINDOW and the empty-window count 0 (R21). What falls due
at the anchor is still to be queued (log 1). -/
def State.anchorNow (s : State) (lastSender : Nat) : State :=
  { s with
    turn := { s.turn with condition := .window, anchor := some s.clock, emptyWindows := 0, lastSender := lastSender }
    momentTaken := false }

/-- The index that comes first after a pointer among those for which `p` holds, searching upward and wrapping from
31 to 0, the pointer's own index last (R31, R80). -/
def nextAfter (pointer : Nat) (p : Nat → Bool) : Option Nat :=
  ((List.range Config.tableSize).map fun k => (pointer + 1 + k) % Config.tableSize).find? p

end Machine
end Sys2Proof
end

