-- ==== Sys2Proof/Machine/Pool.lean ====
section
/-! DEFINITION. The cell pool and what follows from a cell's move: the resend and GONE lists, the closing condition,
claims, evictions, releases (05_the_cell_pool.md, 06_publishing_a_stream.md). -/

namespace Sys2Proof
namespace Machine

/-! ### The GONE list (R99, R100) -/

/-- The entry covers a sequence (R99). -/
def GoneEntry.covers (g : GoneEntry) (q : Seq) : Bool := rangeCovers g.first g.count q

/-- A sequence touches the end of the entry (R99). -/
def GoneEntry.touchesEnd (g : GoneEntry) (q : Seq) : Bool := forwardDistance g.first q == g.count

/-- A sequence touches the front of the entry (R99). -/
def GoneEntry.touchesFront (g : GoneEntry) (q : Seq) : Bool := forwardDistance q g.first == 1

/-- Two entries become one that covers both ranges and the sequence between them: the earlier in the list keeps its
place, its serial and its mark, the later leaves the list (R100, step 2; log 14). `a` is the entry whose end is
touched. -/
def combineGone (a b : GoneEntry) (list : List GoneEntry) : List GoneEntry :=
  let isPart (g : GoneEntry) : Bool := g.serial == a.serial || g.serial == b.serial
  match list.find? isPart with
  | none => list
  | some kept =>
    (list.filter fun g => g.serial == kept.serial || !isPart g).map fun g =>
      if g.serial = kept.serial then { g with first := a.first, count := a.count + b.count + 1 } else g

/-- The two entries that step 2 of R100 makes one, if there are two: the one whose end the sequence touches, and the
one whose front it touches. -/
def goneBridge (mine : List GoneEntry) (q : Seq) : Option (GoneEntry × GoneEntry) :=
  match mine.find? (·.touchesEnd q), mine.find? (·.touchesFront q) with
  | some a, some b => if a.count + b.count ≤ Config.rangeLimit - 1 then some (a, b) else none
  | _, _ => none

/-- The GONE list after a sequence of a stream is added to it (R100); a new entry takes the serial given. -/
def goneAdded (list : List GoneEntry) (serial stream : Nat) (q : Seq) : List GoneEntry :=
  let mine := list.filter (·.stream == stream)
  if mine.any (·.covers q) then list
  else
    match goneBridge mine q with
    | some (a, b) => combineGone a b list
    | none =>
      match mine.find? (fun g => g.touchesEnd q && g.count < Config.rangeLimit) with
      | some a => list.map fun g => if g.serial = a.serial then { g with count := g.count + 1 } else g
      | none =>
        match mine.find? (fun g => g.touchesFront q && g.count < Config.rangeLimit) with
        | some b => list.map fun g => if g.serial = b.serial then { g with first := q, count := g.count + 1 } else g
        | none => if list.length < Config.goneLimit then list ++ [⟨serial, stream, q, 1, false⟩] else list

/-- Adds a sequence of a stream to the GONE list (R100). -/
def State.addGone (s : State) (stream : Nat) (q : Seq) : State :=
  let list := goneAdded s.lists.gone s.nextSerial stream q
  { s with lists := { s.lists with gone := list }
           nextSerial := if s.lists.gone.length < list.length then s.nextSerial + 1 else s.nextSerial }

/-! ### The resend list (R97, R98) -/

/-- The closing condition (R104). -/
def PublishEntry.closingCondition (p : PublishEntry) (resendListed : Bool) : Bool :=
  p.segmenter == .stopped && p.sendQueue.isEmpty && p.writeBacks.isEmpty && !resendListed

/-- Checks the closing condition of a CLOSING entry: YIELD is due while it holds, and withdrawn when a service has
taken it away (R68, R101, R104). -/
def State.checkClosing (s : State) (index : Nat) : State :=
  let listed := s.lists.resend.any (·.index == index)
  s.modifyPublish index fun p =>
    if p.claim = .closing then { p with yieldDue := p.closingCondition listed } else p

/-- The resend list names a sequence of the entry at an index. -/
def State.resendListed (s : State) (index : Nat) (q : Seq) : Bool :=
  s.lists.resend.any fun r => r.index == index && r.sequence == q

/-- Removes the resend list entry of a cell that leaves its replay queue; its sequence goes to the GONE list (R86,
R98). -/
def State.unlistResend (s : State) (index stream : Nat) (q : Seq) : State :=
  if s.resendListed index q then
    ({ s with lists := { s.lists with
        resend := s.lists.resend.filter fun r => !(r.index == index && r.sequence == q) } }.addGone stream q).checkClosing
      index
  else s

/-! ### Replay cells (R82 to R86) -/

/-- The stream and sequence of the replay cell at a place of the age list. -/
def State.replayName (s : State) (a : AgedCell) : Option (Nat × Seq) :=
  (s.entryAt a.index).bind fun e => e.publish?.bind fun p =>
    (p.replayQueue.find? (·.cell == a.cell)).map fun c => (e.stream, c.sequence)

/-- A replay cell leaves its queue and the age list (R82), and the resend list entry that names it goes (R86). -/
def State.leaveReplay (s : State) (a : AgedCell) : State :=
  let t := s.modifyPublish a.index fun p => { p with replayQueue := p.replayQueue.filter (·.cell != a.cell) }
  let t := { t with pool := { t.pool with aged := t.pool.aged.filter (·.cell != a.cell) } }
  match s.replayName a with
  | some (stream, q) => t.unlistResend a.index stream q
  | none => t

/-! ### Claims and releases (R79 to R81) -/

/-- Joins a cell to the free list (R77). -/
def State.freeCell (s : State) (cell : Nat) : State := { s with pool := { s.pool with free := s.pool.free ++ [cell] } }

/-- The send-queue cell that a granted cell becomes, from the current block (R91). -/
def newSendCell (p : PublishEntry) (address : Word) (d : Descriptor) (cell : Nat) : PublishCell :=
  let n := min Config.segmentBytes (d.length - p.position)
  let last := p.position + n == d.length
  { cell := cell, sequence := p.nextSequence, first := p.position == 0, last := last, decodedLength := n,
    coded := [], complete := false, tag := if last then some ⟨address, d.length, d.notify⟩ else none }

/-- A granted cell joins the tail of an entry's send queue, incomplete, and the segmenter is FILLING (R91). A cell
for an entry that could not claim goes back to the free list (log 10). -/
def State.joinSend (s : State) (index cell : Nat) : State :=
  match s.entryAt index with
  | none => s.freeCell cell
  | some e =>
    match e.role, e.chain.current with
    | .publish _, .held address d =>
      s.modifyPublish index fun p =>
        { p with sendQueue := p.sendQueue ++ [newSendCell p address d cell],
                 nextSequence := seqAfter p.nextSequence 1, segmenter := .filling }
    | _, _ => s.freeCell cell

/-- A release of one cell: to the waiting claim that comes first after the waiting pointer, else to the free list
(R80). -/
def State.releaseCell (s : State) (cell : Nat) : State :=
  match nextAfter s.pool.waitingPointer (s.pool.waiting.contains ·) with
  | some i =>
    { s with pool := { s.pool with waiting := s.pool.waiting.erase i, waitingPointer := i } }.joinSend i cell
  | none => s.freeCell cell

/-- A release of several cells, one at a time (R80). -/
def State.releaseCells (s : State) (cells : List Nat) : State := cells.foldl State.releaseCell s

/-- The cell a claim is given at once, if it is given one: a free cell, else the evicted head of the age list (R79,
R81, R83). -/
def State.claimCell (s : State) : Option (Nat × State) :=
  match s.pool.free with
  | c :: rest => some (c, { s with pool := { s.pool with free := rest } })
  | [] =>
    match s.pool.aged with
    | a :: _ => some (a.cell, (s.leaveReplay a).bump .replayEvictions)
    | [] => none

/-- A segmenter claim: the cell joins the send queue, or the claim waits (R79, R80, R90). -/
def State.segmenterClaim (s : State) (index : Nat) : State :=
  match s.claimCell with
  | some (c, t) => t.joinSend index c
  | none =>
    { s with pool := { s.pool with waiting := s.pool.waiting ++ [index] } }.modifyPublish index fun p =>
      { p with segmenter := .waitCell }

/-! ### Ends of publishing and receiving (R55, R64, R72, R147) -/

/-- The cells an entry holds (R55). -/
def Entry.cells (e : Entry) : List Nat :=
  match e.role with
  | .publish p => (p.replayQueue ++ p.sendQueue).map PublishCell.cell
  | .subscribe u => (u.written ++ u.waiting).map ReorderCell.cell

/-- Takes an entry out of the age list, the waiting set and the resend list, and its stream out of the GONE list
(R55, R64, R72, R105). -/
def State.clearLists (s : State) (index stream : Nat) : State :=
  { s with pool := { s.pool with aged := s.pool.aged.filter (·.index != index)
                                 waiting := s.pool.waiting.filter (· != index) }
           lists := { resend := s.lists.resend.filter (·.index != index)
                      gone := s.lists.gone.filter (·.stream != stream) } }

/-- A publish entry whose publishing has ended: nothing queued, nothing due but what is given, segmenter STOPPED
(R64, R72, R105). -/
def PublishEntry.ended (p : PublishEntry) (claim : ClaimState) (yieldDue : Bool) : PublishEntry :=
  { p with claim := claim, claimDue := false, disputeDue := false, disputeMark := false, yieldDue := yieldDue,
           settleTimer := none, segmenter := .stopped, sendQueue := [], replayQueue := [], writeBacks := [] }

/-- The repair part of an entry that asks for nothing: IDLE, no timer, no mark (R113, R126, R131; log 12). -/
def SubscribeEntry.repairIdle (u : SubscribeEntry) : SubscribeEntry :=
  { u with repair := .idle, repairTimer := none, repairMark := false, attempts := 0, requested := none }

/-- A subscribe entry in FAULT: nothing being placed, no cells (R58, R131; log 12). -/
def SubscribeEntry.faulted (u : SubscribeEntry) : SubscribeEntry :=
  { u.repairIdle with state := .fault, placing := none, written := [], waiting := [] }

/-- A publish entry becomes LOST, naming station `winner` (R64). `code` is the kind code of the deciding frame. -/
def State.loseClaim (s : State) (index winner code : Nat) : State :=
  match s.entryAt index with
  | none => s
  | some e =>
    match e.role with
    | .subscribe _ => s
    | .publish p =>
      let t := ((s.withdrawOf index).clearLists index e.stream).modifyPublish index fun p => p.ended .lost false
      (t.releaseCells e.cells).emit
        (streamEvent .claimLost code e.stream winner p.nextSequence.toNat e.cells.length 0)

/-- An entry enters FAULT and STREAM_FAULT is emitted (R147, R72, R58). A subscribe entry with closing set does not
(R146). `count` is the number of bytes of the faulting transfer. -/
def State.faultEntry (s : State) (index : Nat) (cause : FaultCause) (count : Nat) (descriptor : Word) : State :=
  match s.entryAt index with
  | none => s
  | some e =>
    match e.role with
    | .publish p =>
      let t := ((s.withdrawOf index).clearLists index e.stream).modifyPublish index fun p =>
        p.ended .fault p.claim.owns
      (t.releaseCells e.cells).emit
        (streamEvent .streamFault cause.code e.stream s.ownNumber p.nextSequence.toNat count descriptor)
    | .subscribe u =>
      if u.closing then s
      else
        let t := ((s.withdrawOf index).discardHeldOf e.stream).modifySubscribe index SubscribeEntry.faulted
        (t.releaseCells e.cells).emit
          (streamEvent .streamFault cause.code e.stream (u.publisher.getD 0)
            ((u.expected.map BitVec.toNat).getD 0) count descriptor)

/-- The STREAM_CLOSED event of an entry (R74). -/
def Entry.closedEvent (e : Entry) (how : CloseHow) : Event :=
  match e.role with
  | .publish p => streamEvent .streamClosed how.code e.stream 0 p.nextSequence.toNat p.segmentsSent.toNat 0
  | .subscribe u =>
    streamEvent .streamClosed how.code e.stream (u.publisher.getD 0) ((u.expected.map BitVec.toNat).getD 0) 0 0

/-- Frees an entry (R55). -/
def State.freeEntry (s : State) (index : Nat) (how : CloseHow) : State :=
  match s.entryAt index with
  | none => s
  | some e =>
    let t := ((s.withdrawOf index).clearLists index e.stream).discardHeldOf e.stream
    let t := { t with table := t.table.filter (·.index != index) }
    (t.releaseCells e.cells).emit (e.closedEvent how)

/-! ### The segmenters at work (R90, R91) -/

/-- The entry makes a segmenter claim now (R90; R140: only with its current block held). -/
def Entry.wantsClaim (e : Entry) : Bool :=
  match e.role, e.chain.current with
  | .publish p, .held _ _ =>
    p.segmenter == .ready
      && (p.claim == .claiming || p.claim == .owned || (p.claim == .closing && p.partlySegmented))
      && p.sendQueue.length < Config.sendLimit && p.sendQueue.all (·.complete)
  | _, _ => false

/-- The entry's FILLING cell has no payload read waiting or in flight (R91). -/
def State.wantsRead (s : State) (e : Entry) : Bool :=
  match e.role with
  | .publish p => p.segmenter == .filling && !s.port.outstanding (Request.payloadReadOf e.index)
  | .subscribe _ => false

/-- Asks for the payload read of the entry's incomplete cell; a read outside the fence is a FENCE fault at once (R91,
R138). -/
def State.requestPayload (s : State) (e : Entry) : State :=
  match e.role, e.chain.current with
  | .publish p, .held address d =>
    match p.sendQueue.find? (!·.complete) with
    | some c =>
      let a := d.buffer.toNat + p.position
      if s.fence.contains a c.decodedLength then
        s.request .third (.txPayload e.index c.cell (BitVec.ofNat 32 a) c.decodedLength)
      else s.faultEntry e.index .fence c.decodedLength address
    | none => s
  | _, _ => s

/-- Lets every segmenter do what it now can, the lowest index first (R90, R91; log 10). One round serves one entry
once, and an entry is served at most a claim, a read and what a fault's releases bring, so 160 rounds are enough. -/
def settleRounds : Nat → State → State
  | 0, s => s
  | fuel + 1, s =>
    match s.table.find? (fun e => e.wantsClaim || s.wantsRead e) with
    | none => s
    | some e => settleRounds fuel (if e.wantsClaim then s.segmenterClaim e.index else s.requestPayload e)

/-- Lets every segmenter do what it now can. -/
def State.settleSegmenters (s : State) : State := settleRounds Config.poolCells s

end Machine
end Sys2Proof
end

