-- ==== Sys2Proof/Machine/Chain.lean ====
section
/-! DEFINITION. Descriptor chains: taking a head, the look-ahead, a publish entry's take, and the requests of
write-backs (08_descriptor_chains_and_the_host_memory_port.md, R94). -/

namespace Sys2Proof
namespace Machine

/-- The chain of a new entry (R54, R139): the head given by ARGUMENT is READING, or the chain is EMPTY. -/
def Chain.ofHead (head : Word) : Chain :=
  if head = 0 then ⟨false, .none, .none, none⟩ else ⟨true, .reading head, .none, none⟩

/-- The class of the descriptor reads of the entry at an index (R148). -/
def State.readClassAt (s : State) (index : Nat) : PortClass := ((s.entryAt index).map Entry.readClass).getD .third

/-- An EMPTY chain takes a head: the chain is LINKED and the head's read is requested (R140). -/
def State.takeHead (s : State) (index : Nat) (head : Word) : State :=
  (s.modifyChain index fun _ => .ofHead head).request (s.readClassAt index) (.headRead index head)

/-- Treats a link found in a record (R141): 0 is the end, a link that fails its check is FAULTY, any other is read. -/
def State.followLink (s : State) (index : Nat) (link : Word) : State :=
  if link = 0 then s.modifyChain index fun c => { c with lookAhead := .ended }
  else
    match s.fence.checkDescriptor link with
    | some cause => s.modifyChain index fun c => { c with lookAhead := .faulty link cause }
    | none =>
      (s.modifyChain index fun c => { c with lookAhead := .reading link }).request (s.readClassAt index)
        (.lookAheadRead index link)

/-- A descriptor becomes HELD as current, and the look-ahead is derived from its link (R140, R141). -/
def State.makeCurrent (s : State) (index : Nat) (address : Word) (d : Descriptor) : State :=
  (s.modifyChain index fun c => { c with current := .held address d }).followLink index d.link

/-- The second read of the tail (R142). -/
def State.lookAgain (s : State) (index : Nat) (tail : Word) : State :=
  (s.modifyChain index fun c => { c with lookAhead := .looking }).request (s.readClassAt index) (.lastLook index tail)

/-- The bytes of the transfer behind a FAULTY look-ahead: 16 for a read that ended ERROR, 0 for a failed check
(R147). -/
def FaultCause.lookAheadBytes : FaultCause → Nat
  | .busError => 16
  | .badDescriptor => 0
  | .fence => 0

/-- A publish entry's take finds the chain ended: NO_CHAIN and TX_CHAIN_END (R143). -/
def State.chainEnds (s : State) (index : Nat) : State :=
  match s.entryAt index with
  | none => s
  | some e =>
    match e.role with
    | .subscribe _ => s
    | .publish p =>
      (s.modifyPublish index fun p => { p with segmenter := .noChain }).emit
        (streamEvent .txChainEnd 0 e.stream s.ownNumber p.nextSequence.toNat p.sendQueue.length
          (e.chain.tail.getD 0))

/-- A publish entry's take of the next descriptor, its current one being none (R142). While the take waits on a
read the segmenter is READY without a current block. -/
def State.publishTake (s : State) (index : Nat) : State :=
  match s.entryAt index with
  | none => s
  | some e =>
    match e.chain.lookAhead with
    | .held address d =>
      (s.modifyPublish index fun p => { p with segmenter := .ready }).makeCurrent index address d
    | .reading _ => s
    | .looking => s
    | .faulty address cause => s.faultEntry index cause cause.lookAheadBytes address
    | .ended => s.lookAgain index (e.chain.tail.getD 0)
    | .none => s.chainEnds index

/-- After its look-ahead became HELD or FAULTY, a publish entry takes it if its take waits or it is NO_CHAIN (R142,
R145). A STOPPED or FILLING segmenter, or one with a current block, takes nothing. -/
def State.publishAdvance (s : State) (index : Nat) : State :=
  match s.entryAt index with
  | none => s
  | some e =>
    match e.role, e.chain.current with
    | .publish p, .none =>
      if p.segmenter = .ready ∨ p.segmenter = .noChain then s.publishTake index else s
    | _, _ => s

/-- The second read of the tail found the chain still ended: a take that waits ends there (R142, R143), an entry
that was NO_CHAIN already stays so without a further event (R145). -/
def State.publishStillEnded (s : State) (index : Nat) : State :=
  match s.entryAt index with
  | none => s
  | some e =>
    match e.role, e.chain.current with
    | .publish p, .none => if p.segmenter = .ready then s.chainEnds index else s
    | _, _ => s

/-- Asks for the write-back of the oldest record of an entry's write-back list (R94, R149). -/
def State.requestWriteBack (s : State) (index : Nat) : State :=
  match s.publishAt index with
  | none => s
  | some p =>
    match p.writeBacks with
    | r :: _ => s.request .third (.txWriteBack index r)
    | [] => s

end Machine
end Sys2Proof
end

