-- ==== Sys2Proof/Machine/Subscribe.lean ====
section
/-! DEFINITION. The subscribe engine: taking segments, placing them, starvation, repair and loss
(07_subscribing_and_repair.md). -/

namespace Sys2Proof
namespace Machine

/-! ### Staging buffers and reorder cells at the end of their use -/

/-- Some entry is placing the segment in a staging buffer. -/
def State.placingFrom (s : State) (k : BufferId) : Bool :=
  s.table.any fun e => (e.subscribe?.bind (·.placing)).any (·.source == .staging k)

/-- A staging buffer is freed once no write from it is outstanding and its segment is not being placed (R18, R116). -/
def State.freeBufferIfDone (s : State) (k : BufferId) : State :=
  if s.port.outstanding (Request.writesFrom (.staging k)) || s.placingFrom k then s else s.setBuffer k .free

/-- A written cell leaves the reorder list and is released once no write from it is outstanding (R116). -/
def State.releaseIfWritten (s : State) (index cell : Nat) : State :=
  match s.subscribeAt index with
  | none => s
  | some u =>
    if u.written.any (·.cell == cell) && !s.port.outstanding (Request.writesFrom (.cell cell)) then
      (s.modifySubscribe index fun u => { u with written := u.written.filter (·.cell != cell) }).releaseCell cell
    else s

/-- The waiting segment of a cell becomes a written cell at the back of the written cells (R114, R115). -/
def SubscribeEntry.markWritten (u : SubscribeEntry) (cell : Nat) : SubscribeEntry :=
  { u with written := u.written ++ u.waiting.filter (·.cell == cell)
           waiting := u.waiting.filter (·.cell != cell) }

/-- A segment being placed gives up its unplaced bytes (R113, R129, R131): a staging buffer is freed, and a cell
released, once the writes requested from it have ended. -/
def State.giveUp (s : State) (index : Nat) : State :=
  match (s.subscribeAt index).bind (·.placing) with
  | none => s
  | some pl =>
    let t := s.modifySubscribe index fun u => { u with placing := none }
    match pl.source with
    | .staging k => t.freeBufferIfDone k
    | .cell c => (t.modifySubscribe index (·.markWritten c)).releaseIfWritten index c

/-! ### Blocks and descriptors (R115, R117) -/

/-- A fresh descriptor is current: write offset 0, no segment placed in it. -/
def SubscribeEntry.freshDescriptor (u : SubscribeEntry) : SubscribeEntry :=
  { u with writeOffset := 0, firstOfBlock := false, descriptorSequence := none }

/-- The current descriptor is finished by a closing write-back: a HELD look-ahead becomes current, else none is (R117,
R142). -/
def State.finishDescriptor (s : State) (index : Nat) : State :=
  let t := s.modifySubscribe index SubscribeEntry.freshDescriptor
  match ((s.entryAt index).map (·.chain.lookAhead) : Option LookAhead) with
  | some (.held address d) => t.makeCurrent index address d
  | _ => t.modifyChain index fun c => { c with current := .none }

/-- Closes the open block, if there is one: its closing write-back is requested into the current descriptor, and the
block is none (R117). DESIGN CHOICE, unsafe (log 35): where no segment has been placed in the current descriptor (R121,
a starvation that ended with its segment dropped), the write-back carries the block's first sequence. -/
def State.closeBlock (s : State) (index : Nat) (status : BlockStatus) : State :=
  match s.entryAt index with
  | none => s
  | some e =>
    match e.role, e.chain.current with
    | .subscribe u, .held address _ =>
      match u.block with
      | none => s
      | some b =>
        let r : RxWriteBack :=
          { descriptor := address, used := u.writeOffset, start := u.firstOfBlock, endFlag := true,
            status := status, sequence := u.descriptorSequence.getD b.sequence, closes := some b }
        ((s.request .first (.rxWriteBack index r)).modifySubscribe index fun u =>
          { u with block := none }).finishDescriptor index
    | _, _ => s

/-- Placing leaves a full descriptor for the HELD look-ahead: its full write-back is requested if a block is open, and
the look-ahead becomes current with write offset 0 (R115, R117). -/
def State.takeHeld (s : State) (index : Nat) (address : Word) (d : Descriptor) : State :=
  match s.entryAt index with
  | none => s
  | some e =>
    match e.role with
    | .publish _ => s
    | .subscribe u =>
      let t :=
        match u.block, e.chain.current with
        | some b, .held full rec =>
          s.request .first (.rxWriteBack index
            { descriptor := full, used := rec.length, start := u.firstOfBlock, endFlag := false, status := .ok,
              sequence := u.descriptorSequence.getD b.sequence, closes := none })
        | _, _ => s
      (t.modifySubscribe index SubscribeEntry.freshDescriptor).makeCurrent index address d

/-! ### The expected sequence and the repair state (R122, R126) -/

/-- The expected sequence moves to `x`: part placed becomes 0, and highest seen becomes absent if it now lies behind
(R115, R122). -/
def SubscribeEntry.moveExpected (u : SubscribeEntry) (x : Seq) : SubscribeEntry :=
  { u with expected := some x, partPlaced := 0
           highestSeen := u.highestSeen.filter fun h => forwardDistance x h ≤ Config.farLimit }

/-- The repair state settled anew after the expected sequence moved (R126). -/
def SubscribeEntry.settleRepair (u : SubscribeEntry) : SubscribeEntry :=
  if u.highestSeen.isNone then u.repairIdle
  else
    match u.repair with
    | .idle => u
    | .waiting | .due => { u with repair := .waiting, repairTimer := some Config.repairDelay, repairMark := false }
    | .requested => { u with attempts := 0, repairTimer := some Config.repairWait }

/-- The expected sequence advances by one, and the repair state is settled (R126). -/
def SubscribeEntry.advance (u : SubscribeEntry) : SubscribeEntry :=
  match u.expected with
  | some x => (u.moveExpected (seqAfter x 1)).settleRepair
  | none => u

/-! ### Placing (R115) and starvation (R119) -/

/-- A receive claim for a segment the entry must hold (R81): the cell given, and the state after it. A list of 8 cells
makes no claim (R81, R112). -/
def State.receiveClaim (s : State) (u : SubscribeEntry) : Option (Nat × State) :=
  if u.reorderCount < Config.reorderLimit then s.claimCell else none

/-- The reorder cell that holds a staged segment (R81). -/
def StagedSegment.inCell (g : StagedSegment) (cell : Nat) : ReorderCell where
  cell := cell
  sequence := g.sequence
  first := g.first
  last := g.last
  sender := g.sender
  bytes := g.bytes

/-- The segment in a staging buffer, if the buffer is held. -/
def State.heldSegment (s : State) (k : BufferId) : Option StagedSegment :=
  match s.line.buffer k with
  | .held g => some g
  | .free => none
  | .filling _ => none

/-- A segment with FIRST that arrives or is drained while a block is open closes that block as LOST (R111, R114, R117). -/
def State.closeForFirst (s : State) (index : Nat) (first : Bool) : State :=
  if first then s.closeBlock index .lost else s

/-- A segment becomes the one being placed, from byte part placed; one with FIRST first closes an open block (R111,
R114, R121). -/
def State.startPlacing (s : State) (index : Nat) (u : SubscribeEntry) (pl : Placing) : State :=
  (s.closeForFirst index pl.first).modifySubscribe index fun v =>
    { v with placing := some { pl with placed := u.partPlaced } }

/-- Places one piece in the current descriptor at its write offset, or enters FAULT if the piece leaves the fence
(R115, R117, R138). With no block open it opens one; the segment then carries FIRST, for `placeRounds` places no
other. -/
def State.placePiece (s : State) (index : Nat) (address : Word) (d : Descriptor) (u : SubscribeEntry) (pl : Placing) :
    State :=
  let n := min (pl.length - pl.placed) (d.length - u.writeOffset)
  let a := d.buffer.toNat + u.writeOffset
  if s.fence.contains a n then
    (s.request .first (.rxPayload index pl.source address (BitVec.ofNat 32 a) pl.placed n)).modifySubscribe index
      fun v =>
        { v with
          placing := some { pl with placed := pl.placed + n }
          block := some (match u.block with
            | some b => { b with bytes := b.bytes + n }
            | none => ⟨address, pl.sequence, n, pl.sender⟩)
          firstOfBlock := u.firstOfBlock || u.block.isNone
          descriptorSequence := some (u.descriptorSequence.getD pl.sequence)
          writeOffset := u.writeOffset + n
          starved := false }
  else s.faultEntry index .fence n address

/-- The source of a segment whose placing has ended: a staging buffer is freed, and a written cell leaves the reorder
list, once no write from it is outstanding (R18, R116). -/
def State.sourceWritten (s : State) (index : Nat) : SegmentSource → State
  | .staging k => s.freeBufferIfDone k
  | .cell c => s.releaseIfWritten index c

/-- The last byte of the segment is placed (R115). DEDUCED, unsafe (log 36): a segment with no more bytes than part placed
has no piece; its source is done with at once and a starvation ends with it. Draining follows in `placeRounds`. -/
def State.endPlacing (s : State) (index : Nat) (pl : Placing) : State :=
  let t := s.modifySubscribe index fun u =>
    let v := { u with placing := none, starved := false }
    match pl.source with
    | .staging _ => v
    | .cell c => v.markWritten c
  let t := if pl.last then t.closeBlock index .ok else t
  (t.modifySubscribe index SubscribeEntry.advance).sourceWritten index pl.source

/-- The segment being placed turns out an orphan when a descriptor is at hand for it: it has no FIRST and no block is
open, and only a FIRST opens one (R111, R114, R117). DEDUCED, unsafe (log 37): a starved entry without a block held it. -/
def State.orphanPlacing (s : State) (index : Nat) : State :=
  ((s.giveUp index).modifySubscribe index fun v => SubscribeEntry.advance { v with starved := false }).bump
    .orphanSegments

/-- The segment being placed needs a descriptor and the chain holds none: the entry is starved (R119), and at its END
the tail is not read again until RESUME (R144). -/
def State.starve (s : State) (index : Nat) : State :=
  match s.entryAt index with
  | none => s
  | some e =>
    match e.role with
    | .publish _ => s
    | .subscribe u =>
      match u.placing with
      | none => s
      | some pl =>
        let t := s.modifySubscribe index fun v =>
          { v with starved := true, partPlaced := pl.placed, chainEnded := v.chainEnded || e.chain.lookAhead == .ended }
        let t :=
          if u.starved then t
          else t.emit (streamEvent .rxStarved 0 e.stream (u.publisher.getD 0) ((u.expected.map BitVec.toNat).getD 0)
            u.waiting.length (e.chain.tail.getD 0))
        match pl.source with
        | .cell _ => t
        | .staging k =>
          match s.heldSegment k, t.receiveClaim u with
          | some g, some (c, t) =>
            (t.modifySubscribe index fun v =>
              { v with waiting := g.inCell c :: v.waiting, placing := some { pl with source := .cell c } }).freeBufferIfDone
              k
          | _, _ =>
            ((t.modifySubscribe index fun v => { v with placing := none }).bump .reorderDrops).freeBufferIfDone k

/-- Placing and draining, round by round (R114, R115): one round places a piece, takes a descriptor, ends a segment or
looks at the first waiting segment. It stops where placing waits or starves and where draining stops. At most nine
segments stand in one call and each takes at most six rounds, so 64 are enough. A take that finds END makes its
last look (R142), unless an earlier take has found the chain ended and no RESUME has come since: it starves (R144). -/
def placeRounds (index : Nat) : Nat → State → State
  | 0, s => s
  | fuel + 1, s =>
    match s.entryAt index with
    | none => s
    | some e =>
      match e.role with
      | .publish _ => s
      | .subscribe u =>
        if !u.takesFrames then s
        else
          match u.placing with
          | some pl =>
            if pl.length ≤ pl.placed then placeRounds index fuel (s.endPlacing index pl)
            else
              match e.chain.current with
              | .reading _ => s
              | current =>
                match (match current with
                  | .held address d => if u.writeOffset < d.length then some (address, d) else none
                  | _ => none) with
                | some (address, d) =>
                  placeRounds index fuel
                    (if u.block.isSome || pl.first then s.placePiece index address d u pl else s.orphanPlacing index)
                | none =>
                  match e.chain.lookAhead with
                  | .held address d => placeRounds index fuel (s.takeHeld index address d)
                  | .reading _ => s
                  | .looking => s
                  | .faulty address cause => s.faultEntry index cause cause.lookAheadBytes address
                  | .ended =>
                    if u.starved then s
                    else if u.chainEnded then s.starve index
                    else s.lookAgain index (e.chain.tail.getD 0)
                  | .none => s.starve index
          | none =>
            if u.starved then s
            else
              match u.waiting with
              | [] => s
              | c :: _ =>
                if u.expected = some c.sequence then
                  if u.block.isSome || c.first then
                    placeRounds index fuel (s.startPlacing index u
                      { source := .cell c.cell, sequence := c.sequence, first := c.first, last := c.last,
                        sender := c.sender, length := c.bytes.length, placed := 0 })
                  else
                    placeRounds index fuel
                      (((s.modifySubscribe index fun v =>
                          SubscribeEntry.advance { v with waiting := v.waiting.drop 1 }).bump .orphanSegments).releaseCell
                        c.cell)
                else s

/-- Places and drains as far as it goes (R114, R115). -/
def State.placeOn (s : State) (index : Nat) : State := placeRounds index 64 s

/-! ### Loss (R113, R129) -/

/-- The SEGMENTS_LOST event of an entry (R129). -/
def lostEvent (e : Entry) (u : SubscribeEntry) (cause : LossCause) (first : Seq) (count : Nat) : Event :=
  streamEvent .segmentsLost cause.code e.stream (u.publisher.getD 0) first.toNat count 0

/-- A loss of the `n` sequences from expected (R129). Nothing is lost when `n` is 0 (log 13). -/
def State.lose (s : State) (index n : Nat) (cause : LossCause) : State :=
  match s.entryAt index with
  | none => s
  | some e =>
    match e.role with
    | .publish _ => s
    | .subscribe u =>
      match u.expected with
      | none => s
      | some x =>
        if n = 0 then s
        else
          let t := (s.giveUp index).closeBlock index .lost
          let gone : List ReorderCell := match t.subscribeAt index with
            | some v => v.waiting.filter (fun c => decide (forwardDistance x c.sequence < n))
            | none => []
          let t := (t.modifySubscribe index fun v =>
            { v with waiting := v.waiting.filter fun c => !decide (forwardDistance x c.sequence < n) }).releaseCells
            (gone.map ReorderCell.cell)
          let t := (t.modifySubscribe index fun v =>
            { v.moveExpected (seqAfter x n) with starved := false }).emit (lostEvent e u cause x n)
          (t.modifySubscribe index SubscribeEntry.settleRepair).placeOn index

/-- An entry that would ask for an empty range asks for nothing: its request is withdrawn with its mark, and with a gap
left it waits the repair delay again, else it is IDLE (log 13). -/
def SubscribeEntry.asksNothing (u : SubscribeEntry) : SubscribeEntry :=
  if u.highestSeen.isNone then u.repairIdle
  else { u with repair := .waiting, repairTimer := some Config.repairDelay, repairMark := false }

/-- The range a REPAIR would have carried is lost (R123); an empty one is not (log 13). -/
def State.loseOrWait (s : State) (index n : Nat) (cause : LossCause) : State :=
  if n = 0 then s.modifySubscribe index SubscribeEntry.asksNothing else s.lose index n cause

/-- A far arrival, before its own segment is taken (R113). -/
def State.farJump (s : State) (index : Nat) (x far : Seq) : State :=
  match s.entryAt index with
  | none => s
  | some e =>
    match e.role with
    | .publish _ => s
    | .subscribe u =>
      let t := (s.closeBlock index .lost).giveUp index
      let gone : List ReorderCell := match t.subscribeAt index with
        | some v => v.waiting
        | none => []
      let t := (t.modifySubscribe index fun v => { v with waiting := [] }).releaseCells (gone.map ReorderCell.cell)
      (t.modifySubscribe index fun v =>
        { v.repairIdle with partPlaced := 0, starved := false, highestSeen := none }).emit
        (lostEvent e u .farJump x (forwardDistance x far))

/-! ### Arrivals (R109 to R113) -/

/-- Puts a segment among the waiting segments at the place its forward distance from expected gives (R112). -/
def insertWaiting (expected : Seq) (new : ReorderCell) : List ReorderCell → List ReorderCell
  | [] => [new]
  | c :: rest =>
    if forwardDistance expected new.sequence < forwardDistance expected c.sequence then new :: c :: rest
    else c :: insertWaiting expected new rest

/-- An in-order segment that is not a duplicate (R111). DEDUCED, unsafe (log 8): a FIRST that a starved entry holds closes
an open block too, as R117 has it for a FIRST that arrives; one dropped for want of a cell closes none. -/
def State.takeInOrder (s : State) (index : Nat) (k : BufferId) (g : StagedSegment) : State :=
  match s.subscribeAt index with
  | none => s
  | some u =>
    if u.starved then
      match s.receiveClaim u with
      | some (c, t) =>
        ((t.closeForFirst index g.first).modifySubscribe index fun v =>
          { v with
            waiting := g.inCell c :: v.waiting
            placing := some { source := .cell c, sequence := g.sequence, first := g.first, last := g.last,
                              sender := g.sender, length := g.bytes.length, placed := v.partPlaced } }).setBuffer k .free
      | none => (s.bump .reorderDrops).setBuffer k .free
    else if u.block.isSome || g.first then
      (s.startPlacing index u
        { source := .staging k, sequence := g.sequence, first := g.first, last := g.last, sender := g.sender,
          length := g.bytes.length, placed := 0 }).placeOn index
    else
      (((s.setBuffer k .free).bump .orphanSegments).modifySubscribe index SubscribeEntry.advance).placeOn index

/-- Highest seen takes a sequence that lies further ahead of expected (R112). -/
def SubscribeEntry.see (u : SubscribeEntry) (x q : Seq) : SubscribeEntry :=
  { u with highestSeen := match u.highestSeen with
      | none => some q
      | some h => if forwardDistance x h < forwardDistance x q then some q else some h }

/-- An IDLE entry that has noticed a gap waits the repair delay (R112, R122). -/
def SubscribeEntry.noticeGap (u : SubscribeEntry) : SubscribeEntry :=
  if u.repair = .idle then { u with repair := .waiting, repairTimer := some Config.repairDelay } else u

/-- An ahead segment that is not a duplicate (R112). -/
def State.takeAhead (s : State) (index : Nat) (k : BufferId) (g : StagedSegment) (x : Seq) : State :=
  match s.subscribeAt index with
  | none => s
  | some u =>
    let t := s.modifySubscribe index (·.see x g.sequence)
    let t := match t.receiveClaim u with
      | some (c, t) => t.modifySubscribe index fun v => { v with waiting := insertWaiting x (g.inCell c) v.waiting }
      | none => t.bump .reorderDrops
    (t.setBuffer k .free).modifySubscribe index SubscribeEntry.noticeGap

/-- A dropped segment: its buffer is freed (R110), and the counter given is increased. -/
def State.dropSegment (s : State) (k : BufferId) (which : Counter) : State := (s.setBuffer k .free).bump which

/-- A segment from the recorded publisher in a held buffer is taken by its class (R109, R110). -/
def State.takeSegment (s : State) (index : Nat) (k : BufferId) (g : StagedSegment) : State :=
  match s.subscribeAt index with
  | none => s
  | some u =>
    match u.expected with
    | none =>
      if g.first then
        (s.modifySubscribe index fun v => { v with expected := some g.sequence }).takeInOrder index k g
      else s.dropSegment k .orphanSegments
    | some x =>
      let d := forwardDistance x g.sequence
      if d = 0 then
        if u.placing.isSome || (u.starved && (u.waiting.head?.map (·.sequence)) == some x) then
          s.dropSegment k .staleDuplicates
        else s.takeInOrder index k g
      else if d ≤ Config.aheadLimit then
        if u.waiting.any (·.sequence == g.sequence) then s.dropSegment k .staleDuplicates
        else s.takeAhead index k g x
      else if d ≤ Config.farLimit then
        let t := s.farJump index x g.sequence
        if g.first then
          (t.modifySubscribe index fun v => { v with expected := some g.sequence }).takeInOrder index k g
        else (t.modifySubscribe index fun v => { v with expected := none }).setBuffer k .free
      else if g.replayed then s.setBuffer k .free
      else s.dropSegment k .staleDuplicates

/-! ### The chain goes on (R121, R142, R144) -/

/-- A starved entry whose segment was dropped for lack of a cell still takes the descriptor that became available:
the flag clears and the repair timer goes on (R121). -/
def State.endEmptyStarvation (s : State) (index : Nat) (e : Entry) (u : SubscribeEntry) : State :=
  let clear (t : State) : State := t.modifySubscribe index fun v => { v with starved := false }
  match e.chain.current, e.chain.lookAhead with
  | .held _ d, look =>
    if u.writeOffset < d.length then clear s
    else
      match look with
      | .held address next => clear (s.takeHeld index address next)
      | .faulty address cause => s.faultEntry index cause cause.lookAheadBytes address
      | _ => s
  | .none, .held address next => clear (s.takeHeld index address next)
  | .none, .faulty address cause => s.faultEntry index cause cause.lookAheadBytes address
  | _, _ => s

/-- After the chain of a subscribe entry changed: a placing that waits goes on, a starvation ends (R121, R142). -/
def State.receiveAdvance (s : State) (index : Nat) : State :=
  match s.entryAt index with
  | none => s
  | some e =>
    match e.role with
    | .publish _ => s
    | .subscribe u =>
      if !u.takesFrames then s
      else if u.placing.isSome then s.placeOn index
      else if u.starved then s.endEmptyStarvation index e u
      else s

/-- The second read of the tail found the chain still ended: a placing that waits for it starves, and an entry starved
already goes on waiting for RESUME (R142, R144, R145; log 38). -/
def State.receiveStillEnded (s : State) (index : Nat) : State :=
  match s.subscribeAt index with
  | none => s
  | some u =>
    if !u.takesFrames then s
    else if u.starved then s.modifySubscribe index fun v => { v with chainEnded := true }
    else if u.placing.isSome then s.starve index
    else s

/-! ### Closing (R70, R131) -/

/-- A closing entry is freed when none of its writes and write-backs is outstanding (R70, R131). DEDUCED, safe (log 39):
a descriptor read does not hold it up, though R150 would keep a closing entry's waiting requests. -/
def State.closeProgress (s : State) (index : Nat) : State :=
  match s.subscribeAt index with
  | none => s
  | some u =>
    if u.closing && !s.port.outstanding (Request.receiveWriteOf index) then s.freeEntry index .close else s

/-- An OPEN subscribe entry begins to close: its repair ends. DEDUCED, safe (log 44): the bytes placed of a segment that
CLOSE gives up are part placed, as R108 describes that item; R131 names no value. -/
def SubscribeEntry.beginClosing (u : SubscribeEntry) : SubscribeEntry :=
  { u.repairIdle with closing := true, partPlaced := (u.placing.map (·.placed)).getD u.partPlaced }

/-- CLOSE of an OPEN subscribe entry (R131, R70). R131 has an entry without an open block freed at once when no write or
write-back is outstanding. DEDUCED, safe (log 39): its descriptor read, which R150 would keep, is then withdrawn or
discarded with the entry. -/
def State.closeSubscribe (s : State) (index : Nat) : State :=
  let t := s.modifySubscribe index SubscribeEntry.beginClosing
  ((t.giveUp index).closeBlock index .aborted).closeProgress index

end Machine
end Sys2Proof
end

