-- ==== Sys2Proof/Machine/Turn.lean ====
section
/-! DEFINITION. The turn unit: what may be sent, the choice of a frame, the attempt and its outcome, the outcome
history and the hold-off (02_turn_taking_on_the_line.md, R41, R42). -/

namespace Sys2Proof
namespace Machine

/-! ### Candidates (R29, R30) -/

/-- A frame with what it was built from (R32). -/
abbrev Candidate := Frame × AttemptSource

/-- The DISPUTE due of an entry (R66). -/
def disputeCandidate (own : Nat) (marked : Bool) (e : Entry) : Option Candidate :=
  match e.role with
  | .publish p =>
    if p.disputeDue && (marked || !p.disputeMark) then some (.dispute own e.stream own, .dispute e.serial) else none
  | .subscribe _ => none

/-- The head entry of the GONE list (R29, R102). -/
def goneCandidate (own : Nat) (marked : Bool) (gone : List GoneEntry) : Option Candidate :=
  match gone with
  | g :: _ =>
    if marked || !g.mark then some (.gone own g.stream g.first g.count, .gone g.serial g.first g.count) else none
  | [] => none

/-- The REPAIR due of an entry, unless it is held back: while a segment is being placed and while the entry is starved
(R120, R124). It needs a recorded publisher as its target (log 28). -/
def repairCandidate (own : Nat) (marked : Bool) (e : Entry) : Option Candidate :=
  match e.role with
  | .publish _ => none
  | .subscribe u =>
    match u.repair, u.publisher, u.expected with
    | .due, some target, some x =>
      if u.takesFrames && u.placing.isNone && !u.starved && (marked || !u.repairMark) then
        some (.repair own e.stream target x (u.repairCount x), .repair e.serial)
      else none
    | _, _, _ => none

/-- The CLAIM due of a CLAIMING entry (R60). -/
def claimCandidate (own : Nat) (e : Entry) : Option Candidate :=
  match e.role with
  | .publish p => if p.claimDue && p.claim == .claiming then some (.claim own e.stream, .claim e.serial) else none
  | .subscribe _ => none

/-- The YIELD due of an entry (R68). -/
def yieldCandidate (own : Nat) (e : Entry) : Option Candidate :=
  match e.role with
  | .publish p => if p.yieldDue then some (.yield own e.stream, .yield e.serial) else none
  | .subscribe _ => none

/-- The DATA frame of a cell (R93, R98). -/
def dataFrame (own stream : Nat) (c : PublishCell) (replayed : Bool) : Frame :=
  .data own stream c.sequence c.first c.last replayed c.decodedLength c.coded

/-- The head entry of the resend list, from the replay cell it names (R98). -/
def resendCandidate (s : State) : Option Candidate :=
  match s.lists.resend with
  | [] => none
  | r :: _ =>
    (s.entryAt r.index).bind fun e => e.publish?.bind fun p =>
      if p.claim.owns then
        (p.replayQueue.find? (·.sequence == r.sequence)).map fun c =>
          (dataFrame s.ownNumber e.stream c true, .resend e.serial r.sequence)
      else none

/-- The complete head cell of an owning entry's send queue (R93). -/
def readyHead (e : Entry) : Option PublishCell :=
  e.publish?.bind fun p => if p.claim.owns then p.sendQueue.head?.filter (·.complete) else none

/-- New DATA, round-robin from the index after the pointer (R31). -/
def newDataCandidate (s : State) : Option Candidate :=
  (nextAfter s.turn.pointer fun i => ((s.entryAt i).bind readyHead).isSome).bind fun i =>
    (s.entryAt i).bind fun e => (readyHead e).map fun c =>
      (dataFrame s.ownNumber e.stream c false, .newData e.serial e.index c.cell)

/-- The choice in the urgent slot (R29). The table stands in order of index, so the first entry is the lowest. -/
def State.selectUrgent (s : State) : Option Candidate :=
  [s.table.findSome? (disputeCandidate s.ownNumber false), goneCandidate s.ownNumber false s.lists.gone,
    s.table.findSome? (repairCandidate s.ownNumber false)].findSome? id

/-- The choice in the own rotation slot and on expiry of the hold-off (R30). -/
def State.selectAny (s : State) : Option Candidate :=
  [s.table.findSome? (disputeCandidate s.ownNumber true), goneCandidate s.ownNumber true s.lists.gone,
    s.table.findSome? (repairCandidate s.ownNumber true), s.table.findSome? (claimCandidate s.ownNumber),
    s.table.findSome? (yieldCandidate s.ownNumber), resendCandidate s, newDataCandidate s].findSome? id

/-! ### The hold-off (R27) and the end of every command -/

/-- The hold-off timer runs while the station is ACTIVE, the line OPEN and the selection finds a frame; it starts when
the last of these comes to hold (R27). -/
def State.settleHoldOff (s : State) : State :=
  let running :=
    if s.station.state = .active ∧ s.turn.condition = .opened ∧ s.selectAny.isSome = true then
      some (s.turn.holdOff.getD (s.ownNumber * Config.slotTime))
    else none
  { s with turn := { s.turn with holdOff := running } }

/-- What follows every change inside the station: segmenters claim and read, and the hold-off starts or stops. -/
def State.finish (s : State) : State := s.settleSegmenters.settleHoldOff

/-! ### Activity and starts (R21, R25) -/

/-- The line condition once activity begins (R21). -/
def LineCondition.onActivity : LineCondition → LineCondition
  | .opened | .window => .busy
  | c => c

/-- The line interface once the stuck count has followed the bit times heard (R15). -/
def LineInterface.hear (l : LineInterface) (heard : List LineReading) : LineInterface :=
  { l with stuckCount := stuckAfter l.stuckCount heard }

/-- The line has been released for at least one bit time: the stuck count is 0 (R15). -/
def State.lineWasReleased (s : State) : State := { s with line := { s.line with stuckCount := 0 } }

/-- The state HOLD will resume to when it is entered from a state (R44). -/
def StationState.resumeRecord : StationState → ResumeTo
  | .quiet => .quiet
  | _ => .joining

/-- The line is stuck (R16, R21, R44): a frame in progress is discarded, a broken frame abandoned uncounted, the line
condition STUCK, and a station that follows the line enters HOLD. -/
def State.becomeStuck (s : State) : State :=
  let t : State :=
    { s with
      line := { s.line.discardFrame with phase := .stuck, stuckCount := Config.stuckLimit }
      turn := { s.turn with condition := .stuck, anchor := none, lastSender := 0, holdOff := none, attempt := none }
      station := { s.station with stuckSeen := true } }
  if s.station.state.receiving then
    { t with station := { t.station with resumeTo := s.station.state.resumeRecord } }.reportState .hold .lineStuck 0
  else t

/-- What a command's bit times lead to, unless the line turns out stuck at one of them: then the command acts as
STUCK_CONDITION (R16). What follows in its bit times is for later commands to tell (log 42). -/
def State.unlessStuck (s : State) (heard : List LineReading) (other : State) : State :=
  if reachesStuck s.line.stuckCount heard then s.becomeStuck else other

/-- The receive phase leaves REST, or driven cells come during the wait after a stuck condition (R9, R16, R21). In HOLD
every start is heard as activity alone (R19). An attempt whose first cell is not out yet is abandoned (R25). -/
def State.activityBegins (s : State) (heard : List LineReading) : State :=
  if s.station.state.attached then
    match s.line.phase, s.line.brokenWait, activityOf heard with
    | .rest, _, some a =>
      let framed := a == .startMark && s.station.state.receiving
      s.unlessStuck heard
        { s with
          line := { (s.line.hear heard).discardFrame with
            phase := if framed then .frame else .broken, brokenWait := .activity }
          turn := { s.turn with condition := s.turn.condition.onActivity, holdOff := none, attempt := none } }
    | .broken, .stuckWait, _ =>
      if slotSpoiled heard then
        s.unlessStuck heard { s with line := { s.line.hear heard with brokenWait := .afterStuck } }
      else s
    | _, _, _ => s
  else s

/-- A moment at which the station may start a frame: ACTIVE, the line condition as the moment needs it, nothing heard
(R25). -/
def State.mayStart (s : State) (condition : LineCondition) : Bool :=
  s.station.state == .active && s.turn.condition == condition && s.line.phase == .rest && s.turn.attempt.isNone

/-- Starts the selected frame, or abandons it for activity read before its first cell (R25, R32). DESIGN CHOICE, safe
(log 40): the sender's receive phase is FRAME from its first cell; R9 says only that it follows its own frame through
the phases, and no command tells when its start mark has been read back. -/
def State.start (s : State) (selected : Option Candidate) (urgentSlot : Bool) (first : FirstCell) : State :=
  match selected with
  | none => s
  | some (frame, source) =>
    match first with
    | .forestalled heard => s.activityBegins heard
    | .sent =>
      { s with
        line := { s.line.discardFrame with phase := .frame }
        turn := { s.turn with condition := .busy, holdOff := none, attempt := some ⟨frame, source, urgentSlot⟩ } }

/-! ### Outcomes at the owners (R33) -/

/-- Whether a failed attempt leaves its frame marked: after a collision in the urgent slot only (R28). -/
def Attempt.marks (a : Attempt) (o : AttemptOutcome) : Bool := a.urgentSlot && o == .collided

/-- Updates the publish fields of the entry with a serial. -/
def State.modifyPublishBySerial (s : State) (serial : Nat) (f : PublishEntry → PublishEntry) : State :=
  match s.entryBySerial serial with
  | none => s
  | some e => s.modifyPublish e.index f

/-- The outcome of a DISPUTE (R66). -/
def State.disputeOutcome (s : State) (serial : Nat) (a : Attempt) (o : AttemptOutcome) : State :=
  s.modifyPublishBySerial serial fun p =>
    if o = .delivered then { p with disputeDue := false, disputeMark := false }
    else { p with disputeMark := p.disputeDue && a.marks o }

/-- The outcome of a CLAIM (R60). DEDUCED, safe (log 34): of an entry that entered FAULT during the attempt a delivered
CLAIM sets claim-sent too, and its settle timer stays stopped (R72). -/
def State.claimOutcome (s : State) (serial : Nat) (o : AttemptOutcome) : State :=
  s.modifyPublishBySerial serial fun p =>
    if o = .delivered then
      { p with claimDue := false, claimSent := true,
               settleTimer := if p.claim = .claiming then some Config.claimSettle else p.settleTimer }
    else p

/-- The outcome of a YIELD (R68). -/
def State.yieldOutcome (s : State) (serial : Nat) (o : AttemptOutcome) : State :=
  match o, s.entryBySerial serial with
  | .delivered, some e =>
    match e.role with
    | .subscribe _ => s
    | .publish p =>
      match p.claim with
      | .closing => s.freeEntry e.index .close
      | .fault =>
        if p.closeRequested then s.freeEntry e.index .close
        else s.modifyPublish e.index fun p => { p with yieldDue := false }
      | .claiming | .owned | .lost => s
  | _, _ => s

/-- Updates the GONE list. -/
def State.withGone (s : State) (f : List GoneEntry → List GoneEntry) : State :=
  { s with lists := { s.lists with gone := f s.lists.gone } }

/-- The outcome of a GONE (R102). -/
def State.goneOutcome (s : State) (serial : Nat) (first : Seq) (count : Nat) (a : Attempt) (o : AttemptOutcome) :
    State :=
  let setMark (mark : Bool) (g : GoneEntry) : GoneEntry := if g.serial = serial then { g with mark := mark } else g
  if o = .delivered then
    (s.bump .gonesSent).withGone fun list =>
      (list.filter fun g => !(g.serial == serial && g.first == first && g.count == count)).map (setMark false)
  else s.withGone fun list => list.map (setMark (a.marks o))

/-- A delivered REPAIR at its DUE entry (R124). -/
def SubscribeEntry.repairDelivered (u : SubscribeEntry) (first : Seq) (count : Nat) : SubscribeEntry :=
  if u.repair = .due then
    { u with repair := .requested, repairMark := false, attempts := u.attempts + 1,
             requested := some (first, count), repairTimer := some Config.repairWait }
  else u

/-- The outcome of a REPAIR (R124). -/
def State.repairOutcome (s : State) (serial : Nat) (a : Attempt) (o : AttemptOutcome) : State :=
  let t := if o = .delivered then s.bump .repairsSent else s
  match t.entryBySerial serial with
  | none => t
  | some e =>
    t.modifySubscribe e.index fun u =>
      if o = .delivered then
        match a.frame with
        | .repair _ _ _ first count => u.repairDelivered first count
        | _ => u
      else { u with repairMark := u.repair == .due && a.marks o }

/-- The outcome of a resend (R98). -/
def State.resendOutcome (s : State) (serial : Nat) (q : Seq) (o : AttemptOutcome) : State :=
  match o, s.entryBySerial serial with
  | .delivered, some e =>
    if s.resendListed e.index q then
      (({ s with lists := { s.lists with
            resend := s.lists.resend.filter fun r => !(r.index == e.index && r.sequence == q) } }.modifyPublish e.index
          fun p => { p with resendsSent := p.resendsSent + 1 }).checkClosing e.index)
    else s
  | _, _ => s

/-- The record a delivered LAST cell leaves in the write-back list (R94). -/
def PublishCell.writeBack? (c : PublishCell) : Option WriteBack :=
  if c.last then c.tag.map fun g => ⟨g.descriptor, g.length, c.sequence, g.notify⟩ else none

/-- A full replay queue first releases its head (R85). -/
def State.makeReplayRoom (s : State) (index : Nat) (p : PublishEntry) : State :=
  match p.replayQueue with
  | r :: _ =>
    if Config.replayLimit ≤ p.replayQueue.length then
      ((s.leaveReplay ⟨r.cell, index, 0⟩).bump .replayReleases).releaseCell r.cell
    else s
  | [] => s

/-- A delivered send-queue head joins the replay queue and the age list; a LAST cell records its write-back (R78, R93,
R94). -/
def State.deliverSegment (s : State) (index : Nat) (p : PublishEntry) (c : PublishCell) : State :=
  let t := (s.makeReplayRoom index p).modifyPublish index fun v =>
    { v with sendQueue := v.sendQueue.filter (·.cell != c.cell), replayQueue := v.replayQueue ++ [c],
             segmentsSent := v.segmentsSent + 1, writeBacks := v.writeBacks ++ c.writeBack?.toList }
  let t := { t with pool := { t.pool with aged := t.pool.aged ++ [(⟨c.cell, index, 0⟩ : AgedCell)] } }
  let t := if p.writeBacks.isEmpty && c.writeBack?.isSome then t.requestWriteBack index else t
  t.checkClosing index

/-- The outcome of new DATA (R31, R93). The pointer takes the index even if the source is gone (log 20). -/
def State.newDataOutcome (s : State) (serial index cell : Nat) (o : AttemptOutcome) : State :=
  if o = .delivered then
    let t := { s with turn := { s.turn with pointer := index } }
    match t.entryBySerial serial with
    | none => t
    | some e =>
      match e.role with
      | .subscribe _ => t
      | .publish p =>
        match p.sendQueue with
        | c :: _ => if c.cell = cell then t.deliverSegment e.index p c else t
        | [] => t
  else s

/-- The outcome at the block that owns the frame (R33). -/
def State.ownerOutcome (s : State) (a : Attempt) (o : AttemptOutcome) : State :=
  match a.source with
  | .dispute serial => s.disputeOutcome serial a o
  | .gone serial first count => s.goneOutcome serial first count a o
  | .repair serial => s.repairOutcome serial a o
  | .claim serial => s.claimOutcome serial o
  | .yield serial => s.yieldOutcome serial o
  | .resend serial q => s.resendOutcome serial q o
  | .newData serial index cell => s.newDataOutcome serial index cell o

/-! ### The outcome history (R41, R42) -/

/-- The history with an outcome at its tail; the oldest leaves a full list (R41). -/
def pushOutcome (history : List AttemptOutcome) (o : AttemptOutcome) : List AttemptOutcome :=
  if history.length < Config.historyLimit then history ++ [o] else (history ++ [o]).drop 1

/-- On entering QUIET a DUE REPAIR goes back to WAITING without its mark, its delay restarted (R42, R130). -/
def SubscribeEntry.quieted (u : SubscribeEntry) : SubscribeEntry :=
  if u.repair = .due then { u with repair := .waiting, repairTimer := some Config.repairDelay, repairMark := false }
  else u

/-- Enters QUIET from ACTIVE (R42). -/
def State.enterQuiet (s : State) : State :=
  let t : State :=
    { s with
      turn := { s.turn with holdOff := none }
      table := s.table.map fun e => { e with role := e.role.mapSubscribe SubscribeEntry.quieted } }
  t.reportState .quiet .failureHistory 0

/-- An outcome joins the history; the eighth failure sends an ACTIVE station to QUIET (R41, R42). -/
def State.recordOutcome (s : State) (o : AttemptOutcome) : State :=
  let history := pushOutcome s.station.history o
  let t := { s with station := { s.station with history := history } }
  if s.station.state = .active ∧ Config.failureLimit ≤ failureCount history then t.enterQuiet else t

/-- The attempt ends: the record is emptied, the owner takes the outcome, then the history (R32, R33, R42). -/
def State.endAttempt (s : State) (a : Attempt) (o : AttemptOutcome) : State :=
  ({ s with turn := { s.turn with attempt := none } }.ownerOutcome a o).recordOutcome o

/-! ### The meanings of the turn unit's commands -/

/-- ACTIVITY_BEGINS (R21, R9). -/
def execActivityBegins (heard : List LineReading) (s : State) : Host.Outcome State Fault Refusal :=
  .next (s.activityBegins heard)

/-- URGENT_SLOT_START (R26), taken at any moment of a WINDOW (log 3). In the first window no bit time may have passed
since a spoil, so the stuck count stays. -/
def execUrgentSlotStart (first : FirstCell) (s : State) : Host.Outcome State Fault Refusal :=
  .next (if s.mayStart .window then s.start s.selectUrgent true first else s)

/-- ROTATION_SLOT_START (R25), taken at any moment of a WINDOW (log 3). The line was released from the window's
beginning to the slot, which returns the stuck count to 0 (R15). -/
def execRotationSlotStart (first : FirstCell) (s : State) : Host.Outcome State Fault Refusal :=
  .next (if s.mayStart .window then s.lineWasReleased.start s.selectAny false first else s)

/-- HOLD_OFF_EXPIRY (R27), taken whenever the timer runs (log 3). The line was released while it ran (R15). -/
def execHoldOffExpiry (first : FirstCell) (s : State) : Host.Outcome State Fault Refusal :=
  .next (if s.mayStart .opened && s.turn.holdOff.isSome then s.lineWasReleased.start s.selectAny false first else s)

/-- ATTEMPT_COLLIDED (R2, R34): the read-back differs from the frame, and the activity goes on as a broken frame, or as
a stuck line if the bit times heard go so far (R16). -/
def attemptCollided (heard : List LineReading) (s : State) : State :=
  match s.turn.attempt with
  | none => s
  | some a =>
    if s.station.state = .active ∧ s.line.phase = .frame ∧ readBackFails a.frame.onLine heard = true then
      let t := { s with line := { s.line.hear heard with phase := .broken, brokenWait := .activity } }.bump
        .ownCollisions
      let t := (t.endAttempt a .collided).finish
      if reachesStuck s.line.stuckCount heard then t.becomeStuck else t
    else s

/-- ATTEMPT_COLLIDED. -/
def execAttemptCollided (s : State) (heard : List LineReading := lineReleased) : Host.Outcome State Fault Refusal :=
  .next (attemptCollided heard s)

/-- ATTEMPT_VERDICT (R33, R13, R14, R22): the end of the verdict slot is the new anchor; a delivered frame makes this
station the last sender, a spoiled one leaves the record. -/
def attemptVerdict (heard : List LineReading) (s : State) : State :=
  match s.turn.attempt with
  | none => s
  | some a =>
    if s.station.state = .active ∧ s.line.phase = .verdict then
      let t := { s with line := { s.line.hear heard with phase := .rest } }
      if slotSpoiled heard then
        s.unlessStuck heard (((t.anchorNow s.turn.lastSender).bump .spoiledSeen).endAttempt a .spoiled).finish
      else (((t.anchorNow s.ownNumber).bump .cleanFrames).endAttempt a .delivered).finish
    else s

/-- ATTEMPT_VERDICT. -/
def execAttemptVerdict (heard : List LineReading) (s : State) : Host.Outcome State Fault Refusal :=
  .next (attemptVerdict heard s)

end Machine
end Sys2Proof
end

