-- ==== Sys2Proof/Machine/Line.lean ====
section
/-! DEFINITION. The line interface's commands: staging, the end of a frame, verdicts, broken frames, the stuck line,
and what a clean frame does at the stream table (01_the_shared_line_and_its_frames.md, R59 to R69, R101, R127). -/

namespace Sys2Proof
namespace Machine

/-! ### During a frame -/

/-- STAGING_CLAIM (R17): a free buffer becomes filling for a subscribed stream; with both held the frame goes unstaged
and is counted. -/
def stagingClaim (stream : BitVec 11) (s : State) : State :=
  if s.station.state.receiving && s.line.phase == .frame && s.turn.attempt.isNone && s.line.fillingBuffer.isNone then
    match (s.entryOf stream.toNat).bind Entry.subscribe? with
    | none => s
    | some _ =>
      match s.line.freeBuffer with
      | some k => s.setBuffer k (.filling [])
      | none => s.bump .stagingOverruns
  else s

/-- STAGING_CLAIM. -/
def execStagingClaim (stream : BitVec 11) (s : State) : Host.Outcome State Fault Refusal :=
  .next (stagingClaim stream s)

/-- The frame in FRAME turns out a broken frame (R9). DESIGN CHOICE, safe (log 43): what was staged and recorded of it
is discarded here already; R11 and R18 tell the discard with the end of the broken frame. -/
def LineInterface.breakFrame (l : LineInterface) : LineInterface :=
  { l.discardFrame with phase := .broken, brokenWait := .activity }

/-- A filling buffer takes the frame's payload (R17). -/
def LineInterface.fill (l : LineInterface) : Option Frame → LineInterface
  | some (.data _ _ _ _ _ _ _ coded) =>
    match l.fillingBuffer with
    | some k => l.setBuffer k (.filling coded)
    | none => l
  | _ => l

/-- The end mark ends another station's frame of the given cells: its faults are settled and the verdict slot starts; an
ACTIVE station that found a fault drives a spoil (R10, R12, R13). -/
def State.judgeFrame (s : State) (cells : List LineCell) : State :=
  let faults := readFaults s.ringSize cells
  let spoils := s.station.state == .active && faults.any
  let t := { s with line := { s.line.fill (readFrame cells) with
    phase := .verdict, record := readFrame cells, faults := faults, spoiling := spoils } }
  if spoils then t.bump .spoilsDriven else t

/-- The bit times after another station's start mark, up to the end mark or to what breaks the frame (R9), unless the
line turns out stuck among them (R16). -/
def State.frameHeard (s : State) (heard : List LineReading) : State :=
  let t := { s with line := s.line.hear heard }
  match followFrame 0 heard with
  | .ended cells => s.unlessStuck heard (t.judgeFrame cells)
  | .broken => s.unlessStuck heard { t with line := t.line.breakFrame }
  | .going => s

/-- FRAME_END (R9, R13). The station's own frame, read back whole as it was sent, is judged by nobody here; a read-back
that differs ends the attempt COLLIDED (R2). -/
def frameEnd (heard : List LineReading) (s : State) : State :=
  if s.station.state.receiving && s.line.phase == .frame then
    match s.turn.attempt with
    | some a =>
      if heard = a.frame.onLine.map some then { s with line := { s.line.hear heard with phase := .verdict } }
      else attemptCollided heard s
    | none => s.frameHeard heard
  else s

/-- FRAME_END. -/
def execFrameEnd (heard : List LineReading) (s : State) : Host.Outcome State Fault Refusal := .next (frameEnd heard s)

/-- FRAME_BECOMES_BROKEN (R9). The station's own frame breaks by ATTEMPT_COLLIDED instead (R2; log 2). -/
def frameBecomesBroken (heard : List LineReading) (s : State) : State :=
  if s.station.state.receiving && s.line.phase == .frame && s.turn.attempt.isNone
      && followFrame 0 heard == .broken then s.frameHeard heard
  else s

/-- FRAME_BECOMES_BROKEN. -/
def execFrameBecomesBroken (s : State) (heard : List LineReading := lineReleased) : Host.Outcome State Fault Refusal :=
  .next (frameBecomesBroken heard s)

/-! ### Verdicts that discard the frame (R14) -/

/-- The verdict slot of another station's frame is running. -/
def State.inVerdict (s : State) : Bool :=
  s.station.state.receiving && s.line.phase == .verdict && s.turn.attempt.isNone

/-- The frame is discarded and the line interface rests, the stuck count having come to `count` (R14, R15, R18). -/
def State.discardAndRest (s : State) (count : Nat) : State :=
  { s with line := { s.line.discardFrame with phase := .rest, stuckCount := count } }

/-- SPOILED_VERDICT (R13, R14, R22): the record of the last sender is unchanged. A station that drove a spoil holds the
frame spoiled. A line that turns out stuck in the slot discards the frame first (R16). -/
def spoiledVerdict (heard : List LineReading) (s : State) : State :=
  if s.inVerdict && (slotSpoiled heard || s.line.spoiling) then
    s.unlessStuck heard
      (((s.discardAndRest (stuckAfter s.line.stuckCount heard)).bump .spoiledSeen).anchorNow s.turn.lastSender)
  else s

/-- SPOILED_VERDICT. -/
def execSpoiledVerdict (s : State) (heard : List LineReading := spoiledSlot) : Host.Outcome State Fault Refusal :=
  .next (spoiledVerdict heard s)

/-- CLEAN_FAULTY_FRAME (R14, R22): a clean verdict without a sender, after four released bit times. -/
def cleanFaultyFrame (s : State) : State :=
  if s.inVerdict && s.line.faults.any && !s.line.spoiling then ((s.discardAndRest 0).bump .cleanFrames).anchorNow 0
  else s

/-- CLEAN_FAULTY_FRAME. -/
def execCleanFaultyFrame (s : State) : Host.Outcome State Fault Refusal := .next (cleanFaultyFrame s)

/-! ### A clean frame at the stream table (R59) -/

/-- The frame whose verdict slot ends clean at a station that found no fault in it (R14; log 23). -/
def State.heardFrame (s : State) : Option Frame :=
  if s.inVerdict && !s.line.faults.any && !s.line.spoiling then s.line.record else none

/-- The line interface after a clean verdict, four released bit times: at rest, the record empty, the stuck count 0
(R15); the filling buffer is left to the caller. -/
def LineInterface.verdictOver (l : LineInterface) : LineInterface :=
  { l with phase := .rest, record := none, faults := .clear, spoiling := false, stuckCount := 0 }

/-- A clean verdict naming a sender: counted, anchored, and the end of JOINING (R14, R22, R39). -/
def State.cleanVerdict (s : State) (sender : Nat) : State :=
  let t := (s.bump .cleanFrames).anchorNow sender
  (if t.station.state = .joining then t.reportState .active .joinedByFrame sender else t).finish

/-- An owning entry sets DISPUTE due (R65). -/
def PublishEntry.defend (p : PublishEntry) : PublishEntry := if p.claim.owns then { p with disputeDue := true } else p

/-- Sets a subscribe entry's recorded publisher, with PUBLISHER_SET if that changes it (R69). `code` is the kind code of
the frame. -/
def State.setPublisher (s : State) (e : Entry) (u : SubscribeEntry) (new : Option Nat) (code : Nat) : State :=
  if u.publisher = new then s
  else
    (s.modifySubscribe e.index fun v => { v with publisher := new }).emit
      (streamEvent .publisherSet code e.stream (new.getD 0) 0 0 0)

/-- A clean CLAIM at the table (R62, R65, R69). -/
def claimHeard (s : State) (sender stream : Nat) : State :=
  match s.entryOf stream with
  | none => s
  | some e =>
    match e.role with
    | .publish p =>
      if sender = s.ownNumber then s
      else if p.claim = .claiming then if sender < s.ownNumber then s.loseClaim e.index sender 4 else s
      else s.modifyPublish e.index PublishEntry.defend
    | .subscribe u => if u.takesFrames then s.setPublisher e u (some sender) 4 else s

/-- A clean DISPUTE at the table (R63, R67, R69). -/
def disputeHeard (s : State) (sender stream owner : Nat) : State :=
  match s.entryOf stream with
  | none => s
  | some e =>
    match e.role with
    | .publish p =>
      if sender = s.ownNumber ∨ owner = s.ownNumber then s
      else if p.claim = .claiming ∨ (p.claim.owns = true ∧ owner < s.ownNumber) then s.loseClaim e.index owner 5
      else s.modifyPublish e.index PublishEntry.defend
    | .subscribe u => if u.takesFrames then s.setPublisher e u (some owner) 5 else s

/-- A clean YIELD at the table (R69); a DUE entry whose publisher is cleared loses its range, or asks for nothing (R123;
log 13). -/
def yieldHeard (s : State) (sender stream : Nat) : State :=
  match s.entryOf stream with
  | none => s
  | some e =>
    match e.role with
    | .publish _ => s
    | .subscribe u =>
      if u.takesFrames && u.publisher == some sender then
        let t := s.setPublisher e u none 6
        match u.repair, u.expected with
        | .due, some x => t.loseOrWait e.index (u.repairCount x) .noPublisher
        | _, _ => t
      else s

/-- One sequence of a REPAIR that is served (R101). -/
def State.serveSequence (s : State) (index stream : Nat) (q : Seq) : State :=
  match s.publishAt index with
  | none => s
  | some p =>
    match p.standing q with
    | .older => s.addGone stream q
    | .inReplay =>
      if s.resendListed index q then s
      else if s.lists.resend.length < Config.resendLimit then
        { s with lists := { s.lists with resend := s.lists.resend ++ [⟨index, q⟩] } }
      else s
    | .inSendQueue => s
    | .notYetMade => s

/-- A REPAIR is served, its sequences in order; a CLOSING entry's YIELD is withdrawn if the service listed a resend
(R101, R104). -/
def State.serveRepair (s : State) (index stream : Nat) (first : Seq) (count : Nat) : State :=
  ((List.range count).foldl (fun t k => t.serveSequence index stream (seqAfter first k)) s).checkClosing index

/-- The repair state after another station's REPAIR suppressed this entry's request (R127). -/
def SubscribeEntry.suppressed (u : SubscribeEntry) : SubscribeEntry :=
  if u.repair = .idle then u
  else { u with repair := .requested, repairMark := false, repairTimer := some Config.repairWait }

/-- A clean REPAIR at a subscribe entry (R127). -/
def State.suppress (s : State) (e : Entry) (u : SubscribeEntry) (sender target : Nat) (first : Seq) (count : Nat) :
    State :=
  match u.expected with
  | none => s
  | some x =>
    if u.takesFrames && u.publisher == some target && rangeCovers first count x && sender != s.ownNumber then
      let t := s.modifySubscribe e.index SubscribeEntry.suppressed
      if u.repair = .waiting ∨ u.repair = .due then t.bump .repairsSuppressed else t
    else s

/-- A clean REPAIR at the table (R59, R65, R101). One that carries this station's own number and target is served (log
27). -/
def repairHeard (s : State) (sender stream target : Nat) (first : Seq) (count : Nat) : State :=
  match s.entryOf stream with
  | none => s
  | some e =>
    match e.role with
    | .publish p =>
      if !p.claim.owns then s
      else if target = s.ownNumber then s.serveRepair e.index stream first count
      else if sender = s.ownNumber then s
      else s.modifyPublish e.index PublishEntry.defend
    | .subscribe u => s.suppress e u sender target first count

/-- A clean GONE at the table (R59, R128). -/
def goneHeard (s : State) (sender stream : Nat) (first : Seq) (count : Nat) : State :=
  match (s.entryOf stream).bind Entry.subscribe?, s.entryOf stream with
  | some u, some e =>
    match u.expected with
    | none => s
    | some x =>
      if u.takesFrames && u.publisher == some sender && rangeCovers first count x then
        s.lose e.index (count - forwardDistance first x) .gone
      else s
  | _, _ => s

/-- A clean DATA frame of the recorded publisher, staged or not, at its subscribe entry (R69, R109). `staged` is the
buffer that held its payload. -/
def State.takeStaged (s : State) (index : Nat) (staged : Option BufferId) (g : StagedSegment) : State :=
  match staged with
  | none => s
  | some k => (s.setBuffer k (.held g)).takeSegment index k g

/-- A clean DATA frame at the table (R59, R65, R69). The filling buffer has been freed; `staged` names it. DESIGN
CHOICE, unsafe (log 46): the segment goes to the subscribe entry that the stream names now. Where the entry it was
staged for has been freed and another opened for the stream during the frame, both of R18's cases hold, and the model
hands it over. -/
def dataHeard (s : State) (staged : Option BufferId) (g : StagedSegment) : State :=
  match s.entryOf g.stream with
  | none => s
  | some e =>
    match e.role with
    | .publish _ => if g.sender = s.ownNumber then s else s.modifyPublish e.index PublishEntry.defend
    | .subscribe u =>
      if !u.takesFrames then s
      else
        match u.publisher with
        | none => (s.setPublisher e u (some g.sender) 1).takeStaged e.index staged g
        | some x => if x = g.sender then s.takeStaged e.index staged g else s.bump .foreignData

/-! ### The meanings of the clean verdicts -/

/-- CLEAN_DATA (R14, R18, R59, R69, R110). -/
def cleanData (s : State) : State :=
  match s.heardFrame with
  | some (.data sender stream q first last replayed decodedLength coded) =>
    let staged := s.line.fillingBuffer
    let t := { s with line := s.line.discardFrame.verdictOver }
    (dataHeard t staged ⟨stream, sender, q, first, last, replayed, decodedLength, coded⟩).cleanVerdict sender
  | _ => s

/-- CLEAN_DATA. -/
def execCleanData (s : State) : Host.Outcome State Fault Refusal := .next (cleanData s)

/-- CLEAN_REPAIR (R101, R65, R127). -/
def cleanRepair (s : State) : State :=
  match s.heardFrame with
  | some (.repair sender stream target first count) =>
    (repairHeard { s with line := s.line.discardFrame.verdictOver } sender stream target first count).cleanVerdict sender
  | _ => s

/-- CLEAN_REPAIR. -/
def execCleanRepair (s : State) : Host.Outcome State Fault Refusal := .next (cleanRepair s)

/-- CLEAN_GONE (R128). -/
def cleanGone (s : State) : State :=
  match s.heardFrame with
  | some (.gone sender stream first count) =>
    (goneHeard { s with line := s.line.discardFrame.verdictOver } sender stream first count).cleanVerdict sender
  | _ => s

/-- CLEAN_GONE. -/
def execCleanGone (s : State) : Host.Outcome State Fault Refusal := .next (cleanGone s)

/-- CLEAN_CLAIM (R62, R65, R69). -/
def cleanClaim (s : State) : State :=
  match s.heardFrame with
  | some (.claim sender stream) =>
    (claimHeard { s with line := s.line.discardFrame.verdictOver } sender stream).cleanVerdict sender
  | _ => s

/-- CLEAN_CLAIM. -/
def execCleanClaim (s : State) : Host.Outcome State Fault Refusal := .next (cleanClaim s)

/-- CLEAN_DISPUTE (R63, R67, R69). -/
def cleanDispute (s : State) : State :=
  match s.heardFrame with
  | some (.dispute sender stream owner) =>
    (disputeHeard { s with line := s.line.discardFrame.verdictOver } sender stream owner).cleanVerdict sender
  | _ => s

/-- CLEAN_DISPUTE. -/
def execCleanDispute (s : State) : Host.Outcome State Fault Refusal := .next (cleanDispute s)

/-- CLEAN_YIELD (R69, R123). -/
def cleanYield (s : State) : State :=
  match s.heardFrame with
  | some (.yield sender stream) =>
    (yieldHeard { s with line := s.line.discardFrame.verdictOver } sender stream).cleanVerdict sender
  | _ => s

/-- CLEAN_YIELD. -/
def execCleanYield (s : State) : Host.Outcome State Fault Refusal := .next (cleanYield s)

/-! ### Broken frames and the stuck line (R11, R16, R44, R45) -/

/-- A broken frame, or an activity heard in HOLD, has ended after a released slot time: at rest, with an anchor and
record 0 (R11, R22). -/
def State.activityEnds (s : State) : State := (s.discardAndRest 0).anchorNow 0

/-- BROKEN_FRAME_END (R11). In HOLD it is the end of the broken frame that followed a stuck condition (R16; log 7). -/
def brokenFrameEnd (s : State) : State :=
  let counted := match s.line.brokenWait with
    | .activity => s.station.state.receiving
    | .afterStuck => s.station.state.attached
    | .stuckWait => false
  if s.line.phase = .broken ∧ counted = true then s.activityEnds.bump .brokenFrames else s

/-- BROKEN_FRAME_END. -/
def execBrokenFrameEnd (s : State) : Host.Outcome State Fault Refusal := .next (brokenFrameEnd s)

/-- HOLD_ACTIVITY_END (R45, R19): nothing is counted. -/
def holdActivityEnd (s : State) : State :=
  if s.station.state = .hold ∧ s.line.phase = .broken ∧ s.line.brokenWait ≠ .stuckWait then s.activityEnds else s

/-- HOLD_ACTIVITY_END. -/
def execHoldActivityEnd (s : State) : Host.Outcome State Fault Refusal := .next (holdActivityEnd s)

/-- STUCK_CONDITION (R15, R16): the stuck count reaches 4096. -/
def stuckCondition (heard : List LineReading) (s : State) : State :=
  if s.station.state.attached && s.line.phase != .stuck && reachesStuck s.line.stuckCount heard then s.becomeStuck
  else s

/-- STUCK_CONDITION. -/
def execStuckCondition (s : State) (heard : List LineReading := heldLine) : Host.Outcome State Fault Refusal :=
  .next (stuckCondition heard s)

/-- STUCK_END (R16, R21). -/
def stuckEnd (atValidCell : Bool) (s : State) : State :=
  if s.station.state.attached && s.line.phase == .stuck then
    { s with
      line := { s.line with phase := .broken, brokenWait := if atValidCell then .afterStuck else .stuckWait,
                            stuckCount := 0 }
      turn := { s.turn with condition := .busy } }
  else s

/-- STUCK_END. -/
def execStuckEnd (atValidCell : Bool) (s : State) : Host.Outcome State Fault Refusal := .next (stuckEnd atValidCell s)

/-- STUCK_WAIT_END (R16, R21): no broken frame is counted. -/
def stuckWaitEnd (s : State) : State :=
  if s.station.state.attached && s.line.phase == .broken && s.line.brokenWait == .stuckWait then s.activityEnds else s

/-- STUCK_WAIT_END. -/
def execStuckWaitEnd (s : State) : Host.Outcome State Fault Refusal := .next (stuckWaitEnd s)

/-! ### Windows (R21, R23) -/

/-- The line becomes OPEN: no anchor, last-sender record 0 (R21). -/
def State.lineOpens (s : State) : State :=
  { s with turn := { s.turn with condition := .opened, anchor := none, lastSender := 0 } }

/-- HOLD ends when the line becomes OPEN (R45). -/
def State.recover (s : State) : State :=
  if s.station.state = .hold then s.reportState s.station.resumeTo.state .lineRecovered 0 else s

/-- WINDOW_PASSES_EMPTY (R23, R39, R45), taken at any moment of a WINDOW (log 3): after the second empty window the line
is OPEN, HOLD ends and JOINING ends. The line was released through the window, which returns the stuck count to 0 (R15).
-/
def windowPassesEmpty (s : State) : State :=
  if s.station.state.attached && s.turn.condition == .window && s.line.phase == .rest then
    let t := s.lineWasReleased
    if s.turn.emptyWindows = 0 then { t with turn := { s.turn with emptyWindows := 1 } }
    else t.lineOpens.recover.joinIfOpen.finish
  else s

/-- WINDOW_PASSES_EMPTY. -/
def execWindowPassesEmpty (s : State) : Host.Outcome State Fault Refusal := .next (windowPassesEmpty s)

end Machine
end Sys2Proof
end

