-- ==== Sys2Proof/WellFormed.lean ====
section
/-! DEFINITION. Which operands a command can carry. What the types do not say is checked here. -/

namespace Sys2Proof

/-- A descriptor read brings the record's 16 bytes (R181). -/
def ReadCompletion.isDescriptor : ReadCompletion → Bool
  | .ok bytes => bytes.length == 16
  | .error => true

/-- A payload read brings 1 to 240 bytes (R91). -/
def ReadCompletion.isPayload : ReadCompletion → Bool
  | .ok bytes => 1 ≤ bytes.length && bytes.length ≤ Config.segmentBytes
  | .error => true

/-- The widths of an access to the 32-bit window, in bytes. DESIGN CHOICE, safe (log 32): R165 says only "another
width"; a 32-bit bus has 1, 2 and 4. -/
def isAccessWidth (w : Nat) : Bool := w == 1 || w == 2 || w == 4

/-- The bit times heard make the receive phase leave REST (R9). -/
def leavesRest (heard : List LineReading) : Bool := (Machine.activityOf heard).isSome

/-- What a selected frame's first cell meets is a release or an activity (R25). -/
def FirstCell.wellFormed : FirstCell → Bool
  | .sent => true
  | .forestalled heard => leavesRest heard

/-- The bit times heard end a frame, the station's own with its start mark (R9, R2). -/
def endsFrame (heard : List LineReading) : Bool :=
  match Machine.followFrame 0 heard, Machine.followFrame 0 (heard.drop Machine.startMark.length) with
  | .ended _, _ => true
  | _, .ended _ => true
  | _, _ => false

/-- The bit times of a verdict slot (R3). -/
def isVerdictSlot (heard : List LineReading) : Bool := heard.length == Config.verdictSlot

/-- A command is well formed. -/
def Instr.wellFormed : Instr → Bool
  | .unknownCommand code _ => code == 0 || 10 < code.toNat
  | .stationRead _ w => isAccessWidth w
  | .registerWrite _ w _ _ => isAccessWidth w
  | .activityBegins heard => leavesRest heard
  | .frameEnd heard => endsFrame heard
  | .spoiledVerdict heard => isVerdictSlot heard
  | .attemptVerdict heard => isVerdictSlot heard
  | .frameBecomesBroken heard => Machine.followFrame 0 heard == .broken
  | .urgentSlotStart first => first.wellFormed
  | .rotationSlotStart first => first.wellFormed
  | .holdOffExpiry first => first.wellFormed
  | .claimSettleExpiry i => i < Config.tableSize
  | .repairDelayExpiry i => i < Config.tableSize
  | .repairWaitExpiry i => i < Config.tableSize
  | .headDescriptorReadEnd c => c.isDescriptor
  | .lookAheadReadEnd c => c.isDescriptor
  | .lastLookEnd c => c.isDescriptor
  | .txPayloadReadEnd c => c.isPayload
  | .powerOnReset _ _ _ | .attach _ | .detach | .rejoin | .resetStation | .openPublish _ | .openSubscribe _
  | .resume _ | .close _ | .abort _ | .info _ | .eventRingConfigWrite _ _ | .eventConsumerWrite _
  | .intStatusWrite _ | .stagingClaim _ | .cleanFaultyFrame | .cleanData
  | .cleanRepair | .cleanGone | .cleanClaim | .cleanDispute | .cleanYield | .brokenFrameEnd | .holdActivityEnd
  | .stuckCondition _ | .stuckEnd _ | .stuckWaitEnd | .windowPassesEmpty | .attemptCollided _ | .replayAgeLimit
  | .coalescingTimerExpiry | .transferGrant | .txWriteBackEnd _ | .rxPayloadWriteEnd _ | .rxWriteBackEnd _
  | .eventWriteEnd _ => true

end Sys2Proof
end

