-- ==== Sys2Proof/Machine/Port.lean ====
section
/-! DEFINITION. The host port: the arbiter's grant, and what each kind of transfer does when it ends
(08_descriptor_chains_and_the_host_memory_port.md, R92, R94, R116, R118, R157). An end is that of the granted
transfer, whose kind the command names; another one's end does not occur (log 2). -/

namespace Sys2Proof
namespace Machine

/-! ### Grant (R148) -/

/-- The decoded bytes of a segment at its source, for the entry at an index (R78). -/
def State.sourceBytes (s : State) (index : Nat) : SegmentSource → List Byte
  | .staging k => ((s.heldSegment k).map StagedSegment.bytes).getD []
  | .cell c =>
    ((s.subscribeAt index).bind fun u =>
      ((u.written ++ u.waiting).find? (·.cell == c)).map ReorderCell.bytes).getD []

/-- The bytes a write takes at the moment it is granted; a read takes none (R148, R181). -/
def State.writtenBytes (s : State) : Request → List Byte
  | .headRead _ _ => []
  | .lookAheadRead _ _ => []
  | .lastLook _ _ => []
  | .txPayload _ _ _ _ => []
  | .txWriteBack _ r => r.bytes
  | .rxPayload index source _ _ offset length => ((s.sourceBytes index source).drop offset).take length
  | .rxWriteBack _ r => r.bytes
  | .eventWrite _ ev => ev.bytes

/-- The oldest request of the lowest-numbered class that holds one, and the port with it granted (R148). -/
def State.grant (s : State) : State :=
  let take (r : Request) (p : HostPort) : State :=
    { s with port := { p with granted := some ⟨r, s.transferAddress r, s.writtenBytes r, false⟩ } }
  match s.port.firstClass, s.port.secondClass, s.port.thirdClass with
  | r :: rest, _, _ => take r { s.port with firstClass := rest }
  | [], r :: rest, _ => take r { s.port with secondClass := rest }
  | [], [], r :: rest => take r { s.port with thirdClass := rest }
  | [], [], [] => s

/-- TRANSFER_GRANT (R148). -/
def transferGrant (s : State) : State := if s.port.granted.isNone then s.grant else s

/-- TRANSFER_GRANT. -/
def execTransferGrant (s : State) : Host.Outcome State Fault Refusal := .next (transferGrant s)

/-- The transfer in flight ends: the port is FREE, a discarded result goes to nobody, and any other has its effect
(R148, R150). -/
def State.endTransfer (s : State) (g : Granted) (effect : State → State) : State :=
  if g.discarded then s.freePort else (effect s.freePort).finish

/-! ### Descriptor reads (R140 to R145) -/

/-- After a chain of an entry changed, the engine of its role goes on (R142). -/
def State.chainAdvanced (s : State) (index : Nat) : State :=
  match (s.entryAt index).map Entry.role with
  | some (.publish _) => s.publishAdvance index
  | some (.subscribe _) => s.receiveAdvance index
  | none => s

/-- A segmenter without a chain becomes READY once a head is held (R92). -/
def PublishEntry.headHeld (p : PublishEntry) : PublishEntry :=
  if p.segmenter = .noChain then { p with segmenter := .ready } else p

/-- The copy kept of a descriptor read for the entry at an index (R134, R135). -/
def State.recordFor (s : State) (index : Nat) (bytes : List Byte) : Descriptor :=
  match s.entryAt index with
  | some e => e.role.descriptorOf bytes
  | none => descriptorOf bytes

/-- The end of a head's read at its entry (R140). -/
def headRead (index : Nat) (address : Word) (c : ReadCompletion) (s : State) : State :=
  match c with
  | .error => s.faultEntry index .busError 16 address
  | .ok bytes =>
    let d := s.recordFor index bytes
    if d.length = 0 then s.faultEntry index .badDescriptor 0 address
    else
      ((((s.modifyChain index fun ch => { ch with tail := some address }).modifyPublish index
        PublishEntry.headHeld).modifySubscribe index SubscribeEntry.freshDescriptor).makeCurrent index address
        d).receiveAdvance index

/-- HEAD_DESCRIPTOR_READ_END (R140). A read brings 16 bytes (R181). -/
def headDescriptorReadEnd (c : ReadCompletion) (s : State) : State :=
  match s.port.granted with
  | some g =>
    match g.request with
    | .headRead index address => if c.isDescriptor then s.endTransfer g (headRead index address c) else s
    | _ => s
  | none => s

/-- HEAD_DESCRIPTOR_READ_END. -/
def execHeadDescriptorReadEnd (c : ReadCompletion) (s : State) : Host.Outcome State Fault Refusal :=
  .next (headDescriptorReadEnd c s)

/-- The look-ahead that a look-ahead read leaves; `record` is the copy kept of the bytes read (R141). -/
def lookAheadOf (record : List Byte → Descriptor) (address : Word) : ReadCompletion → LookAhead
  | .error => .faulty address .busError
  | .ok bytes => if (record bytes).length = 0 then .faulty address .badDescriptor else .held address (record bytes)

/-- The tail after a look-ahead read: a valid record's address (R139). -/
def Chain.afterLookAhead (ch : Chain) (address : Word) (look : LookAhead) : Chain :=
  { ch with lookAhead := look
            tail := match look with
              | .held _ _ => some address
              | _ => ch.tail }

/-- The end of a look-ahead read at its entry (R141, R142). -/
def lookAheadRead (index : Nat) (address : Word) (c : ReadCompletion) (s : State) : State :=
  (s.modifyChain index fun ch => ch.afterLookAhead address
    (lookAheadOf (s.recordFor index) address c)).chainAdvanced index

/-- LOOK_AHEAD_READ_END (R141). -/
def lookAheadReadEnd (c : ReadCompletion) (s : State) : State :=
  match s.port.granted with
  | some g =>
    match g.request with
    | .lookAheadRead index address => if c.isDescriptor then s.endTransfer g (lookAheadRead index address c) else s
    | _ => s
  | none => s

/-- LOOK_AHEAD_READ_END. -/
def execLookAheadReadEnd (c : ReadCompletion) (s : State) : Host.Outcome State Fault Refusal :=
  .next (lookAheadReadEnd c s)

/-- The second read of the tail found a link of 0: the chain has ended for a take that waits (R142, R145). -/
def State.stillEnded (s : State) (index : Nat) : State :=
  match (s.entryAt index).map Entry.role with
  | some (.publish _) => s.publishStillEnded index
  | some (.subscribe _) => s.receiveStillEnded index
  | none => s

/-- The end of a second read of the tail at its entry (R142, R145; log 18). Only the link of the record is used. -/
def lastLook (index : Nat) (address : Word) (c : ReadCompletion) (s : State) : State :=
  match c with
  | .error => (s.modifyChain index fun ch => { ch with lookAhead := .faulty address .busError }).chainAdvanced index
  | .ok bytes =>
    let link := (descriptorOf bytes).link
    let t := s.followLink index link
    if link = 0 then t.stillEnded index else t.chainAdvanced index

/-- LAST_LOOK_END (R142). -/
def lastLookEnd (c : ReadCompletion) (s : State) : State :=
  match s.port.granted with
  | some g =>
    match g.request with
    | .lastLook index address => if c.isDescriptor then s.endTransfer g (lastLook index address c) else s
    | _ => s
  | none => s

/-- LAST_LOOK_END. -/
def execLastLookEnd (c : ReadCompletion) (s : State) : Host.Outcome State Fault Refusal := .next (lastLookEnd c s)

/-! ### Publishing transfers (R92, R94) -/

/-- The cell with its bytes coded into it: it is complete (R92). -/
def PublishCell.codedFrom (c : PublishCell) (bytes : List Byte) : PublishCell :=
  { c with coded := encodePayload bytes, complete := true }

/-- The send queue with the incomplete cell coded. -/
def codeCell (cell : Nat) (bytes : List Byte) (queue : List PublishCell) : List PublishCell :=
  queue.map fun c => if c.cell = cell then c.codedFrom bytes else c

/-- The entry's cell is complete and was not LAST: the segmenter is READY again (R92). -/
def PublishEntry.nextSegment (p : PublishEntry) (cell : Nat) (bytes : List Byte) : PublishEntry :=
  { p with sendQueue := codeCell cell bytes p.sendQueue, position := p.position + bytes.length, segmenter := .ready }

/-- The entry's LAST cell is complete: the block is wholly in cells. A CLOSING entry stops there (R92, R104). -/
def PublishEntry.blockSegmented (p : PublishEntry) (cell : Nat) (bytes : List Byte) : PublishEntry :=
  { p with sendQueue := codeCell cell bytes p.sendQueue, position := 0,
           segmenter := if p.claim = .closing then .stopped else .ready }

/-- A payload read ends OK at its entry (R92). -/
def payloadRead (index cell : Nat) (bytes : List Byte) (s : State) : State :=
  match s.publishAt index with
  | none => s
  | some p =>
    if (p.sendQueue.find? (·.cell == cell)).any (·.last) then
      let t := s.modifyPublish index (·.blockSegmented cell bytes)
      if p.claim = .closing then t.checkClosing index
      else (t.modifyChain index fun ch => { ch with current := .none }).publishTake index
    else s.modifyPublish index (·.nextSegment cell bytes)

/-- TX_PAYLOAD_READ_END (R92): a read brings as many bytes as it asked for. -/
def txPayloadReadEnd (c : ReadCompletion) (s : State) : State :=
  match s.port.granted with
  | some g =>
    match g.request, c with
    | .txPayload index cell _ length, .ok bytes =>
      if bytes.length = length then s.endTransfer g (payloadRead index cell bytes) else s
    | .txPayload index _ _ length, .error =>
      s.endTransfer g fun t =>
        t.faultEntry index .busError length (((t.entryAt index).map (·.chain.current.address)).getD 0)
    | _, _ => s
  | none => s

/-- TX_PAYLOAD_READ_END. -/
def execTxPayloadReadEnd (c : ReadCompletion) (s : State) : Host.Outcome State Fault Refusal :=
  .next (txPayloadReadEnd c s)

/-- A SENT write-back ends OK at its entry: its record leaves the list, BLOCK_SENT for a NOTIFY block, and the next
record's write-back is requested (R94, R104). -/
def writeBackDone (index : Nat) (r : WriteBack) (s : State) : State :=
  match s.entryAt index with
  | none => s
  | some e =>
    let t := s.modifyPublish index fun p => { p with writeBacks := p.writeBacks.drop 1 }
    let t :=
      if r.notify then
        t.emit (streamEvent .blockSent 1 e.stream s.ownNumber r.lastSequence.toNat r.length r.descriptor)
      else t
    (t.requestWriteBack index).checkClosing index

/-- TX_WRITE_BACK_END (R94). -/
def txWriteBackEnd (c : Completion) (s : State) : State :=
  match s.port.granted with
  | some g =>
    match g.request, c with
    | .txWriteBack index r, .ok => s.endTransfer g (writeBackDone index r)
    | .txWriteBack index r, .error => s.endTransfer g (·.faultEntry index .busError 4 r.descriptor)
    | _, _ => s
  | none => s

/-- TX_WRITE_BACK_END. -/
def execTxWriteBackEnd (c : Completion) (s : State) : Host.Outcome State Fault Refusal := .next (txWriteBackEnd c s)

/-! ### Receiving transfers (R116, R118) -/

/-- The entry at an index is closing: an ERROR of its transfers raises no fault (R146). -/
def State.isClosing (s : State) (index : Nat) : Bool := (s.subscribeAt index).any (·.closing)

/-- RX_PAYLOAD_WRITE_END (R116, R146). -/
def rxPayloadWriteEnd (c : Completion) (s : State) : State :=
  match s.port.granted with
  | some g =>
    match g.request with
    | .rxPayload index source descriptor _ _ length =>
      s.endTransfer g fun t =>
        if c = .error ∧ t.isClosing index = false then t.faultEntry index .busError length descriptor
        else (t.sourceWritten index source).closeProgress index
    | _ => s
  | none => s

/-- RX_PAYLOAD_WRITE_END. -/
def execRxPayloadWriteEnd (c : Completion) (s : State) : Host.Outcome State Fault Refusal :=
  .next (rxPayloadWriteEnd c s)

/-- BLOCK_RECEIVED of a block closed OK or LOST (R118); an ABORTED block has none (R131). -/
def State.blockReceived (s : State) (index : Nat) (r : RxWriteBack) : State :=
  match r.closes, s.entryAt index with
  | some b, some e =>
    if r.status = .aborted then s
    else s.emit (streamEvent .blockReceived r.status.code e.stream b.publisher b.sequence.toNat b.bytes b.descriptor)
  | _, _ => s

/-- RX_WRITE_BACK_END (R118, R146, R70). -/
def rxWriteBackEnd (c : Completion) (s : State) : State :=
  match s.port.granted with
  | some g =>
    match g.request with
    | .rxWriteBack index r =>
      s.endTransfer g fun t =>
        match c with
        | .ok => (t.blockReceived index r).closeProgress index
        | .error => if t.isClosing index then t.closeProgress index else t.faultEntry index .busError 6 r.descriptor
    | _ => s
  | none => s

/-- RX_WRITE_BACK_END. -/
def execRxWriteBackEnd (c : Completion) (s : State) : Host.Outcome State Fault Refusal := .next (rxWriteBackEnd c s)

/-! ### Event records (R157, R160, R161) -/

/-- The coalescing timer when a record's write moves the producer off a consumer equal to it (R161): it starts, from
EXPIRED too (log 15); a running one is not restarted. -/
def EventUnit.timerAtWrite (e : EventUnit) : CoalescingTimer :=
  match e.timer with
  | .running n => .running n
  | t =>
    if e.producer = e.consumer ∧ e.config.coalescing ≠ 0 then
      .running (e.config.coalescing.toNat * Config.coalescingUnit)
    else t

/-- The producer moves past a record whose write ended OK (R157). -/
def EventUnit.recordWritten (e : EventUnit) : EventUnit :=
  { e with producer := (e.producer + 1) % e.config.size, timer := e.timerAtWrite }

/-- A record's write ended ERROR: HOST_FAULT, and each later event write is withdrawn and counted (R160). -/
def State.recordFailed (s : State) (place : Nat) : State :=
  let later := s.port.secondClass.countP Request.isEventWrite
  { (s.latchHostFault place).countBy .eventsLost later with port := s.port.withdraw Request.isEventWrite }

/-- EVENT_WRITE_END (R157, R160). -/
def eventWriteEnd (c : Completion) (s : State) : State :=
  match s.port.granted with
  | some g =>
    match g.request with
    | .eventWrite place _ =>
      s.endTransfer g fun t =>
        match c with
        | .ok => { t with events := t.events.recordWritten }
        | .error => t.recordFailed place
    | _ => s
  | none => s

/-- EVENT_WRITE_END. -/
def execEventWriteEnd (c : Completion) (s : State) : Host.Outcome State Fault Refusal := .next (eventWriteEnd c s)

end Machine
end Sys2Proof
end

