-- ==== Sys2Proof/Machine/Timers.lean ====
section
/-! DEFINITION. The timers' expiries: claim settle, repair delay and wait, replay age, coalescing (R61, R84, R122 to
R125, R161). Each timer's expiry is taken whenever the timer runs (log 3); otherwise its event does not occur (log
2). -/

namespace Sys2Proof
namespace Machine

/-- CLAIM_SETTLE_EXPIRY (R61): a CLAIMING entry becomes OWNED, with CLAIM_WON. -/
def claimSettleExpiry (index : Nat) (s : State) : State :=
  match s.entryAt index with
  | none => s
  | some e =>
    match e.role with
    | .subscribe _ => s
    | .publish p =>
      if p.claim = .claiming ∧ p.settleTimer.isSome = true ∧ s.station.state.receiving = true then
        ((s.modifyPublish index fun v => { v with claim := .owned, settleTimer := none }).emit
          (streamEvent .claimWon 0 e.stream s.ownNumber p.nextSequence.toNat p.sendQueue.length 0)).finish
      else s

/-- CLAIM_SETTLE_EXPIRY. -/
def execClaimSettleExpiry (index : Nat) (s : State) : Host.Outcome State Fault Refusal :=
  .next (claimSettleExpiry index s)

/-- The repair timer of an entry runs in a repair state and is not paused (R122). -/
def State.repairRuns (s : State) (u : SubscribeEntry) (state : RepairState) : Bool :=
  u.repair == state && u.repairTimer.isSome && !s.repairPaused u

/-- The entry asks: DUE if a publisher is recorded, else the range a REPAIR would carry is lost (R123). -/
def State.fallDue (s : State) (index : Nat) (u : SubscribeEntry) : State :=
  let t := s.modifySubscribe index fun v => { v with repairTimer := none }
  match u.publisher, u.expected with
  | some _, _ => t.modifySubscribe index fun v => { v with repair := .due, repairMark := false }
  | none, some x => t.loseOrWait index (u.repairCount x) .noPublisher
  | none, none => t

/-- REPAIR_DELAY_EXPIRY (R123). -/
def repairDelayExpiry (index : Nat) (s : State) : State :=
  match s.subscribeAt index with
  | none => s
  | some u => if s.repairRuns u .waiting then (s.fallDue index u).finish else s

/-- REPAIR_DELAY_EXPIRY. -/
def execRepairDelayExpiry (index : Nat) (s : State) : Host.Outcome State Fault Refusal :=
  .next (repairDelayExpiry index s)

/-- The sequences from expected through the end of a range that covers it, else none (R127, R129). -/
def rangeFrom (expected first : Seq) (count : Nat) : Nat := count - forwardDistance first expected

/-- The requested range is lost: no answer came (R125). -/
def State.loseRequested (s : State) (index : Nat) (u : SubscribeEntry) : State :=
  let t := s.modifySubscribe index fun v => { v with repairTimer := none }
  match u.requested, u.expected with
  | some (first, count), some x => t.lose index (rangeFrom x first count) .noAnswer
  | _, _ => t

/-- REPAIR_WAIT_EXPIRY (R125). -/
def repairWaitExpiry (index : Nat) (s : State) : State :=
  match s.subscribeAt index with
  | none => s
  | some u =>
    if s.repairRuns u .requested then
      (if u.attempts < Config.repairAttempts then s.fallDue index u else s.loseRequested index u).finish
    else s

/-- REPAIR_WAIT_EXPIRY. -/
def execRepairWaitExpiry (index : Nat) (s : State) : Host.Outcome State Fault Refusal :=
  .next (repairWaitExpiry index s)

/-- REPLAY_AGE_LIMIT (R84): the head of the age list, its age at the limit, is released; ages stand still in HOLD. A
younger head goes on aging, as one does whose elder was evicted at the same moment (R87). -/
def replayAgeLimit (s : State) : State :=
  match s.pool.aged with
  | [] => s
  | a :: _ =>
    if s.station.state.receiving && Config.replayAge ≤ a.age then
      (((s.leaveReplay a).bump .replayReleases).releaseCell a.cell).finish
    else s

/-- REPLAY_AGE_LIMIT. -/
def execReplayAgeLimit (s : State) : Host.Outcome State Fault Refusal := .next (replayAgeLimit s)

/-- COALESCING_TIMER_EXPIRY (R161). -/
def coalescingTimerExpiry (s : State) : State :=
  match s.events.timer with
  | .running _ => { s with events := { s.events with timer := .expired } }
  | .stopped => s
  | .expired => s

/-- COALESCING_TIMER_EXPIRY. -/
def execCoalescingTimerExpiry (s : State) : Host.Outcome State Fault Refusal := .next (coalescingTimerExpiry s)

end Machine
end Sys2Proof
end

