-- ==== Sys2Proof/Machine/Window.lean ====
section
/-! DEFINITION. The reset pin and the register window: the ten commands with their checks in the order of R167, the
accesses with effects of their own, and the other register writes (10_the_register_window_and_commands.md). -/

namespace Sys2Proof
namespace Machine

/-- POWER_ON_RESET (R36, R48): every block at its power-on values, the straps sampled. The queue of commands is kept
(log 26). -/
def execPowerOnReset (station ring : BitVec 6) (rate : BitVec 2) (s : State) : Host.Outcome State Fault Refusal :=
  .next { State.powerOn ⟨station, ring, rate⟩ with pending := s.pending }

/-- Sets RESULT (R166). -/
def State.answer (s : State) (r : Result) : State := { s with window := { s.window with result := r } }

/-! ### Station commands (R168 to R171) -/

/-- The configuration ATTACH needs: a valid fence, a valid ring, and the ring inside the fence (R156). -/
def State.configured (s : State) : Bool :=
  s.fence.valid && s.events.config.valid && s.events.config.inside s.fence

/-- The ring becomes RING_READY: an unset ring starts empty, a ready one is kept (R156). DESIGN CHOICE, unsafe (log 41):
the coalescing timer stays as it stands in both cases; R156 names it for the second only. -/
def EventUnit.start (e : EventUnit) : EventUnit :=
  if e.ready then e else { e with ready := true, writeIndex := 0, producer := 0, consumer := 0, backlog := [] }

/-- The line interface leaves OFF (R19). -/
def LineInterface.leaveOff (l : LineInterface) (lineDriven : Bool) : LineInterface :=
  { l with phase := if lineDriven then .broken else .rest, brokenWait := .activity, stuckCount := 0 }

/-- The turn unit starts at a moment (R20). -/
def TurnUnit.start (t : TurnUnit) (lineDriven : Bool) (moment : Nat) : TurnUnit :=
  if lineDriven then { t with condition := .busy }
  else { t with condition := .window, anchor := some moment, emptyWindows := 0, lastSender := 0 }

/-- ATTACH (R168, R38, R167). -/
def attach (lineDriven : Bool) (s : State) : State :=
  if s.station.state ≠ .detached then s.answer .badState
  else if !s.configured then s.answer .badConfig
  else
    let t : State :=
      { s with
        events := s.events.start
        station := { s.station with history := [] }
        line := s.line.leaveOff lineDriven
        turn := s.turn.start lineDriven s.clock }
    (t.reportState .joining .attach 0).answer .done

/-- ATTACH. -/
def execAttach (lineDriven : Bool) (s : State) : Host.Outcome State Fault Refusal := .next (attach lineDriven s)

/-- The line interface enters OFF (R19). -/
def LineInterface.enterOff (l : LineInterface) : LineInterface :=
  { l.discardFrame with phase := .off, brokenWait := .activity, stuckCount := 0 }

/-- The turn unit at DETACH (R20): the empty-window count stays as it stands (log 17). -/
def TurnUnit.stop (t : TurnUnit) : TurnUnit :=
  { t with condition := .ignored, anchor := none, lastSender := 0, pointer := 31, holdOff := none, attempt := none }

/-- DETACH (R169, R46, R167). -/
def detach (s : State) : State :=
  if !s.station.state.attached then s.answer .badState
  else if !s.table.isEmpty then s.answer .streamsOpen
  else
    let t : State := { s with line := s.line.enterOff, turn := s.turn.stop }
    (t.reportState .detached .detach 0).answer .done

/-- DETACH. -/
def execDetach (s : State) : Host.Outcome State Fault Refusal := .next (detach s)

/-- REJOIN (R170, R43, R167). -/
def rejoin (s : State) : State :=
  if s.station.state ≠ .quiet then s.answer .badState
  else
    let t : State := { s with station := { s.station with history := [] } }
    ((t.reportState .joining .rejoin 0).joinIfOpen.answer .done).finish

/-- REJOIN. -/
def execRejoin (s : State) : Host.Outcome State Fault Refusal := .next (rejoin s)

/-- The coalescing timer after RESET_STATION: started afresh if records are unconsumed and coalescing is not 0, in
either ring state (R163). -/
def EventUnit.timerAfresh (e : EventUnit) : CoalescingTimer :=
  if e.unconsumed ≠ 0 ∧ e.config.coalescing ≠ 0 then
    .running (e.config.coalescing.toNat * Config.coalescingUnit)
  else .stopped

/-- The event unit's part of RESET_STATION (R163). -/
def EventUnit.softReset (e : EventUnit) : EventUnit :=
  { e with number := 0, writeIndex := e.producer, backlog := [], writesStopped := false, timer := e.timerAfresh,
           overflow := false, hostFault := false }

/-- The arbiter's part of RESET_STATION: the queues empty, a granted transfer discarded (R151). -/
def HostPort.softReset (p : HostPort) : HostPort where
  granted := p.granted.map fun g => { g with discarded := true }
  firstClass := []
  secondClass := []
  thirdClass := []

/-- RESET_STATION (R171, R47, R20, R19, R56, R88, R151, R163). DEDUCED, unsafe (log 45): a frame on the line is stopped
without an outcome, a GONE too (R19, R32, R34), though R102 has that one run to its end and be counted. -/
def resetStation (s : State) : State :=
  if s.station.state = .disabled then s.answer .badState
  else
    let t : State :=
      { s with
        station := { s.station with resumeTo := .joining, history := [], stuckSeen := false }
        line := .powerOn
        turn := .powerOn
        table := []
        pool := .powerOn
        lists := ⟨[], []⟩
        port := s.port.softReset
        events := s.events.softReset
        window := { s.window with info0 := 0, info1 := 0, info2 := 0, info3 := 0 }
        counters := .zero }
    (t.reportState .detached .softReset 0).answer .done

/-- RESET_STATION. -/
def execResetStation (s : State) : Host.Outcome State Fault Refusal := .next (resetStation s)

/-! ### Entry commands (R172 to R177) -/

/-- A publish entry at its creation (R54, R89). -/
def PublishEntry.created (head : Word) : PublishEntry where
  claim := .claiming
  claimDue := true
  disputeDue := false
  disputeMark := false
  yieldDue := false
  claimSent := false
  closeRequested := false
  settleTimer := none
  segmenter := if head = 0 then .noChain else .ready
  position := 0
  nextSequence := 0
  sendQueue := []
  replayQueue := []
  writeBacks := []
  segmentsSent := 0
  resendsSent := 0

/-- A subscribe entry at its creation (R54, R108). -/
def SubscribeEntry.created : SubscribeEntry where
  state := .opened
  closing := false
  publisher := none
  expected := none
  placing := none
  partPlaced := 0
  block := none
  writeOffset := 0
  firstOfBlock := false
  descriptorSequence := none
  written := []
  waiting := []
  highestSeen := none
  repair := .idle
  repairTimer := none
  repairMark := false
  attempts := 0
  requested := none
  starved := false
  chainEnded := false

/-- An ARGUMENT that will be a chain head fails its check (R136, R167). -/
def State.badHead (s : State) : Bool :=
  s.window.argument != 0 && (s.fence.checkDescriptor s.window.argument).isSome

/-- Creates an entry at an index with the chain head of ARGUMENT (R54, R140). -/
def State.createEntry (s : State) (index stream : Nat) (role : Role) : State :=
  let head := s.window.argument
  let t : State :=
    { s with
      table := insertEntry ⟨index, s.nextSerial, stream, .ofHead 0, role⟩ s.table
      nextSerial := s.nextSerial + 1 }
  if head = 0 then t else t.takeHead index head

/-- OPEN_PUBLISH and OPEN_SUBSCRIBE differ in the role they create (R167, R172, R173). -/
def openEntry (stream : BitVec 16) (role : Role) (s : State) : State :=
  if !s.station.state.attached then s.answer .badState
  else if Config.streamCount ≤ stream.toNat then s.answer .badStream
  else if (s.entryOf stream.toNat).isSome then s.answer .inUse
  else
    match s.lowestFree with
    | none => s.answer .tableFull
    | some index =>
      if s.badHead then s.answer .badAddress
      else ((s.createEntry index stream.toNat role).answer .done).finish

/-- OPEN_PUBLISH (R172). -/
def openPublish (stream : BitVec 16) (s : State) : State :=
  openEntry stream (.publish (.created s.window.argument)) s

/-- OPEN_PUBLISH. -/
def execOpenPublish (stream : BitVec 16) (s : State) : Host.Outcome State Fault Refusal := .next (openPublish stream s)

/-- OPEN_SUBSCRIBE (R173). -/
def openSubscribe (stream : BitVec 16) (s : State) : State := openEntry stream (.subscribe .created) s

/-- OPEN_SUBSCRIBE. -/
def execOpenSubscribe (stream : BitVec 16) (s : State) : Host.Outcome State Fault Refusal :=
  .next (openSubscribe stream s)

/-- The checks RESUME, CLOSE, ABORT and INFO share (R167), before the effect on the entry found. -/
def onEntry (stream : BitVec 16) (effect : Entry → State → State) (s : State) : State :=
  if !s.station.state.attached then s.answer .badState
  else if Config.streamCount ≤ stream.toNat then s.answer .badStream
  else
    match s.entryOf stream.toNat with
    | none => s.answer .noEntry
    | some e => effect e s

/-- A RESUME can change the chain of an entry that is CLAIMING or OWNED, or OPEN with closing clear (R145). -/
def Entry.resumable (e : Entry) : Bool :=
  match e.role with
  | .publish p => p.claim == .claiming || p.claim == .owned
  | .subscribe u => u.takesFrames

/-- RESUME at its entry (R145, R174). -/
def resumeEntry (e : Entry) (s : State) : State :=
  if !e.resumable then s.answer .done
  else if !e.chain.linked then
    if s.badHead then s.answer .badAddress
    else if s.window.argument = 0 then s.answer .done
    else (s.takeHead e.index s.window.argument).answer .done
  else if e.chain.lookAhead = .ended then
    ((s.modifySubscribe e.index fun u => { u with chainEnded := false }).lookAgain e.index
      (e.chain.tail.getD 0)).answer .done
  else s.answer .done

/-- RESUME (R174). -/
def resume (stream : BitVec 16) (s : State) : State := onEntry stream resumeEntry s

/-- RESUME. -/
def execResume (stream : BitVec 16) (s : State) : Host.Outcome State Fault Refusal := .next (resume stream s)

/-- An OWNED entry takes CLOSE: CLOSING, with no new block started (R71, R104). -/
def State.beginClosing (s : State) (index : Nat) (p : PublishEntry) : State :=
  let t := s.modifyPublish index fun v =>
    { v with claim := .closing, segmenter := if p.partlySegmented then v.segmenter else .stopped }
  let t :=
    if p.partlySegmented then t
    else { t with pool := { t.pool with waiting := t.pool.waiting.filter (· != index) } }
  t.checkClosing index

/-- CLOSE at its entry (R71, R70). -/
def closeEntry (e : Entry) (s : State) : State :=
  let t : State :=
    match e.role with
    | .publish p =>
      match p.claim with
      | .claiming | .lost => s.freeEntry e.index .close
      | .owned => s.beginClosing e.index p
      | .closing => s
      | .fault =>
        if p.yieldDue then s.modifyPublish e.index fun v => { v with closeRequested := true }
        else s.freeEntry e.index .close
    | .subscribe u =>
      if u.state = SubscribeState.fault then s.freeEntry e.index .close
      else if u.closing then s
      else s.closeSubscribe e.index
  (t.answer .done).finish

/-- CLOSE (R175). -/
def close (stream : BitVec 16) (s : State) : State := onEntry stream closeEntry s

/-- CLOSE. -/
def execClose (stream : BitVec 16) (s : State) : Host.Outcome State Fault Refusal := .next (close stream s)

/-- ABORT at its entry (R55, R176). -/
def abortEntry (e : Entry) (s : State) : State := ((s.freeEntry e.index .abort).answer .done).finish

/-- ABORT (R176). -/
def abort (stream : BitVec 16) (s : State) : State := onEntry stream abortEntry s

/-- ABORT. -/
def execAbort (stream : BitVec 16) (s : State) : Host.Outcome State Fault Refusal := .next (abort stream s)

/-- INFO at its entry (R177). -/
def infoEntry (e : Entry) (s : State) : State :=
  { s with window := { s.window with result := .done, info0 := e.info.1, info1 := e.info.2.1, info2 := e.info.2.2.1,
                                     info3 := e.info.2.2.2 } }

/-- INFO (R177). -/
def info (stream : BitVec 16) (s : State) : State := onEntry stream infoEntry s

/-- INFO. -/
def execInfo (stream : BitVec 16) (s : State) : Host.Outcome State Fault Refusal := .next (info stream s)

/-- A command code that names none of the ten commands (R167). -/
def unknownCode (code : BitVec 16) : Bool := code == 0 || 10 < code.toNat

/-- UNKNOWN_COMMAND (R167): with a code that names a command it is not this event (log 2, log 22). -/
def unknownCommand (code : BitVec 16) (s : State) : State := if unknownCode code then s.answer .badCommand else s

/-- UNKNOWN_COMMAND. -/
def execUnknownCommand (code _stream : BitVec 16) (s : State) : Host.Outcome State Fault Refusal :=
  .next (unknownCommand code s)

/-- The command that a COMMAND word carries (R166, 11.3). -/
def commandWord (code stream : BitVec 16) (lineDriven : Bool) (s : State) : State :=
  match code.toNat with
  | 1 => attach lineDriven s
  | 2 => detach s
  | 3 => rejoin s
  | 4 => resetStation s
  | 5 => openPublish stream s
  | 6 => openSubscribe stream s
  | 7 => resume stream s
  | 8 => close stream s
  | 9 => abort stream s
  | 10 => info stream s
  | _ => unknownCommand code s

/-! ### Register accesses -/

/-- The offset of the STATION register (11.3). -/
def stationOffset : BitVec 7 := 8

/-- STATION_READ (R52, R165): the word is returned as it stands, then both flags clear. A read of any width or byte of
the word does the same. -/
def execStationRead (_lane : BitVec 2) (_width : Nat) (s : State) : Host.Outcome State Fault Refusal :=
  .next { s with
    window := { s.window with readData := s.readRegister stationOffset }
    station := { s.station with stateChanged := false, stuckSeen := false } }

/-- The event records that a write of the ring registers discards: the backlog, the waiting writes, and the write in
flight whose result is wanted (R155). -/
def State.discardedEvents (s : State) : Nat :=
  s.events.backlog.length + s.port.secondClass.countP Request.isEventWrite
    + (s.port.granted.map fun g => flagBit (!g.discarded && g.request.isEventWrite)).getD 0

/-- The ring registers with one of them written (R155, R182). -/
def RingConfig.write (r : RingConfig) (reg : RingRegister) (value : Word) : RingConfig :=
  match reg with
  | .eventBase => { r with base := value &&& 0xFFFFFFE0#32 }
  | .eventCtrl =>
    { r with sizeCode := BitVec.ofNat 4 (fieldOf value 0 4), threshold := BitVec.ofNat 10 (fieldOf value 8 10),
             coalescing := BitVec.ofNat 8 (fieldOf value 24 8) }

/-- A write of EVENT_BASE or EVENT_CTRL (R155): ignored while the station is attached. -/
def ringConfigWrite (reg : RingRegister) (value : Word) (s : State) : State :=
  if s.station.state.configurable then
    { s.countBy .eventsLost s.discardedEvents with
      port := s.port.withdraw Request.isEventWrite
      events := { s.events with
        ready := false, config := s.events.config.write reg value, writeIndex := 0, producer := 0, consumer := 0,
        backlog := [], timer := .stopped } }
  else s

/-- EVENT_RING_CONFIG_WRITE. -/
def execEventRingConfigWrite (reg : RingRegister) (value : Word) (s : State) : Host.Outcome State Fault Refusal :=
  .next (ringConfigWrite reg value s)

/-- The event unit with a new consumer; one equal to the producer stops the coalescing timer (R158, R161). -/
def EventUnit.consume (e : EventUnit) (consumer : Nat) : EventUnit :=
  { e with consumer := consumer, timer := if consumer = e.producer then .stopped else e.timer }

/-- A write of EVENT_CONSUMER (R158): the value modulo the size; the backlog drains into the room it makes. -/
def consumerWrite (value : Word) (s : State) : State :=
  let t : State := { s with events := s.events.consume (fieldOf value 0 10 % s.events.config.size) }
  if t.events.ready && !t.events.writesStopped then drainEvents t.events.backlog t else t

/-- EVENT_CONSUMER_WRITE. -/
def execEventConsumerWrite (value : Word) (s : State) : Host.Outcome State Fault Refusal :=
  .next (consumerWrite value s)

/-- A write of INT_STATUS (R162, R182). -/
def intStatusWrite (value : Word) (s : State) : State :=
  { s with events := { s.events with
      overflow := s.events.overflow && !value.getLsbD 1, hostFault := s.events.hostFault && !value.getLsbD 2 } }

/-- INT_STATUS_WRITE. -/
def execIntStatusWrite (value : Word) (s : State) : Host.Outcome State Fault Refusal := .next (intStatusWrite value s)

/-- A write of a fence register: ignored while the station is attached (R137). -/
def fenceWrite (f : Fence → Fence) (s : State) : State :=
  if s.station.state.configurable then { s with fence := f s.fence } else s

/-- REGISTER_WRITE (R165, R182): of another width or alignment it is ignored, and so is a write to a read-only
register or to an offset that names none. A write to a register whose writes have rows of their own acts as those
(log 22). -/
def registerWrite (offset : BitVec 7) (width : Nat) (value : Word) (lineDriven : Bool) (s : State) : State :=
  if width ≠ 4 ∨ offset.toNat % 4 ≠ 0 then s
  else
    match offset.toNat / 4 with
    | 3 => commandWord (BitVec.ofNat 16 (fieldOf value 0 16)) (BitVec.ofNat 16 (fieldOf value 16 16)) lineDriven s
    | 4 => { s with window := { s.window with argument := value } }
    | 5 => fenceWrite (fun f => { f with base := value &&& 0xFFFFFFF0#32 }) s
    | 6 => fenceWrite (fun f => { f with limit := value ||| 0x0000000F#32 }) s
    | 7 => ringConfigWrite .eventBase value s
    | 8 => ringConfigWrite .eventCtrl value s
    | 10 => consumerWrite value s
    | 11 => intStatusWrite value s
    | 12 => { s with events := { s.events with enable := BitVec.ofNat 3 (fieldOf value 0 3) } }
    | 13 => { s with window := { s.window with counterIndex := BitVec.ofNat 4 (fieldOf value 0 4) } }
    | _ => s

/-- REGISTER_WRITE. -/
def execRegisterWrite (offset : BitVec 7) (width : Nat) (value : Word) (lineDriven : Bool) (s : State) :
    Host.Outcome State Fault Refusal :=
  .next (registerWrite offset width value lineDriven s)

end Machine
end Sys2Proof
end

