-- ==== Sys2Proof/Machine/Dispatch.lean ====
section
/-! DEFINITION. The meaning of every command, one arm for each. -/

namespace Sys2Proof.Machine

def exec (i : Instr) (s : State) : Host.Outcome State Fault Refusal :=
  match i with
  | .powerOnReset station ring rate => Sys2Proof.Machine.execPowerOnReset station ring rate s
  | .attach lineDriven => Sys2Proof.Machine.execAttach lineDriven s
  | .detach => Sys2Proof.Machine.execDetach s
  | .rejoin => Sys2Proof.Machine.execRejoin s
  | .resetStation => Sys2Proof.Machine.execResetStation s
  | .openPublish stream => Sys2Proof.Machine.execOpenPublish stream s
  | .openSubscribe stream => Sys2Proof.Machine.execOpenSubscribe stream s
  | .resume stream => Sys2Proof.Machine.execResume stream s
  | .close stream => Sys2Proof.Machine.execClose stream s
  | .abort stream => Sys2Proof.Machine.execAbort stream s
  | .info stream => Sys2Proof.Machine.execInfo stream s
  | .unknownCommand code stream => Sys2Proof.Machine.execUnknownCommand code stream s
  | .stationRead lane width => Sys2Proof.Machine.execStationRead lane width s
  | .eventRingConfigWrite reg value => Sys2Proof.Machine.execEventRingConfigWrite reg value s
  | .eventConsumerWrite value => Sys2Proof.Machine.execEventConsumerWrite value s
  | .intStatusWrite value => Sys2Proof.Machine.execIntStatusWrite value s
  | .registerWrite offset width value lineDriven => Sys2Proof.Machine.execRegisterWrite offset width value lineDriven s
  | .activityBegins heard => Sys2Proof.Machine.execActivityBegins heard s
  | .stagingClaim stream => Sys2Proof.Machine.execStagingClaim stream s
  | .frameEnd heard => Sys2Proof.Machine.execFrameEnd heard s
  | .spoiledVerdict heard => Sys2Proof.Machine.execSpoiledVerdict s heard
  | .cleanFaultyFrame => Sys2Proof.Machine.execCleanFaultyFrame s
  | .cleanData => Sys2Proof.Machine.execCleanData s
  | .cleanRepair => Sys2Proof.Machine.execCleanRepair s
  | .cleanGone => Sys2Proof.Machine.execCleanGone s
  | .cleanClaim => Sys2Proof.Machine.execCleanClaim s
  | .cleanDispute => Sys2Proof.Machine.execCleanDispute s
  | .cleanYield => Sys2Proof.Machine.execCleanYield s
  | .brokenFrameEnd => Sys2Proof.Machine.execBrokenFrameEnd s
  | .holdActivityEnd => Sys2Proof.Machine.execHoldActivityEnd s
  | .stuckCondition heard => Sys2Proof.Machine.execStuckCondition s heard
  | .stuckEnd atValidCell => Sys2Proof.Machine.execStuckEnd atValidCell s
  | .stuckWaitEnd => Sys2Proof.Machine.execStuckWaitEnd s
  | .windowPassesEmpty => Sys2Proof.Machine.execWindowPassesEmpty s
  | .urgentSlotStart first => Sys2Proof.Machine.execUrgentSlotStart first s
  | .rotationSlotStart first => Sys2Proof.Machine.execRotationSlotStart first s
  | .holdOffExpiry first => Sys2Proof.Machine.execHoldOffExpiry first s
  | .attemptCollided heard => Sys2Proof.Machine.execAttemptCollided s heard
  | .attemptVerdict heard => Sys2Proof.Machine.execAttemptVerdict heard s
  | .claimSettleExpiry index => Sys2Proof.Machine.execClaimSettleExpiry index s
  | .repairDelayExpiry index => Sys2Proof.Machine.execRepairDelayExpiry index s
  | .repairWaitExpiry index => Sys2Proof.Machine.execRepairWaitExpiry index s
  | .replayAgeLimit => Sys2Proof.Machine.execReplayAgeLimit s
  | .coalescingTimerExpiry => Sys2Proof.Machine.execCoalescingTimerExpiry s
  | .transferGrant => Sys2Proof.Machine.execTransferGrant s
  | .headDescriptorReadEnd c => Sys2Proof.Machine.execHeadDescriptorReadEnd c s
  | .lookAheadReadEnd c => Sys2Proof.Machine.execLookAheadReadEnd c s
  | .lastLookEnd c => Sys2Proof.Machine.execLastLookEnd c s
  | .txPayloadReadEnd c => Sys2Proof.Machine.execTxPayloadReadEnd c s
  | .txWriteBackEnd c => Sys2Proof.Machine.execTxWriteBackEnd c s
  | .rxPayloadWriteEnd c => Sys2Proof.Machine.execRxPayloadWriteEnd c s
  | .rxWriteBackEnd c => Sys2Proof.Machine.execRxWriteBackEnd c s
  | .eventWriteEnd c => Sys2Proof.Machine.execEventWriteEnd c s
  | .frameBecomesBroken heard => Sys2Proof.Machine.execFrameBecomesBroken s heard

end Sys2Proof.Machine
end

