-- ==== Sys2Proof/Machine/Time.lean ====
section
/-! DEFINITION. One bit time, for the step on an empty queue (log 1): the timers count, and the commands that fall due
are put into the queue (R23, R24, R27, R61, R84, R122, R161). -/

namespace Sys2Proof
namespace Machine

/-! ### What falls due -/

/-- The expiries of an entry whose timer has run out (R61, R122). -/
def State.entryDue (s : State) (e : Entry) : List Instr :=
  match e.role with
  | .publish p => if p.settleTimer = some 0 ∧ s.station.state.receiving = true then [.claimSettleExpiry e.index] else []
  | .subscribe u =>
    if u.repairTimer = some 0 ∧ s.repairPaused u = false then
      match u.repair with
      | .waiting => [.repairDelayExpiry e.index]
      | .requested => [.repairWaitExpiry e.index]
      | .idle | .due => []
    else []

/-- The replay cells that have reached the age limit (R84). -/
def State.ageDue (s : State) : List Instr :=
  if s.station.state.receiving then
    (s.pool.aged.filter fun a => Config.replayAge ≤ a.age).map fun _ => .replayAgeLimit
  else []

/-- The coalescing timer's expiry (R161). -/
def EventUnit.due (e : EventUnit) : List Instr := if e.timer = .running 0 then [.coalescingTimerExpiry] else []

/-- The hold-off's expiry (R27). -/
def TurnUnit.holdOffDue (t : TurnUnit) : List Instr := if t.holdOff = some 0 then [.holdOffExpiry .sent] else []

/-- The length of a window in bit times (R23). -/
def State.windowLength (s : State) : Nat := Config.slotTime * (s.ringSize + 1)

/-- The rotation slot a station owns in a ring of `ring` stations, by the last-sender record (R24). -/
def ownedSlot (ring station lastSender : Nat) : Nat := (ring + station - lastSender - 1) % ring

/-- The start of this station's own rotation slot, in bit times after the window's beginning (R23, R24). -/
def State.ownSlotStart (s : State) : Nat :=
  Config.slotTime * (ownedSlot s.ringSize s.ownNumber s.turn.lastSender + 1)

/-- The moments of the present window that fall now (R23, R25): the end of the window, with the urgent slot of the
next one if there is a next, the urgent slot, the own rotation slot. Before the window's beginning, which a sender that
ends a window early leaves ahead (log 3), none falls. -/
def State.windowDue (s : State) : List Instr :=
  match s.turn.condition, s.turn.anchor with
  | .window, some anchor =>
    let begins := anchor + s.turn.emptyWindows * s.windowLength
    if s.clock = begins + s.windowLength then
      .windowPassesEmpty :: (if s.turn.emptyWindows = 0 then [.urgentSlotStart .sent] else [])
    else if s.clock = begins then [.urgentSlotStart .sent]
    else if s.clock = begins + s.ownSlotStart then [.rotationSlotStart .sent]
    else []
  | _, _ => []

/-- Everything that falls due in the present bit time, in a fixed order (log 10). -/
def State.due (s : State) : List Instr :=
  s.events.due ++ s.table.flatMap s.entryDue ++ s.ageDue ++ s.windowDue ++ s.turn.holdOffDue

/-! ### One bit time -/

/-- A running timer with one bit time less. -/
def countDown (t : Option Nat) : Option Nat := t.map (· - 1)

/-- The timers of an entry after one bit time: counted in JOINING, ACTIVE and QUIET; a repair timer stands still while
the entry is starved (R61, R122). -/
def Entry.count (e : Entry) : Entry :=
  { e with role := match e.role with
      | .publish p => .publish { p with settleTimer := countDown p.settleTimer }
      | .subscribe u => .subscribe { u with repairTimer := if u.starved then u.repairTimer else countDown u.repairTimer } }

/-- The coalescing timer after one bit time, in every station state (R161). -/
def CoalescingTimer.count : CoalescingTimer → CoalescingTimer
  | .running n => .running (n - 1)
  | .stopped => .stopped
  | .expired => .expired

/-- One bit time passes. In REST the line is released (R9), which returns the stuck count to 0 (R15). -/
def State.passBitTime (s : State) : State :=
  let counted : State :=
    if s.station.state.receiving then
      { s with
        table := s.table.map Entry.count
        pool := { s.pool with aged := s.pool.aged.map fun a => { a with age := a.age + 1 } } }
    else s
  { counted with
    line := if s.line.phase = .rest then { s.line with stuckCount := 0 } else s.line
    turn := { s.turn with holdOff := countDown s.turn.holdOff }
    events := { s.events with timer := s.events.timer.count }
    clock := s.clock + 1
    momentTaken := false }

/-- The step on an empty queue (log 1): what falls due in the present bit time is queued first, then the bit time
passes. -/
def State.tick (s : State) : State :=
  if !s.momentTaken && !s.due.isEmpty then { s with momentTaken := true, pending := s.due } else s.passBitTime

end Machine
end Sys2Proof
end

