-- ==== Sys2Proof/Safety.lean ====
section
/-! DEFINITION. What a safe state is, and what the engines leave alone: the predicates the statements and the laws
speak of. None of them is used by a meaning. -/

namespace Sys2Proof
namespace Machine

/-! ### Invariants -/

/-- The outcome history holds at most 16 outcomes, at most 8 of them failures, and while the station is ACTIVE fewer
than 8; so it is in JOINING, and in a HOLD that goes back to JOINING, since both lead to ACTIVE (R41). -/
def State.historyOk (s : State) : Prop :=
  s.station.history.length ≤ Config.historyLimit ∧ failureCount s.station.history ≤ Config.failureLimit ∧
    ((s.station.state = .active ∨ s.station.state = .joining ∨
        (s.station.state = .hold ∧ s.station.resumeTo = .joining)) →
      failureCount s.station.history < Config.failureLimit)

/-- What names an entry for as long as it lives: its index, its serial, its stream and its role. -/
def Entry.key (e : Entry) : Nat × Nat × Nat × Bool := (e.index, e.serial, e.stream, e.publish?.isSome)

/-- The table's entries stand at distinct indexes 0 to 31 in rising order, with distinct streams 0 to 1023 and distinct
serials already given (R53). -/
def State.tableOk (s : State) : Prop :=
  (s.table.map (·.index)).Pairwise (· < ·) ∧ (s.table.map (·.stream)).Nodup ∧ (s.table.map (·.serial)).Nodup ∧
    ∀ e ∈ s.table, e.index < Config.tableSize ∧ e.stream < Config.streamCount ∧ e.serial < s.nextSerial

/-- Off the line, in DISABLED and DETACHED, the station has no entry, its line interface is OFF, its line condition
IGNORED with no anchor and no last sender, and it sends nothing (R37, R38, R19, R20). -/
def State.offLineOk (s : State) : Prop :=
  s.station.state.attached = false →
    s.table = [] ∧ s.line.phase = .off ∧ s.turn.condition = .ignored ∧ s.turn.anchor = none ∧
      s.turn.lastSender = 0 ∧ s.turn.holdOff = none ∧ s.turn.attempt = none

/-- The phase STUCK and the line condition STUCK come and go together, at a station in HOLD; in every other phase the
stuck count stands below 4096 (R15, R16, R21, R44). -/
def State.stuckOk (s : State) : Prop :=
  (s.line.phase = .stuck ↔ s.turn.condition = .stuck) ∧ (s.line.phase = .stuck → s.station.state = .hold) ∧
    (s.line.phase ≠ .stuck → s.line.stuckCount < Config.stuckLimit)

/-- The fence starts a 16-byte unit and ends one, unless the limit has not been written (R137, 11.3). -/
def State.fenceOk (s : State) : Prop :=
  s.fence.base.toNat % 16 = 0 ∧ (s.fence.limit = 0 ∨ s.fence.limit.toNat % 16 = 15)

/-- The ring starts on a 32-byte boundary (R155). -/
def State.ringOk (s : State) : Prop := s.events.config.base.toNat % 32 = 0

/-- No sequence of a stream is covered by two entries of the GONE list (R99). -/
def goneApart (gone : List GoneEntry) : Prop :=
  ∀ g ∈ gone, ∀ h ∈ gone, g.stream = h.stream → ∀ q, g.covers q = true → h.covers q = true → g = h

/-- A GONE list within its limits: at most 4 entries of 1 to 16 sequences, no two entries of a stream overlapping (R99),
each with a serial of its own that has been given. -/
def goneOk (gone : List GoneEntry) (nextSerial : Nat) : Prop :=
  gone.length ≤ Config.goneLimit ∧ (gone.map (·.serial)).Nodup ∧
    (∀ g ∈ gone, 1 ≤ g.count ∧ g.count ≤ Config.rangeLimit ∧ g.serial < nextSerial) ∧ goneApart gone

/-- The station-wide lists and the backlog keep their limits: at most 16 resends, no two alike (R97), the GONE list's
(R99), at most 4 events held back (R159). -/
def State.listsOk (s : State) : Prop :=
  s.lists.resend.length ≤ Config.resendLimit ∧ s.lists.resend.Nodup ∧ goneOk s.lists.gone s.nextSerial ∧
    s.events.backlog.length ≤ Config.backlogLimit

/-- Each of the pool's cells has exactly one holder: the free list, or a queue or reorder list of one entry (R76). -/
def State.cellsHeldOnce (s : State) : Prop :=
  (s.pool.free ++ s.table.flatMap Entry.cells).Perm (List.range Config.poolCells)

/-- The global replay age list names exactly the replay cells, those of one entry in the order of its replay queue
(R82). -/
def State.agedOk (s : State) : Prop :=
  (∀ a ∈ s.pool.aged, (s.publishAt a.index).isSome = true) ∧
    ∀ i p, s.publishAt i = some p →
      ((s.pool.aged.filter fun a => a.index == i).map AgedCell.cell) = p.replayQueue.map PublishCell.cell

/-- Every queue of an entry keeps its limit: 8 cells in a send queue, 32 in a replay queue, 8 in a reorder list (R76,
R91, R112). -/
def State.queuesOk (s : State) : Prop :=
  (∀ i p, s.publishAt i = some p →
      p.sendQueue.length ≤ Config.sendLimit ∧ p.replayQueue.length ≤ Config.replayLimit) ∧
    ∀ i u, s.subscribeAt i = some u → u.reorderCount ≤ Config.reorderLimit

/-- The entries that wait for a cell are publish entries in WAIT_CELL with room for it, each waiting once (R79, R80). -/
def State.waitingOk (s : State) : Prop :=
  s.pool.waiting.Nodup ∧ ∀ i ∈ s.pool.waiting, ∃ p, s.publishAt i = some p ∧ p.segmenter = .waitCell ∧
    p.sendQueue.length < Config.sendLimit

/-- The requests that wait or are in flight with their result wanted. -/
def HostPort.wanted (p : HostPort) : List Request :=
  p.firstClass ++ p.secondClass ++ p.thirdClass
    ++ (p.granted.filter fun g => !g.discarded).toList.map Granted.request

/-- A payload read is wanted only for a FILLING entry, and at most one (R91, R149). -/
def State.readsOk (s : State) : Prop :=
  ∀ i, s.port.wanted.countP (Request.payloadReadOf i) ≤
    if (s.publishAt i).any (·.segmenter == .filling) then 1 else 0

/-- The cell pool and the queues are as R76, R82, R91 and R112 have them, with the claims and reads that keep them so.
-/
def State.cellsOk (s : State) : Prop :=
  s.cellsHeldOnce ∧ s.agedOk ∧ s.queuesOk ∧ s.waitingOk ∧ s.readsOk

/-- All of these. -/
def State.safe (s : State) : Prop :=
  s.historyOk ∧ s.tableOk ∧ s.offLineOk ∧ s.stuckOk ∧ s.fenceOk ∧ s.ringOk ∧ s.listsOk ∧ s.cellsOk

/-! ### Words of the statements -/

/-- The publish engine's lists once the replay cell of a sequence has left its queue: its resend list entry is removed
and the sequence joins the GONE list; one that is not to be resent leaves both as they are (R86, R98). -/
def State.listsWithout (s : State) (index stream : Nat) (q : Seq) : PublishLists :=
  if (⟨index, q⟩ : Resend) ∈ s.lists.resend then
    ⟨s.lists.resend.filter (fun r => decide (r ≠ ⟨index, q⟩)), goneAdded s.lists.gone s.nextSerial stream q⟩
  else s.lists

/-- What emitting an event can change: the event unit, the event writes that wait at the arbiter, and EVENTS_LOST (R153,
R157, R159, R160). -/
def State.eventState (s : State) : EventUnit × List Request × BitVec 32 :=
  (s.events, s.port.secondClass.filter Request.isEventWrite, s.counters.eventsLost)

/-- From `s` to `t` exactly these events have been asked for, in this order: what the event unit holds, has requested
and has lost in `t` is what emitting them one after another in `s` leaves (R153, R157, R159). -/
def State.reports (s t : State) (asked : List Event) : Prop := t.eventState = (asked.foldl State.emit s).eventState

/-- A STATION_STATE record: the cause, the state entered and the state left, the station it names and the failure count
(R50); the fields it does not use are 0 or none (R154). -/
def stateRecord (cause : Nat) (entered left : StationState) (station failures : Nat) : Event where
  kind := .stationState
  code := cause
  entered := entered.code
  left := left.code
  number := 0
  stream := none
  station := station
  sequence := 0
  count := failures
  descriptor := 0

/-- The command that reports the clean verdict of a frame's kind (R14). -/
def cleanCommand : Frame → Instr
  | .data .. => .cleanData
  | .repair .. => .cleanRepair
  | .gone .. => .cleanGone
  | .claim .. => .cleanClaim
  | .dispute .. => .cleanDispute
  | .yield .. => .cleanYield

/-- The state after the stream table has taken a clean frame (R59): the receive record is empty, and what the frame's
kind asks of its stream's entry is done. `cleanVerdict` then moves the line and the station. -/
def State.atTable (s : State) (f : Frame) : State :=
  let t := { s with line := s.line.discardFrame.verdictOver }
  match f with
  | .data x n q first last replayed decoded coded =>
    dataHeard t s.line.fillingBuffer ⟨n, x, q, first, last, replayed, decoded, coded⟩
  | .repair x n target q count => repairHeard t x n target q count
  | .gone x n q count => goneHeard t x n q count
  | .claim x n => claimHeard t x n
  | .dispute x n owner => disputeHeard t x n owner
  | .yield x n => yieldHeard t x n

/-- A frame of another station stands in the receive record, its verdict slot is running at a station that follows the
line, and no fault was found in it (R13, R14). -/
def State.hears (s : State) (f : Frame) : Prop :=
  s.station.state.receiving = true ∧ s.line.phase = .verdict ∧ s.turn.attempt = none ∧ s.line.faults.any = false ∧
    s.line.spoiling = false ∧ s.line.record = some f

/-- A publish entry that has ended: in the given claim state, with nothing queued, nothing due but the YIELD given, no
timer, segmenter STOPPED (R64, R72, R105). -/
def PublishEntry.isEnded (p : PublishEntry) (claim : ClaimState) (yieldDue : Bool) : Prop :=
  p.claim = claim ∧ p.claimDue = false ∧ p.disputeDue = false ∧ p.disputeMark = false ∧ p.yieldDue = yieldDue ∧
    p.settleTimer = none ∧ p.segmenter = .stopped ∧ p.sendQueue = [] ∧ p.replayQueue = [] ∧ p.writeBacks = []

/-- No list of the pool or of the publish engine and no request names the entry at an index with its stream: none of its
cells ages, no claim of it waits, nothing of it is to be resent or announced as gone (R55, R64, R72). -/
def State.forgets (s : State) (index stream : Nat) : Prop :=
  (∀ a ∈ s.pool.aged, a.index ≠ index) ∧ index ∉ s.pool.waiting ∧ (∀ r ∈ s.lists.resend, r.index ≠ index) ∧
    (∀ g ∈ s.lists.gone, g.stream ≠ stream) ∧
    ∀ r ∈ s.port.firstClass ++ s.port.secondClass ++ s.port.thirdClass, r.index? ≠ some index

/-- A DUE entry that may ask: it takes frames, its publisher and its expected sequence are known, no segment is being
placed and it is not starved (R120, R124). -/
def SubscribeEntry.asks (u : SubscribeEntry) (target : Nat) (x : Seq) : Prop :=
  u.repair = .due ∧ u.publisher = some target ∧ u.expected = some x ∧ u.takesFrames = true ∧ u.placing = none ∧
    u.starved = false

/-- A subscribe entry in FAULT: nothing being placed, no cell, no repair (R58, R131). -/
def SubscribeEntry.isFaulted (u : SubscribeEntry) : Prop :=
  u.state = .fault ∧ u.placing = none ∧ u.written = [] ∧ u.waiting = [] ∧ u.repair = .idle ∧ u.repairTimer = none

/-- The segment the entry is placing stands in this source. -/
def SubscribeEntry.places (u : SubscribeEntry) (source : SegmentSource) : Bool := u.placing.any (·.source == source)

/-- From `s` to `w` the entry `e`, with fields `u`, has given up the segment it was placing, if any, and has fields `v`
(R129, R131). A staging buffer is free once no write from it is outstanding, if no other entry is placing from it. A
cell leaves the waiting segments, and is a written cell while a write from it is outstanding. -/
structure GivesUp (s w : State) (e : Entry) (u v : SubscribeEntry) : Prop where
  placing : v.placing = none
  freed : ∀ k, u.places (.staging k) = true → s.port.outstanding (Request.writesFrom (.staging k)) = false →
    (∀ f r, f ∈ s.table → f ≠ e → f.role = .subscribe r → r.places (.staging k) = false) → w.line.buffer k = .free
  kept : ∀ k, u.places (.staging k) = false ∨ s.port.outstanding (Request.writesFrom (.staging k)) = true →
    w.line.buffer k = s.line.buffer k
  written : ∀ c, u.places (.cell c) = true → v.written =
    if s.port.outstanding (Request.writesFrom (.cell c)) then u.written ++ u.waiting.filter (·.cell == c)
    else u.written.filter (·.cell != c)
  others : (∀ c, u.places (.cell c) = false) → v.written = u.written

/-- From `s` to `w` the entry `e`, with fields `u`, has lost the `n` sequences from `x`, its expected one, and has
fields `v`; its reorder list has not been drained yet (R129, steps 1 to 6; R117, R126). With no claim waiting its
released cells join the free list at its tail (log 10); the closing write-back of a descriptor with no segment placed in
it carries the block's first sequence (log 35). -/
structure Loses (s w : State) (e : Entry) (u v : SubscribeEntry) (x : Seq) (n : Nat) : Prop extends
    GivesUp s w e u v where
  expected : v.expected = some (x + BitVec.ofNat 12 n)
  partPlaced : v.partPlaced = 0
  starved : v.starved = false
  block : v.block = none
  waiting : v.waiting =
    u.waiting.filter fun c => !u.places (.cell c.cell) && decide (n ≤ forwardDistance x c.sequence)
  cells : s.pool.waiting = [] → (∀ c, u.places (.cell c) = false) → w.pool.free =
    s.pool.free ++ (u.waiting.filter fun c => decide (forwardDistance x c.sequence < n)).map ReorderCell.cell
  parked : s.pool.waiting = [] → ∀ c ∈ u.waiting, u.places (.cell c.cell) = true →
    s.port.outstanding (Request.writesFrom (.cell c.cell)) = false → w.pool.free = s.pool.free ++ c.cell ::
      (u.waiting.filter fun d => d.cell != c.cell && decide (forwardDistance x d.sequence < n)).map ReorderCell.cell
  highestSeen : v.highestSeen = u.highestSeen.filter fun h => forwardDistance (x + BitVec.ofNat 12 n) h ≤ 2047
  noGap : v.highestSeen = none →
    v.repair = .idle ∧ v.repairTimer = none ∧ v.repairMark = false ∧ v.attempts = 0 ∧ v.requested = none
  gap : v.highestSeen ≠ none →
    (u.repair = .idle → v.repair = .idle) ∧
    (u.repair = .waiting ∨ u.repair = .due →
      v.repair = .waiting ∧ v.repairTimer = some 2048 ∧ v.repairMark = false ∧ v.attempts = u.attempts) ∧
    (u.repair = .requested →
      v.repair = .requested ∧ v.repairTimer = some 8192 ∧ v.attempts = 0 ∧ v.requested = u.requested)
  noBlock : u.block = none → v.writeOffset = u.writeOffset ∧
    ∃ f, w.entryAt e.index = some f ∧ f.role = .subscribe v ∧ f.chain = e.chain
  closed : ∀ b a d, u.block = some b → e.chain.current = .held a d → v.writeOffset = 0 ∧
    (Request.rxWriteBack e.index
      { descriptor := a, used := u.writeOffset, start := u.firstOfBlock, endFlag := true, status := .lost,
        sequence := u.descriptorSequence.getD b.sequence, closes := some b }) ∈ w.port.firstClass ∧
    ∃ f, w.entryAt e.index = some f ∧ f.role = .subscribe v ∧
      (∀ h r, e.chain.lookAhead = .held h r → f.chain.current = .held h r) ∧
      ((∀ h r, e.chain.lookAhead ≠ .held h r) → f.chain = { e.chain with current := .none })

/-- `t` is `w` once the reorder list of the entry `e` has been drained, from its first waiting segment (R114, R129). The
entry has fields `v` in `w`, with `y` expected, no block open and nothing being placed. A segment elsewhere stays.
Without FIRST the segment at `y` is an orphan and its cell is released; with FIRST it is placed at the write offset,
where it fits, and opens a block. Said in full where the segment after it does not stand at the next sequence. -/
structure Drains (w t : State) (e : Entry) (v : SubscribeEntry) (y : Seq) : Prop where
  placed : t = w.placeOn e.index
  stays : (∀ c rest, v.waiting = c :: rest → c.sequence ≠ y) → t = w
  orphan : ∀ c rest, v.waiting = c :: rest → c.sequence = y → c.first = false →
    (∀ d more, rest = d :: more → d.sequence ≠ y + 1) →
    w.reports t [] ∧ t.counters = { w.counters with orphanSegments := w.counters.orphanSegments + 1 } ∧
    (w.pool.waiting = [] → t.pool.free = w.pool.free ++ [c.cell]) ∧
    ∃ r, t.subscribeAt e.index = some r ∧ r.expected = some (y + 1) ∧ r.waiting = rest ∧ r.written = v.written ∧
      r.placing = none ∧ r.block = none
  opens : ∀ c rest f a d, v.waiting = c :: rest → c.sequence = y → c.first = true → c.last = false →
    (∀ b more, rest = b :: more → b.sequence ≠ y + 1) → (∀ b ∈ rest, b.cell ≠ c.cell) →
    w.entryAt e.index = some f → f.chain.current = .held a d → 1 ≤ c.bytes.length →
    v.writeOffset + c.bytes.length ≤ d.length →
    w.fence.contains (d.buffer.toNat + v.writeOffset) c.bytes.length = true →
    w.reports t [] ∧ t.counters = w.counters ∧ t.pool = w.pool ∧ t.port = { w.port with
      firstClass := w.port.firstClass ++ [.rxPayload e.index (.cell c.cell) a
        (BitVec.ofNat 32 (d.buffer.toNat + v.writeOffset)) 0 c.bytes.length] } ∧
    ∃ r, t.subscribeAt e.index = some r ∧ r.expected = some (y + 1) ∧ r.waiting = rest ∧
      r.written = v.written ++ [c] ∧ r.placing = none ∧ r.writeOffset = v.writeOffset + c.bytes.length ∧
      r.block = some ⟨a, c.sequence, c.bytes.length, c.sender⟩

/-- The look-ahead that the link of a descriptor taken as current gives: END for 0, FAULTY for an address that fails its
check, else READING (R136, R141). -/
def Fence.lookAheadFor (f : Fence) (link : Word) : LookAhead :=
  if link = 0 then .ended
  else if link.toNat % 16 ≠ 0 then .faulty link .badDescriptor
  else if f.contains link.toNat 16 then .reading link
  else .faulty link .fence

/-- The read that goes with a READING look-ahead, for the entry at an index (R141). -/
def Fence.linkReads (f : Fence) (index : Nat) (link : Word) : List Request :=
  if f.lookAheadFor link = .reading link then [.lookAheadRead index link] else []

/-- What an entry asks for as placing leaves its full descriptor for the next: the full write-back where a block is open,
else nothing (R115, R117). The block's first sequence stands in for that of a descriptor with no segment placed in it
(log 35), which no run fills. -/
def Entry.leaving (e : Entry) (u : SubscribeEntry) : List Request :=
  match u.block, e.chain.current with
  | some b, .held h d =>
    [.rxWriteBack e.index
      { descriptor := h, used := d.length, start := u.firstOfBlock, endFlag := false, status := .ok,
        sequence := u.descriptorSequence.getD b.sequence, closes := none }]
  | _, _ => []

/-- From `s` to `w` the entry `e`, with fields `u`, has asked for `before`, the descriptor `d` at `a` has become current
with write offset 0 and its link is followed, and `pl`, the segment at `x` that it was placing, goes on in it from its
bytes placed. What is left of the segment fits, and its placing ends, with LAST the block too, which closes OK; or it
fills the descriptor and waits for the next one, which is being read, or for the last look at the tail, or a FAULTY
link puts the entry in FAULT, as a piece outside the fence does. Without FIRST and without a block it is an orphan (log
37). Where a placing ends it is said of a list whose next segment does not stand at the next sequence (R111, R115, R117,
R121, R138, R141, R142, R147). -/
def State.takesUp (s w : State) (e : Entry) (u : SubscribeEntry) (pl : Placing) (x : Seq) (a : Word) (d : Descriptor)
    (before : List Request) : Prop :=
  let n := min (pl.length - pl.placed) d.length
  let fits : Prop := pl.length - pl.placed ≤ d.length
  let inside := s.fence.contains d.buffer.toNat n
  let look := s.fence.lookAheadFor d.link
  let chain : Chain := { e.chain with current := .held a d, lookAhead := look, tail := some a }
  let piece : Request := .rxPayload e.index pl.source a d.buffer pl.placed n
  let block : OpenBlock := match u.block with
    | some b => { b with bytes := b.bytes + n }
    | none => ⟨a, pl.sequence, n, pl.sender⟩
  let others := u.waiting.filter fun c => pl.source != .cell c.cell
  let own := u.waiting.filter fun c => pl.source == .cell c.cell
  let stops : Prop := ∀ c rest, others = c :: rest → c.sequence ≠ x + 1
  let filled : SubscribeEntry := { u with
    placing := some { pl with placed := pl.placed + n }, block := some block, firstOfBlock := u.block.isNone
    descriptorSequence := some pl.sequence, writeOffset := n, starved := false }
  let ended (v : SubscribeEntry) : Prop := v.expected = some (x + 1) ∧ v.placing = none ∧ v.partPlaced = 0 ∧
    v.starved = false ∧ v.waiting = others
  let stands (c : Chain) (v : SubscribeEntry) : Prop := ∃ f, w.entryAt e.index = some f ∧
    w.finish.entryAt e.index = some f ∧ f.role = .subscribe v ∧ f.chain = c
  let asked (requests : List Request) : Prop := s.reports w [] ∧ w.line = s.line ∧ w.pool = s.pool ∧
    w.counters = s.counters ∧ piece ∈ w.finish.port.firstClass ∧ w.port = { s.port with
      granted := none
      firstClass := s.port.firstClass ++ before ++ s.fence.linkReads e.index d.link ++ requests }
  let faults (code count : Nat) (address : Word) : Prop :=
    (∃ v, w.subscribeAt e.index = some v ∧ v.isFaulted) ∧
    s.reports w [streamEvent .streamFault code e.stream (u.publisher.getD 0) x.toNat count address]
  (u.block.isSome = true ∨ pl.first = true →
    (inside = false → faults 2 n a) ∧
    (inside = true → fits → stops → pl.last = false → asked [piece] ∧
      ∃ v, stands chain v ∧ ended v ∧ v.written = u.written ++ own ∧ v.writeOffset = n ∧ v.block = some block ∧
        v.firstOfBlock = u.block.isNone ∧ v.descriptorSequence = some pl.sequence) ∧
    (inside = true → fits → stops → pl.last = true →
      asked [piece, .rxWriteBack e.index
        { descriptor := a, used := n, start := u.block.isNone, endFlag := true, status := .ok,
          sequence := pl.sequence, closes := some block }] ∧
      ∃ v, stands { chain with current := .none } v ∧ ended v ∧ v.written = u.written ++ own ∧ v.writeOffset = 0 ∧
        v.block = none) ∧
    (inside = true → ¬fits → look = .reading d.link → asked [piece] ∧ stands chain filled) ∧
    (inside = true → ¬fits → d.link = 0 → u.chainEnded = false →
      asked [piece, .lastLook e.index a] ∧ stands { chain with lookAhead := .looking } filled) ∧
    (inside = true → ¬fits → ∀ cause, look = .faulty d.link cause → faults cause.code 0 d.link)) ∧
  (u.block = none → pl.first = false → stops → s.reports w [] ∧
    w.counters = { s.counters with orphanSegments := s.counters.orphanSegments + 1 } ∧
    (∀ c, own = [c] → s.port.outstanding (Request.writesFrom (.cell c.cell)) = false → s.pool.waiting = [] →
      w.pool.free = s.pool.free ++ [c.cell]) ∧
    ∃ v, stands chain v ∧ ended v ∧ GivesUp s w e u v ∧ v.block = none ∧ v.writeOffset = 0)

/-- Nothing may claim or read: no segmenter work is possible now (R90, R91). -/
def State.segmentersRest (s : State) : Prop := s.table.find? (fun e => e.wantsClaim || s.wantsRead e) = none

/-! ### What the engines leave alone -/

/-- The counters that the line interface and the turn unit count: 0 to 5 (10, section 10.5). -/
def Counters.ofLine (c : Counters) : List (BitVec 32) :=
  [c.cleanFrames, c.spoiledSeen, c.spoilsDriven, c.brokenFrames, c.ownCollisions, c.stagingOverruns]

/-- `t` is `s` after work of the engines: the cell pool, the publish and subscribe engines, the chain unit, the event
unit taking events. They change entries, cells, lists, requests, held staging buffers, the event numbers, the backlog
and the counters, and they may free entries. Everything named here stays, but for the hold-off, which only an ACTIVE
station starts; the lists keep their limits. -/
structure EngineFrame (s t : State) : Prop where
  station : t.station = s.station
  phase : t.line.phase = s.line.phase
  brokenWait : t.line.brokenWait = s.line.brokenWait
  stuckCount : t.line.stuckCount = s.line.stuckCount
  record : t.line.record = s.line.record
  faults : t.line.faults = s.line.faults
  spoiling : t.line.spoiling = s.line.spoiling
  condition : t.turn.condition = s.turn.condition
  anchor : t.turn.anchor = s.turn.anchor
  emptyWindows : t.turn.emptyWindows = s.turn.emptyWindows
  lastSender : t.turn.lastSender = s.turn.lastSender
  pointer : t.turn.pointer = s.turn.pointer
  attempt : t.turn.attempt = s.turn.attempt
  holdOff : t.turn.holdOff = s.turn.holdOff ∨ t.turn.holdOff = none ∨ s.station.state = .active
  fence : t.fence = s.fence
  ready : t.events.ready = s.events.ready
  config : t.events.config = s.events.config
  producer : t.events.producer = s.events.producer
  consumer : t.events.consumer = s.events.consumer
  timer : t.events.timer = s.events.timer
  enable : t.events.enable = s.events.enable
  window : t.window = s.window
  clock : t.clock = s.clock
  momentTaken : t.momentTaken = s.momentTaken
  pending : t.pending = s.pending
  lineCounters : t.counters.ofLine = s.counters.ofLine
  serial : s.nextSerial ≤ t.nextSerial
  keys : (t.table.map Entry.key).Sublist (s.table.map Entry.key)
  limits : s.listsOk → t.listsOk

end Machine
end Sys2Proof
end

