-- ==== Sys2Proof/Certificates/Slice0/Obligations.lean ====
section
/-! DEFINITION. The statements about the model, one definition each. -/

open Sys2Proof Sys2Proof.Machine

/-! ### The queue, the step and time -/

/-- A step takes the command at the front of the queue. -/
def Obligations.StepRunsTheCommandAtTheFront : Prop :=
  ∀ (c : Instr) (rest : List Instr) (s : State),
    step { s with pending := c :: rest } = exec c { s with pending := rest }

/-- Every command, with every operand, in every state, ends in a next state; where the event of its row does not occur
it leaves the state as it is (log 2). It leaves the queue to the step, POWER_ON_RESET too (log 26), and only
POWER_ON_RESET changes the strap values (R36). -/
def Obligations.EveryCommandCompletesAndKeepsQueueAndStraps : Prop :=
  ∀ (c : Instr) (s : State), ∃ t, exec c s = .next t ∧ t.pending = s.pending ∧
    ((∀ n k r, c ≠ .powerOnReset n k r) → t.station.straps = s.station.straps)

/-- The model's choice (log 1): with an empty queue a step queues what falls due now, or else lets one bit time pass.
Then the hold-off and the coalescing timer count (R27, R161); the settle timer, the repair timer and the replay ages
count in JOINING, ACTIVE and QUIET and stand still in HOLD; a repair timer also stands still while its entry is starved
(R61, R84, R122). In REST the line is released, and the stuck count is 0 (R15). Of a window these fall due, `d` bit
times after its beginning: the urgent slot at its start, this station's own rotation slot, and the end of the window,
which is the start of the next one if it was the first (R23, R25). Besides, a running settle timer and a repair timer
that is not paused fall due with no bit time left, each replay cell that ages at the age limit of 65536 bit times, the
coalescing timer and the hold-off with no bit time left, and nothing else does. -/
def Obligations.AnIdleStepQueuesWhatIsDueOrPassesABitTime : Prop :=
  (∀ s : State, s.pending = [] →
      (s.momentTaken = false → s.due ≠ [] → step s = .next { s with momentTaken := true, pending := s.due }) ∧
      (s.momentTaken = true ∨ s.due = [] → ∃ t, step s = .next t ∧
        t.clock = s.clock + 1 ∧ t.momentTaken = false ∧ t.pending = [] ∧ t.station = s.station ∧
        t.line = { s.line with stuckCount := if s.line.phase = .rest then 0 else s.line.stuckCount } ∧
        t.turn = { s.turn with holdOff := s.turn.holdOff.map (· - 1) } ∧ t.lists = s.lists ∧ t.port = s.port ∧
        t.fence = s.fence ∧ t.window = s.window ∧ t.counters = s.counters ∧ t.nextSerial = s.nextSerial ∧
        t.events = { s.events with timer := t.events.timer } ∧
        (∀ n, s.events.timer = .running n → t.events.timer = .running (n - 1)) ∧
        ((∀ n, s.events.timer ≠ .running n) → t.events.timer = s.events.timer) ∧
        (s.station.state.receiving = false → t.table = s.table ∧ t.pool = s.pool) ∧
        (s.station.state.receiving = true →
          t.table.map Entry.key = s.table.map Entry.key ∧
          t.pool = { s.pool with aged := s.pool.aged.map fun a => { a with age := a.age + 1 } } ∧
          (∀ i p, s.publishAt i = some p →
            t.publishAt i = some { p with settleTimer := p.settleTimer.map (· - 1) }) ∧
          ∀ i u, s.subscribeAt i = some u →
            t.subscribeAt i =
              some { u with repairTimer := if u.starved then u.repairTimer else u.repairTimer.map (· - 1) }))) ∧
  (∀ (s : State) (a d : Nat), s.turn.condition = .window → s.turn.anchor = some a → 1 ≤ s.ringSize →
      s.clock = a + s.turn.emptyWindows * (16 * (s.ringSize + 1)) + d →
        (d = 0 → s.windowDue = [.urgentSlotStart .sent]) ∧
        (d = 16 * (ownedSlot s.ringSize s.ownNumber s.turn.lastSender + 1) →
          s.windowDue = [.rotationSlotStart .sent]) ∧
        (d = 16 * (s.ringSize + 1) →
          s.windowDue = .windowPassesEmpty :: (if s.turn.emptyWindows = 0 then [.urgentSlotStart .sent] else [])) ∧
        (d ≠ 0 → d ≠ 16 * (ownedSlot s.ringSize s.ownNumber s.turn.lastSender + 1) → d ≠ 16 * (s.ringSize + 1) →
          s.windowDue = [])) ∧
  ∀ s : State,
    let repairDue (i : Nat) (state : RepairState) : Prop := s.station.state.receiving = true ∧
      ∃ e ∈ s.table, e.index = i ∧ ∃ u, e.role = .subscribe u ∧ u.repair = state ∧ u.repairTimer = some 0 ∧
        u.starved = false
    (∀ i, .claimSettleExpiry i ∈ s.due ↔ s.station.state.receiving = true ∧
      ∃ e ∈ s.table, e.index = i ∧ ∃ p, e.role = .publish p ∧ p.settleTimer = some 0) ∧
    (∀ i, .repairDelayExpiry i ∈ s.due ↔ repairDue i .waiting) ∧
    (∀ i, .repairWaitExpiry i ∈ s.due ↔ repairDue i .requested) ∧
    s.due.count .replayAgeLimit =
      (if s.station.state.receiving then s.pool.aged.countP (fun a => decide (65536 ≤ a.age)) else 0) ∧
    (.coalescingTimerExpiry ∈ s.due ↔ s.events.timer = .running 0) ∧
    (.holdOffExpiry .sent ∈ s.due ↔ s.turn.holdOff = some 0) ∧
    (∀ c ∈ s.windowDue, c ∈ s.due) ∧
    ∀ c ∈ s.due, c ∈ s.windowDue ∨ c ∈ [.replayAgeLimit, .coalescingTimerExpiry, .holdOffExpiry .sent] ∨
      ∃ i, c ∈ [.claimSettleExpiry i, .repairDelayExpiry i, .repairWaitExpiry i]

/-- Each rotation slot is owned by exactly one station: station n owns slot (n − last − 1) mod K; with a record of 0,
and with one of K, station n owns slot n − 1; with a record naming station s, the station after s owns slot 0, each next
station the next slot, and s itself slot K − 1. Ownership holds in every window counted from the same anchor, the second
empty one too: the own slot falls due 16 bit times for each slot before it after the window's beginning (R23; that a
step on an empty queue gives it is the model's choice, log 1), whether or not there is anything to send, and with
nothing to send the slot passes, and changes nothing but the stuck count, which the released line returns to 0 at an
ACTIVE station in a WINDOW at rest (R15, R24). -/
def Obligations.EachRotationSlotHasExactlyOneOwner : Prop :=
  (∀ K last : Nat, 2 ≤ K → K ≤ 32 → last ≤ K →
    (∀ n, 1 ≤ n → n ≤ K → (ownedSlot K n last : Int) = ((n : Int) - last - 1) % K) ∧
    (∀ j, j < K → ∃! n, 1 ≤ n ∧ n ≤ K ∧ ownedSlot K n last = j) ∧
    (∀ n, 1 ≤ n → n ≤ K → ownedSlot K n 0 = n - 1 ∧ ownedSlot K n K = n - 1) ∧
    (1 ≤ last →
      ownedSlot K (last % K + 1) last = 0 ∧ ownedSlot K last last = K - 1 ∧
      ∀ n, 1 ≤ n → n ≤ K → n ≠ last → ownedSlot K (n % K + 1) last = ownedSlot K n last + 1)) ∧
  (∀ (s : State) (a window : Nat), s.turn.condition = .window → s.turn.anchor = some a →
    s.turn.emptyWindows = window → 1 ≤ s.ringSize →
    s.clock = a + window * (16 * (s.ringSize + 1)) +
      16 * (ownedSlot s.ringSize s.ownNumber s.turn.lastSender + 1) →
    s.windowDue = [.rotationSlotStart .sent]) ∧
  (∀ (s : State) (first : FirstCell), s.selectAny = none → exec (.rotationSlotStart first) s = .next
    (if s.station.state = .active ∧ s.turn.condition = .window ∧ s.line.phase = .rest ∧ s.turn.attempt = none then
      { s with line := { s.line with stuckCount := 0 } } else s))

/-! ### Resets and the register map -/

/-- Power-on reset gives station control its values: the strap values sampled, the state as R36 decides, resume-to
JOINING, an empty history, both flags clear. It reports no change: no event is asked for, and the ring is RING_UNSET
(R48). -/
def Obligations.PowerOnResetGivesStationControlItsValues : Prop :=
  ∀ (n k : BitVec 6) (r : BitVec 2) (s : State), ∃ t, exec (.powerOnReset n k r) s = .next t ∧
    t.station.straps = ⟨n, k, r⟩ ∧
    t.station.state =
      (if k.toNat < 2 ∨ 32 < k.toNat ∨ n.toNat = 0 ∨ k.toNat < n.toNat then StationState.disabled else .detached) ∧
    t.station.resumeTo = .joining ∧ t.station.history = [] ∧ t.station.stateChanged = false ∧
    t.station.stuckSeen = false ∧
    t.events.ready = false ∧ t.events.number = 0 ∧ t.events.backlog = [] ∧ t.port = ⟨none, [], [], []⟩

/-- After power-on reset with valid straps every register reads as the register map says (11.3), every cell is free, the
table and the lists are empty, HREQ is released and INT is low (R151, R162). -/
def Obligations.TheRegisterMapAfterPowerOnReset : Prop :=
  ∀ (n k : BitVec 6) (r : BitVec 2) (s : State), 2 ≤ k.toNat → k.toNat ≤ 32 → 1 ≤ n.toNat → n.toNat ≤ k.toNat →
    ∃ t, exec (.powerOnReset n k r) s = .next t ∧
      t.readRegister 0x00 = 0x03400001#32 ∧
      t.readRegister 0x04 = BitVec.ofNat 32 (n.toNat + 256 * k.toNat + 65536 * r.toNat) ∧
      t.readRegister 0x08 = 1#32 ∧ t.readRegister 0x20 = 0x104#32 ∧ t.readRegister 0x4C = 0xA0#32 ∧
      (∀ o : BitVec 7, o.toNat / 4 ∉ [0, 1, 2, 8, 19] → t.readRegister o = 0#32) ∧
      (∀ i, t.counters.select i = 0#32) ∧ t.hreqPin = false ∧ t.intPin = false ∧
      t.table = [] ∧ t.lists = ⟨[], []⟩ ∧ t.pool.free = List.range 160 ∧ t.pool.aged = [] ∧ t.pool.waiting = []

/-- IDENT reads the part code and the revision in every state; STRAPS shows the values sampled at the last power-on
reset, since no other command changes them; writes to either register are ignored (R179). -/
def Obligations.IdentAndStrapsReadAsSampled : Prop :=
  (∀ (s : State) (o : BitVec 7), o.toNat / 4 = 0 → s.readRegister o = 0x03400001#32) ∧
  (∀ (s : State) (o : BitVec 7), o.toNat / 4 = 1 →
    fieldOf (s.readRegister o) 0 6 = s.station.straps.station.toNat ∧
    fieldOf (s.readRegister o) 8 6 = s.station.straps.ring.toNat ∧
    fieldOf (s.readRegister o) 16 2 = s.station.straps.rate.toNat) ∧
  (∀ (n k : BitVec 6) (r : BitVec 2) (s : State), ∃ t, exec (.powerOnReset n k r) s = .next t ∧
    t.station.straps = ⟨n, k, r⟩) ∧
  (∀ (c : Instr) (s t : State), (∀ n k r, c ≠ .powerOnReset n k r) → exec c s = .next t →
    t.station.straps = s.station.straps) ∧
  (∀ (o : BitVec 7) (w : Nat) (v : Word) (d : Bool) (s : State), o.toNat / 4 ≤ 1 →
    exec (.registerWrite o w v d) s = .next s)

/-- RESET_STATION takes any station but a DISABLED one to DETACHED: its streams, queues and counters are cleared, its
configuration is kept, an attempt on the line ends without an outcome, uncounted, a GONE too (log 45), a granted
transfer is left to finish with its result discarded, and the change is reported by one STATION_STATE event with cause
SOFT_RESET, DETACHED entered, the state left, no station and no failure, as event number 0 if the ring is RING_READY,
into an empty backlog with no write stopped and no cause latched (R47, R50, R154, R171; line interface R19, turn unit
R20, table R56, pool R88, port R151, event unit R163). The coalescing timer starts afresh if records are unconsumed and
coalescing is not 0 (R163). EVENTS_LOST is 0 too, unless that report itself loses its record at a ring outside the fence
(R160). -/
def Obligations.ResetStationClearsStreamsAndKeepsConfiguration : Prop :=
  ∀ s : State,
    (s.station.state = .disabled →
      exec .resetStation s = .next { s with window := { s.window with result := .badState } }) ∧
    (s.station.state ≠ .disabled → ∃ t, exec .resetStation s = .next t ∧
      t.station = ⟨.detached, .joining, [], true, false, s.station.straps⟩ ∧
      t.line = .powerOn ∧ t.turn = .powerOn ∧ t.table = [] ∧ t.pool = .powerOn ∧ t.lists = ⟨[], []⟩ ∧
      t.fence = s.fence ∧ t.events.config = s.events.config ∧ t.events.enable = s.events.enable ∧
      t.events.ready = s.events.ready ∧ t.events.producer = s.events.producer ∧
      t.events.consumer = s.events.consumer ∧ t.events.overflow = false ∧
      t.events.number = (if s.events.ready then 1 else 0) ∧
      t.events.timer =
        (if s.events.unconsumed ≠ 0 ∧ s.events.config.coalescing ≠ 0 then
          .running (s.events.config.coalescing.toNat * 256) else .stopped) ∧
      t.window = { s.window with result := .done, info0 := 0, info1 := 0, info2 := 0, info3 := 0 } ∧
      t.counters = { Counters.zero with eventsLost := t.counters.eventsLost } ∧
      (s.fence.contains (s.events.config.recordAddress s.events.producer) 32 = true → t.counters = Counters.zero) ∧
      t.port.granted = s.port.granted.map (fun g => { g with discarded := true }) ∧
      t.port.firstClass = [] ∧ t.port.thirdClass = [] ∧ t.port.secondClass.length ≤ 1 ∧
      t.pending = s.pending ∧
      let record := stateRecord 9 .detached s.station.state 0 0
      let inside : Prop := s.fence.contains (s.events.config.recordAddress s.events.producer) 32 = true
      let room : Prop := (s.events.producer + 1) % 2 ^ s.events.config.sizeCode.toNat ≠ s.events.consumer
      let unreported : State := { s with
        port := { s.port with secondClass := [] }
        counters := .zero
        events := { s.events with
          number := 0, writeIndex := s.events.producer, backlog := [], writesStopped := false, overflow := false,
          hostFault := false, timer := t.events.timer } }
      unreported.reports t [record] ∧
      (s.events.ready = false ∨ inside ∨ ¬room → t.events.writesStopped = false ∧ t.events.hostFault = false) ∧
      (s.events.ready = false → t.events.backlog = [] ∧ t.port.secondClass = []) ∧
      (s.events.ready = true → room → inside →
        t.events.backlog = [] ∧ t.port.secondClass = [.eventWrite s.events.producer record]) ∧
      (s.events.ready = true → ¬room → t.events.backlog = [record] ∧ t.port.secondClass = []))

/-! ### Coding and frames -/

/-- Decoding what the encoder coded gives the bytes back, and a segment of d bytes, 1 to 240, has a coded length of 2 to
d + 2 (R5, R6, R7). -/
def Obligations.AnEncodedPayloadDecodesToItsBytesWithinItsLength : Prop :=
  (∀ bytes : List Byte, decodePayload (encodePayload bytes) = some bytes) ∧
  (∀ bytes : List Byte, 1 ≤ bytes.length → bytes.length ≤ 240 →
      2 ≤ (encodePayload bytes).length ∧ (encodePayload bytes).length ≤ bytes.length + 2)

/-- A frame is read back from the cells its sender drives (R3, R7, R8, R12, R180). One whose fields hold what R4 allows
comes back field for field, with no violation, no check failure and no format error, and with a coding error exactly
when the token decoder finds one. On the line it stands between the start mark, which takes a receiver to FRAME at its
last cell, and the end mark, which ends the frame at its last cell (R3, R9). A cell's levels say its bit, and the line
changes level between two valid cells that are equal (R1). Of any cells: a held one is a violation, the last 16 must be
the check over those before, a format error is a kind, a body length or a field that R12 does not allow, and the payload
of a DATA frame is decoded whatever its length (log 9). -/
def Obligations.AFrameIsReadBackFromItsCells : Prop :=
  (∀ (ring : Nat) (f : Frame), ring ≤ 63 → f.inRange ring = true →
    readFrame f.cells = some f ∧
      readFaults ring f.cells = { violation := false, check := false, format := false, coding := f.codingError }) ∧
  (∀ f : Frame, f.onLine = startMark ++ f.cells ++ endMark ∧
    activityOf (startMark.map some) = some .startMark ∧
    (∀ n, n < 8 → activityOf ((startMark.take n).map some) = none) ∧
    followFrame 0 ((f.cells ++ endMark).map some) = .ended f.cells ∧
    ∀ n, n < f.cells.length + 2 → followFrame 0 (((f.cells ++ endMark).take n).map some) = .going) ∧
  (cellLevels .one = (.low, .high) ∧ cellLevels .zero = (.high, .low) ∧
    (∀ level, cellLevels (.held level) = (level, level)) ∧
    (∀ c, cellOfLevels (cellLevels c).1 (cellLevels c).2 = c) ∧
    (∀ a b, validCell a = true → validCell b = true → (boundaryTransition a b = true ↔ a = b)) ∧
    ∀ r, (readsAs [] r = true ↔ r = none) ∧ (∀ c, readsAs [c] r = true ↔ r = some c) ∧
      ∀ a b more, readsAs (a :: b :: more) r = true ↔ ∃ level, r = some (.held level)) ∧
  (∀ (ring : Nat) (f : Frame), f.inRange ring = true ↔
    1 ≤ f.sender ∧ f.sender ≤ ring ∧ f.stream < 1024 ∧
      match f with
      | .data _ _ _ _ _ _ decoded coded => 1 ≤ decoded ∧ decoded ≤ 240 ∧ 2 ≤ coded.length ∧ coded.length ≤ 242
      | .repair _ _ target _ count => 1 ≤ target ∧ target ≤ ring ∧ 1 ≤ count ∧ count ≤ 16
      | .gone _ _ _ count => 1 ≤ count ∧ count ≤ 16
      | .dispute _ _ owner => 1 ≤ owner ∧ owner ≤ ring
      | .claim _ _ => True
      | .yield _ _ => True) ∧
  (∀ (ring : Nat) (cells : List LineCell),
    (readFaults ring cells).violation = true ↔ ∃ level, LineCell.held level ∈ cells) ∧
  (∀ (ring : Nat) (covered check : List Bool), check.length = 16 →
    ((readFaults ring ((covered ++ check).map cellOf)).check = true ↔
      check ≠ bitsOf 16 (checkOf covered).toNat)) ∧
  (∀ (ring kind sender : Nat) (body check : List Bool), kind < 8 → sender < 64 → check.length = 16 →
    let cells := (bitsOf 3 kind ++ bitsOf 6 sender ++ body ++ check).map cellOf
    let fits : Prop :=
      (kind = 1 ∧ 42 ≤ body.length ∧ body.length = 42 + 8 * bitField body 34 8) ∨ (kind = 2 ∧ body.length = 34) ∨
        (kind = 3 ∧ body.length = 28) ∨ ((kind = 4 ∨ kind = 6) ∧ body.length = 11) ∨ (kind = 5 ∧ body.length = 17)
    (¬fits → (readFaults ring cells).format = true) ∧
    (fits → ∃ f, readFrame cells = some f ∧ f.kindCode = kind ∧ f.sender = sender ∧ f.stream = bitField body 0 11 ∧
      ((readFaults ring cells).format = true ↔ f.inRange ring = false)) ∧
    (kind ≠ 1 → (readFaults ring cells).coding = false) ∧
    (kind = 1 → 42 ≤ body.length →
      let came := min (bitField body 34 8) ((body.length - 42) / 8)
      ((readFaults ring cells).coding = true ↔
        (decodePayload (bytesOfBits came (body.drop 42))).map List.length ≠ some (bitField body 26 8))))

/-! ### The line interface -/

/-- The staging claim: a DATA frame of a stream with no subscribe entry is not staged; with a free buffer, that buffer
starts filling, A if both are free (log 33); with both held, the frame goes unstaged and STAGING_OVERRUNS increases. At
the end mark of another station's frame a receiving station settles the frame's faults and its verdict slot starts: the
frame read from the cells is recorded, a DATA frame's payload goes to the filling buffer, and of a faulty frame an
ACTIVE station drives a spoil and counts it, a JOINING or QUIET one does neither. Bit times that hold a break instead
break the frame, as FRAME_BECOMES_BROKEN does (log 29); none of the two, and nothing happens (log 2). Said where the bit
times leave the line unstuck. Of its own frame, read back whole as it was sent, the station judges nothing; a read-back
that is another is ATTEMPT_COLLIDED's (R2, R9, R10, R12, R13, R15, R17). -/
def Obligations.AFrameIsStagedAndJudgedAtItsEndMark : Prop :=
  (∀ (n : BitVec 11) (s : State), s.station.state.receiving = true → s.line.phase = .frame → s.turn.attempt = none →
      (∀ c, s.line.bufferA ≠ .filling c) → (∀ c, s.line.bufferB ≠ .filling c) →
      ((s.entryOf n.toNat).bind Entry.subscribe? = none → exec (.stagingClaim n) s = .next s) ∧
      (∀ u, (s.entryOf n.toNat).bind Entry.subscribe? = some u →
        (s.line.bufferA = .free →
          exec (.stagingClaim n) s = .next { s with line := { s.line with bufferA := .filling [] } }) ∧
        (s.line.bufferA ≠ .free → s.line.bufferB = .free →
          exec (.stagingClaim n) s = .next { s with line := { s.line with bufferB := .filling [] } }) ∧
        (s.line.bufferA ≠ .free → s.line.bufferB ≠ .free →
          exec (.stagingClaim n) s = .next
            { s with counters := { s.counters with stagingOverruns := s.counters.stagingOverruns + 1 } }))) ∧
  (∀ s : State, s.station.state.receiving = true → s.line.phase = .frame →
      (∀ a, s.turn.attempt = some a →
        exec (.frameEnd (a.frame.onLine.map some)) s =
          .next { s with line := { s.line with phase := .verdict, stuckCount := 2 } } ∧
        ∀ heard, heard ≠ a.frame.onLine.map some →
          exec (.frameEnd heard) s = exec (.attemptCollided heard) s) ∧
      (∀ f : Frame, s.turn.attempt = none → f.inRange s.ringSize = true → f.codingError = false →
        exec (.frameEnd ((f.cells ++ endMark).map some)) s = .next { s with line :=
          { s.line.fill (some f) with
            phase := .verdict, record := some f, faults := .clear, spoiling := false, stuckCount := 2 } }) ∧
      (∀ heard cells, s.turn.attempt = none → followFrame 0 heard = .ended cells →
        (readFaults s.ringSize cells).any = true → reachesStuck s.line.stuckCount heard = false →
        exec (.frameEnd heard) s = .next { s with
          line := { s.line.fill (readFrame cells) with
            phase := .verdict, record := readFrame cells, faults := readFaults s.ringSize cells
            spoiling := decide (s.station.state = .active), stuckCount := stuckAfter s.line.stuckCount heard }
          counters := { s.counters with spoilsDriven :=
            if s.station.state = .active then s.counters.spoilsDriven + 1 else s.counters.spoilsDriven } }) ∧
      (∀ heard, s.turn.attempt = none → followFrame 0 heard = .broken →
        exec (.frameEnd heard) s = exec (.frameBecomesBroken heard) s) ∧
      ∀ heard, s.turn.attempt = none → followFrame 0 heard = .going → exec (.frameEnd heard) s = .next s)

/-- Line activity: the receive phase leaves REST for FRAME at a start mark, for BROKEN at anything else, and stays while
the bit times make neither; in HOLD every start is activity alone. The line condition becomes BUSY from OPEN or WINDOW,
the hold-off stops, an attempt whose first cell is not out is abandoned. Driven cells in the wait after a stuck
condition begin a broken frame (R16). A frame in FRAME that breaks becomes BROKEN and is discarded at once, which is the
model's choice (log 43). A verdict that discards the frame: a spoiled one, by a driven bit time in the slot or by this
station's own spoil, is counted in SPOILED_SEEN and leaves the last-sender record; a clean one of a frame this station
found a fault in is counted in CLEAN_FRAMES and sets the record to 0. One released slot time after an activity a broken
frame ends and is counted in BROKEN_FRAMES; in HOLD an activity's end, and the end of the wait after a stuck condition,
are not counted; each sets the record to 0. All these ends lead to REST with the moment as the new anchor (log 1), the
receive record empty and a filling buffer free. The stuck count follows the bit times heard, and is 0 after released
ones; said where it stays below 4096 (R9, R11, R13, R14, R15, R18, R19, R21, R22, R25, R45). -/
def Obligations.ActivityAndItsEndsMoveTheLineConditions : Prop :=
  (∀ (s : State) (heard : List LineReading),
      (∀ a, activityOf heard = some a → s.station.state.attached = true → s.line.phase = .rest →
        reachesStuck s.line.stuckCount heard = false → exec (.activityBegins heard) s = .next { s with
          line := { s.line.discardFrame with
            phase := if a = .startMark ∧ s.station.state.receiving = true then .frame else .broken
            brokenWait := .activity, stuckCount := stuckAfter s.line.stuckCount heard }
          turn := { s.turn with
            condition := match s.turn.condition with
              | .opened | .window => .busy
              | .ignored => .ignored
              | .busy => .busy
              | .stuck => .stuck
            holdOff := none
            attempt := none } }) ∧
      (activityOf heard = none → s.line.phase = .rest → exec (.activityBegins heard) s = .next s) ∧
      (s.station.state.attached = true → s.line.phase = .broken → s.line.brokenWait = .stuckWait →
        heard.any Option.isSome = true → reachesStuck s.line.stuckCount heard = false →
        exec (.activityBegins heard) s = .next { s with line :=
          { s.line with brokenWait := .afterStuck, stuckCount := stuckAfter s.line.stuckCount heard } }) ∧
      (s.station.state.receiving = true → s.line.phase = .frame → s.turn.attempt = none →
        followFrame 0 heard = .broken → reachesStuck s.line.stuckCount heard = false →
        exec (.frameBecomesBroken heard) s = .next { s with line :=
          { s.line.discardFrame with
            phase := .broken, brokenWait := .activity, stuckCount := stuckAfter s.line.stuckCount heard } })) ∧
  (∀ s : State, s.station.state.receiving = true → s.line.phase = .verdict → s.turn.attempt = none →
      (∀ heard, heard.any Option.isSome = true ∨ s.line.spoiling = true →
        reachesStuck s.line.stuckCount heard = false → exec (.spoiledVerdict heard) s = .next { s with
        line := { s.line.discardFrame with phase := .rest, stuckCount := stuckAfter s.line.stuckCount heard }
        turn := { s.turn with condition := .window, anchor := some s.clock, emptyWindows := 0 }
        counters := { s.counters with spoiledSeen := s.counters.spoiledSeen + 1 }
        momentTaken := false }) ∧
      (s.line.faults.any = true → s.line.spoiling = false → exec .cleanFaultyFrame s = .next { s with
        line := { s.line.discardFrame with phase := .rest, stuckCount := 0 }
        turn := { s.turn with condition := .window, anchor := some s.clock, emptyWindows := 0, lastSender := 0 }
        counters := { s.counters with cleanFrames := s.counters.cleanFrames + 1 }
        momentTaken := false })) ∧
  (∀ s : State, s.line.phase = .broken →
      (s.station.state.receiving = true → s.line.brokenWait ≠ .stuckWait →
        exec .brokenFrameEnd s = .next { s with
          line := { s.line.discardFrame with phase := .rest, stuckCount := 0 }
          turn := { s.turn with condition := .window, anchor := some s.clock, emptyWindows := 0, lastSender := 0 }
          counters := { s.counters with brokenFrames := s.counters.brokenFrames + 1 }
          momentTaken := false }) ∧
      (s.station.state = .hold → s.line.brokenWait = .activity →
        exec .holdActivityEnd s = .next { s with
          line := { s.line.discardFrame with phase := .rest, stuckCount := 0 }
          turn := { s.turn with condition := .window, anchor := some s.clock, emptyWindows := 0, lastSender := 0 }
          momentTaken := false }) ∧
      (s.station.state.attached = true → s.line.brokenWait = .stuckWait →
        exec .stuckWaitEnd s = .next { s with
          line := { s.line.discardFrame with phase := .rest, stuckCount := 0 }
          turn := { s.turn with condition := .window, anchor := some s.clock, emptyWindows := 0, lastSender := 0 }
          momentTaken := false }))

/-- A stuck line: each driven bit time without a valid cell counts one, and a valid cell and a released bit time return
the count to 0 (R15). When one of the bit times heard brings it to 4096, every attached station notes it, discards the
frame in progress and takes the condition STUCK with no anchor and record 0; the empty-window count stays as it stands
(log 17), and an attempt in the record is emptied without an outcome (log 21). A JOINING, ACTIVE or QUIET station enters
HOLD with the resume-to record of R44 and reports it by one STATION_STATE event with cause LINE_STUCK, HOLD entered, the
state left, no station and the failure count (R50); one in HOLD already reports nothing; entries, cells, lists and the
queues of entry requests stay. Below 4096 nothing happens (log 2). An activity's beginning, a frame's end or break, and
a spoiled verdict, this station's own too, whose bit times bring the count there act as STUCK_CONDITION (log 42). At the
end of the condition the line is BUSY and the line interface waits in BROKEN, for a broken frame to end if a valid cell
ended it, else for one released slot time (R16, R21, R44). -/
def Obligations.AStuckLineTakesTheStationToHold : Prop :=
  (∀ (n : Nat) (level : LineLevel) (rest : List LineReading), n ≤ 4096 →
      stuckAfter n [] = n ∧ stuckAfter n (some (.held level) :: rest) = stuckAfter (min 4096 (n + 1)) rest ∧
        ∀ r, r = none ∨ r = some .zero ∨ r = some .one → stuckAfter n (r :: rest) = stuckAfter 0 rest) ∧
  (∀ (n : Nat) (heard : List LineReading), reachesStuck n heard = true ↔
      ∃ k, 1 ≤ k ∧ k ≤ heard.length ∧ stuckAfter n (heard.take k) = 4096) ∧
  (∀ (s : State) (heard : List LineReading), s.station.state.attached = true → s.line.phase ≠ .stuck →
      reachesStuck s.line.stuckCount heard = true →
      ∃ t, exec (.stuckCondition heard) s = .next t ∧
        t.station.state = .hold ∧ t.station.stuckSeen = true ∧ t.station.history = s.station.history ∧
        t.station.resumeTo = (match s.station.state with
          | .quiet => ResumeTo.quiet
          | .hold => s.station.resumeTo
          | _ => .joining) ∧
        t.station.stateChanged = (s.station.stateChanged || s.station.state != .hold) ∧
        t.line = { s.line.discardFrame with phase := .stuck, stuckCount := 4096 } ∧
        t.turn =
          { s.turn with condition := .stuck, anchor := none, lastSender := 0, holdOff := none, attempt := none } ∧
        t.table = s.table ∧ t.pool = s.pool ∧ t.lists = s.lists ∧ t.fence = s.fence ∧ t.window = s.window ∧
        s.reports t (if s.station.state = .hold then []
          else [stateRecord 5 .hold s.station.state 0 (failureCount s.station.history)]) ∧
        t.port.firstClass = s.port.firstClass ∧ t.port.thirdClass = s.port.thirdClass ∧
        t.counters.ofLine = s.counters.ofLine ∧ t.pending = s.pending) ∧
  (∀ (s : State) (heard : List LineReading), reachesStuck s.line.stuckCount heard = false →
      exec (.stuckCondition heard) s = .next s) ∧
  (∀ (s : State) (heard : List LineReading), reachesStuck s.line.stuckCount heard = true →
      let stuck (c : Instr) : Prop := exec c s = exec (.stuckCondition heard) s
      (s.station.state.attached = true →
        (s.line.phase = .rest ∧ activityOf heard ≠ none) ∨ (s.line.phase = .broken ∧ s.line.brokenWait = .stuckWait) →
        stuck (.activityBegins heard)) ∧
      (s.station.state.receiving = true → s.line.phase = .frame → s.turn.attempt = none →
        (followFrame 0 heard ≠ .going → stuck (.frameEnd heard)) ∧
        (followFrame 0 heard = .broken → stuck (.frameBecomesBroken heard))) ∧
      (s.station.state.receiving = true → s.line.phase = .verdict → s.turn.attempt = none →
        stuck (.spoiledVerdict heard)) ∧
      (s.station.state = .active → s.line.phase = .verdict → s.turn.attempt ≠ none →
        stuck (.attemptVerdict heard))) ∧
  (∀ (valid : Bool) (s : State), s.station.state.attached = true → s.line.phase = .stuck →
      exec (.stuckEnd valid) s = .next { s with
        line := { s.line with
          phase := .broken, brokenWait := if valid then .afterStuck else .stuckWait, stuckCount := 0 }
        turn := { s.turn with condition := .busy } })

/-- The first window that passes empty is counted; after the second the line is OPEN with no anchor and record 0; then a
station in HOLD returns to its resume-to state and a JOINING one, also one that has just resumed, is ACTIVE (R21, R23,
R39, R45). Each change is reported by a STATION_STATE event, the end of HOLD with cause LINE_RECOVERED first, then
ACTIVE with cause JOINED_BY_OPEN (R49, R50). The command says that the window has passed, whatever moment of it the
model counts (log 3); with the line released through it the stuck count is 0 (R15). -/
def Obligations.TwoEmptyWindowsMakeTheLineOpen : Prop :=
  ∀ s : State, s.station.state.attached = true → s.turn.condition = .window → s.line.phase = .rest →
    (s.turn.emptyWindows = 0 →
      exec .windowPassesEmpty s = .next { s with
        line := { s.line with stuckCount := 0 }, turn := { s.turn with emptyWindows := 1 } }) ∧
    (s.turn.emptyWindows ≠ 0 → ∃ t u : State, exec .windowPassesEmpty s = .next t ∧ t = u.finish ∧
      let report (cause : Nat) (entered left : StationState) : Event :=
        stateRecord cause entered left 0 (failureCount s.station.history)
      s.reports u (match s.station.state, s.station.resumeTo with
        | .joining, _ => [report 3 .active .joining]
        | .hold, .joining => [report 6 .joining .hold, report 3 .active .joining]
        | .hold, .quiet => [report 6 .quiet .hold]
        | _, _ => []) ∧
      t.turn.condition = .opened ∧ t.turn.anchor = none ∧ t.turn.lastSender = 0 ∧
      t.station.state = (match s.station.state, s.station.resumeTo with
        | .joining, _ => StationState.active
        | .hold, .joining => .active
        | .hold, .quiet => .quiet
        | other, _ => other) ∧
      t.station.history = s.station.history ∧ t.station.resumeTo = s.station.resumeTo ∧
      t.line.phase = s.line.phase ∧ t.line.record = s.line.record ∧ t.line.stuckCount = 0 ∧
      (s.tableOk → t.line = { s.line with stuckCount := 0 }))

/-- A clean frame in which this station found no fault is taken at the stream table, as its kind asks; CLEAN_FRAMES
increases, the sender is the last sender, the moment is the new anchor, the receive record is empty, and a JOINING
station is ACTIVE and reports it by a STATION_STATE event with cause JOINED_BY_FRAME that names the sender (R14, R22,
R39, R50, R59). The table goes first, then counter and anchor, then station control, which is the model's order (log
10). -/
def Obligations.ACleanFrameNamesItsSenderAndEndsJoining : Prop :=
  ∀ (s : State) (f : Frame), s.hears f →
    ∃ t u : State, exec (cleanCommand f) s = .next t ∧ t = (s.atTable f).cleanVerdict f.sender ∧ t = u.finish ∧
      (s.atTable f).reports u (if s.station.state = .joining
        then [stateRecord 2 .active .joining f.sender (failureCount s.station.history)] else []) ∧
      t.turn.condition = .window ∧ t.turn.anchor = some s.clock ∧ t.turn.emptyWindows = 0 ∧
      t.turn.lastSender = f.sender ∧ t.turn.attempt = none ∧
      t.line.phase = .rest ∧ t.line.record = none ∧ t.line.faults = .clear ∧
      t.counters.cleanFrames = s.counters.cleanFrames + 1 ∧
      t.station.state = (if s.station.state = .joining then .active else s.station.state) ∧
      t.station.history = s.station.history ∧ t.station.straps = s.station.straps ∧
      t.fence = s.fence ∧ t.events.config = s.events.config ∧ t.window = s.window ∧ t.pending = s.pending ∧
      (t.table.map Entry.key).Sublist (s.table.map Entry.key)

/-! ### The stream table -/

/-- A CLAIMING entry that hears a lower station's clean CLAIM, or a clean DISPUTE of another station that names another
owner, becomes LOST: nothing of it stays queued, due, listed or requested, and one CLAIM_LOST event tells the deciding
frame's kind, the station that has the stream, the next sequence and the number of cells released (R64, R154). A higher
station's CLAIM changes no field of it. An OWNED or CLOSING entry defends its stream: another station's clean CLAIM or
DATA, and a REPAIR of another station addressed to another one, make its DISPUTE due and change no other field of it; so
does a DISPUTE of another station that names a higher owner. A DISPUTE of another station that names a lower owner makes
it LOST. At an entry that is LOST or in FAULT no clean frame of its stream does anything at the table, and with nothing
of it queued and no claim of it waiting its fields stay as they are (R59, R62, R63, R64, R65, R67). -/
def Obligations.CleanFramesAtAPublishEntryDecideItsClaim : Prop :=
  (∀ (s : State) (e : Entry) (p : PublishEntry) (x : Nat), s.tableOk → e ∈ s.table → e.role = .publish p →
      p.claim = .claiming →
      let lost (code : Nat) : Event := streamEvent .claimLost code e.stream x p.nextSequence.toNat
        (p.replayQueue.length + p.sendQueue.length) 0
      (s.hears (.claim x e.stream) → x < s.ownNumber → ∃ t q, exec .cleanClaim s = .next t ∧
        t.publishAt e.index = some q ∧ q.isEnded .lost false ∧ q.nextSequence = p.nextSequence ∧
        t.forgets e.index e.stream ∧ s.reports (s.atTable (.claim x e.stream)) [lost 4]) ∧
      (∀ y, s.hears (.dispute y e.stream x) → y ≠ s.ownNumber → x ≠ s.ownNumber → ∃ t q,
        exec .cleanDispute s = .next t ∧ t.publishAt e.index = some q ∧ q.isEnded .lost false ∧
        q.nextSequence = p.nextSequence ∧ t.forgets e.index e.stream ∧
        s.reports (s.atTable (.dispute y e.stream x)) [lost 5]) ∧
      (s.hears (.claim x e.stream) → s.ownNumber < x → claimHeard s x e.stream = s)) ∧
  (∀ (s : State) (e : Entry) (p : PublishEntry) (x : Nat), s.tableOk → e ∈ s.table → e.role = .publish p →
      p.claim = .owned ∨ p.claim = .closing → x ≠ s.ownNumber →
      let due (t : State) : Prop := t = s.modifyPublish e.index fun v => { v with disputeDue := true }
      due (claimHeard s x e.stream) ∧
      (∀ k q f l r n b, due (dataHeard s k ⟨e.stream, x, q, f, l, r, n, b⟩)) ∧
      (∀ y q n, y ≠ s.ownNumber → due (repairHeard s x e.stream y q n)) ∧
      (∀ y, s.ownNumber < y → due (disputeHeard s x e.stream y)) ∧
      (∀ y, y < s.ownNumber → s.hears (.dispute x e.stream y) → ∃ t q, exec .cleanDispute s = .next t ∧
        t.publishAt e.index = some q ∧ q.isEnded .lost false ∧ t.forgets e.index e.stream ∧
        s.reports (s.atTable (.dispute x e.stream y)) [streamEvent .claimLost 5 e.stream y p.nextSequence.toNat
          (p.replayQueue.length + p.sendQueue.length) 0])) ∧
  (∀ (s : State) (e : Entry) (p : PublishEntry) (f : Frame), s.tableOk → e ∈ s.table → e.role = .publish p →
      p.claim = .lost ∨ p.claim = .fault → f.stream = e.stream →
      s.atTable f = { s with line := s.line.discardFrame.verdictOver } ∧
      (s.hears f → ∃ t, exec (cleanCommand f) s = .next t ∧
        (p.isEnded p.claim p.yieldDue → e.index ∉ s.pool.waiting → t.publishAt e.index = some p)))

/-- The recorded publisher of an OPEN subscribe entry: a clean CLAIM sets it to its sender, a clean DISPUTE to the owner
it names; a clean YIELD clears it if its sender is recorded and else leaves it; a clean DATA frame sets an absent record
to its sender. Each change is reported by PUBLISHER_SET with the frame's kind and the station recorded; without a change
nothing happens. Expected sequence, reorder list and block are not touched by CLAIM and DISPUTE. A DATA frame that set
the record and was staged is then taken like any segment, by the entry that its stream names then (log 46). DATA of a
station that is not the recorded publisher is dropped: its staging buffer is freed, FOREIGN_DATA increases by one, the
entry is unchanged (R69). An entry that is closing or in FAULT takes no frame: a clean frame of its stream, of any kind,
does nothing at the table, the entry is unchanged, and a DATA frame staged for it is dropped with its buffer free and
FOREIGN_DATA as it was (R58, R70, R131). -/
def Obligations.CleanFramesKeepTheRecordedPublisher : Prop :=
  (∀ (s : State) (e : Entry) (u : SubscribeEntry), s.tableOk → e ∈ s.table → e.role = .subscribe u →
      u.state = .opened → u.closing = false →
      (∀ x, s.hears (.claim x e.stream) → ∃ t, exec .cleanClaim s = .next t ∧
        t.subscribeAt e.index = some { u with publisher := some x }) ∧
      (∀ y x, s.hears (.dispute y e.stream x) → ∃ t, exec .cleanDispute s = .next t ∧
        t.subscribeAt e.index = some { u with publisher := some x }) ∧
      (∀ x, s.hears (.yield x e.stream) → u.repair ≠ .due → ∃ t, exec .cleanYield s = .next t ∧
        t.subscribeAt e.index =
          some { u with publisher := if u.publisher = some x then none else u.publisher }) ∧
      (∀ x q f l r n b, s.hears (.data x e.stream q f l r n b) → u.publisher = none → s.line.fillingBuffer = none →
        ∃ t, exec .cleanData s = .next t ∧ t.subscribeAt e.index = some { u with publisher := some x }) ∧
      let changed (new : Option Nat) (code : Nat) : State :=
        (s.modifySubscribe e.index fun v => { v with publisher := new }).emit
          { kind := .publisherSet, code := code, entered := 0, left := 0, number := 0, stream := some e.stream,
            station := new.getD 0, sequence := 0, count := 0, descriptor := 0 }
      (∀ x, claimHeard s x e.stream = if u.publisher = some x then s else changed (some x) 4) ∧
      (∀ y x, disputeHeard s y e.stream x = if u.publisher = some x then s else changed (some x) 5) ∧
      (∀ x, u.repair ≠ .due → yieldHeard s x e.stream = if u.publisher = some x then changed none 6 else s) ∧
      (∀ g, g.stream = e.stream → u.publisher = none →
        dataHeard s none g = changed (some g.sender) 1 ∧
        ∀ k, dataHeard s (some k) g =
          ((changed (some g.sender) 1).setBuffer k (.held g)).takeSegment e.index k g)) ∧
  (∀ (s : State) (e : Entry) (u : SubscribeEntry) (x y : Nat) (q : Seq) (f l r : Bool) (n : Nat) (b : List Byte),
      s.tableOk → e ∈ s.table → e.role = .subscribe u → u.state = .opened → u.closing = false →
      u.publisher = some y → x ≠ y → s.hears (.data x e.stream q f l r n b) →
      ∃ t, exec .cleanData s = .next t ∧ t.subscribeAt e.index = some u ∧
        t.counters.foreignData = s.counters.foreignData + 1 ∧
        t.line.bufferA = s.line.bufferA.discardFilling ∧ t.line.bufferB = s.line.bufferB.discardFilling) ∧
  (∀ (s : State) (e : Entry) (u : SubscribeEntry) (f : Frame), s.tableOk → e ∈ s.table → e.role = .subscribe u →
      u.state = .fault ∨ u.closing = true → f.stream = e.stream →
      s.atTable f = { s with line := s.line.discardFrame.verdictOver } ∧
      (s.hears f → ∃ t, exec (cleanCommand f) s = .next t ∧ t.subscribeAt e.index = some u ∧
        t.counters.foreignData = s.counters.foreignData ∧
        (∀ k bytes, s.line.buffer k = .filling bytes → t.line.buffer k = .free)))

/-- A sequence of a REPAIR is served by where it stands (R96): an older one goes to the GONE list; one in the replay
queue joins the resend list, unless it is listed or the list holds 16; one in the send queue or not yet made is ignored.
A REPAIR to this station at an OWNED or CLOSING entry is served sequence by sequence, in order, one with this station's
own number as its sender too (log 27); at any other publish entry it is ignored (R97, R101). -/
def Obligations.ARepairIsServedByWhereItsSequencesStand : Prop :=
  ∀ (s : State) (e : Entry) (p : PublishEntry), s.tableOk → e ∈ s.table → e.role = .publish p →
    (∀ q : Seq,
      let t := s.serveSequence e.index e.stream q
      let older := 1 ≤ forwardDistance q p.oldestHeld ∧ forwardDistance q p.oldestHeld ≤ 2047
      let ahead := forwardDistance p.oldestHeld q
      (older → t = s.addGone e.stream q) ∧
      (¬older → ahead < p.replayQueue.length → (⟨e.index, q⟩ : Resend) ∉ s.lists.resend →
        s.lists.resend.length < 16 →
        t = { s with lists := { s.lists with resend := s.lists.resend ++ [⟨e.index, q⟩] } }) ∧
      (¬older → (⟨e.index, q⟩ : Resend) ∈ s.lists.resend ∨ 16 ≤ s.lists.resend.length ∨
        p.replayQueue.length ≤ ahead → t = s)) ∧
    (∀ x q n, p.claim = .owned ∨ p.claim = .closing →
      repairHeard s x e.stream s.ownNumber q n =
        ((List.range n).foldl (fun t k => t.serveSequence e.index e.stream (q + BitVec.ofNat 12 k)) s).checkClosing
          e.index) ∧
    (∀ x y q n, p.claim ≠ .owned → p.claim ≠ .closing → repairHeard s x e.stream y q n = s)

/-- The GONE list takes a sequence: with room for an entry, the list afterwards covers for each stream exactly what it
covered before, and the sequence added; without room, nothing else either. It keeps its limits, and no sequence of a
stream is covered by two entries. One that is covered changes nothing. Two entries that the sequence joins, of 15
sequences at most, become one in the place of the earlier in the list, with the range of both (log 14). Else an entry of
below 16 sequences that it follows grows by it, full list or not, and else one that it precedes. With none to take it,
it becomes an entry at the tail, or is dropped for want of room (R99, R100). -/
def Obligations.TheGoneListCoversWhatItIsGiven : Prop :=
  ∀ (list : List GoneEntry) (serial stream : Nat) (q : Seq), goneOk list serial →
    let after := goneAdded list serial stream q
    let covers (l : List GoneEntry) (m : Nat) (x : Seq) : Prop :=
      ∃ g ∈ l, g.stream = m ∧ forwardDistance g.first x < g.count
    goneOk after (serial + 1) ∧
    (∀ m x, covers list m x → covers after m x) ∧
    (∀ m x, covers after m x → covers list m x ∨ (m = stream ∧ x = q)) ∧
    (list.length < 4 → covers after stream q) ∧
    (∀ g ∈ after, ∀ h ∈ after, g.stream = h.stream →
      ∀ x, forwardDistance g.first x < g.count → forwardDistance h.first x < h.count → g = h) ∧
    (covers list stream q → after = list) ∧
    (¬covers list stream q →
      let follows (g : GoneEntry) : Prop := g.stream = stream ∧ g.first + BitVec.ofNat 12 g.count = q
      let precedes (g : GoneEntry) : Prop := g.stream = stream ∧ q + 1 = g.first
      (∀ pre mid post x y, list = pre ++ x :: (mid ++ y :: post) → x.count + y.count ≤ 15 →
        (follows x → precedes y → after = pre ++ { x with count := x.count + y.count + 1 } :: (mid ++ post)) ∧
        (follows y → precedes x →
          after = pre ++ { x with first := y.first, count := x.count + y.count + 1 } :: (mid ++ post))) ∧
      (∀ pre post x, list = pre ++ x :: post → x.count < 16 →
        (follows x → (∀ h ∈ list, precedes h → 15 < x.count + h.count) →
          after = pre ++ { x with count := x.count + 1 } :: post) ∧
        (precedes x → (∀ h ∈ list, follows h → h.count = 16) →
          after = pre ++ { x with first := q, count := x.count + 1 } :: post)) ∧
      ((∀ h ∈ list, follows h ∨ precedes h → h.count = 16) →
        after = if list.length < 4 then list ++ [⟨serial, stream, q, 1, false⟩] else list))

/-- Another station's clean REPAIR that asks this entry's recorded publisher for a range covering the expected sequence
suppresses the entry's own request: a WAITING or DUE entry becomes REQUESTED and REPAIRS_SUPPRESSED increases, a
REQUESTED one restarts its wait, an IDLE one is unchanged; the requested range and the attempts stay. A REPAIR that does
not cover expected, or that carries this station's own number, changes nothing (R127). -/
def Obligations.AnotherStationsRepairSuppressesTheOwn : Prop :=
  ∀ (s : State) (e : Entry) (u : SubscribeEntry) (y target n : Nat) (q x : Seq), s.tableOk → e ∈ s.table →
    e.role = .subscribe u → u.takesFrames = true → u.publisher = some target → u.expected = some x →
    s.hears (.repair y e.stream target q n) →
    (forwardDistance q x < n → y ≠ s.ownNumber → ∃ t, exec .cleanRepair s = .next t ∧
      t.subscribeAt e.index = some (if u.repair = .idle then u
        else { u with repair := .requested, repairMark := false, repairTimer := some 8192 }) ∧
      t.counters.repairsSuppressed = s.counters.repairsSuppressed +
        (if u.repair = .waiting ∨ u.repair = .due then 1 else 0)) ∧
    (n ≤ forwardDistance q x ∨ y = s.ownNumber → ∃ t, exec .cleanRepair s = .next t ∧
      t.subscribeAt e.index = some u ∧ t.counters.repairsSuppressed = s.counters.repairsSuppressed)

/-- A clean GONE of the recorded publisher whose range covers the expected sequence gives up the sequences from there to
the range's end. A segment being placed, or held for a starved entry, is given up, with its buffer free or its cell
released once no write from it is outstanding; an open block closes LOST with its closing write-back, which carries the
first sequence placed in the descriptor, or the block's if none was (log 35); the waiting segments inside the range are
released; expected becomes the sequence after it, part placed 0, the starved flag clears; one SEGMENTS_LOST event tells
cause GONE, the publisher, the first sequence and the count; the repair state is settled. Then the reorder list is
drained: a waiting segment at the new expected sequence is an orphan without FIRST, and with FIRST is placed and opens a
block. Cells are released in the order of the model (log 10). A GONE of another station, or one that does not cover
expected, changes nothing (R114, R117, R126, R128, R129). -/
def Obligations.ACleanGoneGivesUpTheRangeFromExpected : Prop :=
  ∀ (s : State) (e : Entry) (u : SubscribeEntry) (y n : Nat) (q x : Seq), s.tableOk → e ∈ s.table →
    e.role = .subscribe u → u.takesFrames = true → u.expected = some x → s.hears (.gone y e.stream q n) →
    (u.publisher = some y → forwardDistance q x < n → (u.block.isSome = true → ∃ a d, e.chain.current = .held a d) →
      let heard : State := { s with line := s.line.discardFrame.verdictOver }
      let done : State := s.atTable (.gone y e.stream q n)
      let past := q + BitVec.ofNat 12 n
      (∃ (w : State) (v : SubscribeEntry), w.subscribeAt e.index = some v ∧
        Loses heard w e u v x (n - forwardDistance q x) ∧ v.expected = some past ∧ v.publisher = u.publisher ∧
        s.reports w [streamEvent .segmentsLost 1 e.stream y x.toNat (n - forwardDistance q x) 0] ∧
        Drains w done e v past) ∧
      ∃ t, exec .cleanGone s = .next t ∧ t.subscribeAt e.index = done.subscribeAt e.index) ∧
    (u.publisher ≠ some y ∨ n ≤ forwardDistance q x → ∃ t, exec .cleanGone s = .next t ∧
      t.subscribeAt e.index = some u)

/-- A segment of the recorded publisher is judged by its forward distance from expected, when its clean DATA frame,
staged in a buffer, reaches the table, at the entry that its stream names then (log 46). Behind, it is dropped, and
counted in STALE_DUPLICATES unless REPLAYED; so is a copy of a segment being placed or held by a starved entry, and an
ahead segment already waiting. Ahead, with room in the reorder list, it waits in its place there in a cell, the head of
the free list (log 10) or else an evicted one; with the list full or no cell it is dropped, counted in REORDER_DROPS;
highest seen rises to it, and an IDLE entry starts its repair delay; of an evicted cell the resend, if one is listed,
goes to the GONE list (R86, R98). In order, without FIRST and without a block, it is an orphan and expected moves on. At
an UNSYNCED entry one without FIRST is an orphan; one with FIRST sets expected to its sequence, which makes the entry
synced, and is then taken as an in-order segment of the synced entry. A far one gives up everything held, a segment
being placed with it: the block closes LOST, its write-back with the block's first sequence where none was placed in the
descriptor (log 35), waiting segments and the repair state go, and one SEGMENTS_LOST event tells cause FAR_JUMP, the
publisher, expected and the distance; with FIRST it sets expected and is taken in order in the same way, without, the
entry is UNSYNCED (R81, R83, R109, R110, R111, R112, R113). -/
def Obligations.ASegmentIsTakenByItsDistanceFromExpected : Prop :=
  ∀ (s : State) (e : Entry) (u : SubscribeEntry) (k : BufferId) (g : StagedSegment), s.tableOk → e ∈ s.table →
    e.role = .subscribe u →
    let stale : State := (s.setBuffer k .free).bump .staleDuplicates
    (u.takesFrames = true → u.publisher = some g.sender → g.stream = e.stream →
      dataHeard s (some k) g = (s.setBuffer k (.held g)).takeSegment e.index k g) ∧
    (u.expected = none → g.first = false →
      s.takeSegment e.index k g = (s.setBuffer k .free).bump .orphanSegments) ∧
    (u.expected = none → g.first = true →
      let synced : State := s.modifySubscribe e.index fun v => { v with expected := some g.sequence }
      synced.subscribeAt e.index = some { u with expected := some g.sequence } ∧
      s.takeSegment e.index k g = synced.takeInOrder e.index k g ∧
      (u.placing = none → u.starved = false ∨ (u.waiting.all fun c => c.sequence != g.sequence) = true →
        s.takeSegment e.index k g = synced.takeSegment e.index k g)) ∧
    ∀ x, u.expected = some x →
      (2048 ≤ forwardDistance x g.sequence →
        s.takeSegment e.index k g = (if g.replayed then s.setBuffer k .free else stale)) ∧
      (g.sequence = x →
        (u.placing.isSome = true → s.takeSegment e.index k g = stale) ∧
        (∀ c rest, u.starved = true → u.waiting = c :: rest → c.sequence = x →
          s.takeSegment e.index k g = stale) ∧
        (u.placing = none → u.starved = false → u.waiting = [] → u.block = none → g.first = false →
          ∃ v, (s.takeSegment e.index k g).subscribeAt e.index = some v ∧ v.expected = some (x + 1) ∧
            v.placing = none ∧ v.block = none ∧ v.waiting = [] ∧
            (s.takeSegment e.index k g).line.buffer k = .free ∧
            (s.takeSegment e.index k g).counters =
              { s.counters with orphanSegments := s.counters.orphanSegments + 1 })) ∧
      (1 ≤ forwardDistance x g.sequence → forwardDistance x g.sequence ≤ 127 →
        let seen (v : SubscribeEntry) : Prop := v.expected = some x ∧ v.placing = u.placing ∧
          (∃ h, v.highestSeen = some h ∧ forwardDistance x g.sequence ≤ forwardDistance x h) ∧
          (u.repair = .idle → v.repair = .waiting ∧ v.repairTimer = some 2048) ∧
          (u.repair ≠ .idle → v.repair = u.repair ∧ v.repairTimer = u.repairTimer)
        let waits (c : Nat) (v : SubscribeEntry) : Prop :=
          v.waiting.Perm (⟨c, g.sequence, g.first, g.last, g.sender, g.bytes⟩ :: u.waiting) ∧
            (u.waiting.Pairwise (fun a b => forwardDistance x a.sequence < forwardDistance x b.sequence) →
              v.waiting.Pairwise (fun a b => forwardDistance x a.sequence < forwardDistance x b.sequence))
        (u.waiting.any (fun c => c.sequence == g.sequence) = true → s.takeSegment e.index k g = stale) ∧
        (u.waiting.any (fun c => c.sequence == g.sequence) = false →
          (∀ c rest, s.pool.free = c :: rest → u.written.length + u.waiting.length < 8 →
            ∃ t v, s.takeSegment e.index k g = t ∧ t.line.buffer k = .free ∧ t.pool = { s.pool with free := rest } ∧
              t.subscribeAt e.index = some v ∧ seen v ∧ waits c v) ∧
          (∀ a rest, s.pool.free = [] → s.pool.aged = a :: rest → u.written.length + u.waiting.length < 8 →
            ∃ t v, s.takeSegment e.index k g = t ∧ t.line.buffer k = .free ∧ t.pool.free = [] ∧
              t.pool.aged = s.pool.aged.filter (fun b => b.cell != a.cell) ∧
              (∀ f p c, s.entryAt a.index = some f → f.role = .publish p →
                p.replayQueue.find? (fun c => c.cell == a.cell) = some c →
                t.lists = s.listsWithout a.index f.stream c.sequence) ∧
              t.counters = { s.counters with replayEvictions := s.counters.replayEvictions + 1 } ∧
              t.subscribeAt e.index = some v ∧ seen v ∧ waits a.cell v) ∧
          (8 ≤ u.written.length + u.waiting.length ∨ (s.pool.free = [] ∧ s.pool.aged = []) →
            ∃ t v, s.takeSegment e.index k g = t ∧ t.line.buffer k = .free ∧ t.pool = s.pool ∧
              t.counters = { s.counters with reorderDrops := s.counters.reorderDrops + 1 } ∧
              t.subscribeAt e.index = some v ∧ seen v ∧ v.waiting = u.waiting))) ∧
      (128 ≤ forwardDistance x g.sequence → forwardDistance x g.sequence ≤ 2047 →
        (u.block.isSome = true → ∃ a d, e.chain.current = .held a d) →
        ∃ (w : State) (v : SubscribeEntry), w.subscribeAt e.index = some v ∧ GivesUp s w e u v ∧ v.waiting = [] ∧
          v.block = none ∧ v.partPlaced = 0 ∧ v.starved = false ∧ v.highestSeen = none ∧ v.repair = .idle ∧
          v.repairTimer = none ∧
          v.publisher = u.publisher ∧
          (∀ b a d, u.block = some b → e.chain.current = .held a d →
            (Request.rxWriteBack e.index
              { descriptor := a, used := u.writeOffset, start := u.firstOfBlock, endFlag := true, status := .lost,
                sequence := u.descriptorSequence.getD b.sequence, closes := some b }) ∈ w.port.firstClass) ∧
          (u.placing = none → s.pool.waiting = [] →
            w.pool.free = s.pool.free ++ u.waiting.map ReorderCell.cell) ∧
          s.reports w [streamEvent .segmentsLost 4 e.stream (u.publisher.getD 0) x.toNat
            (forwardDistance x g.sequence) 0] ∧
          (g.first = true →
            let synced : State := w.modifySubscribe e.index fun v => { v with expected := some g.sequence }
            synced.subscribeAt e.index = some { v with expected := some g.sequence } ∧
            s.takeSegment e.index k g = synced.takeInOrder e.index k g ∧
            s.takeSegment e.index k g = synced.takeSegment e.index k g) ∧
          (g.first = false → s.takeSegment e.index k g =
            (w.modifySubscribe e.index fun v => { v with expected := none }).setBuffer k .free))

/-- An in-order segment that fits in the current descriptor is placed there at the write offset in one piece, whose
write is requested in the first class: write offset and byte count rise by its length, expected by one. A further copy
of a segment of which part is placed goes on at the byte after part placed (R121), and one of which nothing remains has
no piece (log 36). A FIRST with no block open opens the block; over an open one it first closes that LOST, the sequence
its write-back carries being the block's first where none was placed in the descriptor (log 35). A LAST closes the block
OK: its write-back is requested after the pieces; a HELD look-ahead then becomes current with its link followed, else
none is current. A piece outside the fence puts the entry in FAULT, with nothing placed, no cell, no timer, its repair
IDLE (log 12), and one STREAM_FAULT event (R58, R131, R147). A segment that does not fit fills the descriptor, which is
written back with neither END nor a closing status, and goes on in the HELD look-ahead; over a descriptor that is full
on arrival it is placed in the look-ahead whole. After it the first waiting segment is placed if it stands at expected.
With no descriptor to be had the entry is starved and says so by one RX_STARVED event, which counts the segments that
wait already (log 11): the segment waits in a cell, the head of the free list (log 10), or is dropped for want of one,
without a claim where the list holds 8 (log 30). A chain at its END is first looked at again, unless a take has found it
ended since the last RESUME (R144; log 38). While the head, the look-ahead or the tail is being read the segment waits,
being placed, and nothing else changes. A FAULTY look-ahead puts the entry in FAULT: STREAM_FAULT tells its cause and
address, and 16 bytes for a read that failed on the bus, else none (R147). A segment that comes while the entry is
starved waits in such a cell too; a FIRST closes an open block then as well (log 8). A buffer stays held until its
writes have ended (R111, R114, R115, R117, R118, R119, R138, R142, R154). -/
def Obligations.AnInOrderSegmentIsPlacedAtTheWriteOffset : Prop :=
  ∀ (s : State) (e : Entry) (u : SubscribeEntry) (k : BufferId) (g : StagedSegment),
    s.tableOk → e ∈ s.table → e.role = .subscribe u → u.takesFrames = true → u.expected = some g.sequence →
    u.placing = none → s.line.buffer k = .held g → 1 ≤ g.bytes.length →
    let n := g.bytes.length
    let block (a : Word) : OpenBlock := match u.block with
      | some b => { b with bytes := b.bytes + n }
      | none => ⟨a, g.sequence, n, g.sender⟩
    let opens : Prop := (g.first = false ∧ u.block.isSome = true) ∨ (g.first = true ∧ u.block = none)
    let piece (a at_ : Word) (offset length : Nat) : Request := .rxPayload e.index (.staging k) a at_ offset length
    (∀ (a : Word) (d : Descriptor), u.starved = false → u.partPlaced = 0 → e.chain.current = .held a d → opens →
      let at_ := BitVec.ofNat 32 (d.buffer.toNat + u.writeOffset)
      (u.writeOffset < d.length →
        s.fence.contains (d.buffer.toNat + u.writeOffset) (min n (d.length - u.writeOffset)) = false →
        (∃ v, (s.takeSegment e.index k g).subscribeAt e.index = some v ∧ v.isFaulted) ∧
        s.reports (s.takeSegment e.index k g) [streamEvent .streamFault 2 e.stream (u.publisher.getD 0)
          g.sequence.toNat (min n (d.length - u.writeOffset)) a]) ∧
      (u.writeOffset + n ≤ d.length → s.fence.contains (d.buffer.toNat + u.writeOffset) n = true →
        (u.waiting = [] → u.highestSeen = none → g.last = false → ∃ t v, s.takeSegment e.index k g = t ∧
          t.line = s.line ∧ t.pool = s.pool ∧ t.counters = s.counters ∧
          t.port = { s.port with firstClass := s.port.firstClass ++ [piece a at_ 0 n] } ∧
          t.subscribeAt e.index = some v ∧ v.expected = some (g.sequence + 1) ∧ v.placing = none ∧
          v.partPlaced = 0 ∧ v.writeOffset = u.writeOffset + n ∧ v.starved = false ∧ v.waiting = [] ∧
          v.descriptorSequence = some (u.descriptorSequence.getD g.sequence) ∧ v.block = some (block a) ∧
          v.firstOfBlock = (u.firstOfBlock || u.block.isNone)) ∧
        (u.waiting = [] → g.last = true → (∀ h r, e.chain.lookAhead ≠ .held h r) → ∃ t v f,
          s.takeSegment e.index k g = t ∧ t.line = s.line ∧ t.pool = s.pool ∧ t.counters = s.counters ∧
          t.port = { s.port with firstClass := s.port.firstClass ++ [piece a at_ 0 n, .rxWriteBack e.index
            { descriptor := a, used := u.writeOffset + n, start := u.firstOfBlock || u.block.isNone,
              endFlag := true, status := .ok, sequence := u.descriptorSequence.getD g.sequence,
              closes := some (block a) }] } ∧
          t.entryAt e.index = some f ∧ f.role = .subscribe v ∧ f.chain = { e.chain with current := .none } ∧
          v.expected = some (g.sequence + 1) ∧ v.placing = none ∧ v.block = none ∧ v.writeOffset = 0) ∧
        (∀ h r, u.waiting = [] → g.last = true → e.chain.lookAhead = .held h r → r.link = 0 → ∃ t v f,
          s.takeSegment e.index k g = t ∧ t.line = s.line ∧ t.pool = s.pool ∧ t.counters = s.counters ∧
          t.port = { s.port with firstClass := s.port.firstClass ++ [piece a at_ 0 n, .rxWriteBack e.index
            { descriptor := a, used := u.writeOffset + n, start := u.firstOfBlock || u.block.isNone,
              endFlag := true, status := .ok, sequence := u.descriptorSequence.getD g.sequence,
              closes := some (block a) }] } ∧
          t.entryAt e.index = some f ∧ f.role = .subscribe v ∧
          f.chain = { e.chain with current := .held h r, lookAhead := .ended } ∧
          v.expected = some (g.sequence + 1) ∧ v.placing = none ∧ v.block = none ∧ v.writeOffset = 0) ∧
        (∀ c, u.waiting = [c] → c.sequence = g.sequence + 1 → c.first = false → c.last = false → g.last = false →
          1 ≤ c.bytes.length → u.writeOffset + n + c.bytes.length ≤ d.length →
          s.fence.contains (d.buffer.toNat + (u.writeOffset + n)) c.bytes.length = true →
          ∃ t v, s.takeSegment e.index k g = t ∧ t.line = s.line ∧ t.pool = s.pool ∧ t.counters = s.counters ∧
          t.port = { s.port with firstClass := s.port.firstClass ++ [piece a at_ 0 n,
            .rxPayload e.index (.cell c.cell) a (BitVec.ofNat 32 (d.buffer.toNat + (u.writeOffset + n))) 0
              c.bytes.length] } ∧
          t.subscribeAt e.index = some v ∧ v.expected = some (g.sequence + 1 + 1) ∧ v.placing = none ∧
          v.waiting = [] ∧ v.written = u.written ++ [c] ∧ v.writeOffset = u.writeOffset + n + c.bytes.length ∧
          v.block = some { block a with bytes := (block a).bytes + c.bytes.length })) ∧
      (∀ (a' : Word) (d' : Descriptor), u.waiting = [] → g.last = false → e.chain.lookAhead = .held a' d' →
        d'.link = 0 → u.writeOffset < d.length → d.length < u.writeOffset + n →
        u.writeOffset + n ≤ d.length + d'.length →
        let room := d.length - u.writeOffset
        s.fence.contains (d.buffer.toNat + u.writeOffset) room = true →
        s.fence.contains d'.buffer.toNat (n - room) = true → ∃ t v f,
          s.takeSegment e.index k g = t ∧ t.line = s.line ∧ t.pool = s.pool ∧ t.counters = s.counters ∧
          t.port = { s.port with firstClass := s.port.firstClass ++ [piece a at_ 0 room, .rxWriteBack e.index
            { descriptor := a, used := d.length, start := u.firstOfBlock || u.block.isNone, endFlag := false,
              status := .ok, sequence := u.descriptorSequence.getD g.sequence, closes := none },
            piece a' d'.buffer room (n - room)] } ∧
          t.entryAt e.index = some f ∧ f.role = .subscribe v ∧
          f.chain = { e.chain with current := .held a' d', lookAhead := .ended } ∧
          v.expected = some (g.sequence + 1) ∧ v.placing = none ∧ v.writeOffset = n - room ∧
          v.firstOfBlock = false ∧ v.descriptorSequence = some g.sequence ∧ v.block = some (block a)) ∧
      (∀ (a' : Word) (d' : Descriptor) (b : OpenBlock) (q : Seq), u.waiting = [] → g.last = false →
        e.chain.lookAhead = .held a' d' → d'.link = 0 → d.length ≤ u.writeOffset → u.block = some b →
        u.descriptorSequence = some q → n ≤ d'.length → s.fence.contains d'.buffer.toNat n = true → ∃ t v f,
          s.takeSegment e.index k g = t ∧ t.line = s.line ∧ t.pool = s.pool ∧ t.counters = s.counters ∧
          t.port = { s.port with firstClass := s.port.firstClass ++ [.rxWriteBack e.index
            { descriptor := a, used := d.length, start := u.firstOfBlock, endFlag := false, status := .ok,
              sequence := q, closes := none }, piece a' d'.buffer 0 n] } ∧
          t.entryAt e.index = some f ∧ f.role = .subscribe v ∧
          f.chain = { e.chain with current := .held a' d', lookAhead := .ended } ∧
          v.expected = some (g.sequence + 1) ∧ v.placing = none ∧ v.writeOffset = n ∧ v.firstOfBlock = false ∧
          v.descriptorSequence = some g.sequence ∧ v.block = some (block a))) ∧
    (∀ (a : Word) (d : Descriptor), u.starved = false → 0 < u.partPlaced → e.chain.current = .held a d → opens →
      u.waiting = [] → u.highestSeen = none → g.last = false →
      let left := n - u.partPlaced
      let at_ := BitVec.ofNat 32 (d.buffer.toNat + u.writeOffset)
      (u.partPlaced < n → u.writeOffset + left ≤ d.length →
        s.fence.contains (d.buffer.toNat + u.writeOffset) left = true → ∃ t v, s.takeSegment e.index k g = t ∧
        t.line = s.line ∧ t.pool = s.pool ∧ t.counters = s.counters ∧
        t.port = { s.port with firstClass := s.port.firstClass ++ [piece a at_ u.partPlaced left] } ∧
        t.subscribeAt e.index = some v ∧ v.expected = some (g.sequence + 1) ∧ v.placing = none ∧
        v.partPlaced = 0 ∧ v.writeOffset = u.writeOffset + left ∧ v.starved = false ∧
        v.descriptorSequence = some (u.descriptorSequence.getD g.sequence) ∧
        v.block = some (match u.block with
          | some b => { b with bytes := b.bytes + left }
          | none => ⟨a, g.sequence, left, g.sender⟩)) ∧
      (n ≤ u.partPlaced → ∃ t v, s.takeSegment e.index k g = t ∧ t.port = s.port ∧ t.pool = s.pool ∧
        t.counters = s.counters ∧ t.subscribeAt e.index = some v ∧ v.expected = some (g.sequence + 1) ∧
        v.placing = none ∧ v.partPlaced = 0 ∧ v.writeOffset = u.writeOffset ∧ v.block = u.block ∧
        (s.port.outstanding (Request.writesFrom (.staging k)) = false → s.placingFrom k = false →
          t.line.buffer k = .free))) ∧
    (∀ b a d, u.starved = false → e.chain.current = .held a d → u.block = some b → g.first = true →
      ∃ (w : State) (v : SubscribeEntry), w.subscribeAt e.index = some v ∧ v.block = none ∧ v.writeOffset = 0 ∧
        v.expected = u.expected ∧ v.waiting = u.waiting ∧ v.placing = none ∧
        (Request.rxWriteBack e.index
          { descriptor := a, used := u.writeOffset, start := u.firstOfBlock, endFlag := true, status := .lost,
            sequence := u.descriptorSequence.getD b.sequence, closes := some b }) ∈ w.port.firstClass ∧
        s.takeSegment e.index k g = (w.modifySubscribe e.index fun v =>
          { v with placing := some ⟨.staging k, g.sequence, g.first, g.last, g.sender, n, u.partPlaced⟩ }).placeOn
            e.index) ∧
    (u.starved = false → u.partPlaced = 0 → opens →
      e.chain.current = .none ∨ (∃ a d, e.chain.current = .held a d ∧ d.length ≤ u.writeOffset) →
      (e.chain.lookAhead = .ended → u.chainEnded = false → ∃ t v f, s.takeSegment e.index k g = t ∧
        t.entryAt e.index = some f ∧ f.role = .subscribe v ∧ v.placing.isSome = true ∧ v.starved = false ∧
        f.chain = { e.chain with lookAhead := .looking } ∧ t.line = s.line ∧
        t.port = { s.port with
          firstClass := s.port.firstClass ++ [.lastLook e.index (e.chain.tail.getD 0)] }) ∧
      (e.chain.lookAhead = .none ∨ (e.chain.lookAhead = .ended ∧ u.chainEnded = true) →
        s.port.outstanding (Request.writesFrom (.staging k)) = false →
        s.placingFrom k = false → ∃ t v, s.takeSegment e.index k g = t ∧ t.subscribeAt e.index = some v ∧
        v.starved = true ∧ v.chainEnded = u.chainEnded ∧ t.port.firstClass = s.port.firstClass ∧ v.partPlaced = 0 ∧
        v.expected = u.expected ∧ t.line.buffer k = .free ∧
        s.reports t [streamEvent .rxStarved 0 e.stream (u.publisher.getD 0) g.sequence.toNat u.waiting.length
          (e.chain.tail.getD 0)] ∧
        (∀ c rest, s.pool.free = c :: rest → u.written.length + u.waiting.length < 8 →
          t.pool = { s.pool with free := rest } ∧
          v.waiting = ⟨c, g.sequence, g.first, g.last, g.sender, g.bytes⟩ :: u.waiting ∧
          v.placing = some ⟨.cell c, g.sequence, g.first, g.last, g.sender, n, 0⟩) ∧
        (8 ≤ u.written.length + u.waiting.length ∨ (s.pool.free = [] ∧ s.pool.aged = []) →
          t.pool = s.pool ∧ v.waiting = u.waiting ∧ v.placing = none ∧
          t.counters.reorderDrops = s.counters.reorderDrops + 1)) ∧
      (∀ h cause, e.chain.lookAhead = .faulty h cause →
        (∃ v, (s.takeSegment e.index k g).subscribeAt e.index = some v ∧ v.isFaulted) ∧
        s.reports (s.takeSegment e.index k g) [streamEvent .streamFault cause.code e.stream (u.publisher.getD 0)
          g.sequence.toNat (if cause = .busError then 16 else 0) h])) ∧
    (u.starved = false → opens →
      (∃ h, e.chain.current = .reading h) ∨
        ((e.chain.current = .none ∨ ∃ a d, e.chain.current = .held a d ∧ d.length ≤ u.writeOffset) ∧
          ((∃ h, e.chain.lookAhead = .reading h) ∨ e.chain.lookAhead = .looking)) →
      u.partPlaced < n → s.takeSegment e.index k g = s.modifySubscribe e.index fun v =>
        { v with placing := some ⟨.staging k, g.sequence, g.first, g.last, g.sender, n, u.partPlaced⟩ }) ∧
    (u.starved = true → (u.waiting.all fun c => c.sequence != g.sequence) = true →
      ∀ c rest, s.pool.free = c :: rest → u.written.length + u.waiting.length < 8 → ∃ t v,
        s.takeSegment e.index k g = t ∧ t.line.buffer k = .free ∧ t.pool = { s.pool with free := rest } ∧
        t.subscribeAt e.index = some v ∧
        v.waiting = ⟨c, g.sequence, g.first, g.last, g.sender, g.bytes⟩ :: u.waiting ∧
        v.placing = some ⟨.cell c, g.sequence, g.first, g.last, g.sender, n, u.partPlaced⟩ ∧
        (u.block = none ∨ g.first = false →
          v = { u with waiting := v.waiting, placing := v.placing } ∧ t.port = s.port) ∧
        ∀ b a d, u.block = some b → e.chain.current = .held a d → g.first = true → v.block = none ∧
          v.starved = true ∧ v.expected = u.expected ∧ v.partPlaced = u.partPlaced ∧
          (Request.rxWriteBack e.index
            { descriptor := a, used := u.writeOffset, start := u.firstOfBlock, endFlag := true, status := .lost,
              sequence := u.descriptorSequence.getD b.sequence, closes := some b }) ∈ t.port.firstClass)

/-! ### The turn -/

/-- In the urgent slot the first unmarked of these is taken: a DISPUTE due of the lowest index, the GONE list's head, a
REPAIR of the lowest index that may ask. A marked one is passed over; with none, the slot passes (R29, R120). -/
def Obligations.TheUrgentSlotTakesTheFirstUnmarkedUrgentFrame : Prop :=
  ∀ s : State, s.tableOk →
    let dispute (e : Entry) : Prop := ∃ p, e.role = .publish p ∧ p.disputeDue = true ∧ p.disputeMark = false
    let gone : Prop := ∃ g rest, s.lists.gone = g :: rest ∧ g.mark = false
    let repair (e : Entry) : Prop := ∃ u target x, e.role = .subscribe u ∧ u.asks target x ∧ u.repairMark = false
    (∀ e ∈ s.table, dispute e → (∀ e' ∈ s.table, dispute e' → e.index ≤ e'.index) →
      s.selectUrgent = some (.dispute s.ownNumber e.stream s.ownNumber, .dispute e.serial)) ∧
    ((∀ e ∈ s.table, ¬dispute e) →
      (∀ g rest, s.lists.gone = g :: rest → g.mark = false →
        s.selectUrgent = some (.gone s.ownNumber g.stream g.first g.count, .gone g.serial g.first g.count)) ∧
      (¬gone →
        (∀ e u target x, e ∈ s.table → e.role = .subscribe u → u.asks target x → u.repairMark = false →
          (∀ e' ∈ s.table, repair e' → e.index ≤ e'.index) →
          s.selectUrgent = some (.repair s.ownNumber e.stream target x (u.repairCount x), .repair e.serial)) ∧
        ((∀ e ∈ s.table, ¬repair e) → s.selectUrgent = none)))

/-- In the own rotation slot and on the hold-off's expiry the first of these is taken, marked or not: DISPUTE, the GONE
list's head, REPAIR, the CLAIM due of a CLAIMING entry, YIELD, the resend list's head with REPLAYED set, new DATA of the
OWNED or CLOSING entry with a complete send-queue head that comes first after the round-robin pointer. Among entries the
lowest index goes first (R30, R31). -/
def Obligations.TheRotationSlotTakesTheFirstDueFrame : Prop :=
  ∀ s : State, s.tableOk → s.turn.pointer < 32 →
    let lowest (has : Entry → Prop) (e : Entry) : Prop := has e ∧ ∀ e' ∈ s.table, has e' → e.index ≤ e'.index
    let dispute (e : Entry) : Prop := ∃ p, e.role = .publish p ∧ p.disputeDue = true
    let repair (e : Entry) : Prop := ∃ u target x, e.role = .subscribe u ∧ u.asks target x
    let claim (e : Entry) : Prop := ∃ p, e.role = .publish p ∧ p.claimDue = true ∧ p.claim = .claiming
    let yield (e : Entry) : Prop := ∃ p, e.role = .publish p ∧ p.yieldDue = true
    let head (e : Entry) (c : PublishCell) : Prop := ∃ p rest, e.role = .publish p ∧
      (p.claim = .owned ∨ p.claim = .closing) ∧ p.sendQueue = c :: rest ∧ c.complete = true
    let turn (e : Entry) : Nat := (e.index + 31 - s.turn.pointer) % 32
    let no (has : Entry → Prop) : Prop := ∀ e ∈ s.table, ¬has e
    (∀ e ∈ s.table, lowest dispute e →
      s.selectAny = some (.dispute s.ownNumber e.stream s.ownNumber, .dispute e.serial)) ∧
    (∀ g rest, no dispute → s.lists.gone = g :: rest →
      s.selectAny = some (.gone s.ownNumber g.stream g.first g.count, .gone g.serial g.first g.count)) ∧
    (∀ e u target x, no dispute → s.lists.gone = [] → e ∈ s.table → e.role = .subscribe u → u.asks target x →
      lowest repair e →
      s.selectAny = some (.repair s.ownNumber e.stream target x (u.repairCount x), .repair e.serial)) ∧
    (no dispute → s.lists.gone = [] → no repair →
      (∀ e ∈ s.table, lowest claim e → s.selectAny = some (.claim s.ownNumber e.stream, .claim e.serial)) ∧
      (∀ e ∈ s.table, no claim → lowest yield e →
        s.selectAny = some (.yield s.ownNumber e.stream, .yield e.serial)) ∧
      (∀ e p r rest c, no claim → no yield → s.lists.resend = r :: rest → e ∈ s.table → e.index = r.index →
        e.role = .publish p → p.claim = .owned ∨ p.claim = .closing →
        p.replayQueue.find? (fun c => c.sequence == r.sequence) = some c →
        s.selectAny = some (.data s.ownNumber e.stream c.sequence c.first c.last true c.decodedLength c.coded,
          .resend e.serial r.sequence)) ∧
      (no claim → no yield → s.lists.resend = [] →
        (∀ e c, e ∈ s.table → head e c → (∀ e' ∈ s.table, ∀ c', head e' c' → turn e ≤ turn e') →
          s.selectAny = some (.data s.ownNumber e.stream c.sequence c.first c.last false c.decodedLength c.coded,
            .newData e.serial e.index c.cell)) ∧
        (no (fun e => ∃ c, head e c) → s.selectAny = none)))

/-- An ACTIVE station at rest starts what it selects: in the urgent slot and in its own rotation slot of a WINDOW, and
on an OPEN line when its running hold-off expires, whatever moment of the window or of the timer the model counts (log
3). The frame and its source stand in the attempt record, the line is BUSY, the hold-off stopped, and the receive phase
is FRAME with the first cell sent already, which is the model's choice beside R9 (log 40). With activity before the
first cell the attempt is abandoned; with nothing selected the moment passes. At the rotation slot and the hold-off's
expiry the line has been released before, so the stuck count is 0 (R15); the urgent slot leaves it. In every other
station state the three moments change nothing (R25, R26, R27, R32, R35). -/
def Obligations.AnActiveStationStartsWhatItSelects : Prop :=
  (∀ s : State, s.station.state = .active → s.line.phase = .rest → s.turn.attempt = none →
      let acts (moment : FirstCell → Instr) (selected : Option Candidate) (urgent : Bool) : Prop :=
        let line := { s.line with stuckCount := if urgent then s.line.stuckCount else 0 }
        (∀ f src, selected = some (f, src) →
          exec (moment .sent) s = .next { s with
            line := { line.discardFrame with phase := .frame }
            turn := { s.turn with condition := .busy, holdOff := none, attempt := some ⟨f, src, urgent⟩ } } ∧
          ∀ heard, exec (moment (.forestalled heard)) s = exec (.activityBegins heard) { s with line := line }) ∧
        (selected = none → ∀ first, exec (moment first) s = .next { s with line := line })
      (s.turn.condition = .window → acts .urgentSlotStart s.selectUrgent true) ∧
      (s.turn.condition = .window → acts .rotationSlotStart s.selectAny false) ∧
      (s.turn.condition = .opened → s.turn.holdOff.isSome = true → acts .holdOffExpiry s.selectAny false)) ∧
  (∀ (s : State) (first : FirstCell), s.station.state ≠ .active →
      exec (.urgentSlotStart first) s = .next s ∧ exec (.rotationSlotStart first) s = .next s ∧
        exec (.holdOffExpiry first) s = .next s)

/-- A read-back that differs at some cell from what the station drives ends the attempt COLLIDED: the activity goes on
as a broken frame, OWN_COLLISIONS increases, and pointer, line condition and anchor stay; if the bit times heard go on
to a stuck line, HOLD is entered too, after the outcome, with the resume-to record of R44 (R16; log 42). A read-back
that agrees ends nothing. The verdict slot of the own frame ends with an anchor at this moment (log 1): clean, without a
driven bit time, the attempt is DELIVERED, this station is the last sender and CLEAN_FRAMES increases, the station stays
ACTIVE, and new DATA moves the round-robin pointer to its index, even if its source is gone (log 20); spoiled,
SPOILED_SEEN increases, record and pointer stay. The owner takes the outcome first; then it joins the history, whose
last 16 stay, and the eighth failure it holds sends the station to QUIET, with a STATION_STATE event of cause
FAILURE_HISTORY (R49, R50; R2, R13, R15, R22, R31, R32, R33, R34, R41, R42). -/
def Obligations.AnOwnAttemptEndsWithItsOutcome : Prop :=
  (∀ (s : State) (a : Attempt) (heard : List LineReading), s.historyOk → s.station.state = .active →
      s.line.phase = .frame → s.turn.attempt = some a →
      let differs : Prop := ∃ (j : Nat) (c : LineCell) (r : LineReading),
        a.frame.onLine[j]? = some c ∧ heard[j]? = some r ∧ r ≠ some c
      let history := (s.station.history ++ [AttemptOutcome.collided]).drop (s.station.history.length - 15)
      let ended : State := { s with
        line := { s.line with
          phase := .broken, brokenWait := .activity, stuckCount := stuckAfter s.line.stuckCount heard }
        turn := { s.turn with attempt := none }
        counters := { s.counters with ownCollisions := s.counters.ownCollisions + 1 } }
      (¬differs → exec (.attemptCollided heard) s = .next s) ∧
      (differs → reachesStuck s.line.stuckCount heard = true → ∃ t, exec (.attemptCollided heard) s = .next t ∧
        t.station.state = .hold ∧ t.station.stuckSeen = true ∧ t.station.history = history ∧
        t.station.resumeTo = (if 8 ≤ failureCount history then .quiet else .joining) ∧
        t.line.phase = .stuck ∧ t.turn.condition = .stuck ∧ t.turn.attempt = none ∧
        t.counters.ownCollisions = s.counters.ownCollisions + 1) ∧
      (differs → reachesStuck s.line.stuckCount heard = false → ∃ t, exec (.attemptCollided heard) s = .next t ∧
        t = ((ended.ownerOutcome a .collided).recordOutcome .collided).finish ∧ t.turn.attempt = none ∧
        t.line.phase = .broken ∧ t.line.brokenWait = .activity ∧
        t.counters.ownCollisions = s.counters.ownCollisions + 1 ∧
        t.station.history = history ∧
        t.station.state = (if 8 ≤ failureCount history then .quiet else .active) ∧
        t.turn.pointer = s.turn.pointer ∧ t.turn.condition = s.turn.condition ∧ t.turn.anchor = s.turn.anchor ∧
        t.turn.lastSender = s.turn.lastSender)) ∧
  (∀ (s : State) (a : Attempt) (heard : List LineReading), s.historyOk → s.station.state = .active →
      s.line.phase = .verdict → s.turn.attempt = some a →
      let ended (sender : Nat) (counters : Counters) : State := { s with
        line := { s.line with phase := .rest, stuckCount := stuckAfter s.line.stuckCount heard }
        turn := { s.turn with
          condition := .window, anchor := some s.clock, emptyWindows := 0, lastSender := sender, attempt := none }
        momentTaken := false, counters := counters }
      (heard.any Option.isSome = false → ∃ t, exec (.attemptVerdict heard) s = .next t ∧
        t = (((ended s.ownNumber { s.counters with cleanFrames := s.counters.cleanFrames + 1 }).ownerOutcome a
          .delivered).recordOutcome .delivered).finish ∧ t.turn.attempt = none ∧ t.line.phase = .rest ∧
        t.turn.condition = .window ∧ t.turn.anchor = some s.clock ∧ t.turn.emptyWindows = 0 ∧
        t.turn.lastSender = s.ownNumber ∧ t.counters.cleanFrames = s.counters.cleanFrames + 1 ∧
        t.station.history = (s.station.history ++ [AttemptOutcome.delivered]).drop (s.station.history.length - 15) ∧
        t.station.state = .active ∧
        t.turn.pointer = (match a.source with
          | .newData _ index _ => index
          | _ => s.turn.pointer)) ∧
      (heard.any Option.isSome = true → reachesStuck s.line.stuckCount heard = false → ∃ t,
        exec (.attemptVerdict heard) s = .next t ∧
        t = (((ended s.turn.lastSender { s.counters with spoiledSeen := s.counters.spoiledSeen + 1 }).ownerOutcome a
          .spoiled).recordOutcome .spoiled).finish ∧ t.turn.attempt = none ∧ t.line.phase = .rest ∧
        t.turn.condition = .window ∧ t.turn.anchor = some s.clock ∧ t.turn.emptyWindows = 0 ∧
        t.turn.lastSender = s.turn.lastSender ∧ t.counters.spoiledSeen = s.counters.spoiledSeen + 1 ∧
        t.station.history = (s.station.history ++ [AttemptOutcome.spoiled]).drop (s.station.history.length - 15) ∧
        t.station.state = (if 8 ≤ failureCount t.station.history then .quiet else .active) ∧
        t.turn.pointer = s.turn.pointer)) ∧
  (∀ (s : State) (o : AttemptOutcome), s.historyOk → s.station.state = .active →
      let history := (s.station.history ++ [o]).drop (s.station.history.length - 15)
      s.reports (s.recordOutcome o) (if 8 ≤ failureCount history
        then [stateRecord 4 .quiet .active 0 (failureCount history)] else []))

/-- A failed attempt leaves its frame due at its owner: CLAIM, YIELD, resend and new DATA as they were; a DISPUTE due, a
GONE list entry and a REPAIR due keep everything but their mark, which is set after a collision in the urgent slot and
cleared after any other failure (R28, R33). -/
def Obligations.AFailedAttemptLeavesItsFrameDue : Prop :=
  ∀ (s : State) (a : Attempt) (o : AttemptOutcome), s.tableOk → o = .spoiled ∨ o = .collided →
    let marked : Bool := a.urgentSlot && o == .collided
    (∀ n, a.source = .claim n ∨ a.source = .yield n ∨ (∃ q, a.source = .resend n q) ∨
      (∃ i c, a.source = .newData n i c) → s.ownerOutcome a o = s) ∧
    (∀ e p, e ∈ s.table → e.role = .publish p → p.disputeDue = true → a.source = .dispute e.serial →
      s.ownerOutcome a o = s.modifyPublish e.index fun v => { v with disputeMark := marked }) ∧
    (∀ e u, e ∈ s.table → e.role = .subscribe u → u.repair = .due → a.source = .repair e.serial →
      s.ownerOutcome a o = s.modifySubscribe e.index fun v => { v with repairMark := marked }) ∧
    (∀ n q c, a.source = .gone n q c → s.ownerOutcome a o =
      { s with lists := { s.lists with gone := s.lists.gone.map fun g =>
        if g.serial = n then { g with mark := marked } else g } })

/-- A delivered DISPUTE is no longer due; a CLAIM of a CLAIMING entry is sent and starts the claim settle timer of 4096
bit times, and one of an entry that entered FAULT meanwhile is sent and starts none (log 34); a YIELD frees a CLOSING
entry, and a FAULT entry whose close was requested; of a FAULT entry without that it is no longer due. A delivered GONE
is counted, and its list entry leaves if its range is unchanged since the frame was built, else it stays without its
mark. A delivered REPAIR is counted; a DUE entry becomes REQUESTED for the frame's range with one attempt more and the
repair wait started, an entry no longer DUE is unchanged. A delivered resend leaves the list and counts in its entry's
resends sent. At a CLOSING entry the closing condition is then checked, and its YIELD is due exactly while it holds;
nothing else of the entry changes. A source that is gone takes no outcome: nothing changes, but that a delivered GONE
and a delivered REPAIR are counted all the same, and delivered new DATA moves the pointer (log 20; R31, R33, R60, R66,
R68, R98, R102, R104, R124). -/
def Obligations.ADeliveredFrameActsAtItsOwner : Prop :=
  (∀ (s : State) (a : Attempt), s.tableOk →
      (∀ e p, e ∈ s.table → e.role = .publish p →
        (a.source = .dispute e.serial → s.ownerOutcome a .delivered =
          s.modifyPublish e.index fun v => { v with disputeDue := false, disputeMark := false }) ∧
        (a.source = .claim e.serial → p.claim = .claiming → s.ownerOutcome a .delivered =
          s.modifyPublish e.index fun v => { v with claimDue := false, claimSent := true, settleTimer := some 4096 }) ∧
        (a.source = .claim e.serial → p.claim = .fault → s.ownerOutcome a .delivered =
          s.modifyPublish e.index fun v => { v with claimDue := false, claimSent := true }) ∧
        (a.source = .yield e.serial →
          (p.claim = .closing ∨ (p.claim = .fault ∧ p.closeRequested = true) →
            s.ownerOutcome a .delivered = s.freeEntry e.index .close) ∧
          (p.claim = .fault → p.closeRequested = false → s.ownerOutcome a .delivered =
            s.modifyPublish e.index fun v => { v with yieldDue := false }))) ∧
      (∀ n, n ∉ s.table.map (·.serial) →
        (a.source = .dispute n ∨ a.source = .claim n ∨ a.source = .yield n ∨ (∃ q, a.source = .resend n q) →
          ∀ o, s.ownerOutcome a o = s) ∧
        (a.source = .repair n → s.ownerOutcome a .delivered =
            { s with counters := { s.counters with repairsSent := s.counters.repairsSent + 1 } } ∧
          ∀ o, o ≠ .delivered → s.ownerOutcome a o = s) ∧
        (∀ i c, a.source = .newData n i c →
          s.ownerOutcome a .delivered = { s with turn := { s.turn with pointer := i } })) ∧
      (∀ n q c, n ∉ s.lists.gone.map (·.serial) → a.source = .gone n q c → s.ownerOutcome a .delivered =
          { s with counters := { s.counters with gonesSent := s.counters.gonesSent + 1 } } ∧
        ∀ o, o ≠ .delivered → s.ownerOutcome a o = s)) ∧
  (∀ (s : State) (a : Attempt), s.tableOk → (s.lists.gone.map (·.serial)).Nodup →
      (∀ g q c, g ∈ s.lists.gone → a.source = .gone g.serial q c → ∃ t, s.ownerOutcome a .delivered = t ∧
        t.counters.gonesSent = s.counters.gonesSent + 1 ∧ t.table = s.table ∧ t.lists.resend = s.lists.resend ∧
        (q = g.first → c = g.count → t.lists.gone = s.lists.gone.erase g) ∧
        (q ≠ g.first ∨ c ≠ g.count → t.lists.gone = s.lists.gone.map fun h =>
          if h.serial = g.serial then { h with mark := false } else h)) ∧
      (∀ e u m k y q c, e ∈ s.table → e.role = .subscribe u → a.source = .repair e.serial →
        a.frame = .repair m k y q c → ∃ t, s.ownerOutcome a .delivered = t ∧
        t.counters.repairsSent = s.counters.repairsSent + 1 ∧
        t.subscribeAt e.index = some (if u.repair = .due then
          { u with repair := .requested, repairMark := false, attempts := u.attempts + 1, requested := some (q, c),
                   repairTimer := some 8192 } else u)) ∧
      (∀ e p q, e ∈ s.table → e.role = .publish p → a.source = .resend e.serial q →
        (⟨e.index, q⟩ : Resend) ∈ s.lists.resend → s.lists.resend.Nodup → ∃ t v, s.ownerOutcome a .delivered = t ∧
        t.lists.resend = s.lists.resend.erase ⟨e.index, q⟩ ∧ t.publishAt e.index = some v ∧
        v = { p with
          resendsSent := p.resendsSent + 1
          yieldDue := if p.claim = .closing then
            p.segmenter == .stopped && p.sendQueue.isEmpty && p.writeBacks.isEmpty
              && !(t.lists.resend.any fun r => r.index == e.index) else p.yieldDue }))

/-- A delivered send-queue head moves to the tail of the replay queue and of the age list, with age 0, and counts in
segments sent; a LAST cell records its write-back, which is requested if the list was empty. A full replay queue first
releases its head, counted in REPLAY_RELEASES, whose sequence goes from the resend list to the GONE list and whose cell,
with no claim waiting, joins the tail of the free list (log 10). At a CLOSING entry the closing condition is then
checked, and its YIELD is due exactly while it holds (R78, R80, R85, R86, R93, R94, R98, R104). -/
def Obligations.ADeliveredSegmentJoinsTheReplayQueue : Prop :=
  ∀ (s : State) (e : Entry) (p : PublishEntry) (c : PublishCell) (rest : List PublishCell) (a : Attempt),
    s.tableOk → e ∈ s.table → e.role = .publish p → p.claim = .owned ∨ p.claim = .closing → p.sendQueue = c :: rest →
    (∀ d ∈ rest, d.cell ≠ c.cell) → a.source = .newData e.serial e.index c.cell →
    (c.last = true → c.tag.isSome = true) →
    let delivered (t : State) (v : PublishEntry) : Prop :=
      s.ownerOutcome a .delivered = t ∧ t.turn.pointer = e.index ∧ t.publishAt e.index = some v ∧
      v.sendQueue = rest ∧ v.segmentsSent = p.segmentsSent + 1 ∧ v.claim = p.claim ∧
      v.yieldDue = (if p.claim = .closing then
        v.segmenter == .stopped && rest.isEmpty && v.writeBacks.isEmpty
          && !(t.lists.resend.any fun r => r.index == e.index) else p.yieldDue) ∧
      (c.last = false → v.writeBacks = p.writeBacks ∧ t.port = s.port) ∧
      (∀ g, c.last = true → c.tag = some g →
        let record : WriteBack := ⟨g.descriptor, g.length, c.sequence, g.notify⟩
        v.writeBacks = p.writeBacks ++ [record] ∧
        (p.writeBacks = [] → t.port =
          { s.port with thirdClass := s.port.thirdClass ++ [.txWriteBack e.index record] }) ∧
        (p.writeBacks ≠ [] → t.port = s.port))
    (p.replayQueue.length < 32 → ∃ t v, delivered t v ∧ v.replayQueue = p.replayQueue ++ [c] ∧
      t.pool = { s.pool with aged := s.pool.aged ++ [⟨c.cell, e.index, 0⟩] } ∧ t.counters = s.counters) ∧
    (∀ r more, p.replayQueue = r :: more → 32 ≤ p.replayQueue.length → (∀ d ∈ more, d.cell ≠ r.cell) →
      s.pool.waiting = [] → ∃ t v, delivered t v ∧ v.replayQueue = more ++ [c] ∧
      t.pool = { s.pool with
        free := s.pool.free ++ [r.cell]
        aged := s.pool.aged.filter (fun b => b.cell != r.cell) ++ [⟨c.cell, e.index, 0⟩] } ∧
      t.counters = { s.counters with replayReleases := s.counters.replayReleases + 1 } ∧
      t.lists = s.listsWithout e.index e.stream r.sequence)

/-! ### The register window -/

/-- ATTACH: refused with BAD_STATE outside DETACHED, and with BAD_CONFIG unless the base is below the limit, the size
code is 4 to 10, the threshold 1 to size − 1 and every byte of the ring lies inside the fence. Taken, the ring is
RING_READY, started empty if it was unset and kept if it was ready, the coalescing timer as it stands in both cases (log
41); the history is emptied, the state is JOINING, with a STATION_STATE event of cause ATTACH (R49, R50); on a released
line a window begins now with record 0, on a driven one the line is BUSY (R156, R167, R168, R19, R20). -/
def Obligations.AttachTakesAConfiguredStationOntoTheLine : Prop :=
  ∀ (driven : Bool) (s : State),
    let size := 2 ^ s.events.config.sizeCode.toNat
    let valid : Prop := s.fence.base.toNat < s.fence.limit.toNat ∧
      4 ≤ s.events.config.sizeCode.toNat ∧ s.events.config.sizeCode.toNat ≤ 10 ∧
      1 ≤ s.events.config.threshold.toNat ∧ s.events.config.threshold.toNat ≤ size - 1 ∧
      s.fence.base.toNat ≤ s.events.config.base.toNat ∧
      s.events.config.base.toNat + 32 * size - 1 ≤ s.fence.limit.toNat
    let started : State := { s with events := if s.events.ready then s.events
      else { s.events with ready := true, writeIndex := 0, producer := 0, consumer := 0, backlog := [] } }
    (s.station.state ≠ .detached →
      exec (.attach driven) s = .next { s with window := { s.window with result := .badState } }) ∧
    (s.station.state = .detached → ¬valid →
      exec (.attach driven) s = .next { s with window := { s.window with result := .badConfig } }) ∧
    (s.station.state = .detached → valid → ∃ t, exec (.attach driven) s = .next t ∧
      t.window = { s.window with result := .done } ∧
      t.station = { s.station with state := .joining, history := [], stateChanged := true } ∧
      started.reports t [stateRecord 1 .joining .detached 0 0] ∧
      t.events.ready = true ∧ t.events.number = s.events.number + 1 ∧ t.events.config = s.events.config ∧
      (s.events.ready = true → t.events.producer = s.events.producer ∧ t.events.consumer = s.events.consumer) ∧
      (s.events.ready = false → t.events.producer = 0 ∧ t.events.consumer = 0) ∧
      (driven = true → t.line.phase = .broken ∧ t.turn = { s.turn with condition := .busy }) ∧
      (driven = false → t.line.phase = .rest ∧
        t.turn = { s.turn with condition := .window, anchor := some s.clock, emptyWindows := 0, lastSender := 0 }) ∧
      t.line.stuckCount = 0 ∧ t.table = s.table ∧ t.pool = s.pool ∧ t.lists = s.lists ∧ t.fence = s.fence)

/-- DETACH: refused with BAD_STATE in DETACHED and DISABLED, and with STREAMS_OPEN while an entry exists. Taken, the
state is DETACHED with a STATION_STATE event of cause DETACH, the line interface OFF with its frame discarded, the line
IGNORED with no anchor, record 0, no attempt; history, resume-to, STUCK_SEEN, fence and ring are kept, and the
empty-window count stays as it stands (log 17). REJOIN: refused with BAD_STATE outside QUIET. Taken, the history is
emptied and the state is JOINING, or ACTIVE at once if the line is OPEN; the line condition, the anchor and the
last-sender record are kept, and each change has its STATION_STATE event, with cause REJOIN and with JOINED_BY_OPEN
(R19, R20, R39, R43, R46, R49, R50, R167, R169, R170). -/
def Obligations.DetachAndRejoinMoveTheStation : Prop :=
  (∀ s : State,
      (s.station.state = .detached ∨ s.station.state = .disabled →
        exec .detach s = .next { s with window := { s.window with result := .badState } }) ∧
      (s.station.state ≠ .detached → s.station.state ≠ .disabled →
        (s.table ≠ [] → exec .detach s = .next { s with window := { s.window with result := .streamsOpen } }) ∧
        (s.table = [] → ∃ t, exec .detach s = .next t ∧
          t.window = { s.window with result := .done } ∧
          t.station = { s.station with state := .detached, stateChanged := true } ∧
          t.line = { s.line.discardFrame with phase := .off, brokenWait := .activity, stuckCount := 0 } ∧
          t.turn = { s.turn with condition := .ignored, anchor := none, lastSender := 0, pointer := 31,
                                 holdOff := none, attempt := none } ∧
          t.fence = s.fence ∧ t.events.config = s.events.config ∧ t.events.ready = s.events.ready ∧
          t.events.producer = s.events.producer ∧ t.events.consumer = s.events.consumer ∧
          s.reports t [stateRecord 8 .detached s.station.state 0 (failureCount s.station.history)] ∧
          t.pool = s.pool ∧ t.counters.ofLine = s.counters.ofLine))) ∧
  (∀ s : State,
      (s.station.state ≠ .quiet →
        exec .rejoin s = .next { s with window := { s.window with result := .badState } }) ∧
      (s.station.state = .quiet → ∃ u : State, exec .rejoin s = .next u.finish ∧
        u.window = { s.window with result := .done } ∧
        u.station = { s.station with
          state := if s.turn.condition = .opened then .active else .joining, history := [], stateChanged := true } ∧
        u.turn = s.turn ∧ u.line = s.line ∧ u.table = s.table ∧ u.pool = s.pool ∧ u.lists = s.lists ∧
        s.reports u (stateRecord 7 .joining .quiet 0 0 ::
          if s.turn.condition = .opened then [stateRecord 3 .active .joining 0 0] else [])))

/-- The entry commands refuse in the order of the checks: BAD_STATE off the line, BAD_STREAM above 1023, then NO_ENTRY
for RESUME, CLOSE, ABORT and INFO without an entry, IN_USE for the OPENs with one, TABLE_FULL with 32 entries, and
BAD_ADDRESS for a non-zero ARGUMENT that is not a multiple of 16 or whose 16 bytes leave the fence; a code that names no
command gives BAD_COMMAND in every state. A refused command changes RESULT alone (R166, R167). -/
def Obligations.ARefusedEntryCommandChangesResultAlone : Prop :=
  ∀ (n : BitVec 16) (s : State), s.tableOk →
    let gives (c : Instr) (r : Result) : Prop := exec c s = .next { s with window := { s.window with result := r } }
    let opens : List Instr := [.openPublish n, .openSubscribe n]
    let others : List Instr := [.resume n, .close n, .abort n, .info n]
    let attached : Prop := s.station.state ≠ .disabled ∧ s.station.state ≠ .detached
    let entry : Prop := n.toNat ∈ s.table.map (·.stream)
    (∀ code, code = 0 ∨ 11 ≤ code.toNat → gives (.unknownCommand code n) .badCommand) ∧
    (¬attached → ∀ c ∈ opens ++ others, gives c .badState) ∧
    (attached → 1024 ≤ n.toNat → ∀ c ∈ opens ++ others, gives c .badStream) ∧
    (attached → n.toNat < 1024 →
      (¬entry → ∀ c ∈ others, gives c .noEntry) ∧
      (entry → ∀ c ∈ opens, gives c .inUse) ∧
      (¬entry → s.table.length = 32 → ∀ c ∈ opens, gives c .tableFull) ∧
      (¬entry → s.table.length < 32 → s.window.argument ≠ 0 →
        s.window.argument.toNat % 16 ≠ 0 ∨ s.window.argument.toNat < s.fence.base.toNat ∨
          s.fence.limit.toNat < s.window.argument.toNat + 15 →
        ∀ c ∈ opens, gives c .badAddress))

/-- An OPEN that passes its checks creates an entry of its role at the lowest free index, with every field at its value
of creation, and the read of a non-zero head is requested. A publish entry is CLAIMING with its CLAIM due and nothing
else due, no timer, an empty send queue, replay queue and write-back list, position 0, next sequence 0, its counts 0,
its segmenter NO_CHAIN without a head, else READY; a subscribe entry is OPEN and UNSYNCED, without a publisher, a block,
a cell or a segment being placed, its repair IDLE, not starved. RESULT is DONE, and the other entries keep their places
(R53, R54, R89, R108, R140, R172, R173). -/
def Obligations.AnOpenCreatesAnEntryAtTheLowestFreeIndex : Prop :=
  ∀ (n : BitVec 16) (i : Nat) (s : State), s.tableOk → s.station.state.attached = true → n.toNat < 1024 →
    n.toNat ∉ s.table.map (·.stream) → i < 32 → i ∉ s.table.map (·.index) →
    (∀ j, j < i → j ∈ s.table.map (·.index)) →
    (s.window.argument = 0 ∨ (s.window.argument.toNat % 16 = 0 ∧
      s.fence.contains s.window.argument.toNat 16 = true)) →
    let head := s.window.argument
    let chain : Chain := if head = 0 then ⟨false, .none, .none, none⟩ else ⟨true, .reading head, .none, none⟩
    let created (t : State) (role : Role) : Prop :=
      t.window = { s.window with result := .done } ∧ t.entryOf n.toNat = some ⟨i, s.nextSerial, n.toNat, chain, role⟩ ∧
      ((t.table.filter (·.index ≠ i)).map Entry.key) = s.table.map Entry.key ∧
      (t.table.map (·.index)).Pairwise (· < ·)
    (∃ t, exec (.openPublish n) s = .next t ∧ created t (.publish
      { claim := .claiming, claimDue := true, disputeDue := false, disputeMark := false, yieldDue := false,
        claimSent := false, closeRequested := false, settleTimer := none,
        segmenter := if head = 0 then .noChain else .ready, position := 0, nextSequence := 0, sendQueue := [],
        replayQueue := [], writeBacks := [], segmentsSent := 0, resendsSent := 0 }) ∧
      (head ≠ 0 → .headRead i head ∈ t.port.thirdClass)) ∧
    ∃ t, exec (.openSubscribe n) s = .next t ∧ created t (.subscribe
      { state := .opened, closing := false, publisher := none, expected := none, placing := none, partPlaced := 0,
        block := none, writeOffset := 0, firstOfBlock := false, descriptorSequence := none, written := [],
        waiting := [], highestSeen := none, repair := .idle, repairTimer := none, repairMark := false, attempts := 0,
        requested := none, starved := false, chainEnded := false }) ∧
      (head ≠ 0 → .headRead i head ∈ t.port.firstClass)

/-- RESUME of a CLAIMING, OWNED or open subscribe entry: on an EMPTY chain a non-zero ARGUMENT becomes the head and its
read is requested in the entry's class, or BAD_ADDRESS if it fails the head's check; on a LINKED chain at its END the
tail is read again, and a subscribe entry's later take may look at it again too (R144). In every other case nothing but
RESULT, DONE, changes (R144, R145, R174). -/
def Obligations.ResumeTakesAHeadOrLooksAtTheTailAgain : Prop :=
  ∀ (n : BitVec 16) (s : State) (e : Entry), s.tableOk → s.station.state.attached = true → n.toNat < 1024 →
    e ∈ s.table → e.stream = n.toNat →
    let cls : PortClass := if e.publish?.isSome then .third else .first
    let done : State := { s with window := { s.window with result := .done } }
    let headOk : Prop := s.window.argument.toNat % 16 = 0 ∧ s.fence.contains s.window.argument.toNat 16 = true
    (e.resumable = true → e.chain.linked = false → s.window.argument ≠ 0 → headOk →
      exec (.resume n) s = .next ((done.modifyChain e.index fun _ =>
        ⟨true, .reading s.window.argument, .none, none⟩).request cls (.headRead e.index s.window.argument))) ∧
    (e.resumable = true → e.chain.linked = false → s.window.argument ≠ 0 → ¬headOk →
      exec (.resume n) s = .next { s with window := { s.window with result := .badAddress } }) ∧
    (e.resumable = true → e.chain.linked = true → e.chain.lookAhead = .ended →
      exec (.resume n) s = .next (((done.modifySubscribe e.index fun u => { u with chainEnded := false }).modifyChain
        e.index fun c => { c with lookAhead := .looking }).request cls (.lastLook e.index (e.chain.tail.getD 0)))) ∧
    (e.resumable = false ∨ (e.chain.linked = false ∧ s.window.argument = 0) ∨
      (e.chain.linked = true ∧ e.chain.lookAhead ≠ .ended) → exec (.resume n) s = .next done)

/-- CLOSE of a publish entry: CLAIMING, LOST, and FAULT without a YIELD due, are freed; OWNED becomes CLOSING, STOPPED
unless its block is partly segmented, with YIELD due if the closing condition holds already; CLOSING is unchanged; FAULT
with its YIELD due waits for it. RESULT is DONE; a freed entry is told by one STREAM_CLOSED event with how CLOSE, the
next sequence and the segments sent (R71, R74, R104, R154, R175). -/
def Obligations.CloseOfAPublishEntryActsByItsClaimState : Prop :=
  ∀ (n : BitVec 16) (s : State) (e : Entry) (p : PublishEntry), s.tableOk → s.station.state.attached = true →
    n.toNat < 1024 → e ∈ s.table → e.stream = n.toNat → e.role = .publish p →
    ∃ u : State, exec (.close n) s = .next u.finish ∧ u.window = { s.window with result := .done } ∧
      (p.claim = .claiming ∨ p.claim = .lost ∨ (p.claim = .fault ∧ p.yieldDue = false) →
        u.entryAt e.index = none ∧ u.forgets e.index e.stream ∧ s.reports u
          [streamEvent .streamClosed 1 e.stream 0 p.nextSequence.toNat p.segmentsSent.toNat 0]) ∧
      (p.claim = .owned → ∃ v, u.publishAt e.index = some v ∧ v.claim = .closing ∧
        v.segmenter = (if p.segmenter = .filling ∨ 0 < p.position then p.segmenter else .stopped) ∧
        v.sendQueue = p.sendQueue ∧ v.replayQueue = p.replayQueue ∧ v.disputeDue = p.disputeDue ∧
        (v.segmenter = .stopped → v.sendQueue = [] → v.writeBacks = [] →
          (∀ r ∈ s.lists.resend, r.index ≠ e.index) → v.yieldDue = true) ∧
        (¬(p.segmenter = .filling ∨ 0 < p.position) → e.index ∉ u.pool.waiting)) ∧
      (p.claim = .closing → u = { s with window := { s.window with result := .done } }) ∧
      (p.claim = .fault → p.yieldDue = true →
        u.publishAt e.index = some { p with closeRequested := true })

/-- CLOSE of a subscribe entry: one in FAULT is freed, one already closing is unchanged. An OPEN one takes no further
frame, whatever clean frame of its stream comes while it still has an entry, and its repair ends, with no timer, mark,
attempt or requested range left (log 12); with no write outstanding it is freed at once, a descriptor read of it
withdrawn with it (log 39); an open block gets its closing write-back with status ABORTED first, with the block's first
sequence where none was placed in the descriptor (log 35). A segment being placed is given up: its buffer is free or its
cell released once no write from it is outstanding, and its bytes placed are part placed (R108; log 44). RESULT is DONE;
a freed entry is told by one STREAM_CLOSED event with how CLOSE, its publisher and its expected sequence (R58, R70, R74,
R131, R154, R175). -/
def Obligations.CloseOfASubscribeEntryEndsItsReception : Prop :=
  ∀ (n : BitVec 16) (s : State) (e : Entry) (u : SubscribeEntry), s.tableOk → s.station.state.attached = true →
    n.toNat < 1024 → e ∈ s.table → e.stream = n.toNat → e.role = .subscribe u →
    ∃ v : State, exec (.close n) s = .next v.finish ∧ v.window = { s.window with result := .done } ∧
      let closed : Event := streamEvent .streamClosed 1 e.stream (u.publisher.getD 0)
        ((u.expected.map BitVec.toNat).getD 0) 0 0
      (u.state = .fault → v.entryAt e.index = none ∧ s.reports v [closed]) ∧
      (u.state = .opened → u.closing = true → v = { s with window := { s.window with result := .done } }) ∧
      (u.state = .opened → ∀ w, v.subscribeAt e.index = some w → ∀ f, f.stream = e.stream →
        v.atTable f = { v with line := v.line.discardFrame.verdictOver }) ∧
      (u.state = .opened → u.closing = false →
        (∀ w, v.subscribeAt e.index = some w → GivesUp s v e u w) ∧
        (∀ pl k, u.placing = some pl → pl.source = .staging k →
          s.port.outstanding (Request.writesFrom (.staging k)) = false →
          (∀ f w q, f ∈ s.table → f ≠ e → f.role = .subscribe w → w.placing = some q → q.source ≠ .staging k) →
          v.line.buffer k = .free) ∧
        (u.block = none → s.port.outstanding (Request.receiveWriteOf e.index) = false →
          v.entryAt e.index = none ∧ v.forgets e.index e.stream ∧ s.reports v [closed]) ∧
        (u.block = none → s.port.outstanding (Request.receiveWriteOf e.index) = true →
          (u.placing = none → v.subscribeAt e.index = some { u.repairIdle with closing := true }) ∧
          s.reports v [] ∧ ∃ w, v.subscribeAt e.index = some w ∧ w.closing = true ∧ w.placing = none ∧ w.block = none ∧
            ∀ pl, u.placing = some pl → w.partPlaced = pl.placed) ∧
        (∀ b a d, u.block = some b → e.chain.current = .held a d →
          (∃ w, v.subscribeAt e.index = some w ∧ w.closing = true ∧ w.block = none ∧ w.repair = .idle ∧
            w.placing = none) ∧
          (Request.rxWriteBack e.index
            { descriptor := a, used := u.writeOffset, start := u.firstOfBlock, endFlag := true, status := .aborted,
              sequence := u.descriptorSequence.getD b.sequence, closes := some b }) ∈ v.port.firstClass))

/-- ABORT frees the entry of any role and state: its index is free, no list, request or held staging buffer is left of
it, every other entry stays, and with no claim waiting its cells join the free list at its tail, in the order of the
model (log 10). RESULT is DONE, and one STREAM_CLOSED event tells how ABORT: of a publish entry its next sequence and
segments sent, of a subscribe entry its publisher and expected sequence (R55, R74, R154, R176). -/
def Obligations.AbortFreesTheEntry : Prop :=
  ∀ (n : BitVec 16) (s : State) (e : Entry), s.tableOk → s.station.state.attached = true → n.toNat < 1024 →
    e ∈ s.table → e.stream = n.toNat →
    ∃ u : State, exec (.abort n) s = .next u.finish ∧ u.window = { s.window with result := .done } ∧
      u.entryAt e.index = none ∧ u.entryOf e.stream = none ∧ u.forgets e.index e.stream ∧
      (u.table.map Entry.key) = ((s.table.filter (·.index ≠ e.index)).map Entry.key) ∧
      (∀ g, u.line.bufferA = .held g ∨ u.line.bufferB = .held g → g.stream ≠ e.stream) ∧
      (s.pool.waiting = [] → u.table = s.table.filter (·.index ≠ e.index) ∧
        u.pool.free = s.pool.free ++ e.cells) ∧
      (∀ p, e.role = .publish p →
        s.reports u [streamEvent .streamClosed 2 e.stream 0 p.nextSequence.toNat p.segmentsSent.toNat 0]) ∧
      ∀ v, e.role = .subscribe v → s.reports u [streamEvent .streamClosed 2 e.stream (v.publisher.getD 0)
        ((v.expected.map BitVec.toNat).getD 0) 0 0]

/-- INFO latches the snapshot of the entry into the four words and changes nothing else but RESULT; the fields of the
words are those of 11.4 (R177). -/
def Obligations.InfoLatchesTheEntrysSnapshot : Prop :=
  ∀ (n : BitVec 16) (s : State) (e : Entry), s.tableOk → s.station.state.attached = true → n.toNat < 1024 →
    e ∈ s.table → e.stream = n.toNat →
    ∃ t, exec (.info n) s = .next t ∧
      t = { s with window := { s.window with
        result := .done, info0 := t.window.info0, info1 := t.window.info1, info2 := t.window.info2,
        info3 := t.window.info3 } } ∧
      fieldOf t.window.info0 0 10 = e.stream ∧ fieldOf t.window.info0 10 5 = e.index ∧
      t.window.info2 = e.chain.current.address ∧
      ((∀ u, e.role = .subscribe u → u.attempts ≤ 3) →
        fieldOf t.window.info0 27 2 = e.chain.current.code ∧
          fieldOf t.window.info0 29 3 = e.chain.lookAhead.code) ∧
      (∀ p, e.role = .publish p → p.sendQueue.length ≤ 8 → p.writeBacks.length ≤ 8 →
        fieldOf t.window.info0 15 1 = 0 ∧ fieldOf t.window.info0 16 3 = p.claim.code ∧
        fieldOf t.window.info0 19 3 = p.segmenter.code ∧ fieldOf t.window.info0 22 1 = flagBit p.claimDue ∧
        fieldOf t.window.info0 23 1 = flagBit p.disputeDue ∧ fieldOf t.window.info0 24 1 = flagBit p.yieldDue ∧
        fieldOf t.window.info0 25 1 = flagBit p.claimSent ∧ fieldOf t.window.info0 26 1 = flagBit p.closeRequested ∧
        fieldOf t.window.info1 0 12 = p.nextSequence.toNat ∧ fieldOf t.window.info1 12 12 = p.oldestHeld.toNat ∧
        fieldOf t.window.info1 24 4 = p.sendQueue.length ∧ fieldOf t.window.info1 28 4 = p.writeBacks.length ∧
        fieldOf t.window.info3 0 16 = p.segmentsSent.toNat % 65536 ∧
        fieldOf t.window.info3 16 16 = p.resendsSent.toNat % 65536) ∧
      (∀ u, e.role = .subscribe u → u.attempts ≤ 3 → u.publisher.getD 0 ≤ 32 → u.reorderCount ≤ 8 →
        u.highestDistance ≤ 127 → u.writeOffset < 65536 → u.partPlaced < 240 →
        (u.requested.map Prod.snd).getD 0 ≤ 16 →
        fieldOf t.window.info0 15 1 = 1 ∧ fieldOf t.window.info0 16 1 = flagBit (u.state == .fault) ∧
        fieldOf t.window.info0 17 1 = flagBit u.closing ∧ fieldOf t.window.info0 18 1 = flagBit u.expected.isSome ∧
        fieldOf t.window.info0 19 1 = flagBit u.starved ∧ fieldOf t.window.info0 20 1 = flagBit u.block.isSome ∧
        fieldOf t.window.info0 21 2 = u.repair.code ∧ fieldOf t.window.info0 23 2 = u.attempts ∧
        fieldOf t.window.info1 0 12 = (u.expected.map BitVec.toNat).getD 0 ∧
        fieldOf t.window.info1 12 7 = u.highestDistance ∧
        fieldOf t.window.info1 19 6 = u.publisher.getD 0 ∧ fieldOf t.window.info1 25 4 = u.reorderCount ∧
        fieldOf t.window.info3 0 16 = u.writeOffset ∧ fieldOf t.window.info3 16 8 = u.partPlaced ∧
        fieldOf t.window.info3 24 5 = (u.requested.map Prod.snd).getD 0)

/-- A read of STATION, of any width and byte, returns the whole word as it stands and clears both change flags; nothing
else changes (R51, R52, R165). -/
def Obligations.AReadOfStationClearsTheChangeFlags : Prop :=
  ∀ (lane : BitVec 2) (width : Nat) (s : State), s.turn.lastSender ≤ 32 → failureCount s.station.history ≤ 8 →
    ∃ t, exec (.stationRead lane width) s = .next t ∧
      t = { s with window := { s.window with readData := t.window.readData }
                   station := { s.station with stateChanged := false, stuckSeen := false } } ∧
      fieldOf t.window.readData 0 3 = s.station.state.code ∧ fieldOf t.window.readData 3 1 = s.station.resumeTo.code ∧
      fieldOf t.window.readData 4 3 = s.turn.condition.code ∧ fieldOf t.window.readData 8 6 = s.turn.lastSender ∧
      fieldOf t.window.readData 16 4 = failureCount s.station.history ∧
      fieldOf t.window.readData 24 1 = flagBit s.station.stateChanged ∧
      fieldOf t.window.readData 25 1 = flagBit s.station.stuckSeen

/-- A write of EVENT_BASE or EVENT_CTRL is ignored on the line. Off it, the register takes the value's fields, the ring
is RING_UNSET with its indices at 0, every event held back, waiting or in flight is counted in EVENTS_LOST, the requests
of other blocks stay, and the coalescing timer stops; the event number and the latched causes stay (R155). -/
def Obligations.AWriteOfTheRingRegistersUnsetsTheRing : Prop :=
  ∀ (reg : RingRegister) (value : Word) (s : State),
    (s.station.state ≠ .disabled → s.station.state ≠ .detached →
      exec (.eventRingConfigWrite reg value) s = .next s) ∧
    (s.station.state = .disabled ∨ s.station.state = .detached → ∃ t,
      exec (.eventRingConfigWrite reg value) s = .next t ∧
      t.events = { s.events with
        ready := false, config := t.events.config, writeIndex := 0, producer := 0, consumer := 0, backlog := [],
        timer := .stopped } ∧
      (reg = .eventBase → t.events.config = { s.events.config with base := value &&& 0xFFFFFFE0#32 }) ∧
      (reg = .eventCtrl → t.events.config =
        ⟨s.events.config.base, value.extractLsb' 0 4, value.extractLsb' 8 10, value.extractLsb' 24 8⟩) ∧
      t.port.firstClass = s.port.firstClass.filter (fun r => !r.isEventWrite) ∧
      t.port.secondClass = s.port.secondClass.filter (fun r => !r.isEventWrite) ∧
      t.port.thirdClass = s.port.thirdClass.filter (fun r => !r.isEventWrite) ∧
      (∀ g, s.port.granted = some g →
        t.port.granted = some { g with discarded := g.discarded || g.request.isEventWrite }) ∧
      t.counters = { s.counters with eventsLost := t.counters.eventsLost } ∧
      t.counters.eventsLost = s.counters.eventsLost
        + BitVec.ofNat 32 (s.events.backlog.length + s.port.secondClass.countP Request.isEventWrite)
        + (if s.port.granted.any (fun g => !g.discarded && g.request.isEventWrite) then 1 else 0) ∧
      (s.port.granted = none → t.port.granted = none) ∧
      t.station = s.station ∧ t.line = s.line ∧ t.turn = s.turn ∧ t.table = s.table ∧ t.fence = s.fence ∧
      t.window = s.window)

/-- An event that a rule asks for while the ring is RING_UNSET does nothing. In RING_READY it takes the event number,
which goes up by one, and with an empty backlog, writes not stopped and room in the ring it takes the record at the
write index: the record's write is requested in the second class and the index moves on, or, the record lying outside
the fence, HOST_FAULT is latched, the writes stop and the event is lost. Else it joins the backlog; with 4 held back it
is lost, EVENTS_LOST increases and OVERFLOW is latched (R153, R157, R159, R160). An event about a stream carries the
fields of its kind, with no state entered or left (R154). A write of EVENT_CONSUMER takes the value modulo the ring's
size in every state; one that equals the producer stops the coalescing timer. In RING_READY with writes not stopped the
backlog drains, its oldest event first, each to the record at the write index, its write requested: until the backlog is
empty, or the ring has no room, or an event's record lies outside the fence, which latches HOST_FAULT, counts that event
in EVENTS_LOST and stops the writes with the rest held back. Else the backlog stays. Nothing else changes (R157, R158,
R160, R161). -/
def Obligations.AWriteOfTheConsumerDrainsTheBacklog : Prop :=
  (∀ (ev : Event) (s : State),
    let size := 2 ^ s.events.config.sizeCode.toNat
    let numbered : Event := { ev with number := s.events.number }
    let taken : EventUnit := { s.events with number := s.events.number + 1 }
    let toRing : Prop := s.events.backlog = [] ∧ s.events.writesStopped = false ∧
      (s.events.writeIndex + 1) % size ≠ s.events.consumer
    let inside : Prop := s.fence.contains (s.events.config.base.toNat + 32 * s.events.writeIndex) 32 = true
    let lost : Counters := { s.counters with eventsLost := s.counters.eventsLost + 1 }
    (s.events.ready = false → s.emit ev = s) ∧
    (s.events.ready = true →
      (toRing → inside → s.emit ev = { s with
        events := { taken with writeIndex := (s.events.writeIndex + 1) % size }
        port := { s.port with
          secondClass := s.port.secondClass ++ [.eventWrite s.events.writeIndex numbered] } }) ∧
      (toRing → ¬inside → s.emit ev = { s with
        events := { taken with hostFault := true, writesStopped := true }, counters := lost }) ∧
      (¬toRing → s.events.backlog.length < 4 →
        s.emit ev = { s with events := { taken with backlog := s.events.backlog ++ [numbered] } }) ∧
      (¬toRing → 4 ≤ s.events.backlog.length →
        s.emit ev = { s with events := { taken with overflow := true }, counters := lost }))) ∧
  (∀ kind code stream station sequence count descriptor,
    streamEvent kind code stream station sequence count descriptor =
      { kind := kind, code := code, entered := 0, left := 0, number := 0, stream := some stream, station := station,
        sequence := sequence, count := count, descriptor := descriptor }) ∧
  ∀ (value : Word) (s : State), ∃ t, exec (.eventConsumerWrite value) s = .next t ∧
    let size := 2 ^ s.events.config.sizeCode.toNat
    let consumer := value.toNat % 1024 % size
    let place (j : Nat) : Nat := if j = 0 then s.events.writeIndex else (s.events.writeIndex + j) % size
    let inside (j : Nat) : Prop := s.fence.contains (s.events.config.base.toNat + 32 * place j) 32 = true
    let room (j : Nat) : Prop := (s.events.writeIndex + j + 1) % size ≠ consumer
    let taken : EventUnit := { s.events with
      consumer := consumer, timer := if consumer = s.events.producer then .stopped else s.events.timer }
    (s.events.ready = false ∨ s.events.writesStopped = true → t = { s with events := taken }) ∧
    (s.events.ready = true → s.events.writesStopped = false → ∃ j, j ≤ s.events.backlog.length ∧
      (∀ i, i < j → room i ∧ inside i) ∧
      let requested : HostPort := { s.port with
        secondClass := s.port.secondClass
          ++ (s.events.backlog.take j).zipIdx.map fun p => .eventWrite (place p.2) p.1 }
      ((j = s.events.backlog.length ∨ ¬room j) ∧
          t = { s with port := requested
                       events := { taken with writeIndex := place j, backlog := s.events.backlog.drop j } }) ∨
        (j < s.events.backlog.length ∧ room j ∧ ¬inside j ∧
          t = { s with
            port := requested
            events := { taken with
              writeIndex := place j, backlog := s.events.backlog.drop (j + 1), hostFault := true,
              writesStopped := true }
            counters := { s.counters with eventsLost := s.counters.eventsLost + 1 } }))

/-- INT_STATUS and the INT pin: the word shows the three causes; a write with 1 in OVERFLOW or HOST_FAULT clears that
cause, a 0 leaves it, and the EVENTS bit of a write is ignored; writes stopped stays. The EVENTS cause holds while the
ring is RING_READY and the unconsumed records reach the threshold or the coalescing timer is EXPIRED; INT is high while
an enabled cause is set (R160, R161, R162). -/
def Obligations.InterruptCausesAreLatchedShownAndCleared : Prop :=
  ∀ (value : Word) (s : State),
    let size := 2 ^ s.events.config.sizeCode.toNat
    let events : Prop := s.events.ready = true ∧
      (s.events.config.threshold.toNat ≤ (s.events.producer + size - s.events.consumer) % size ∨
        s.events.timer = .expired)
    exec (.intStatusWrite value) s = .next { s with events := { s.events with
      overflow := s.events.overflow && !value.getLsbD 1, hostFault := s.events.hostFault && !value.getLsbD 2 } } ∧
    ((s.readRegister 0x2C).getLsbD 0 = true ↔ events) ∧
    (s.readRegister 0x2C).getLsbD 1 = s.events.overflow ∧ (s.readRegister 0x2C).getLsbD 2 = s.events.hostFault ∧
    (s.intPin = true ↔ (events ∧ s.events.enable.getLsbD 0 = true) ∨
      (s.events.overflow = true ∧ s.events.enable.getLsbD 1 = true) ∨
      (s.events.hostFault = true ∧ s.events.enable.getLsbD 2 = true))

/-- Register writes: one of another width or alignment is ignored, and so is one to a read-only register or to an offset
that names none. A 32-bit write of ARGUMENT, COUNTER_INDEX and INT_ENABLE is taken in every state; one of FENCE_BASE and
FENCE_LIMIT off the line only, with the four lowest bits cleared and set. A write of the COMMAND word takes the command
its code names, with its stream field; writes with rows of their own act as those, which is the model's reading of the
table of commands (log 22; R137, R165, R166, R182). What a register reads, in every state, at any byte of its word:
RESULT, ARGUMENT, the fence, the ring's base, control fields, producer and consumer, INT_ENABLE, the counter index and
the counter it selects, INFO, the lengths of the pool's lists, and 0 above (R77, R137, R155, R158, R165, R178; 11.3). -/
def Obligations.ARegisterWriteActsOnItsRegister : Prop :=
  ∀ (value : Word) (driven : Bool) (s : State),
    let write (offset : BitVec 7) : Instr := .registerWrite offset 4 value driven
    let stream := value.extractLsb' 16 16
    let code := value.toNat % 65536
    let free : Prop := s.station.state = .disabled ∨ s.station.state = .detached
    let count := s.counters
    (∀ o w, w ≠ 4 ∨ o.toNat % 4 ≠ 0 → exec (.registerWrite o w value driven) s = .next s) ∧
    (∀ o : BitVec 7, o.toNat ∈ [0x00, 0x04, 0x08, 0x24, 0x38, 0x3C, 0x40, 0x44, 0x48, 0x4C] ∨ 0x50 ≤ o.toNat →
      exec (write o) s = .next s) ∧
    exec (write 0x10) s = .next { s with window := { s.window with argument := value } } ∧
    exec (write 0x34) s = .next { s with window := { s.window with counterIndex := value.extractLsb' 0 4 } } ∧
    exec (write 0x30) s = .next { s with events := { s.events with enable := value.extractLsb' 0 3 } } ∧
    (free → exec (write 0x14) s = .next { s with fence := { s.fence with base := value &&& 0xFFFFFFF0#32 } } ∧
      exec (write 0x18) s = .next { s with fence := { s.fence with limit := value ||| 0x0000000F#32 } }) ∧
    (¬free → exec (write 0x14) s = .next s ∧ exec (write 0x18) s = .next s) ∧
    exec (write 0x1C) s = exec (.eventRingConfigWrite .eventBase value) s ∧
    exec (write 0x20) s = exec (.eventRingConfigWrite .eventCtrl value) s ∧
    exec (write 0x28) s = exec (.eventConsumerWrite value) s ∧
    exec (write 0x2C) s = exec (.intStatusWrite value) s ∧
    (code = 1 → exec (write 0x0C) s = exec (.attach driven) s) ∧
    (code = 2 → exec (write 0x0C) s = exec .detach s) ∧ (code = 3 → exec (write 0x0C) s = exec .rejoin s) ∧
    (code = 4 → exec (write 0x0C) s = exec .resetStation s) ∧
    (code = 5 → exec (write 0x0C) s = exec (.openPublish stream) s) ∧
    (code = 6 → exec (write 0x0C) s = exec (.openSubscribe stream) s) ∧
    (code = 7 → exec (write 0x0C) s = exec (.resume stream) s) ∧
    (code = 8 → exec (write 0x0C) s = exec (.close stream) s) ∧
    (code = 9 → exec (write 0x0C) s = exec (.abort stream) s) ∧
    (code = 10 → exec (write 0x0C) s = exec (.info stream) s) ∧
    (code = 0 ∨ 11 ≤ code → exec (write 0x0C) s = exec (.unknownCommand (value.extractLsb' 0 16) stream) s) ∧
    (∀ o o' : BitVec 7, o.toNat / 4 = o'.toNat / 4 → s.readRegister o = s.readRegister o') ∧
    (∀ o : BitVec 7, 0x50 ≤ o.toNat → s.readRegister o = 0#32) ∧
    (s.readRegister 0x0C).toNat = s.window.result.code ∧
    [Result.done, .badState, .badStream, .noEntry, .inUse, .tableFull, .badAddress, .badConfig, .streamsOpen,
      .badCommand].map Result.code = List.range 10 ∧
    s.readRegister 0x10 = s.window.argument ∧ s.readRegister 0x14 = s.fence.base ∧
    s.readRegister 0x18 = s.fence.limit ∧ s.readRegister 0x1C = s.events.config.base ∧
    fieldOf (s.readRegister 0x20) 0 4 = s.events.config.sizeCode.toNat ∧
    fieldOf (s.readRegister 0x20) 8 10 = s.events.config.threshold.toNat ∧
    fieldOf (s.readRegister 0x20) 24 8 = s.events.config.coalescing.toNat ∧
    s.readRegister 0x24 = BitVec.ofNat 32 s.events.producer ∧
    s.readRegister 0x28 = BitVec.ofNat 32 s.events.consumer ∧
    s.readRegister 0x30 = s.events.enable.setWidth 32 ∧ s.readRegister 0x34 = s.window.counterIndex.setWidth 32 ∧
    s.readRegister 0x38 = s.counters.select s.window.counterIndex ∧
    (List.range 16).map (fun i => count.select (BitVec.ofNat 4 i)) =
      [count.cleanFrames, count.spoiledSeen, count.spoilsDriven, count.brokenFrames, count.ownCollisions,
        count.stagingOverruns, count.foreignData, count.staleDuplicates, count.orphanSegments, count.reorderDrops,
        count.replayEvictions, count.replayReleases, count.repairsSent, count.repairsSuppressed, count.gonesSent,
        count.eventsLost] ∧
    s.readRegister 0x3C = s.window.info0 ∧ s.readRegister 0x40 = s.window.info1 ∧
    s.readRegister 0x44 = s.window.info2 ∧ s.readRegister 0x48 = s.window.info3 ∧
    (s.pool.free.length ≤ 160 → s.pool.aged.length ≤ 160 → s.pool.waiting.length ≤ 32 →
      fieldOf (s.readRegister 0x4C) 0 8 = s.pool.free.length ∧
      fieldOf (s.readRegister 0x4C) 8 8 = s.pool.aged.length ∧
      fieldOf (s.readRegister 0x4C) 16 6 = s.pool.waiting.length)

/-! ### Timers -/

/-- When the claim settle timer of a CLAIMING entry expires, the entry is OWNED, its timer stopped, and CLAIM_WON is
asked for; the replay age limit releases the oldest replay cell, once its age is 65536 bit times, from its queue and the
age list, to the tail of the free list (log 10) or to the entry that waits for a cell first after the waiting pointer,
and counts it in REPLAY_RELEASES; a resend of it goes to the GONE list (R80, R86, R98); a younger head stays (R87); the
running coalescing timer becomes EXPIRED, and nothing else changes then. The settle and coalescing expiries act whatever
time the model still counts as left (log 3); a timer that does not run has no expiry (log 2; R61, R84, R161). -/
def Obligations.TheTimersOfClaimAgeAndEventsExpire : Prop :=
  ∀ s : State, s.tableOk →
    (∀ e p, e ∈ s.table → e.role = .publish p → p.claim = .claiming → p.settleTimer.isSome = true →
      s.station.state.receiving = true →
      exec (.claimSettleExpiry e.index) s = .next
        ((s.modifyPublish e.index fun v => { v with claim := .owned, settleTimer := none }).emit
          { kind := .claimWon, code := 0, entered := 0, left := 0, number := 0, stream := some e.stream,
            station := s.ownNumber, sequence := p.nextSequence.toNat, count := p.sendQueue.length,
            descriptor := 0 }).finish) ∧
    (∀ e p, e ∈ s.table → e.role = .publish p → p.settleTimer = none →
      exec (.claimSettleExpiry e.index) s = .next s) ∧
    (∀ a rest, s.pool.aged = a :: rest → 65536 ≤ a.age → s.station.state.receiving = true → s.pool.waiting = [] →
      ∃ u : State, exec .replayAgeLimit s = .next u.finish ∧
        u.counters = { s.counters with replayReleases := s.counters.replayReleases + 1 } ∧
        u.pool = { s.pool with aged := s.pool.aged.filter (fun b => b.cell != a.cell)
                               free := s.pool.free ++ [a.cell] } ∧
        (∀ f p c, s.entryAt a.index = some f → f.role = .publish p →
          p.replayQueue.find? (fun c => c.cell == a.cell) = some c →
          u.lists = s.listsWithout a.index f.stream c.sequence) ∧
        ∀ p, s.publishAt a.index = some p → ∃ v, u.publishAt a.index = some v ∧
          v.replayQueue = p.replayQueue.filter (fun c => c.cell != a.cell) ∧ v.sendQueue = p.sendQueue) ∧
    (∀ a rest e p b d, s.pool.aged = a :: rest → 65536 ≤ a.age → s.station.state.receiving = true →
      s.pool.waitingPointer < 32 → (∀ i ∈ s.pool.waiting, i < 32) → e ∈ s.table → e.role = .publish p →
      e.chain.current = .held b d → e.index ∈ s.pool.waiting →
      (∀ i ∈ s.pool.waiting, (e.index + 31 - s.pool.waitingPointer) % 32 ≤ (i + 31 - s.pool.waitingPointer) % 32) →
      ∃ u : State, exec .replayAgeLimit s = .next u.finish ∧
        u.counters = { s.counters with replayReleases := s.counters.replayReleases + 1 } ∧
        u.pool = { s.pool with
          aged := s.pool.aged.filter (fun b => b.cell != a.cell)
          waiting := s.pool.waiting.erase e.index, waitingPointer := e.index } ∧
        ∃ v, u.publishAt e.index = some v ∧ v.segmenter = .filling ∧
          v.sendQueue.map PublishCell.cell = p.sendQueue.map PublishCell.cell ++ [a.cell]) ∧
    (∀ a rest, s.pool.aged = a :: rest → a.age < 65536 → exec .replayAgeLimit s = .next s) ∧
    (∀ n, s.events.timer = .running n → exec .coalescingTimerExpiry s =
      .next { s with events := { s.events with timer := .expired } }) ∧
    ((∀ n, s.events.timer ≠ .running n) → exec .coalescingTimerExpiry s = .next s) ∧
    (s.pool.aged = [] → exec .replayAgeLimit s = .next s)

/-- When the repair delay expires in WAITING, or the repair wait in REQUESTED after fewer than 3 attempts, whatever time
the model still counts as left (log 3), the entry is DUE if it has a recorded publisher, with its timer stopped; without
one, the range the REPAIR would have asked for is lost, and an entry that would ask for nothing loses nothing: it is
IDLE, or with a gap seen waits again (log 13). So it goes at a DUE entry whose publisher's YIELD is heard; it is then no
longer DUE. After the third attempt the requested range is lost from expected on. Paused timers do not expire (log 2). A
loss gives up a segment being placed or parked, with its buffer free or its cell released once no write from it is
outstanding; an open block closes (log 35), the waiting segments in the range are released (log 10), expected moves past
the range, and one SEGMENTS_LOST event tells the cause, NO_PUBLISHER or NO_ANSWER, the publisher or 0, the old expected
and the count, at a heard YIELD after PUBLISHER_SET; then a waiting segment at the new expected sequence is drained
(R114, R122, R123, R125, R126, R129, R154). -/
def Obligations.TheRepairTimersAskOrGiveUp : Prop :=
  ∀ (s : State) (e : Entry) (u : SubscribeEntry) (x : Seq), s.tableOk → e ∈ s.table → e.role = .subscribe u →
    u.expected = some x → (u.block.isSome = true → ∃ a d, e.chain.current = .held a d) →
    let past (n : Nat) : Seq := x + BitVec.ofNat 12 n
    let lost (cause station count : Nat) : Event := streamEvent .segmentsLost cause e.stream station x.toNat count 0
    (u.repairTimer.isSome = true →
      let runs : Prop := s.station.state.receiving = true ∧ u.starved = false
      let loses (c : Instr) (n cause station : Nat) : Prop := ∃ (w t : State) (v : SubscribeEntry),
        w.subscribeAt e.index = some v ∧ Loses s w e u v x n ∧ v.publisher = u.publisher ∧
        s.reports w [lost cause station n] ∧ Drains w t e v (past n) ∧ exec c s = .next t.finish ∧
        t.finish.subscribeAt e.index = t.subscribeAt e.index
      let asks (c : Instr) : Prop :=
        (u.publisher.isSome = true → ∃ t, exec c s = .next t ∧
          t.subscribeAt e.index = some { u with repair := .due, repairMark := false, repairTimer := none }) ∧
        (u.publisher = none → u.takesFrames = true → 1 ≤ u.repairCount x → loses c (u.repairCount x) 3 0) ∧
        (u.publisher = none → u.repairCount x = 0 → ∃ t, exec c s = .next t ∧ t.subscribeAt e.index = some
          (if u.highestSeen = none then
            { u with repair := .idle, repairTimer := none, repairMark := false, attempts := 0, requested := none }
          else { u with repair := .waiting, repairTimer := some 2048, repairMark := false }))
      (runs → u.repair = .waiting → asks (.repairDelayExpiry e.index)) ∧
      (runs → u.repair = .requested → u.attempts < 3 → asks (.repairWaitExpiry e.index)) ∧
      (runs → u.repair = .requested → 3 ≤ u.attempts → ∀ q n, u.requested = some (q, n) →
        forwardDistance q x < n → u.takesFrames = true →
        q + BitVec.ofNat 12 n = past (n - forwardDistance q x) ∧
        loses (.repairWaitExpiry e.index) (n - forwardDistance q x) 2 (u.publisher.getD 0)) ∧
      (¬runs → exec (.repairDelayExpiry e.index) s = .next s ∧ exec (.repairWaitExpiry e.index) s = .next s)) ∧
    (∀ y, u.repair = .due → u.takesFrames = true → u.publisher = some y → s.hears (.yield y e.stream) →
      let heard : State := { s with line := s.line.discardFrame.verdictOver }
      let done : State := s.atTable (.yield y e.stream)
      (1 ≤ u.repairCount x →
        (∃ (w : State) (v : SubscribeEntry), w.subscribeAt e.index = some v ∧
          Loses heard w e u v x (u.repairCount x) ∧ v.publisher = none ∧
          s.reports w [streamEvent .publisherSet 6 e.stream 0 0 0 0, lost 3 0 (u.repairCount x)] ∧
          Drains w done e v (past (u.repairCount x))) ∧
        ∃ t, exec .cleanYield s = .next t ∧ t.subscribeAt e.index = done.subscribeAt e.index) ∧
      (u.repairCount x = 0 → ∃ t, exec .cleanYield s = .next t ∧ t.subscribeAt e.index = some
        (if u.highestSeen = none then
          { u with publisher := none, repair := .idle, repairTimer := none, repairMark := false, attempts := 0,
                   requested := none }
        else { u with publisher := none, repair := .waiting, repairTimer := some 2048, repairMark := false })))

/-! ### The host port -/

/-- A FREE port grants the oldest request of the lowest-numbered class that holds one; a write takes its bytes at that
moment. With a transfer granted, or no request, nothing changes. HREQ is driven while a transfer is granted. A
transfer's address, length and bytes are those of its kind: of a descriptor 16 bytes are read; a SENT write-back writes
4 bytes at offset 12 and a receive write-back 6 at offset 10, and what the chain unit reads of the descriptor stays; a
payload takes its bytes from its staging buffer or pool cell; an event record is 32 bytes at its place in the ring, its
kinds numbered from 1 and the station states in it from 0 (11.2). The end of a transfer whose result is discarded frees
the port and does nothing else, whatever it was and however it ended (R78, R134, R135, R148, R150, R151, R181). -/
def Obligations.ThePortGrantsInOrderAndDiscardsWhatNobodyWants : Prop :=
  (∀ s : State,
      let granted (r : Request) : Option Granted := some ⟨r, s.transferAddress r, s.writtenBytes r, false⟩
      (s.port.granted = none → ∀ r rest,
        (s.port.firstClass = r :: rest → exec .transferGrant s = .next { s with port :=
          { s.port with granted := granted r, firstClass := rest } }) ∧
        (s.port.firstClass = [] → s.port.secondClass = r :: rest → exec .transferGrant s = .next { s with port :=
          { s.port with granted := granted r, secondClass := rest } }) ∧
        (s.port.firstClass = [] → s.port.secondClass = [] → s.port.thirdClass = r :: rest →
          exec .transferGrant s = .next { s with port := { s.port with granted := granted r, thirdClass := rest } })) ∧
      (s.port.granted.isSome = true ∨
        (s.port.firstClass = [] ∧ s.port.secondClass = [] ∧ s.port.thirdClass = []) →
        exec .transferGrant s = .next s) ∧
      (s.hreqPin = true ↔ s.port.granted ≠ none)) ∧
  (∀ (s : State) (i : Nat),
      let transfer (r : Request) (address count : Nat) : Prop := s.transferAddress r = address ∧ r.byteCount = count
      (∀ a : Word, ∀ r ∈ [Request.headRead i a, .lookAheadRead i a, .lastLook i a],
        transfer r a.toNat 16 ∧ s.writtenBytes r = []) ∧
      (∀ k a n, transfer (.txPayload i k a n) a.toNat n ∧ s.writtenBytes (.txPayload i k a n) = []) ∧
      (∀ r : WriteBack, transfer (.txWriteBack i r) (r.descriptor.toNat + 12) 4 ∧
        s.writtenBytes (.txWriteBack i r) =
          [1, 0, BitVec.ofNat 8 (r.lastSequence.toNat % 256), BitVec.ofNat 8 (r.lastSequence.toNat / 256)] ∧
        ∀ record : List Byte, record.length = 16 →
          descriptorOf (writeInto record 12 (s.writtenBytes (.txWriteBack i r))) = descriptorOf record) ∧
      (∀ r : RxWriteBack, transfer (.rxWriteBack i r) (r.descriptor.toNat + 10) 6 ∧
        s.writtenBytes (.rxWriteBack i r) =
          [BitVec.ofNat 8 (r.used % 256), BitVec.ofNat 8 (r.used / 256 % 256),
            BitVec.ofNat 8 (flagBit r.start + 2 * flagBit r.endFlag), BitVec.ofNat 8 r.status.code,
            BitVec.ofNat 8 (r.sequence.toNat % 256), BitVec.ofNat 8 (r.sequence.toNat / 256)] ∧
        ∀ record : List Byte, record.length = 16 →
          rxDescriptorOf (writeInto record 10 (s.writtenBytes (.rxWriteBack i r))) = rxDescriptorOf record) ∧
      (∀ k a b o n, transfer (.rxPayload i k a b o n) b.toNat n ∧
        (∀ j g, k = .staging j → s.line.buffer j = .held g →
          s.writtenBytes (.rxPayload i k a b o n) = (g.bytes.drop o).take n) ∧
        (∀ j c u, k = .cell j → s.subscribeAt i = some u →
          (u.written ++ u.waiting).find? (fun c => c.cell == j) = some c →
          s.writtenBytes (.rxPayload i k a b o n) = (c.bytes.drop o).take n)) ∧
      ∀ place ev, transfer (.eventWrite place ev) (s.events.config.base.toNat + 32 * place) 32 ∧
        let b := s.writtenBytes (.eventWrite place ev)
        b.length = 32 ∧ recordField b 0 1 = ev.kind.code ∧ recordField b 1 1 = ev.code % 256 ∧
          recordField b 2 1 = ev.entered % 256 ∧ recordField b 3 1 = ev.left % 256 ∧
          recordField b 4 2 = ev.number.toNat ∧ recordField b 6 2 = ev.stream.getD 65535 % 65536 ∧
          recordField b 8 1 = ev.station % 256 ∧ recordField b 9 1 = 0 ∧
          recordField b 10 2 = ev.sequence % 65536 ∧ recordField b 12 4 = ev.count % 4294967296 ∧
          recordField b 16 4 = ev.descriptor.toNat ∧ b.drop 20 = List.replicate 12 0) ∧
  ([EventKind.blockSent, .blockReceived, .txChainEnd, .rxStarved, .claimWon, .claimLost, .publisherSet, .segmentsLost,
      .streamClosed, .streamFault, .stationState].map EventKind.code = [1, 2, 3, 4, 5, 6, 7, 8, 9, 10, 11] ∧
    [StationState.disabled, .detached, .joining, .active, .quiet, .hold].map StationState.code = [0, 1, 2, 3, 4, 5] ∧
    [BlockStatus.ok, .lost, .aborted].map BlockStatus.code = [1, 2, 3] ∧
    [FaultCause.badDescriptor, .fence, .busError].map FaultCause.code = [1, 2, 3]) ∧
  (∀ (s : State) (g : Granted) (c : Completion) (d : ReadCompletion), s.port.granted = some g → g.discarded = true →
      let freed : State := { s with port := { s.port with granted := none } }
      (∀ i a, g.request = .headRead i a → d.isDescriptor = true → exec (.headDescriptorReadEnd d) s = .next freed) ∧
      (∀ i a, g.request = .lookAheadRead i a → d.isDescriptor = true → exec (.lookAheadReadEnd d) s = .next freed) ∧
      (∀ i a, g.request = .lastLook i a → d.isDescriptor = true → exec (.lastLookEnd d) s = .next freed) ∧
      (∀ i k a n, g.request = .txPayload i k a n → (∀ b, d = .ok b → b.length = n) →
        exec (.txPayloadReadEnd d) s = .next freed) ∧
      (∀ i r, g.request = .txWriteBack i r → exec (.txWriteBackEnd c) s = .next freed) ∧
      (∀ i k a b o n, g.request = .rxPayload i k a b o n → exec (.rxPayloadWriteEnd c) s = .next freed) ∧
      (∀ i r, g.request = .rxWriteBack i r → exec (.rxWriteBackEnd c) s = .next freed) ∧
      (∀ i e, g.request = .eventWrite i e → exec (.eventWriteEnd c) s = .next freed))

/-- The read of a chain's head ends: a valid record is HELD as current, its address is the tail, and the look-ahead
follows from its link: END for 0, FAULTY for one that fails its check, else READING with the read requested in the
entry's class. A publish entry in NO_CHAIN is then READY; at a subscribe entry a starvation ends. A segment being placed
with bytes left, one that waited for the read or one that a starved entry held, goes on in the descriptor from its bytes
placed, as `State.takesUp` says: what is left of it fits, and with LAST the block closes OK; or it fills the descriptor
and waits for the next one or for the last look at the tail, or enters FAULT by a FAULTY link; a piece outside the fence
is FAULT too, and without FIRST and without a block it is an orphan (log 37). Where its placing ends, that is said of a
list whose next segment does not stand at the next sequence. A record with length or capacity 0, and an ERROR, put the
entry in FAULT, a subscribe entry with its repair IDLE (log 12), and one STREAM_FAULT event tells the cause,
BAD_DESCRIPTOR with no byte or BUS_ERROR with 16, and the descriptor; at a closing subscribe entry neither changes
anything of the entry, its chain included (log 19), and nothing is reported (R111, R115, R117, R121, R136, R138, R140,
R141, R142, R146, R147, R154). -/
def Obligations.AHeadReadEndsWithTheDescriptorHeld : Prop :=
  ∀ (s : State) (g : Granted) (e : Entry) (a : Word), s.tableOk → e ∈ s.table → s.port.granted = some g →
    g.discarded = false → g.request = .headRead e.index a →
    let taken (f : Entry) (d : Descriptor) (requests : List Request) : Prop :=
      f.chain.current = .held a d ∧ f.chain.tail = some a ∧
        (d.link = 0 → f.chain.lookAhead = .ended) ∧
        (d.link ≠ 0 → d.link.toNat % 16 ≠ 0 → f.chain.lookAhead = .faulty d.link .badDescriptor) ∧
        (d.link ≠ 0 → d.link.toNat % 16 = 0 → s.fence.contains d.link.toNat 16 = true →
          f.chain.lookAhead = .reading d.link ∧ .lookAheadRead e.index d.link ∈ requests) ∧
        (d.link ≠ 0 → d.link.toNat % 16 = 0 → s.fence.contains d.link.toNat 16 = false →
          f.chain.lookAhead = .faulty d.link .fence)
    (∀ b u, e.role = .subscribe u → u.placing = none → b.length = 16 → (rxDescriptorOf b).length ≠ 0 →
      ∃ t f v, exec (.headDescriptorReadEnd (.ok b)) s = .next t ∧ t.entryAt e.index = some f ∧
        f.role = .subscribe v ∧ (u.takesFrames = true → v.starved = false) ∧ v.placing = none ∧ v.writeOffset = 0 ∧
        taken f (rxDescriptorOf b) t.port.firstClass) ∧
    (∀ b u pl x, e.role = .subscribe u → u.takesFrames = true → u.placing = some pl → pl.placed < pl.length →
      u.expected = some x → b.length = 16 → (rxDescriptorOf b).length ≠ 0 →
      ∃ w : State, exec (.headDescriptorReadEnd (.ok b)) s = .next w.finish ∧
        s.takesUp w e u pl x a (rxDescriptorOf b) []) ∧
    (∀ b p, e.role = .publish p → b.length = 16 → (descriptorOf b).length ≠ 0 →
      ∃ (w : State) (v : PublishEntry) (f : Entry), exec (.headDescriptorReadEnd (.ok b)) s = .next w.finish ∧
        w.entryAt e.index = some f ∧ f.role = .publish v ∧
        v = { p with segmenter := if p.segmenter = .noChain then .ready else p.segmenter } ∧
        taken f (descriptorOf b) w.port.thirdClass) ∧
    (∀ c cause count, (c = .error ∧ cause = 3 ∧ count = 16) ∨
        ((∃ b, c = .ok b ∧ b.length = 16 ∧ (descriptorOf b).length = 0) ∧ cause = 1 ∧ count = 0) →
      ∃ w : State, exec (.headDescriptorReadEnd c) s = .next w.finish ∧
        (∀ p, e.role = .publish p → (∃ v, w.publishAt e.index = some v ∧ v.isEnded .fault p.claim.owns ∧
          w.forgets e.index e.stream) ∧
          s.reports w [streamEvent .streamFault cause e.stream s.ownNumber p.nextSequence.toNat count a]) ∧
        (∀ u, e.role = .subscribe u → u.closing = false →
          (∃ v, w.subscribeAt e.index = some v ∧ v.isFaulted) ∧
          s.reports w [streamEvent .streamFault cause e.stream (u.publisher.getD 0)
            ((u.expected.map BitVec.toNat).getD 0) count a]) ∧
        (∀ u, e.role = .subscribe u → u.closing = true → w.entryAt e.index = some e ∧ s.reports w []))

/-- A look-ahead read ends: a valid record is HELD with its address the tail, one with length or capacity 0 is FAULTY
with BAD_DESCRIPTOR, an ERROR FAULTY with BUS_ERROR. A second read of the tail with a link of 0 leaves END, a link that
passes its check is READING with the read requested in the entry's class, one that fails it FAULTY, an ERROR FAULTY with
the tail's address (log 18); only the link is used. An entry that waits for nothing goes on unchanged: a publish entry
with a current block, or neither READY nor NO_CHAIN; a subscribe entry placing nothing and not starved, or a closing one
(log 19). One that waits, and finds FAULTY, is in FAULT, a subscribe entry with its repair IDLE (log 12): STREAM_FAULT
tells the cause, the station, the sequence, 16 bytes for an ERROR or none for a failed check, and the address. A publish
entry without a current block that is READY, its take waiting, or NO_CHAIN takes the HELD record and is READY; at END
again a waiting take is NO_CHAIN, told by TX_CHAIN_END with the next sequence, the cells of its send queue and the tail,
NO_CHAIN stays. A subscribe entry placing a segment is starved then, told by RX_STARVED with the publisher, expected,
the number of waiting segments and the tail. One placed from a staging buffer moves to a cell at the front of the
waiting segments: the head of the free list (log 10), or else the evicted head of the age list, a listed resend of it
going to the GONE list; without a cell, or with 8 held (log 30), it is dropped. Evictions and drops are counted; the
buffer is freed once unused. With a HELD look-ahead an open block's full descriptor is left first, by its full
write-back (log 35). Then the new one is current with write offset 0: a segment being placed with bytes left, starved or
waiting for the read, goes on in it, as `State.takesUp` says, an orphan without FIRST and without a block (log 37); a
starvation with none being placed ends. A released cell joins the free list at its tail (log 10; R81, R83, R86, R98,
R111, R115, R117, R119, R121, R138, R139, R141, R142, R143, R145, R147). -/
def Obligations.ALookAheadReadSettlesTheLookAhead : Prop :=
  ∀ (s : State) (g : Granted) (e : Entry) (a : Word), s.tableOk → e ∈ s.table → s.port.granted = some g →
    g.discarded = false →
    let publishes : Bool := e.publish?.isSome
    let recordOf (b : List Byte) : Descriptor := if publishes then descriptorOf b else rxDescriptorOf b
    let full (u : SubscribeEntry) : Prop :=
      e.chain.current = .none ∨ ∃ h d, e.chain.current = .held h d ∧ d.length ≤ u.writeOffset
    let takes (p : PublishEntry) : Prop := e.chain.current = .none ∧ (p.segmenter = .ready ∨ p.segmenter = .noChain)
    let wants (u : SubscribeEntry) : Prop := u.takesFrames = true ∧ full u ∧
      ((∃ pl, u.placing = some pl ∧ pl.placed < pl.length) ∨ (u.placing = none ∧ u.starved = true))
    let waits : Prop := (∃ p, e.role = .publish p ∧ takes p) ∨ ∃ u, e.role = .subscribe u ∧ wants u
    let goesOn : Prop := (∃ p, e.role = .publish p ∧ ¬takes p) ∨
      ∃ u, e.role = .subscribe u ∧ ((u.placing = none ∧ u.starved = false) ∨ u.takesFrames = false)
    let asked (w : State) (requests : List Request) : Prop := w.port = { s.port with
      granted := none
      firstClass := s.port.firstClass ++ (if publishes then [] else requests)
      thirdClass := s.port.thirdClass ++ (if publishes then requests else []) }
    let look (c : Instr) (l : LookAhead) (tail : Option Word) (requests : List Request) : Prop :=
      ∃ (w : State) (f : Entry), exec c s = .next w.finish ∧ w.entryAt e.index = some f ∧ f.role = e.role ∧
        f.chain = { e.chain with lookAhead := l, tail := tail } ∧ asked w requests ∧ s.reports w [] ∧
        (publishes = false → w.finish.entryAt e.index = some f)
    let faults (c : Instr) (cause : FaultCause) (count : Nat) (address : Word) : Prop :=
      ∃ w : State, exec c s = .next w.finish ∧
        (∀ p, e.role = .publish p → (∃ v, w.publishAt e.index = some v ∧ v.isEnded .fault p.claim.owns) ∧
          w.forgets e.index e.stream ∧ s.reports w [streamEvent .streamFault cause.code e.stream s.ownNumber
            p.nextSequence.toNat count address]) ∧
        ∀ u, e.role = .subscribe u → (∃ v, w.subscribeAt e.index = some v ∧ v.isFaulted) ∧
          s.reports w [streamEvent .streamFault cause.code e.stream (u.publisher.getD 0)
            ((u.expected.map BitVec.toNat).getD 0) count address]
    let linkCause (link : Word) : FaultCause := if link.toNat % 16 ≠ 0 then .badDescriptor else .fence
    let linkOk (link : Word) : Prop := link.toNat % 16 = 0 ∧ s.fence.contains link.toNat 16 = true
    (g.request = .lookAheadRead e.index a →
      (goesOn → look (.lookAheadReadEnd .error) (.faulty a .busError) e.chain.tail []) ∧
      (waits → faults (.lookAheadReadEnd .error) .busError 16 a) ∧
      ∀ b : List Byte, b.length = 16 →
        (goesOn → (recordOf b).length ≠ 0 →
          look (.lookAheadReadEnd (.ok b)) (.held a (recordOf b)) (some a) []) ∧
        (goesOn → (recordOf b).length = 0 →
          look (.lookAheadReadEnd (.ok b)) (.faulty a .badDescriptor) e.chain.tail []) ∧
        (waits → (recordOf b).length = 0 → faults (.lookAheadReadEnd (.ok b)) .badDescriptor 0 a) ∧
        ∀ p, e.role = .publish p → takes p → (recordOf b).length ≠ 0 →
          let link := (recordOf b).link
          ∃ (w : State) (f : Entry), exec (.lookAheadReadEnd (.ok b)) s = .next w.finish ∧
            w.entryAt e.index = some f ∧ f.role = .publish { p with segmenter := .ready } ∧
            f.chain.current = .held a (recordOf b) ∧ f.chain.tail = some a ∧ s.reports w [] ∧
            (link = 0 → f.chain.lookAhead = .ended ∧ asked w []) ∧
            (link ≠ 0 → linkOk link → f.chain.lookAhead = .reading link ∧ asked w [.lookAheadRead e.index link]) ∧
            (link ≠ 0 → ¬linkOk link → f.chain.lookAhead = .faulty link (linkCause link) ∧ asked w [])) ∧
    (g.request = .lastLook e.index a →
      (goesOn → look (.lastLookEnd .error) (.faulty a .busError) e.chain.tail []) ∧
      (waits → faults (.lastLookEnd .error) .busError 16 a) ∧
      ∀ b : List Byte, b.length = 16 →
        let link := (descriptorOf b).link
        (goesOn → link = 0 → look (.lastLookEnd (.ok b)) .ended e.chain.tail []) ∧
        (goesOn ∨ waits → link ≠ 0 → linkOk link →
          look (.lastLookEnd (.ok b)) (.reading link) e.chain.tail [.lookAheadRead e.index link]) ∧
        (goesOn → link ≠ 0 → ¬linkOk link →
          look (.lastLookEnd (.ok b)) (.faulty link (linkCause link)) e.chain.tail []) ∧
        (waits → link ≠ 0 → ¬linkOk link → faults (.lastLookEnd (.ok b)) (linkCause link) 0 link) ∧
        ∀ p, e.role = .publish p → e.chain.current = .none → link = 0 →
          (p.segmenter = .noChain → look (.lastLookEnd (.ok b)) .ended e.chain.tail []) ∧
          (p.segmenter = .ready → ∃ (w : State) (f : Entry), exec (.lastLookEnd (.ok b)) s = .next w.finish ∧
            w.entryAt e.index = some f ∧ f.role = .publish { p with segmenter := .noChain } ∧
            f.chain = { e.chain with lookAhead := .ended } ∧
            s.reports w [streamEvent .txChainEnd 0 e.stream s.ownNumber p.nextSequence.toNat p.sendQueue.length
              (e.chain.tail.getD 0)])) ∧
    (∀ u : SubscribeEntry, e.role = .subscribe u → u.takesFrames = true → ∀ b : List Byte, b.length = 16 →
      (∀ pl c, u.placing = some pl → pl.source = .cell c → u.starved = false → g.request = .lastLook e.index a →
        (descriptorOf b).link = 0 → ∃ w : State, exec (.lastLookEnd (.ok b)) s = .next w.finish ∧
          w.subscribeAt e.index = some { u with starved := true, partPlaced := pl.placed, chainEnded := true } ∧
          s.reports w [streamEvent .rxStarved 0 e.stream (u.publisher.getD 0)
            ((u.expected.map BitVec.toNat).getD 0) u.waiting.length (e.chain.tail.getD 0)]) ∧
      (∀ pl k r, u.placing = some pl → pl.source = .staging k → s.line.buffer k = .held r → u.starved = false →
        g.request = .lastLook e.index a → (descriptorOf b).link = 0 →
        ∃ (w : State) (v : SubscribeEntry), exec (.lastLookEnd (.ok b)) s = .next w.finish ∧
          w.subscribeAt e.index = some v ∧
          v = { u with starved := true, partPlaced := pl.placed, chainEnded := true, waiting := v.waiting
                       placing := v.placing } ∧
          s.reports w [streamEvent .rxStarved 0 e.stream (u.publisher.getD 0)
            ((u.expected.map BitVec.toNat).getD 0) u.waiting.length (e.chain.tail.getD 0)] ∧
          (s.port.outstanding (Request.writesFrom (.staging k)) = true → w.line = s.line) ∧
          (s.port.outstanding (Request.writesFrom (.staging k)) = false →
            (∀ f q, f ∈ s.table → f ≠ e → f.role = .subscribe q → q.places (.staging k) = false) →
            w.line.buffer k = .free) ∧
          let counted : Counters := { s.counters with eventsLost := w.counters.eventsLost }
          let kept (c : Nat) : Prop :=
            v.waiting = ⟨c, r.sequence, r.first, r.last, r.sender, r.bytes⟩ :: u.waiting ∧
            v.placing = some { pl with source := .cell c }
          (∀ c rest, s.pool.free = c :: rest → u.written.length + u.waiting.length < 8 →
            kept c ∧ w.pool = { s.pool with free := rest } ∧ w.counters = counted) ∧
          (∀ c rest, s.pool.free = [] → s.pool.aged = c :: rest → u.written.length + u.waiting.length < 8 →
            kept c.cell ∧
            w.pool = { s.pool with aged := s.pool.aged.filter (fun d => d.cell != c.cell) } ∧
            w.counters = { counted with replayEvictions := s.counters.replayEvictions + 1 } ∧
            ∀ f q d, s.entryAt c.index = some f → f.role = .publish q →
              q.replayQueue.find? (fun d => d.cell == c.cell) = some d →
              w.lists = s.listsWithout c.index f.stream d.sequence) ∧
          (8 ≤ u.written.length + u.waiting.length ∨ (s.pool.free = [] ∧ s.pool.aged = []) →
            v.waiting = u.waiting ∧ v.placing = none ∧ w.pool = s.pool ∧
            w.counters = { counted with reorderDrops := s.counters.reorderDrops + 1 })) ∧
      (g.request = .lookAheadRead e.index a → full u →
        let record := rxDescriptorOf b
        record.length ≠ 0 →
        (u.placing = none → u.starved = true →
          ∃ (w : State) (f : Entry), exec (.lookAheadReadEnd (.ok b)) s = .next w.finish ∧
            w.entryAt e.index = some f ∧ w.finish.entryAt e.index = some f ∧
            f.role = .subscribe { u with
              starved := false, writeOffset := 0, firstOfBlock := false, descriptorSequence := none } ∧
            f.chain = { e.chain with
              current := .held a record, lookAhead := s.fence.lookAheadFor record.link, tail := some a } ∧
            asked w (e.leaving u ++ s.fence.linkReads e.index record.link) ∧ s.reports w []) ∧
        ∀ pl x, u.placing = some pl → pl.placed < pl.length → u.expected = some x →
          ∃ w : State, exec (.lookAheadReadEnd (.ok b)) s = .next w.finish ∧
            s.takesUp w e u pl x a record (e.leaving u)))

/-- A payload read ends OK: its cell takes the coded bytes and is complete. A cell that is not LAST moves the position
on and leaves the segmenter READY. A LAST one brings the position back to 0; a CLOSING entry stops there, any other
takes its look-ahead: a HELD one becomes current, one being read is waited for with no current block, at END the tail is
looked at again, a FAULTY one puts the entry in FAULT, and without one the chain has ended and the segmenter is
NO_CHAIN. A read that ends ERROR puts the entry in FAULT (R92, R94, R142, R143, R146). A chain's end is told by
TX_CHAIN_END; a fault by STREAM_FAULT with the cause, this station, the next sequence, the bytes of the transfer and the
descriptor: those of the read that failed, or of the FAULTY look-ahead, 16 bytes for one that failed on the bus and none
for a failed check (R147, R154). -/
def Obligations.APayloadReadCompletesItsCell : Prop :=
  ∀ (s : State) (g : Granted) (e : Entry) (p : PublishEntry) (k n : Nat) (a : Word) (c : PublishCell)
    (b : List Byte), s.tableOk → e ∈ s.table → e.role = .publish p → s.port.granted = some g →
    g.discarded = false → g.request = .txPayload e.index k a n → b.length = n →
    p.sendQueue.find? (fun c => c.cell == k) = some c →
    let coded (q : List PublishCell) : List PublishCell :=
      q.map fun c => if c.cell = k then { c with coded := encodePayload b, complete := true } else c
    let faulted (w : State) : Prop := ∃ v, w.publishAt e.index = some v ∧ v.isEnded .fault p.claim.owns ∧
      w.forgets e.index e.stream
    let fault (cause : FaultCause) (count : Nat) (descriptor : Word) : Event :=
      streamEvent .streamFault cause.code e.stream s.ownNumber p.nextSequence.toNat count descriptor
    (∃ w : State, exec (.txPayloadReadEnd (.ok b)) s = .next w.finish ∧
      ((∀ h cause, c.last = true → p.claim ≠ .closing → e.chain.lookAhead ≠ .faulty h cause) ∨ faulted w) ∧
      (c.last = true → p.claim ≠ .closing → ∀ h cause, e.chain.lookAhead = .faulty h cause →
        s.reports w [fault cause (if cause = .busError then 16 else 0) h]) ∧
      (c.last = true → p.claim ≠ .closing → e.chain.lookAhead = .none → s.reports w
        [streamEvent .txChainEnd 0 e.stream s.ownNumber p.nextSequence.toNat p.sendQueue.length
          (e.chain.tail.getD 0)]) ∧
      (c.last = false ∨ p.claim = .closing → s.reports w []) ∧
      ∃ v, w.publishAt e.index = some v ∧
      (c.last = false → v = { p with
        sendQueue := coded p.sendQueue, position := p.position + n, segmenter := .ready }) ∧
      (c.last = true → p.claim ≠ .closing → (∀ h cause, e.chain.lookAhead ≠ .faulty h cause) →
        v = { p with
          sendQueue := coded p.sendQueue, position := 0
          segmenter := if e.chain.lookAhead = .none then .noChain else .ready } ∧
        ∃ f, w.entryAt e.index = some f ∧
          (∀ h d, e.chain.lookAhead = .held h d → f.chain.current = .held h d) ∧
          ((∀ h d, e.chain.lookAhead ≠ .held h d) → f.chain.current = .none ∧ f.chain.tail = e.chain.tail) ∧
          (e.chain.lookAhead = .ended → f.chain.lookAhead = .looking ∧
            .lastLook e.index (e.chain.tail.getD 0) ∈ w.port.thirdClass) ∧
          ((∃ h, e.chain.lookAhead = .reading h) ∨ e.chain.lookAhead = .looking ∨ e.chain.lookAhead = .none →
            f.chain.lookAhead = e.chain.lookAhead)) ∧
      (c.last = true → p.claim = .closing → v.segmenter = .stopped ∧ v.position = 0 ∧
        v.sendQueue = coded p.sendQueue ∧ v.claim = .closing)) ∧
    ∃ w : State, exec (.txPayloadReadEnd .error) s = .next w.finish ∧ faulted w ∧
      s.reports w [fault .busError n e.chain.current.address]

/-- A SENT write-back ends OK: its record leaves the list, BLOCK_SENT tells the block's last sequence, length and
descriptor if it was marked NOTIFY, and the next record's write-back is requested. At a CLOSING entry the closing
condition is then checked, and its YIELD is due exactly while it holds. A receive payload write ends OK: with no other
write from it and no segment being placed from it, a staging buffer becomes free and a written cell is released, with no
claim waiting to the tail of the free list (log 10), and nothing else of the entry changes. A receive write-back ends
OK: BLOCK_RECEIVED tells the status, publisher, first sequence, byte count and first descriptor of a block closed OK or
LOST. Ending ERROR each puts the entry in FAULT, its repair IDLE (log 12), and STREAM_FAULT tells BUS_ERROR, the bytes
of the transfer and its descriptor; at a closing entry it does not. A closing entry is freed when a write ends, however
it ends, and nothing more is outstanding, and STREAM_CLOSED follows (R70, R74, R94, R104, R116, R118, R131, R146, R147,
R154). -/
def Obligations.AWriteTransferEndsAtItsEntry : Prop :=
  (∀ (s : State) (g : Granted) (e : Entry) (p : PublishEntry) (r : WriteBack) (rest : List WriteBack), s.tableOk →
      e ∈ s.table → e.role = .publish p → s.port.granted = some g → g.discarded = false →
      g.request = .txWriteBack e.index r → p.writeBacks = r :: rest →
      (∃ (w : State) (v : PublishEntry), exec (.txWriteBackEnd .ok) s = .next w.finish ∧
        w.publishAt e.index = some v ∧
        v = { p with
          writeBacks := rest
          yieldDue := if p.claim = .closing then
            p.segmenter == .stopped && p.sendQueue.isEmpty && rest.isEmpty
              && !(s.lists.resend.any fun r => r.index == e.index) else p.yieldDue } ∧
        w.port.granted = none ∧
        (∀ next more, rest = next :: more →
          w.port.thirdClass = s.port.thirdClass ++ [.txWriteBack e.index next]) ∧
        (rest = [] → w.port.thirdClass = s.port.thirdClass) ∧
        s.reports w (if r.notify = true then
          [streamEvent .blockSent 1 e.stream s.ownNumber r.lastSequence.toNat r.length r.descriptor] else [])) ∧
      ∃ (w : State) (v : PublishEntry), exec (.txWriteBackEnd .error) s = .next w.finish ∧
        w.publishAt e.index = some v ∧
        v.isEnded .fault p.claim.owns ∧ w.forgets e.index e.stream ∧
        s.reports w [streamEvent .streamFault 3 e.stream s.ownNumber p.nextSequence.toNat 4 r.descriptor]) ∧
  (∀ (s : State) (g : Granted) (e : Entry) (u : SubscribeEntry), s.tableOk → e ∈ s.table → e.role = .subscribe u →
      s.port.granted = some g → g.discarded = false →
      let received (r : RxWriteBack) : List Event := match r.closes with
        | some b => if r.status = .aborted then []
          else [streamEvent .blockReceived r.status.code e.stream b.publisher b.sequence.toNat b.bytes b.descriptor]
        | none => []
      let about (kind : EventKind) (code count : Nat) (descriptor : Word) : Event :=
        streamEvent kind code e.stream (u.publisher.getD 0) ((u.expected.map BitVec.toNat).getD 0) count descriptor
      (∀ k a b o n, g.request = .rxPayload e.index (.staging k) a b o n → u.closing = false →
        ((s.port.firstClass ++ s.port.secondClass ++ s.port.thirdClass).any (Request.writesFrom (.staging k)) = false →
          s.placingFrom k = false → ∃ t, exec (.rxPayloadWriteEnd .ok) s = .next t ∧ t.line.buffer k = .free ∧
            t.subscribeAt e.index = some u)) ∧
      (∀ c a b o n, g.request = .rxPayload e.index (.cell c) a b o n → u.closing = false →
        u.written.any (fun x => x.cell == c) = true → s.pool.waiting = [] →
        (s.port.firstClass ++ s.port.secondClass ++ s.port.thirdClass).any (Request.writesFrom (.cell c)) = false →
        ∃ w : State, exec (.rxPayloadWriteEnd .ok) s = .next w.finish ∧ w.pool.free = s.pool.free ++ [c] ∧
          w.subscribeAt e.index = some { u with written := u.written.filter (fun x => x.cell != c) }) ∧
      (∀ r, g.request = .rxWriteBack e.index r → u.closing = false →
        ∃ w : State, exec (.rxWriteBackEnd .ok) s = .next w.finish ∧ w.subscribeAt e.index = some u ∧
          s.reports w (received r)) ∧
      (∀ c n a, (c = .rxPayloadWriteEnd .error ∧ ∃ k b o, g.request = .rxPayload e.index k a b o n) ∨
          (c = .rxWriteBackEnd .error ∧ n = 6 ∧ ∃ r, g.request = .rxWriteBack e.index r ∧ r.descriptor = a) →
        u.closing = false → ∃ (w : State) (v : SubscribeEntry), exec c s = .next w.finish ∧
          w.finish.subscribeAt e.index = some v ∧ v.isFaulted ∧ s.reports w [about .streamFault 3 n a]) ∧
      (∀ (c : Instr) (how : Completion),
        (c = .rxPayloadWriteEnd how ∧ ∃ k a b o n, g.request = .rxPayload e.index k a b o n) ∨
          (c = .rxWriteBackEnd how ∧ ∃ r, g.request = .rxWriteBack e.index r) → u.closing = true →
        ((s.port.firstClass ++ s.port.secondClass ++ s.port.thirdClass).any
            (Request.receiveWriteOf e.index) = false → ∃ w : State, exec c s = .next w.finish ∧
          w.finish.entryAt e.index = none ∧
          s.reports w ((match g.request with
            | .rxWriteBack _ r => if how = .ok then received r else []
            | _ => []) ++ [about .streamClosed 1 0 0])) ∧
        ((s.port.firstClass ++ s.port.secondClass ++ s.port.thirdClass).any
            (Request.receiveWriteOf e.index) = true → ∃ t v, exec c s = .next t ∧
              t.subscribeAt e.index = some v ∧ v.closing = true ∧ v.state = u.state)))

/-- An event record's write ends OK: the producer moves on by one modulo the size. A coalescing timer that is STOPPED
starts if that leaves a consumer equal to the old producer and coalescing is not 0, and so does one that is EXPIRED,
which is the model's choice (log 15); a RUNNING one goes on as it is. Ending ERROR it latches HOST_FAULT and stops the
writes: the write index goes back to the record's place, later event writes are withdrawn, and all of them are counted
in EVENTS_LOST (R157, R160, R161). -/
def Obligations.AnEventWriteMovesTheProducerOrLatchesHostFault : Prop :=
  ∀ (s : State) (g : Granted) (place : Nat) (ev : Event), s.port.granted = some g → g.discarded = false →
    g.request = .eventWrite place ev →
    (∃ w : State, exec (.eventWriteEnd .ok) s = .next w.finish ∧
      w = { s with
        port := { s.port with granted := none }
        events := { s.events with
          producer := (s.events.producer + 1) % 2 ^ s.events.config.sizeCode.toNat
          timer := match s.events.timer with
            | .running n => .running n
            | .stopped | .expired =>
              if s.events.producer = s.events.consumer ∧ s.events.config.coalescing ≠ 0 then
                .running (s.events.config.coalescing.toNat * 256) else s.events.timer } }) ∧
    ∃ w : State, exec (.eventWriteEnd .error) s = .next w.finish ∧
      w.events = { s.events with hostFault := true, writesStopped := true, writeIndex := place } ∧
      w.port = { s.port with
        granted := none
        firstClass := s.port.firstClass.filter (fun r => !r.isEventWrite)
        secondClass := s.port.secondClass.filter (fun r => !r.isEventWrite)
        thirdClass := s.port.thirdClass.filter (fun r => !r.isEventWrite) } ∧
      w.counters = { s.counters with
        eventsLost := s.counters.eventsLost + 1
          + BitVec.ofNat 32 (s.port.secondClass.countP Request.isEventWrite) } ∧
      w.table = s.table ∧ w.station = s.station

/-! ### Frames -/

/-- What follows a command: the segmenters settle, and the hold-off. A READY entry that may segment, with its current
block HELD, room in its send queue, no incomplete cell and no other entry with anything to claim or read, takes the head
of the free list (log 10), or with none the evicted head of the age list, or with neither waits. The cell joins the send
queue incomplete, with the next sequence, which moves on, FIRST at position 0, up to 240 bytes of what is left of the
block, LAST at its end, then with the block's tag; the segmenter is FILLING and the cell's bytes are asked for at the
buffer's address plus the position, or the entry is in FAULT if they lie outside the fence. With nothing to claim or
read the hold-off alone may change. A released cell goes to the entry that waits first after the waiting pointer, in the
same way, or to the free list. What settling leaves alone: besides all that `EngineFrame` names, every subscribe entry
with its chain, both staging buffers, and the first class of the arbiter as far as its requests are of subscribe
entries; the hold-off runs exactly while the station is ACTIVE on an OPEN line and its selection finds a frame (R27,
R79, R80, R83, R86, R90, R91, R138). -/
def Obligations.SettlingTouchesPublishEntriesAndTheHoldOffAlone : Prop :=
  let joined (p : PublishEntry) (a : Word) (d : Descriptor) (c : Nat) : PublishCell :=
    let n := min 240 (d.length - p.position)
    let last : Bool := p.position + n == d.length
    { cell := c, sequence := p.nextSequence, first := p.position == 0, last := last, decodedLength := n, coded := [],
      complete := false, tag := if last then some ⟨a, d.length, d.notify⟩ else none }
  (∀ (s : State) (e : Entry) (p : PublishEntry) (a : Word) (d : Descriptor), s.tableOk → e ∈ s.table →
    e.role = .publish p → e.chain.current = .held a d → p.segmenter = .ready →
    p.claim = .claiming ∨ p.claim = .owned ∨ (p.claim = .closing ∧ 0 < p.position) → p.sendQueue.length < 8 →
    (∀ c ∈ p.sendQueue, c.complete = true) → s.port.outstanding (Request.payloadReadOf e.index) = false →
    (∀ f ∈ s.table, f ≠ e → f.wantsClaim = false ∧ s.wantsRead f = false) →
    let t := s.finish
    let n := min 240 (d.length - p.position)
    let start := d.buffer.toNat + p.position
    let read (c : Nat) : HostPort :=
      { s.port with thirdClass := s.port.thirdClass ++ [.txPayload e.index c (BitVec.ofNat 32 start) n] }
    (∀ c rest, s.pool.free = c :: rest →
      (s.fence.contains start n = true →
        t.publishAt e.index = some { p with
          sendQueue := p.sendQueue ++ [joined p a d c], nextSequence := p.nextSequence + 1, segmenter := .filling } ∧
        t.pool = { s.pool with free := rest } ∧ t.port = read c ∧ t.lists = s.lists ∧ t.counters = s.counters ∧
        ∀ i, i ≠ e.index → t.entryAt i = s.entryAt i) ∧
      (s.fence.contains start n = false →
        ∃ v, t.publishAt e.index = some v ∧ v.isEnded .fault p.claim.owns ∧ t.forgets e.index e.stream)) ∧
    (∀ b more, s.pool.free = [] → s.pool.aged = b :: more → s.fence.contains start n = true → ∃ v,
      t.publishAt e.index = some v ∧ v.sendQueue = p.sendQueue ++ [joined p a d b.cell] ∧
      v.nextSequence = p.nextSequence + 1 ∧ v.segmenter = .filling ∧
      t.pool = { s.pool with aged := s.pool.aged.filter (fun x => x.cell != b.cell) } ∧ t.port = read b.cell ∧
      t.counters = { s.counters with replayEvictions := s.counters.replayEvictions + 1 } ∧
      ∀ f q c, s.entryAt b.index = some f → f.role = .publish q →
        q.replayQueue.find? (fun c => c.cell == b.cell) = some c →
        t.lists = s.listsWithout b.index f.stream c.sequence) ∧
    (s.pool.free = [] → s.pool.aged = [] → t.publishAt e.index = some { p with segmenter := .waitCell } ∧
      t.pool = { s.pool with waiting := s.pool.waiting ++ [e.index] } ∧ t.port = s.port ∧ t.lists = s.lists ∧
      t.counters = s.counters)) ∧
  (∀ s : State, s.segmentersRest → s.finish = s.settleHoldOff) ∧
  (∀ (s : State) (c : Nat), s.pool.waiting = [] →
    s.releaseCell c = { s with pool := { s.pool with free := s.pool.free ++ [c] } }) ∧
  (∀ (s : State) (c : Nat) (e : Entry) (p : PublishEntry) (a : Word) (d : Descriptor), s.tableOk → e ∈ s.table →
    e.role = .publish p → e.chain.current = .held a d → s.pool.waitingPointer < 32 →
    (∀ i ∈ s.pool.waiting, i < 32) → e.index ∈ s.pool.waiting →
    (∀ i ∈ s.pool.waiting, (e.index + 31 - s.pool.waitingPointer) % 32 ≤ (i + 31 - s.pool.waitingPointer) % 32) →
    let t := s.releaseCell c
    t.publishAt e.index = some { p with
      sendQueue := p.sendQueue ++ [joined p a d c], nextSequence := p.nextSequence + 1, segmenter := .filling } ∧
    t.pool = { s.pool with waiting := s.pool.waiting.erase e.index, waitingPointer := e.index } ∧
    t.port = s.port ∧ t.lists = s.lists ∧ ∀ i, i ≠ e.index → t.entryAt i = s.entryAt i) ∧
  ∀ s : State, s.tableOk → EngineFrame s s.finish ∧ s.finish.line = s.line ∧
    (∀ i, s.finish.subscribeAt i = s.subscribeAt i) ∧
    (∀ i u, s.subscribeAt i = some u →
      (s.finish.entryAt i).map Entry.chain = (s.entryAt i).map Entry.chain ∧
      s.finish.port.firstClass.filter (fun r => r.index? == some i) =
        s.port.firstClass.filter (fun r => r.index? == some i)) ∧
    (s.finish.turn.holdOff.isSome = true ↔
      s.station.state = .active ∧ s.turn.condition = .opened ∧ s.finish.selectAny.isSome = true) ∧
    (s.turn.holdOff = none → ∀ n, s.finish.turn.holdOff = some n → n = 16 * s.ownNumber)

/-- The commands of the engines leave the station, the line's phase and records, the turn unit but for the hold-off, the
configuration, the ring's producer and consumer and the register window as they were; they create no entry (R9, R20,
R36, R137, R155, R166). The grant of a transfer is among them; the report that moves the ring's producer,
EVENT_WRITE_END, is not. -/
def Obligations.EngineCommandsLeaveStationLineAndConfiguration : Prop :=
  ∀ (s t : State) (i : Nat) (c : ReadCompletion) (d : Completion) (x : Instr),
    x ∈ [.claimSettleExpiry i, .repairDelayExpiry i, .repairWaitExpiry i, .replayAgeLimit, .transferGrant,
      .headDescriptorReadEnd c, .lookAheadReadEnd c, .lastLookEnd c, .txPayloadReadEnd c, .txWriteBackEnd d,
      .rxPayloadWriteEnd d, .rxWriteBackEnd d] →
    exec x s = .next t → EngineFrame s t

/-- The configuration changes only by its writers: the fence and INT_ENABLE by a REGISTER_WRITE, the ring registers by
EVENT_RING_CONFIG_WRITE or a REGISTER_WRITE, ARGUMENT and COUNTER_INDEX by a REGISTER_WRITE, all of them also by
power-on reset; and on the line neither the fence nor the ring registers change (R137, R155, R162, R166, R178). -/
def Obligations.OnlyRegisterWritesChangeTheConfiguration : Prop :=
  ∀ (c : Instr) (s t : State), exec c s = .next t → (∀ n k r, c ≠ .powerOnReset n k r) →
    ((∀ o w v d, c ≠ .registerWrite o w v d) → t.fence = s.fence ∧ t.events.enable = s.events.enable ∧
      t.window.argument = s.window.argument ∧ t.window.counterIndex = s.window.counterIndex) ∧
    ((∀ o w v d, c ≠ .registerWrite o w v d) → (∀ r v, c ≠ .eventRingConfigWrite r v) →
      t.events.config = s.events.config) ∧
    (s.station.state.attached = true → t.fence = s.fence ∧ t.events.config = s.events.config)

/-! ### Invariants -/

/-- Every step keeps the history's limits: at most 16 outcomes, at most 8 failures, fewer while ACTIVE (R41). -/
def Obligations.EveryStepKeepsTheHistoryWithinItsLimits : Prop :=
  ∀ s t : State, s.historyOk → step s = .next t → t.historyOk

/-- Every step keeps the stream table: at most one entry per index and per stream, in order of index; and it keeps a
DISABLED or DETACHED station off the line: no entry, line interface OFF, line condition IGNORED, nothing being sent. It
keeps the phase STUCK and the condition STUCK together, at a station in HOLD, and in any other phase the stuck count
below 4096 (R15, R16, R19, R20, R21, R37, R38, R44, R53, R56). -/
def Obligations.EveryStepKeepsTheStreamTable : Prop :=
  (∀ s t : State, s.tableOk → step s = .next t → t.tableOk) ∧
  (∀ s t : State, s.offLineOk → step s = .next t → t.offLineOk) ∧
  (∀ s t : State, s.stuckOk → step s = .next t → t.stuckOk)

/-- Every step keeps the fence on 16-byte units and the ring on a 32-byte boundary (R137, R155). -/
def Obligations.EveryStepKeepsFenceAndRingAligned : Prop :=
  ∀ s t : State, s.fenceOk → s.ringOk → step s = .next t → t.fenceOk ∧ t.ringOk

/-- Every step keeps the limits of the station-wide lists: 16 resends, no two alike, 4 GONE entries of 1 to 16
sequences, no sequence of a stream in two of them, 4 events held back (R97, R99, R159). And it keeps the cell pool: each
of the 160 cells has exactly one holder (R76), the age list names exactly the replay cells, an entry's in the order of
its replay queue (R82), a send queue holds at most 8 cells, a replay queue 32, a reorder list 8 (R76, R91, R112), and
what waits for a cell is a publish entry in WAIT_CELL with room for it, each once (R79, R80), with at most one payload
read wanted, for a FILLING entry only (R91). -/
def Obligations.EveryStepKeepsTheListsWithinTheirLimits : Prop :=
  (∀ s t : State, s.listsOk → step s = .next t → t.listsOk) ∧
  (∀ s t : State, s.tableOk → s.cellsOk → step s = .next t → t.cellsOk)

/-- The state after reset is safe: it satisfies every one of these invariants (R41, R48, R53, R37, R19, R20, R137, R155,
R97, R99, R159, R76, R82). Its straps are the model's, which the manual leaves to the board (log 4). -/
def Obligations.TheResetStateIsSafe : Prop := State.reset.safe
end

