-- ==== Sys2Proof/Laws/Engine.lean ====
section
/-! SUPPORT. One lemma per shared operation of the engines: it stays inside `EngineFrame`. -/

namespace Sys2Proof
namespace Machine

namespace EngineFrame

theorem refl (s : State) : EngineFrame s s := by
  constructor <;> first | rfl | exact .inl rfl | exact id

theorem trans {s t u : State} (h : EngineFrame s t) (k : EngineFrame t u) : EngineFrame s u where
  station := k.station.trans h.station
  phase := k.phase.trans h.phase
  brokenWait := k.brokenWait.trans h.brokenWait
  stuckCount := k.stuckCount.trans h.stuckCount
  record := k.record.trans h.record
  faults := k.faults.trans h.faults
  spoiling := k.spoiling.trans h.spoiling
  condition := k.condition.trans h.condition
  anchor := k.anchor.trans h.anchor
  emptyWindows := k.emptyWindows.trans h.emptyWindows
  lastSender := k.lastSender.trans h.lastSender
  pointer := k.pointer.trans h.pointer
  attempt := k.attempt.trans h.attempt
  holdOff := by
    rcases k.holdOff with e | e | e
    · rw [e]
      exact h.holdOff
    · exact .inr (.inl e)
    · exact .inr (.inr (h.station ▸ e))
  fence := k.fence.trans h.fence
  ready := k.ready.trans h.ready
  config := k.config.trans h.config
  producer := k.producer.trans h.producer
  consumer := k.consumer.trans h.consumer
  timer := k.timer.trans h.timer
  enable := k.enable.trans h.enable
  window := k.window.trans h.window
  clock := k.clock.trans h.clock
  momentTaken := k.momentTaken.trans h.momentTaken
  pending := k.pending.trans h.pending
  lineCounters := k.lineCounters.trans h.lineCounters
  serial := Nat.le_trans h.serial k.serial
  keys := k.keys.trans h.keys
  limits := k.limits ∘ h.limits

end EngineFrame

/-! ### Plain updates -/

theorem EngineFrame.lists (s : State) (l : PublishLists)
    (h : s.listsOk → State.listsOk { s with lists := l }) : EngineFrame s { s with lists := l } := by
  constructor <;> first | rfl | exact .inl rfl | exact h

theorem EngineFrame.pool (s : State) (p : Pool) : EngineFrame s { s with pool := p } := by
  constructor <;> first | rfl | exact .inl rfl | exact id

theorem EngineFrame.port (s : State) (p : HostPort) : EngineFrame s { s with port := p } := by
  constructor <;> first | rfl | exact .inl rfl | exact id

theorem EngineFrame.counters (s : State) (c : Counters) (h : c.ofLine = s.counters.ofLine) :
    EngineFrame s { s with counters := c } := by
  constructor <;> first | rfl | exact .inl rfl | exact id | exact h

/-- A counter that the engines count (10, section 10.5). -/
def Counter.ofEngines : Counter → Bool
  | .cleanFrames | .spoiledSeen | .spoilsDriven | .brokenFrames | .ownCollisions | .stagingOverruns => false
  | .foreignData | .staleDuplicates | .orphanSegments | .reorderDrops | .replayEvictions | .replayReleases
  | .repairsSent | .repairsSuppressed | .gonesSent | .eventsLost => true

theorem EngineFrame.countBy (s : State) (w : Counter) (n : Nat) (h : w.ofEngines = true := by rfl) :
    EngineFrame s (s.countBy w n) :=
  .counters s _ (by cases w <;> first | rfl | cases h)

theorem EngineFrame.bump (s : State) (w : Counter) (h : w.ofEngines = true := by rfl) : EngineFrame s (s.bump w) :=
  .countBy s w 1 h

theorem EngineFrame.setBuffer (s : State) (k : BufferId) (v : StagingBuffer) : EngineFrame s (s.setBuffer k v) := by
  cases k <;> constructor <;> first | rfl | exact .inl rfl | exact id

theorem EngineFrame.discardHeldOf (s : State) (stream : Nat) : EngineFrame s (s.discardHeldOf stream) := by
  constructor <;> first | rfl | exact .inl rfl | exact id

theorem EngineFrame.request (s : State) (c : PortClass) (r : Request) : EngineFrame s (s.request c r) := by
  cases c <;> exact .port s _

theorem EngineFrame.withdrawOf (s : State) (i : Nat) : EngineFrame s (s.withdrawOf i) := .port s _

theorem EngineFrame.freePort (s : State) : EngineFrame s s.freePort := .port s _

theorem EngineFrame.freeCell (s : State) (c : Nat) : EngineFrame s (s.freeCell c) := .pool s _

theorem EngineFrame.withGone (s : State) (f : List GoneEntry → List GoneEntry)
    (h : goneOk s.lists.gone s.nextSerial → goneOk (f s.lists.gone) s.nextSerial) : EngineFrame s (s.withGone f) :=
  .lists s _ fun ⟨a, b, c, d⟩ => ⟨a, b, h c, d⟩

/-- Entries leave the resend list. -/
theorem EngineFrame.filterResend (s : State) (p : Resend → Bool) :
    EngineFrame s { s with lists := { s.lists with resend := s.lists.resend.filter p } } :=
  .lists s _ fun ⟨a, b, c, d⟩ => ⟨Nat.le_trans (List.length_filter_le _ _) a, b.filter _, c, d⟩

/-! ### The table -/

/-- A change of the table that keeps every entry's key. -/
theorem EngineFrame.mapTable (s : State) (f : Entry → Entry) (h : ∀ e, (f e).key = e.key) :
    EngineFrame s { s with table := s.table.map f } := by
  constructor <;> first
    | rfl
    | exact .inl rfl
    | exact id
    | (simp only [List.map_map]; rw [show Entry.key ∘ f = Entry.key from funext h])

/-- Updating the fields of a role keeps the role. -/
theorem Role.mapPublish_kind (e : Entry) (f : PublishEntry → PublishEntry) :
    Entry.key { e with role := e.role.mapPublish f } = e.key := by
  cases e with | mk i n t c r => cases r <;> rfl

theorem Role.mapSubscribe_kind (e : Entry) (f : SubscribeEntry → SubscribeEntry) :
    Entry.key { e with role := e.role.mapSubscribe f } = e.key := by
  cases e with | mk i n t c r => cases r <;> rfl

theorem EngineFrame.modifyChain (s : State) (i : Nat) (f : Chain → Chain) : EngineFrame s (s.modifyChain i f) :=
  .mapTable s _ fun e => by split <;> rfl

theorem EngineFrame.modifyPublish (s : State) (i : Nat) (f : PublishEntry → PublishEntry) :
    EngineFrame s (s.modifyPublish i f) :=
  .mapTable s _ fun e => by split <;> first | exact Role.mapPublish_kind e f | rfl

theorem EngineFrame.modifySubscribe (s : State) (i : Nat) (f : SubscribeEntry → SubscribeEntry) :
    EngineFrame s (s.modifySubscribe i f) :=
  .mapTable s _ fun e => by split <;> first | exact Role.mapSubscribe_kind e f | rfl

/-- Removing entries leaves a sublist of the keys. -/
theorem EngineFrame.filterTable (s : State) (p : Entry → Bool) :
    EngineFrame s { s with table := s.table.filter p } := by
  constructor <;> first | rfl | exact .inl rfl | exact id | exact (List.filter_sublist).map _

/-! ### Events -/

theorem EngineFrame.latchHostFault (s : State) (place : Nat) : EngineFrame s (s.latchHostFault place) := by
  constructor <;> first | rfl | exact .inl rfl | exact id

theorem EngineFrame.events (s : State) (e : EventUnit) (ready : e.ready = s.events.ready)
    (config : e.config = s.events.config) (producer : e.producer = s.events.producer)
    (consumer : e.consumer = s.events.consumer) (timer : e.timer = s.events.timer)
    (enable : e.enable = s.events.enable)
    (backlog : s.events.backlog.length ≤ Config.backlogLimit → e.backlog.length ≤ Config.backlogLimit) :
    EngineFrame s { s with events := e } := by
  constructor <;> first | assumption | rfl | exact .inl rfl | exact fun ⟨a, b, c, d⟩ => ⟨a, b, c, backlog d⟩

theorem EngineFrame.placeEvent (s : State) (ev : Event) : EngineFrame s (s.placeEvent ev) := by
  unfold State.placeEvent
  dsimp only
  split
  · exact (EngineFrame.events s
      { s.events with writeIndex := (s.events.writeIndex + 1) % s.events.config.size } rfl rfl rfl rfl rfl
      rfl id).trans (.request _ _ _)
  · exact .latchHostFault s _

theorem EngineFrame.deliverEvent (s : State) (ev : Event) : EngineFrame s (s.deliverEvent ev) := by
  unfold State.deliverEvent
  split
  · exact .placeEvent s ev
  · split
    · rename_i h
      refine .events s _ rfl rfl rfl rfl rfl rfl fun _ => ?_
      simpa using h
    · exact (EngineFrame.bump s _).trans (.events _ _ rfl rfl rfl rfl rfl rfl id)

theorem EngineFrame.emit (s : State) (ev : Event) : EngineFrame s (s.emit ev) := by
  unfold State.emit
  split
  · exact (EngineFrame.events s { s.events with number := s.events.number + 1 } rfl rfl rfl rfl rfl rfl id).trans
      (.deliverEvent _ _)
  · exact .refl s

theorem EngineFrame.drainEvents (l : List Event) (s : State) (h : l.length ≤ Config.backlogLimit) :
    EngineFrame s (drainEvents l s) := by
  induction l generalizing s with
  | nil => exact .events s _ rfl rfl rfl rfl rfl rfl fun _ => Nat.zero_le _
  | cons ev rest ih =>
    unfold Machine.drainEvents
    split
    · exact .events s _ rfl rfl rfl rfl rfl rfl fun _ => h
    · exact (EngineFrame.placeEvent s ev).trans (ih _ (Nat.le_trans (Nat.le_succ _) h))

/-! ### The pool and the publish engine's lists -/

/-- A GONE entry covers the sequences at forward distances 0 to its count less 1 from its first (R99). -/
theorem covers_iff (g : GoneEntry) (x : Seq) : g.covers x = true ↔ (x - g.first).toNat < g.count := by
  unfold GoneEntry.covers rangeCovers forwardDistance
  exact decide_eq_true_iff

/-- An entry with one sequence more at its end covers that one besides its own. -/
theorem covers_end {f q x : Seq} {c : Nat} (h : (q - f).toNat = c) (hx : (x - f).toNat < c + 1) :
    (x - f).toNat < c ∨ x = q := by
  rcases Nat.lt_or_ge (x - f).toNat c with h' | h'
  · exact .inl h'
  · right
    have : x - f = q - f := BitVec.eq_of_toNat_eq (by omega)
    have := congrArg (· + f) this
    simpa using this

/-- An entry with one sequence more at its front covers that one besides its own. -/
theorem covers_front {f q x : Seq} {c : Nat} (h : (f - q).toNat = 1) (hx : (x - q).toNat < c + 1) :
    (x - f).toNat < c ∨ x = q := by
  bv_omega

/-- The entry that two become covers the ranges of both and the sequence between them. -/
theorem covers_both {f q g x : Seq} {c d : Nat} (h : (q - f).toNat = c) (h' : (g - q).toNat = 1)
    (hx : (x - f).toNat < c + d + 1) : (x - f).toNat < c ∨ x = q ∨ (x - g).toNat < d := by
  bv_omega

/-- Changing GONE entries one by one, streams kept, keeps them apart, if what each entry newly covers no other entry
of its stream covers. -/
theorem goneApart_map {list : List GoneEntry} (h : goneApart list) (f : GoneEntry → GoneEntry) (k : GoneEntry)
    (new : Seq → Prop) (stream : ∀ g ∈ list, (f g).stream = g.stream)
    (cover : ∀ g ∈ list, ∀ x, (f g).covers x = true → g.covers x = true ∨ (g = k ∧ new x))
    (apart : ∀ g ∈ list, g.stream = k.stream → g ≠ k → ∀ x, new x → g.covers x = false) :
    goneApart (list.map f) := by
  intro g' hg' h' hh' e x hgx hhx
  obtain ⟨g, hg, rfl⟩ := List.mem_map.1 hg'
  obtain ⟨i, hi, rfl⟩ := List.mem_map.1 hh'
  rw [stream g hg, stream i hi] at e
  rcases cover g hg x hgx with cg | ⟨rfl, ng⟩ <;> rcases cover i hi x hhx with ci | ⟨rfl, ni⟩
  · rw [h g hg i hi e x cg ci]
  · by_cases hk : g = i
    · rw [hk]
    · rw [apart g hg e hk x ni] at cg
      cases cg
  · by_cases hk : i = g
    · rw [hk]
    · rw [apart i hi e.symm hk x ng] at ci
      cases ci
  · rfl

/-- Changing GONE entries one by one, serials kept, keeps the list's limits if each changed entry keeps its own and the
entries stay apart. -/
theorem goneOk_map {list : List GoneEntry} {n : Nat} (h : goneOk list n) (f : GoneEntry → GoneEntry)
    (serial : ∀ g, (f g).serial = g.serial)
    (count : ∀ g ∈ list, 1 ≤ (f g).count ∧ (f g).count ≤ Config.rangeLimit) (apart : goneApart (list.map f)) :
    goneOk (list.map f) n := by
  obtain ⟨a, b, c, -⟩ := h
  refine ⟨by rw [List.length_map]; exact a, ?_, ?_, apart⟩
  · rw [List.map_map, show (·.serial) ∘ f = GoneEntry.serial from funext serial]
    exact b
  · intro g hg
    obtain ⟨g', hg', rfl⟩ := List.mem_map.1 hg
    exact ⟨(count g' hg').1, (count g' hg').2, by rw [serial]; exact (c g' hg').2.2⟩

/-- Changing the marks of GONE entries keeps the list's limits. -/
theorem goneOk_mark {list : List GoneEntry} {n : Nat} (h : goneOk list n) (p : GoneEntry → Bool) (m : Bool) :
    goneOk (list.map fun g => if p g then { g with mark := m } else g) n := by
  refine goneOk_map h _ (fun g => by split <;> rfl) (fun g hg => ?_) ?_
  · have := h.2.2.1 g hg
    split <;> exact ⟨this.1, this.2.1⟩
  · intro g' hg' h' hh' e x hgx hhx
    obtain ⟨g, hg, rfl⟩ := List.mem_map.1 hg'
    obtain ⟨i, hi, rfl⟩ := List.mem_map.1 hh'
    have stream : ∀ g : GoneEntry, (if p g then { g with mark := m } else g).stream = g.stream := fun g => by
      split <;> rfl
    have covers : ∀ g : GoneEntry, (if p g then { g with mark := m } else g).covers x = g.covers x := fun g => by
      split <;> rfl
    rw [stream, stream] at e
    rw [covers] at hgx hhx
    rw [h.2.2.2 g hg i hi e x hgx hhx]

/-- Removing GONE entries keeps the list's limits. -/
theorem goneOk_filter {list : List GoneEntry} {n : Nat} (h : goneOk list n) (p : GoneEntry → Bool) :
    goneOk (list.filter p) n :=
  ⟨Nat.le_trans (List.length_filter_le _ _) h.1, h.2.1.sublist (List.filter_sublist.map _),
    fun g hg => h.2.2.1 g (List.mem_of_mem_filter hg),
    fun g hg i hi => h.2.2.2 g (List.mem_of_mem_filter hg) i (List.mem_of_mem_filter hi)⟩

/-- Serials still to be given do not matter to the GONE list. -/
theorem goneOk_mono {list : List GoneEntry} {n m : Nat} (h : goneOk list n) (hn : n ≤ m) : goneOk list m :=
  ⟨h.1, h.2.1, fun g hg => ⟨(h.2.2.1 g hg).1, (h.2.2.1 g hg).2.1, Nat.lt_of_lt_of_le (h.2.2.1 g hg).2.2 hn⟩, h.2.2.2⟩

/-- An entry found among those of a stream stands in the list, with that stream. -/
theorem goneFound {list : List GoneEntry} {stream : Nat} {p : GoneEntry → Bool} {a : GoneEntry}
    (h : (list.filter (·.stream == stream)).find? p = some a) : a ∈ list ∧ a.stream = stream ∧ p a = true := by
  have := List.mem_filter.1 (List.mem_of_find?_eq_some h)
  exact ⟨this.1, by simpa using this.2, List.find?_some h⟩

/-- Making two GONE entries one keeps the list's limits (R100, step 2). -/
theorem goneCombined_ok {list : List GoneEntry} {n stream : Nat} {q : Seq} {a b : GoneEntry} (h : goneOk list n)
    (free : ∀ g ∈ list, g.stream = stream → g.covers q = false)
    (hb : goneBridge (list.filter (·.stream == stream)) q = some (a, b)) : goneOk (combineGone a b list) n := by
  have same : ∀ a ∈ list, ∀ g ∈ list, g.serial = a.serial → g = a := fun a ha g hg e =>
    List.inj_on_of_nodup_map h.2.1 hg ha e
  unfold goneBridge at hb
  split at hb
  case h_2 => cases hb
  case h_1 x y hx hy =>
    split at hb
    case isFalse => cases hb
    case isTrue hle =>
      cases hb
      obtain ⟨ha, sa, ta⟩ := goneFound hx
      obtain ⟨hb, sb, tb⟩ := goneFound hy
      have ta : (q - a.first).toNat = a.count := by simpa [GoneEntry.touchesEnd, forwardDistance] using ta
      have tb : (b.first - q).toNat = 1 := by simpa [GoneEntry.touchesFront, forwardDistance] using tb
      unfold combineGone
      dsimp only
      split
      case h_1 => exact h
      case h_2 k hk =>
        have hkl := List.mem_of_find?_eq_some hk
        have hkp := List.find?_some hk
        simp only [Bool.or_eq_true, beq_iff_eq] at hkp
        have ks : k.stream = stream := by
          rcases hkp with e | e
          · rw [same a ha k hkl e]; exact sa
          · rw [same b hb k hkl e]; exact sb
        have hf := goneOk_filter h fun g => g.serial == k.serial || !(g.serial == a.serial || g.serial == b.serial)
        refine goneOk_map hf _ (fun g => by split <;> rfl) (fun g hg => ?_) ?_
        · have := hf.2.2.1 g hg
          split
          · exact ⟨Nat.le_add_left _ _, show a.count + b.count + 1 ≤ Config.rangeLimit by
              simp only [Config.rangeLimit] at hle ⊢; omega⟩
          · exact ⟨this.1, this.2.1⟩
        · refine goneApart_map hf.2.2.2 _ k
            (fun x => x = q ∨ a.covers x = true ∨ b.covers x = true) (fun g _ => by split <;> rfl) ?_ ?_
          · intro g hg x hx
            split at hx
            · rename_i e
              refine .inr ⟨same k hkl g (List.mem_of_mem_filter hg) e, ?_⟩
              rw [covers_iff] at hx
              rcases covers_both ta tb hx with c | c | c
              · exact .inr (.inl ((covers_iff a x).2 c))
              · exact .inl c
              · exact .inr (.inr ((covers_iff b x).2 c))
            · exact .inl hx
          · intro g hg e hne x hx
            obtain ⟨hgl, hgp⟩ := List.mem_filter.1 hg
            have hpart : g.serial ≠ a.serial ∧ g.serial ≠ b.serial := by
              simp only [Bool.or_eq_true, beq_iff_eq, Bool.not_eq_true', Bool.or_eq_false_iff, beq_eq_false_iff_ne] at hgp
              exact hgp.resolve_left fun e => hne (same k hkl g hgl e)
            rw [ks] at e
            cases hc : g.covers x with
            | false => rfl
            | true =>
              rcases hx with rfl | c | c
              · rw [free g hgl e] at hc
                cases hc
              · exact (hpart.1 (congrArg _ (h.2.2.2 g hgl a ha (e.trans sa.symm) x hc c))).elim
              · exact (hpart.2 (congrArg _ (h.2.2.2 g hgl b hb (e.trans sb.symm) x hc c))).elim

/-- Making one GONE entry a sequence longer keeps the list's limits (R100, steps 3 and 4). -/
theorem goneGrown_ok {list : List GoneEntry} {n : Nat} {q : Seq} {a : GoneEntry} (f : GoneEntry → GoneEntry)
    (h : goneOk list n) (ha : a ∈ list) (hc : a.count < Config.rangeLimit)
    (free : ∀ g ∈ list, g.stream = a.stream → g.covers q = false) (serial : (f a).serial = a.serial)
    (stream : (f a).stream = a.stream) (count : (f a).count = a.count + 1)
    (cover : ∀ x, (f a).covers x = true → a.covers x = true ∨ x = q) :
    goneOk (list.map fun g => if g.serial = a.serial then f g else g) n := by
  have same : ∀ g ∈ list, g.serial = a.serial → g = a := fun g hg e => List.inj_on_of_nodup_map h.2.1 hg ha e
  have inMap : (list.map fun g => if g.serial = a.serial then f g else g) = list.map fun g => if g = a then f a else g :=
    List.map_congr_left fun g hg => by
      by_cases e : g.serial = a.serial
      · rw [if_pos e, if_pos (same g hg e), same g hg e]
      · rw [if_neg e, if_neg fun k => e (congrArg _ k)]
  rw [inMap]
  refine goneOk_map h _ (fun g => ?_) (fun g hg => ?_) ?_
  · split
    · rename_i e; rw [serial, e]
    · rfl
  · have := h.2.2.1 g hg
    split
    · rw [count]; exact ⟨Nat.le_add_left _ _, hc⟩
    · exact ⟨this.1, this.2.1⟩
  · refine goneApart_map h.2.2.2 _ a (· = q) (fun g _ => ?_) (fun g _ x hx => ?_) ?_
    · split
      · rename_i e; rw [stream, e]
      · rfl
    · split at hx
      · rename_i e
        subst e
        rcases cover x hx with c | c
        · exact .inl c
        · exact .inr ⟨rfl, c⟩
      · exact .inl hx
    · intro g hg e _ x hx
      rw [hx]
      exact free g hg e

/-- Adding a sequence keeps the GONE list's limits (R99, R100); only a new entry takes the serial. -/
theorem goneAdded_ok (list : List GoneEntry) (n stream : Nat) (q : Seq) (h : goneOk list n) :
    goneOk (goneAdded list n stream q)
      (if list.length < (goneAdded list n stream q).length then n + 1 else n) := by
  have up : n ≤ (if list.length < (goneAdded list n stream q).length then n + 1 else n) := by
    split
    · exact Nat.le_succ n
    · exact Nat.le_refl n
  generalize hr : goneAdded list n stream q = r at up ⊢
  unfold goneAdded at hr
  dsimp only at hr
  split at hr
  case isTrue => subst hr; exact goneOk_mono h up
  case isFalse hfree =>
    have free : ∀ g ∈ list, g.stream = stream → g.covers q = false := fun g hg e => by
      cases hc : g.covers q with
      | false => rfl
      | true => exact (hfree (List.any_eq_true.2 ⟨g, List.mem_filter.2 ⟨hg, by simpa using e⟩, hc⟩)).elim
    split at hr
    case h_1 a b hb =>
      subst hr
      exact goneOk_mono (goneCombined_ok h free hb) up
    case h_2 =>
      split at hr
      case h_1 a ha =>
        obtain ⟨hl, rfl, hp⟩ := goneFound ha
        simp only [Bool.and_eq_true, decide_eq_true_eq, GoneEntry.touchesEnd, beq_iff_eq, forwardDistance] at hp
        subst hr
        refine goneOk_mono (goneGrown_ok (fun g => { g with count := g.count + 1 }) h hl hp.2 free rfl rfl rfl
          fun x hx => ?_) up
        rw [covers_iff] at hx ⊢
        exact covers_end hp.1 hx
      case h_2 =>
        split at hr
        case h_1 a ha =>
          obtain ⟨hl, rfl, hp⟩ := goneFound ha
          simp only [Bool.and_eq_true, decide_eq_true_eq, GoneEntry.touchesFront, beq_iff_eq, forwardDistance] at hp
          subst hr
          refine goneOk_mono (goneGrown_ok (fun g => { g with first := q, count := g.count + 1 }) h hl hp.2 free rfl
            rfl rfl fun x hx => ?_) up
          rw [covers_iff] at hx ⊢
          exact covers_front hp.1 hx
        case h_2 =>
          split at hr
          case isFalse => subst hr; exact goneOk_mono h up
          case isTrue hlen =>
            subst hr
            rw [List.length_append, List.length_singleton, if_pos (Nat.lt_succ_self _)]
            refine ⟨by rw [List.length_append]; exact hlen, ?_, ?_, ?_⟩
            · rw [List.map_append, List.nodup_append]
              refine ⟨h.2.1, List.nodup_singleton _, ?_⟩
              intro x hx y hy
              obtain ⟨g, hg, rfl⟩ := List.mem_map.1 hx
              rw [List.map_singleton, List.mem_singleton] at hy
              subst hy
              exact Nat.ne_of_lt (h.2.2.1 g hg).2.2
            · intro g hg
              rcases List.mem_append.1 hg with hg | hg
              · exact ⟨(h.2.2.1 g hg).1, (h.2.2.1 g hg).2.1, Nat.lt_succ_of_lt (h.2.2.1 g hg).2.2⟩
              · rw [List.mem_singleton] at hg
                subst hg
                exact ⟨Nat.le_refl _, show 1 ≤ Config.rangeLimit by decide, Nat.lt_succ_self _⟩
            · have one : ∀ x, GoneEntry.covers ⟨n, stream, q, 1, false⟩ x = true → x = q := fun x hx => by
                rw [covers_iff] at hx
                exact (covers_end (c := 0) (q := q) (f := q) (by simp) hx).resolve_left (Nat.not_lt_zero _)
              intro g hg i hi e x hgx hix
              rcases List.mem_append.1 hg with hg | hg <;> rcases List.mem_append.1 hi with hi | hi
              · exact h.2.2.2 g hg i hi e x hgx hix
              · rw [List.mem_singleton] at hi
                subst hi
                rw [one x hix, free g hg e] at hgx
                cases hgx
              · rw [List.mem_singleton] at hg
                subst hg
                rw [one x hgx, free i hi e.symm] at hix
                cases hix
              · rw [List.mem_singleton] at hg hi
                rw [hg, hi]

theorem EngineFrame.addGone (s : State) (stream : Nat) (q : Seq) : EngineFrame s (s.addGone stream q) := by
  constructor <;> first
    | rfl
    | exact List.Sublist.refl _
    | exact .inl rfl
    | exact fun ⟨a, b, c, d⟩ => ⟨a, b, goneAdded_ok _ _ _ _ c, d⟩
    | (show s.nextSerial ≤ (if _ then _ else _); split <;> first | exact Nat.le_succ _ | exact Nat.le_refl _)

theorem EngineFrame.checkClosing (s : State) (i : Nat) : EngineFrame s (s.checkClosing i) := .modifyPublish s i _

theorem EngineFrame.unlistResend (s : State) (i stream : Nat) (q : Seq) :
    EngineFrame s (s.unlistResend i stream q) := by
  unfold State.unlistResend
  split
  · exact ((EngineFrame.filterResend s _).trans (.addGone _ _ _)).trans (.checkClosing _ _)
  · exact .refl s

theorem EngineFrame.leaveReplay (s : State) (a : AgedCell) : EngineFrame s (s.leaveReplay a) := by
  unfold State.leaveReplay
  dsimp only
  split
  · exact ((EngineFrame.modifyPublish s a.index _).trans (.pool _ _)).trans (.unlistResend _ _ _ _)
  · exact (EngineFrame.modifyPublish s a.index _).trans (.pool _ _)

theorem EngineFrame.joinSend (s : State) (i c : Nat) : EngineFrame s (s.joinSend i c) := by
  unfold State.joinSend
  split
  · exact .freeCell s c
  · split
    · exact .modifyPublish s i _
    · exact .freeCell s c

theorem EngineFrame.releaseCell (s : State) (c : Nat) : EngineFrame s (s.releaseCell c) := by
  unfold State.releaseCell
  split
  · exact (EngineFrame.pool s _).trans (.joinSend _ _ _)
  · exact .freeCell s c

theorem EngineFrame.releaseCells (s : State) (l : List Nat) : EngineFrame s (s.releaseCells l) := by
  unfold State.releaseCells
  induction l generalizing s with
  | nil => exact .refl s
  | cons c rest ih => exact (EngineFrame.releaseCell s c).trans (ih _)

theorem EngineFrame.claimCell {s t : State} {c : Nat} (h : s.claimCell = some (c, t)) : EngineFrame s t := by
  unfold State.claimCell at h
  split at h
  · cases h; exact .pool s _
  · split at h
    · cases h; exact (EngineFrame.leaveReplay s _).trans (.bump _ _)
    · cases h

theorem EngineFrame.segmenterClaim (s : State) (i : Nat) : EngineFrame s (s.segmenterClaim i) := by
  unfold State.segmenterClaim
  split
  · rename_i c t h
    exact (EngineFrame.claimCell h).trans (.joinSend _ _ _)
  · exact (EngineFrame.pool s _).trans (.modifyPublish _ _ _)

theorem EngineFrame.clearLists (s : State) (i stream : Nat) : EngineFrame s (s.clearLists i stream) := by
  constructor <;> first
    | rfl
    | exact .inl rfl
    | exact fun ⟨a, b, c, d⟩ =>
        ⟨Nat.le_trans (List.length_filter_le _ _) a, b.filter _, goneOk_filter c _, d⟩

theorem EngineFrame.loseClaim (s : State) (i w c : Nat) : EngineFrame s (s.loseClaim i w c) := by
  unfold State.loseClaim
  split
  · exact .refl s
  · split
    · exact .refl s
    · exact ((((EngineFrame.withdrawOf s _).trans (.clearLists _ _ _)).trans (.modifyPublish _ _ _)).trans
        (.releaseCells _ _)).trans (.emit _ _)

theorem EngineFrame.faultEntry (s : State) (i : Nat) (k : FaultCause) (n : Nat) (d : Word) :
    EngineFrame s (s.faultEntry i k n d) := by
  unfold State.faultEntry
  split
  · exact .refl s
  · split
    · exact ((((EngineFrame.withdrawOf s _).trans (.clearLists _ _ _)).trans (.modifyPublish _ _ _)).trans
        (.releaseCells _ _)).trans (.emit _ _)
    · split
      · exact .refl s
      · exact ((((EngineFrame.withdrawOf s _).trans (.discardHeldOf _ _)).trans (.modifySubscribe _ _ _)).trans
          (.releaseCells _ _)).trans (.emit _ _)

theorem EngineFrame.freeEntry (s : State) (i : Nat) (how : CloseHow) : EngineFrame s (s.freeEntry i how) := by
  unfold State.freeEntry
  split
  · exact .refl s
  · exact (((((EngineFrame.withdrawOf s _).trans (.clearLists _ _ _)).trans (.discardHeldOf _ _)).trans
      (.filterTable _ _)).trans (.releaseCells _ _)).trans (.emit _ _)

theorem EngineFrame.requestPayload (s : State) (e : Entry) : EngineFrame s (s.requestPayload e) := by
  unfold State.requestPayload
  split
  · split
    · dsimp only
      split
      · exact .request s _ _
      · exact .faultEntry s _ _ _ _
    · exact .refl s
  · exact .refl s

theorem EngineFrame.settleRounds (n : Nat) (s : State) : EngineFrame s (settleRounds n s) := by
  induction n generalizing s with
  | zero => exact .refl s
  | succ n ih =>
    unfold Machine.settleRounds
    split
    · exact .refl s
    · refine EngineFrame.trans ?_ (ih _)
      split
      · exact .segmenterClaim s _
      · exact .requestPayload s _

theorem EngineFrame.settleSegmenters (s : State) : EngineFrame s s.settleSegmenters := .settleRounds _ s

/-! ### Chains -/

theorem EngineFrame.takeHead (s : State) (i : Nat) (h : Word) : EngineFrame s (s.takeHead i h) :=
  (EngineFrame.modifyChain s i _).trans (.request _ _ _)

theorem EngineFrame.followLink (s : State) (i : Nat) (l : Word) : EngineFrame s (s.followLink i l) := by
  unfold State.followLink
  split
  · exact .modifyChain s i _
  · split
    · exact .modifyChain s i _
    · exact (EngineFrame.modifyChain s i _).trans (.request _ _ _)

theorem EngineFrame.makeCurrent (s : State) (i : Nat) (a : Word) (d : Descriptor) :
    EngineFrame s (s.makeCurrent i a d) :=
  (EngineFrame.modifyChain s i _).trans (.followLink _ _ _)

theorem EngineFrame.lookAgain (s : State) (i : Nat) (a : Word) : EngineFrame s (s.lookAgain i a) :=
  (EngineFrame.modifyChain s i _).trans (.request _ _ _)

theorem EngineFrame.chainEnds (s : State) (i : Nat) : EngineFrame s (s.chainEnds i) := by
  unfold State.chainEnds
  split
  · exact .refl s
  · split
    · exact .refl s
    · exact (EngineFrame.modifyPublish s i _).trans (.emit _ _)

theorem EngineFrame.publishTake (s : State) (i : Nat) : EngineFrame s (s.publishTake i) := by
  unfold State.publishTake
  split
  · exact .refl s
  · split
    · exact (EngineFrame.modifyPublish s i _).trans (.makeCurrent _ _ _ _)
    · exact .refl s
    · exact .refl s
    · exact .faultEntry s _ _ _ _
    · exact .lookAgain s _ _
    · exact .chainEnds s _

theorem EngineFrame.publishAdvance (s : State) (i : Nat) : EngineFrame s (s.publishAdvance i) := by
  unfold State.publishAdvance
  split
  · exact .refl s
  · split
    · split
      · exact .publishTake s i
      · exact .refl s
    · exact .refl s

theorem EngineFrame.publishStillEnded (s : State) (i : Nat) : EngineFrame s (s.publishStillEnded i) := by
  unfold State.publishStillEnded
  split
  · exact .refl s
  · split
    · split
      · exact .chainEnds s i
      · exact .refl s
    · exact .refl s

theorem EngineFrame.requestWriteBack (s : State) (i : Nat) : EngineFrame s (s.requestWriteBack i) := by
  unfold State.requestWriteBack
  split
  · exact .refl s
  · split
    · exact .request s _ _
    · exact .refl s

/-! ### The subscribe engine -/

theorem EngineFrame.freeBufferIfDone (s : State) (k : BufferId) : EngineFrame s (s.freeBufferIfDone k) := by
  unfold State.freeBufferIfDone
  split
  · exact .refl s
  · exact .setBuffer s k _

theorem EngineFrame.releaseIfWritten (s : State) (i c : Nat) : EngineFrame s (s.releaseIfWritten i c) := by
  unfold State.releaseIfWritten
  split
  · exact .refl s
  · split
    · exact (EngineFrame.modifySubscribe s i _).trans (.releaseCell _ _)
    · exact .refl s

theorem EngineFrame.giveUp (s : State) (i : Nat) : EngineFrame s (s.giveUp i) := by
  unfold State.giveUp
  split
  · exact .refl s
  · dsimp only
    split
    · exact (EngineFrame.modifySubscribe s i _).trans (.freeBufferIfDone _ _)
    · exact ((EngineFrame.modifySubscribe s i _).trans (.modifySubscribe _ _ _)).trans (.releaseIfWritten _ _ _)

theorem EngineFrame.finishDescriptor (s : State) (i : Nat) : EngineFrame s (s.finishDescriptor i) := by
  unfold State.finishDescriptor
  dsimp only
  split
  · exact (EngineFrame.modifySubscribe s i _).trans (.makeCurrent _ _ _ _)
  · exact (EngineFrame.modifySubscribe s i _).trans (.modifyChain _ _ _)

theorem EngineFrame.closeBlock (s : State) (i : Nat) (b : BlockStatus) : EngineFrame s (s.closeBlock i b) := by
  unfold State.closeBlock
  split
  · exact .refl s
  · split
    · split
      · exact .refl s
      · exact ((EngineFrame.request s _ _).trans (.modifySubscribe _ _ _)).trans (.finishDescriptor _ _)
    · exact .refl s

theorem EngineFrame.takeHeld (s : State) (i : Nat) (a : Word) (d : Descriptor) : EngineFrame s (s.takeHeld i a d) := by
  unfold State.takeHeld
  split
  · exact .refl s
  · split
    · exact .refl s
    · refine (EngineFrame.trans ?_ (.modifySubscribe _ _ _)).trans (.makeCurrent _ _ _ _)
      split
      · exact .request s _ _
      · exact .refl s

theorem EngineFrame.receiveClaim {s t : State} {u : SubscribeEntry} {c : Nat}
    (h : s.receiveClaim u = some (c, t)) : EngineFrame s t := by
  unfold State.receiveClaim at h
  split at h
  · exact .claimCell h
  · cases h

theorem EngineFrame.closeForFirst (s : State) (i : Nat) (first : Bool) : EngineFrame s (s.closeForFirst i first) := by
  unfold State.closeForFirst
  split
  · exact .closeBlock s _ _
  · exact .refl s

theorem EngineFrame.startPlacing (s : State) (i : Nat) (u : SubscribeEntry) (pl : Placing) :
    EngineFrame s (s.startPlacing i u pl) :=
  (EngineFrame.closeForFirst s i _).trans (.modifySubscribe _ _ _)

theorem EngineFrame.sourceWritten (s : State) (i : Nat) (k : SegmentSource) : EngineFrame s (s.sourceWritten i k) := by
  cases k with
  | staging k => exact .freeBufferIfDone s k
  | cell c => exact .releaseIfWritten s i c

theorem EngineFrame.orphanPlacing (s : State) (i : Nat) : EngineFrame s (s.orphanPlacing i) :=
  ((EngineFrame.giveUp s i).trans (.modifySubscribe _ _ _)).trans (.bump _ _)

theorem EngineFrame.placePiece (s : State) (i : Nat) (a : Word) (d : Descriptor) (u : SubscribeEntry) (pl : Placing) :
    EngineFrame s (s.placePiece i a d u pl) := by
  unfold State.placePiece
  dsimp only
  split
  · exact (EngineFrame.request s _ _).trans (.modifySubscribe _ _ _)
  · exact .faultEntry s _ _ _ _

theorem EngineFrame.endPlacing (s : State) (i : Nat) (pl : Placing) : EngineFrame s (s.endPlacing i pl) := by
  unfold State.endPlacing
  dsimp only
  refine EngineFrame.trans (EngineFrame.trans ?_ (.modifySubscribe _ _ _)) (.sourceWritten _ _ _)
  split
  · exact (EngineFrame.modifySubscribe s i _).trans (.closeBlock _ _ _)
  · exact .modifySubscribe s i _

theorem EngineFrame.starve (s : State) (i : Nat) : EngineFrame s (s.starve i) := by
  unfold State.starve
  split
  · exact .refl s
  · split
    · exact .refl s
    · rename_i e _ u _
      split
      · exact .refl s
      · rename_i pl _
        have base : ∀ t : State, EngineFrame s t → EngineFrame s (match pl.source with
          | .cell _ => t
          | .staging k =>
            match s.heldSegment k, t.receiveClaim u with
            | some g, some (c, t) =>
              (t.modifySubscribe i fun v =>
                { v with waiting := g.inCell c :: v.waiting
                         placing := some { pl with source := .cell c } }).freeBufferIfDone k
            | _, _ =>
              ((t.modifySubscribe i fun v => { v with placing := none }).bump .reorderDrops).freeBufferIfDone
                k) := by
          intro t ht
          split
          · exact ht
          · split
            · rename_i hc
              exact ((ht.trans (.receiveClaim hc)).trans (.modifySubscribe _ _ _)).trans (.freeBufferIfDone _ _)
            · exact ((ht.trans (.modifySubscribe _ _ _)).trans (.bump _ _)).trans (.freeBufferIfDone _ _)
        refine base _ ?_
        split
        · exact .modifySubscribe s i _
        · exact (EngineFrame.modifySubscribe s i _).trans (.emit _ _)

theorem EngineFrame.placeRounds (i n : Nat) (s : State) : EngineFrame s (placeRounds i n s) := by
  induction n generalizing s with
  | zero => exact .refl s
  | succ n ih =>
    unfold Machine.placeRounds
    split
    · exact .refl s
    · split
      · exact .refl s
      · split
        · exact .refl s
        · split
          · split
            · exact (EngineFrame.endPlacing s i _).trans (ih _)
            · split
              · exact .refl s
              · split
                · refine EngineFrame.trans ?_ (ih _)
                  split
                  · exact .placePiece s i _ _ _ _
                  · exact .orphanPlacing s i
                · split
                  · exact (EngineFrame.takeHeld s i _ _).trans (ih _)
                  · exact .refl s
                  · exact .refl s
                  · exact .faultEntry s _ _ _ _
                  · split
                    · exact .refl s
                    · split
                      · exact .starve s i
                      · exact .lookAgain s _ _
                  · exact .starve s i
          · split
            · exact .refl s
            · split
              · exact .refl s
              · split
                · split
                  · exact (EngineFrame.startPlacing s i _ _).trans (ih _)
                  · exact (((EngineFrame.modifySubscribe s i _).trans (.bump _ _)).trans (.releaseCell _ _)).trans
                      (ih _)
                · exact .refl s

theorem EngineFrame.placeOn (s : State) (i : Nat) : EngineFrame s (s.placeOn i) := .placeRounds i 64 s

theorem EngineFrame.lose (s : State) (i n : Nat) (k : LossCause) : EngineFrame s (s.lose i n k) := by
  unfold State.lose
  split
  · exact .refl s
  · split
    · exact .refl s
    · split
      · exact .refl s
      · split
        · exact .refl s
        · exact (((((((EngineFrame.giveUp s i).trans (.closeBlock _ _ _)).trans (.modifySubscribe _ _ _)).trans
            (.releaseCells _ _)).trans (.modifySubscribe _ _ _)).trans (.emit _ _)).trans
            (.modifySubscribe _ _ _)).trans (.placeOn _ _)

theorem EngineFrame.loseOrWait (s : State) (i n : Nat) (k : LossCause) : EngineFrame s (s.loseOrWait i n k) := by
  unfold State.loseOrWait
  split
  · exact .modifySubscribe s i _
  · exact .lose s i n k

theorem EngineFrame.farJump (s : State) (i : Nat) (x f : Seq) : EngineFrame s (s.farJump i x f) := by
  unfold State.farJump
  split
  · exact .refl s
  · split
    · exact .refl s
    · exact (((((EngineFrame.closeBlock s i _).trans (.giveUp _ _)).trans (.modifySubscribe _ _ _)).trans
        (.releaseCells _ _)).trans (.modifySubscribe _ _ _)).trans (.emit _ _)

theorem EngineFrame.takeInOrder (s : State) (i : Nat) (k : BufferId) (g : StagedSegment) :
    EngineFrame s (s.takeInOrder i k g) := by
  unfold State.takeInOrder
  split
  · exact .refl s
  · split
    · split
      · rename_i h
        exact (((EngineFrame.receiveClaim h).trans (.closeForFirst _ _ _)).trans (.modifySubscribe _ _ _)).trans
          (.setBuffer _ _ _)
      · exact (EngineFrame.bump s _).trans (.setBuffer _ _ _)
    · split
      · exact (EngineFrame.startPlacing s i _ _).trans (.placeOn _ _)
      · exact (((EngineFrame.setBuffer s k _).trans (.bump _ _)).trans (.modifySubscribe _ _ _)).trans (.placeOn _ _)

theorem EngineFrame.takeAhead (s : State) (i : Nat) (k : BufferId) (g : StagedSegment) (x : Seq) :
    EngineFrame s (s.takeAhead i k g x) := by
  unfold State.takeAhead
  dsimp only
  split
  · exact .refl s
  · split
    · rename_i h
      exact ((((EngineFrame.modifySubscribe s i _).trans (.receiveClaim h)).trans (.modifySubscribe _ _ _)).trans
        (.setBuffer _ _ _)).trans (.modifySubscribe _ _ _)
    · exact (((EngineFrame.modifySubscribe s i _).trans (.bump _ _)).trans (.setBuffer _ _ _)).trans
        (.modifySubscribe _ _ _)

theorem EngineFrame.dropSegment (s : State) (k : BufferId) (w : Counter) (h : w.ofEngines = true := by rfl) :
    EngineFrame s (s.dropSegment k w) :=
  (EngineFrame.setBuffer s k _).trans (.bump _ _ h)

theorem EngineFrame.takeSegment (s : State) (i : Nat) (k : BufferId) (g : StagedSegment) :
    EngineFrame s (s.takeSegment i k g) := by
  unfold State.takeSegment
  split
  · exact .refl s
  · split
    · split
      · exact (EngineFrame.modifySubscribe s i _).trans (.takeInOrder _ _ _ _)
      · exact .dropSegment s _ _
    · dsimp only
      split
      · split
        · exact .dropSegment s _ _
        · exact .takeInOrder s _ _ _
      · split
        · split
          · exact .dropSegment s _ _
          · exact .takeAhead s _ _ _ _
        · split
          · split
            · exact ((EngineFrame.farJump s _ _ _).trans (.modifySubscribe _ _ _)).trans (.takeInOrder _ _ _ _)
            · exact ((EngineFrame.farJump s _ _ _).trans (.modifySubscribe _ _ _)).trans (.setBuffer _ _ _)
          · split
            · exact .setBuffer s _ _
            · exact .dropSegment s _ _

theorem EngineFrame.endEmptyStarvation (s : State) (i : Nat) (e : Entry) (u : SubscribeEntry) :
    EngineFrame s (s.endEmptyStarvation i e u) := by
  unfold State.endEmptyStarvation
  dsimp only
  split
  · split
    · exact .modifySubscribe s _ _
    · split
      · exact (EngineFrame.takeHeld s _ _ _).trans (.modifySubscribe _ _ _)
      · exact .faultEntry s _ _ _ _
      · exact .refl s
  · exact (EngineFrame.takeHeld s _ _ _).trans (.modifySubscribe _ _ _)
  · exact .faultEntry s _ _ _ _
  · exact .refl s

theorem EngineFrame.receiveAdvance (s : State) (i : Nat) : EngineFrame s (s.receiveAdvance i) := by
  unfold State.receiveAdvance
  split
  · exact .refl s
  · split
    · exact .refl s
    · split
      · exact .refl s
      · split
        · exact .placeOn s _
        · split
          · exact .endEmptyStarvation s _ _ _
          · exact .refl s

theorem EngineFrame.receiveStillEnded (s : State) (i : Nat) : EngineFrame s (s.receiveStillEnded i) := by
  unfold State.receiveStillEnded
  split
  · exact .refl s
  · split
    · exact .refl s
    · split
      · exact .modifySubscribe s _ _
      · split
        · exact .starve s _
        · exact .refl s

theorem EngineFrame.closeProgress (s : State) (i : Nat) : EngineFrame s (s.closeProgress i) := by
  unfold State.closeProgress
  split
  · exact .refl s
  · split
    · exact .freeEntry s _ _
    · exact .refl s

theorem EngineFrame.closeSubscribe (s : State) (i : Nat) : EngineFrame s (s.closeSubscribe i) :=
  (((EngineFrame.modifySubscribe s i _).trans (.giveUp _ _)).trans (.closeBlock _ _ _)).trans (.closeProgress _ _)

/-! ### The end of every command -/

theorem EngineFrame.settleHoldOff (s : State) : EngineFrame s s.settleHoldOff := by
  constructor <;> first
    | rfl
    | exact id
    | (unfold State.settleHoldOff
       dsimp only
       split
       · rename_i h
         exact .inr (.inr h.1)
       · exact .inr (.inl rfl))

theorem EngineFrame.finish (s : State) : EngineFrame s s.finish :=
  (EngineFrame.settleSegmenters s).trans (.settleHoldOff _)

/-! ### A stuck line (R16) -/

/-- An event changes nothing of the station, the line interface, the turn unit, the table, the pool or the lists. -/
theorem emit_rest (s : State) (ev : Event) :
    (s.emit ev).station = s.station ∧ (s.emit ev).line = s.line ∧ (s.emit ev).turn = s.turn ∧
      (s.emit ev).table = s.table ∧ (s.emit ev).pool = s.pool ∧ (s.emit ev).lists = s.lists := by
  have place : ∀ (t : State) (e : Event), (t.placeEvent e).station = t.station ∧ (t.placeEvent e).line = t.line ∧
      (t.placeEvent e).turn = t.turn ∧ (t.placeEvent e).table = t.table ∧ (t.placeEvent e).pool = t.pool ∧
      (t.placeEvent e).lists = t.lists := by
    intro t e
    unfold State.placeEvent
    by_cases h : t.fence.contains (t.events.config.recordAddress t.events.writeIndex) 32 = true
    · simp only [h, if_true]; exact ⟨rfl, rfl, rfl, rfl, rfl, rfl⟩
    · simp only [h]; exact ⟨rfl, rfl, rfl, rfl, rfl, rfl⟩
  unfold State.emit
  split
  · unfold State.deliverEvent
    split
    · exact place _ _
    · split <;> exact ⟨rfl, rfl, rfl, rfl, rfl, rfl⟩
  · exact ⟨rfl, rfl, rfl, rfl, rfl, rfl⟩

theorem becomeStuck_rest (s : State) :
    s.becomeStuck.line = { s.line.discardFrame with phase := .stuck, stuckCount := Config.stuckLimit } ∧
      s.becomeStuck.turn = { s.turn with
        condition := .stuck, anchor := none, lastSender := 0, holdOff := none, attempt := none } ∧
      s.becomeStuck.table = s.table ∧ s.becomeStuck.pool = s.pool ∧ s.becomeStuck.lists = s.lists := by
  unfold State.becomeStuck
  split_ifs
  · exact (emit_rest _ _).2
  · exact ⟨rfl, rfl, rfl, rfl, rfl⟩

theorem unlessStuck_of_not {s : State} {heard : List LineReading} (t : State)
    (h : reachesStuck s.line.stuckCount heard = false) : s.unlessStuck heard t = t := by
  simp [State.unlessStuck, h]

theorem unlessStuck_of {s : State} {heard : List LineReading} (t : State)
    (h : reachesStuck s.line.stuckCount heard = true) : s.unlessStuck heard t = s.becomeStuck := by
  simp [State.unlessStuck, h]

end Machine
end Sys2Proof
end

