-- ==== Sys2Proof/Laws/State.lean ====
section
/-! SUPPORT. What each plain update of the state does to the fields it writes and to those it leaves, one lemma per
field, so that no proof unfolds a record update. -/

namespace Sys2Proof
namespace Machine

/-! ### Counters -/

@[simp] theorem countBy_counters (s : State) (w : Counter) (n : Nat) :
    (s.countBy w n).counters = s.counters.add w n := rfl
@[simp] theorem countBy_station (s : State) (w : Counter) (n : Nat) : (s.countBy w n).station = s.station := rfl
@[simp] theorem countBy_line (s : State) (w : Counter) (n : Nat) : (s.countBy w n).line = s.line := rfl
@[simp] theorem countBy_turn (s : State) (w : Counter) (n : Nat) : (s.countBy w n).turn = s.turn := rfl
@[simp] theorem countBy_table (s : State) (w : Counter) (n : Nat) : (s.countBy w n).table = s.table := rfl
@[simp] theorem countBy_pool (s : State) (w : Counter) (n : Nat) : (s.countBy w n).pool = s.pool := rfl
@[simp] theorem countBy_lists (s : State) (w : Counter) (n : Nat) : (s.countBy w n).lists = s.lists := rfl
@[simp] theorem countBy_port (s : State) (w : Counter) (n : Nat) : (s.countBy w n).port = s.port := rfl
@[simp] theorem countBy_fence (s : State) (w : Counter) (n : Nat) : (s.countBy w n).fence = s.fence := rfl
@[simp] theorem countBy_events (s : State) (w : Counter) (n : Nat) : (s.countBy w n).events = s.events := rfl
@[simp] theorem countBy_window (s : State) (w : Counter) (n : Nat) : (s.countBy w n).window = s.window := rfl
@[simp] theorem countBy_pending (s : State) (w : Counter) (n : Nat) : (s.countBy w n).pending = s.pending := rfl

@[simp] theorem bump_counters (s : State) (w : Counter) : (s.bump w).counters = s.counters.add w 1 := rfl
@[simp] theorem bump_station (s : State) (w : Counter) : (s.bump w).station = s.station := rfl
@[simp] theorem bump_line (s : State) (w : Counter) : (s.bump w).line = s.line := rfl
@[simp] theorem bump_turn (s : State) (w : Counter) : (s.bump w).turn = s.turn := rfl
@[simp] theorem bump_table (s : State) (w : Counter) : (s.bump w).table = s.table := rfl
@[simp] theorem bump_pool (s : State) (w : Counter) : (s.bump w).pool = s.pool := rfl
@[simp] theorem bump_lists (s : State) (w : Counter) : (s.bump w).lists = s.lists := rfl
@[simp] theorem bump_port (s : State) (w : Counter) : (s.bump w).port = s.port := rfl
@[simp] theorem bump_fence (s : State) (w : Counter) : (s.bump w).fence = s.fence := rfl
@[simp] theorem bump_events (s : State) (w : Counter) : (s.bump w).events = s.events := rfl
@[simp] theorem bump_window (s : State) (w : Counter) : (s.bump w).window = s.window := rfl
@[simp] theorem bump_pending (s : State) (w : Counter) : (s.bump w).pending = s.pending := rfl

/-! ### The table -/

@[simp] theorem modifyChain_station (s : State) (i : Nat) (f : Chain → Chain) :
    (s.modifyChain i f).station = s.station := rfl
@[simp] theorem modifyChain_line (s : State) (i : Nat) (f : Chain → Chain) : (s.modifyChain i f).line = s.line := rfl
@[simp] theorem modifyChain_turn (s : State) (i : Nat) (f : Chain → Chain) : (s.modifyChain i f).turn = s.turn := rfl
@[simp] theorem modifyChain_pool (s : State) (i : Nat) (f : Chain → Chain) : (s.modifyChain i f).pool = s.pool := rfl
@[simp] theorem modifyChain_lists (s : State) (i : Nat) (f : Chain → Chain) :
    (s.modifyChain i f).lists = s.lists := rfl
@[simp] theorem modifyChain_port (s : State) (i : Nat) (f : Chain → Chain) : (s.modifyChain i f).port = s.port := rfl
@[simp] theorem modifyChain_fence (s : State) (i : Nat) (f : Chain → Chain) :
    (s.modifyChain i f).fence = s.fence := rfl
@[simp] theorem modifyChain_events (s : State) (i : Nat) (f : Chain → Chain) :
    (s.modifyChain i f).events = s.events := rfl
@[simp] theorem modifyChain_window (s : State) (i : Nat) (f : Chain → Chain) :
    (s.modifyChain i f).window = s.window := rfl
@[simp] theorem modifyChain_counters (s : State) (i : Nat) (f : Chain → Chain) :
    (s.modifyChain i f).counters = s.counters := rfl

@[simp] theorem modifyPublish_station (s : State) (i : Nat) (f : PublishEntry → PublishEntry) :
    (s.modifyPublish i f).station = s.station := rfl
@[simp] theorem modifyPublish_line (s : State) (i : Nat) (f : PublishEntry → PublishEntry) :
    (s.modifyPublish i f).line = s.line := rfl
@[simp] theorem modifyPublish_turn (s : State) (i : Nat) (f : PublishEntry → PublishEntry) :
    (s.modifyPublish i f).turn = s.turn := rfl
@[simp] theorem modifyPublish_pool (s : State) (i : Nat) (f : PublishEntry → PublishEntry) :
    (s.modifyPublish i f).pool = s.pool := rfl
@[simp] theorem modifyPublish_lists (s : State) (i : Nat) (f : PublishEntry → PublishEntry) :
    (s.modifyPublish i f).lists = s.lists := rfl
@[simp] theorem modifyPublish_port (s : State) (i : Nat) (f : PublishEntry → PublishEntry) :
    (s.modifyPublish i f).port = s.port := rfl
@[simp] theorem modifyPublish_fence (s : State) (i : Nat) (f : PublishEntry → PublishEntry) :
    (s.modifyPublish i f).fence = s.fence := rfl
@[simp] theorem modifyPublish_events (s : State) (i : Nat) (f : PublishEntry → PublishEntry) :
    (s.modifyPublish i f).events = s.events := rfl
@[simp] theorem modifyPublish_window (s : State) (i : Nat) (f : PublishEntry → PublishEntry) :
    (s.modifyPublish i f).window = s.window := rfl
@[simp] theorem modifyPublish_counters (s : State) (i : Nat) (f : PublishEntry → PublishEntry) :
    (s.modifyPublish i f).counters = s.counters := rfl

@[simp] theorem modifySubscribe_station (s : State) (i : Nat) (f : SubscribeEntry → SubscribeEntry) :
    (s.modifySubscribe i f).station = s.station := rfl
@[simp] theorem modifySubscribe_line (s : State) (i : Nat) (f : SubscribeEntry → SubscribeEntry) :
    (s.modifySubscribe i f).line = s.line := rfl
@[simp] theorem modifySubscribe_turn (s : State) (i : Nat) (f : SubscribeEntry → SubscribeEntry) :
    (s.modifySubscribe i f).turn = s.turn := rfl
@[simp] theorem modifySubscribe_pool (s : State) (i : Nat) (f : SubscribeEntry → SubscribeEntry) :
    (s.modifySubscribe i f).pool = s.pool := rfl
@[simp] theorem modifySubscribe_lists (s : State) (i : Nat) (f : SubscribeEntry → SubscribeEntry) :
    (s.modifySubscribe i f).lists = s.lists := rfl
@[simp] theorem modifySubscribe_port (s : State) (i : Nat) (f : SubscribeEntry → SubscribeEntry) :
    (s.modifySubscribe i f).port = s.port := rfl
@[simp] theorem modifySubscribe_fence (s : State) (i : Nat) (f : SubscribeEntry → SubscribeEntry) :
    (s.modifySubscribe i f).fence = s.fence := rfl
@[simp] theorem modifySubscribe_events (s : State) (i : Nat) (f : SubscribeEntry → SubscribeEntry) :
    (s.modifySubscribe i f).events = s.events := rfl
@[simp] theorem modifySubscribe_window (s : State) (i : Nat) (f : SubscribeEntry → SubscribeEntry) :
    (s.modifySubscribe i f).window = s.window := rfl
@[simp] theorem modifySubscribe_counters (s : State) (i : Nat) (f : SubscribeEntry → SubscribeEntry) :
    (s.modifySubscribe i f).counters = s.counters := rfl

/-- An update found through `find?`: a map that keeps the index leaves the search where it was. -/
theorem find?_map_index (l : List Entry) (i : Nat) (f : Entry → Entry) (h : ∀ e, (f e).index = e.index) :
    (l.map f).find? (·.index == i) = (l.find? (·.index == i)).map f := by
  induction l with
  | nil => rfl
  | cons e l ih =>
    rw [List.map_cons, List.find?_cons, List.find?_cons, h e]
    split
    · rfl
    · exact ih

theorem modifyChain_entryAt (s : State) (i j : Nat) (f : Chain → Chain) :
    (s.modifyChain i f).entryAt j =
      (s.entryAt j).map fun e => if e.index = i then { e with chain := f e.chain } else e :=
  find?_map_index _ _ _ fun e => by split <;> rfl

theorem modifyPublish_entryAt (s : State) (i j : Nat) (f : PublishEntry → PublishEntry) :
    (s.modifyPublish i f).entryAt j =
      (s.entryAt j).map fun e => if e.index = i then { e with role := e.role.mapPublish f } else e :=
  find?_map_index _ _ _ fun e => by split <;> rfl

theorem modifySubscribe_entryAt (s : State) (i j : Nat) (f : SubscribeEntry → SubscribeEntry) :
    (s.modifySubscribe i f).entryAt j =
      (s.entryAt j).map fun e => if e.index = i then { e with role := e.role.mapSubscribe f } else e :=
  find?_map_index _ _ _ fun e => by split <;> rfl

@[simp] theorem modifyChain_indexes (s : State) (i : Nat) (f : Chain → Chain) :
    (s.modifyChain i f).table.map (·.index) = s.table.map (·.index) := by
  unfold State.modifyChain
  rw [List.map_map]
  exact List.map_congr_left fun e _ => by simp only [Function.comp]; split <;> rfl

@[simp] theorem modifyPublish_indexes (s : State) (i : Nat) (f : PublishEntry → PublishEntry) :
    (s.modifyPublish i f).table.map (·.index) = s.table.map (·.index) := by
  unfold State.modifyPublish
  rw [List.map_map]
  exact List.map_congr_left fun e _ => by simp only [Function.comp]; split <;> rfl

@[simp] theorem modifySubscribe_indexes (s : State) (i : Nat) (f : SubscribeEntry → SubscribeEntry) :
    (s.modifySubscribe i f).table.map (·.index) = s.table.map (·.index) := by
  unfold State.modifySubscribe
  rw [List.map_map]
  exact List.map_congr_left fun e _ => by simp only [Function.comp]; split <;> rfl

/-- The entry found at an index stands at it. -/
theorem entryAt_index {s : State} {i : Nat} {e : Entry} (h : s.entryAt i = some e) : e.index = i := by
  have := List.find?_some h
  simpa using this

@[simp] theorem modifyPublish_subscribeAt (s : State) (i j : Nat) (f : PublishEntry → PublishEntry) :
    (s.modifyPublish i f).subscribeAt j = s.subscribeAt j := by
  unfold State.subscribeAt
  rw [modifyPublish_entryAt]
  cases s.entryAt j with
  | none => rfl
  | some e =>
    simp only [Option.map_some, Option.bind_some]
    split
    · cases e with | mk a b c d r => cases r <;> rfl
    · rfl

@[simp] theorem modifySubscribe_publishAt (s : State) (i j : Nat) (f : SubscribeEntry → SubscribeEntry) :
    (s.modifySubscribe i f).publishAt j = s.publishAt j := by
  unfold State.publishAt
  rw [modifySubscribe_entryAt]
  cases s.entryAt j with
  | none => rfl
  | some e =>
    simp only [Option.map_some, Option.bind_some]
    split
    · cases e with | mk a b c d r => cases r <;> rfl
    · rfl

theorem modifyPublish_publishAt (s : State) (i : Nat) (f : PublishEntry → PublishEntry) :
    (s.modifyPublish i f).publishAt i = (s.publishAt i).map f := by
  unfold State.publishAt
  rw [modifyPublish_entryAt]
  cases h : s.entryAt i with
  | none => rfl
  | some e =>
    simp only [Option.map_some, Option.bind_some, entryAt_index h, if_true]
    cases e with | mk a b c d r => cases r <;> rfl

theorem modifySubscribe_subscribeAt (s : State) (i : Nat) (f : SubscribeEntry → SubscribeEntry) :
    (s.modifySubscribe i f).subscribeAt i = (s.subscribeAt i).map f := by
  unfold State.subscribeAt
  rw [modifySubscribe_entryAt]
  cases h : s.entryAt i with
  | none => rfl
  | some e =>
    simp only [Option.map_some, Option.bind_some, entryAt_index h, if_true]
    cases e with | mk a b c d r => cases r <;> rfl

@[simp] theorem modifyChain_publishAt (s : State) (i j : Nat) (f : Chain → Chain) :
    (s.modifyChain i f).publishAt j = s.publishAt j := by
  unfold State.publishAt
  rw [modifyChain_entryAt]
  cases s.entryAt j with
  | none => rfl
  | some e =>
    simp only [Option.map_some, Option.bind_some]
    split <;> rfl

@[simp] theorem modifyChain_subscribeAt (s : State) (i j : Nat) (f : Chain → Chain) :
    (s.modifyChain i f).subscribeAt j = s.subscribeAt j := by
  unfold State.subscribeAt
  rw [modifyChain_entryAt]
  cases s.entryAt j with
  | none => rfl
  | some e =>
    simp only [Option.map_some, Option.bind_some]
    split <;> rfl

/-! ### Staging buffers -/

@[simp] theorem setBuffer_station (s : State) (k : BufferId) (v : StagingBuffer) :
    (s.setBuffer k v).station = s.station := rfl
@[simp] theorem setBuffer_turn (s : State) (k : BufferId) (v : StagingBuffer) : (s.setBuffer k v).turn = s.turn := rfl
@[simp] theorem setBuffer_table (s : State) (k : BufferId) (v : StagingBuffer) :
    (s.setBuffer k v).table = s.table := rfl
@[simp] theorem setBuffer_pool (s : State) (k : BufferId) (v : StagingBuffer) : (s.setBuffer k v).pool = s.pool := rfl
@[simp] theorem setBuffer_lists (s : State) (k : BufferId) (v : StagingBuffer) :
    (s.setBuffer k v).lists = s.lists := rfl
@[simp] theorem setBuffer_port (s : State) (k : BufferId) (v : StagingBuffer) : (s.setBuffer k v).port = s.port := rfl
@[simp] theorem setBuffer_events (s : State) (k : BufferId) (v : StagingBuffer) :
    (s.setBuffer k v).events = s.events := rfl
@[simp] theorem setBuffer_counters (s : State) (k : BufferId) (v : StagingBuffer) :
    (s.setBuffer k v).counters = s.counters := rfl
@[simp] theorem buffer_setBuffer (l : LineInterface) (k : BufferId) (v : StagingBuffer) :
    (l.setBuffer k v).buffer k = v := by cases k <;> rfl

@[simp] theorem discardHeldOf_table (s : State) (n : Nat) : (s.discardHeldOf n).table = s.table := rfl
@[simp] theorem discardHeldOf_pool (s : State) (n : Nat) : (s.discardHeldOf n).pool = s.pool := rfl
@[simp] theorem discardHeldOf_lists (s : State) (n : Nat) : (s.discardHeldOf n).lists = s.lists := rfl
@[simp] theorem discardHeldOf_port (s : State) (n : Nat) : (s.discardHeldOf n).port = s.port := rfl
@[simp] theorem discardHeldOf_turn (s : State) (n : Nat) : (s.discardHeldOf n).turn = s.turn := rfl
@[simp] theorem discardHeldOf_station (s : State) (n : Nat) : (s.discardHeldOf n).station = s.station := rfl
@[simp] theorem discardHeldOf_events (s : State) (n : Nat) : (s.discardHeldOf n).events = s.events := rfl
@[simp] theorem discardHeldOf_counters (s : State) (n : Nat) : (s.discardHeldOf n).counters = s.counters := rfl

/-! ### The port -/

@[simp] theorem request_station (s : State) (c : PortClass) (r : Request) : (s.request c r).station = s.station := by
  cases c <;> rfl
@[simp] theorem request_line (s : State) (c : PortClass) (r : Request) : (s.request c r).line = s.line := by
  cases c <;> rfl
@[simp] theorem request_turn (s : State) (c : PortClass) (r : Request) : (s.request c r).turn = s.turn := by
  cases c <;> rfl
@[simp] theorem request_table (s : State) (c : PortClass) (r : Request) : (s.request c r).table = s.table := by
  cases c <;> rfl
@[simp] theorem request_pool (s : State) (c : PortClass) (r : Request) : (s.request c r).pool = s.pool := by
  cases c <;> rfl
@[simp] theorem request_lists (s : State) (c : PortClass) (r : Request) : (s.request c r).lists = s.lists := by
  cases c <;> rfl
@[simp] theorem request_fence (s : State) (c : PortClass) (r : Request) : (s.request c r).fence = s.fence := by
  cases c <;> rfl
@[simp] theorem request_events (s : State) (c : PortClass) (r : Request) : (s.request c r).events = s.events := by
  cases c <;> rfl
@[simp] theorem request_window (s : State) (c : PortClass) (r : Request) : (s.request c r).window = s.window := by
  cases c <;> rfl
@[simp] theorem request_counters (s : State) (c : PortClass) (r : Request) :
    (s.request c r).counters = s.counters := by cases c <;> rfl
@[simp] theorem request_granted (s : State) (c : PortClass) (r : Request) :
    (s.request c r).port.granted = s.port.granted := by cases c <;> rfl
@[simp] theorem request_first (s : State) (r : Request) :
    (s.request .first r).port.firstClass = s.port.firstClass ++ [r] := rfl
@[simp] theorem request_second (s : State) (r : Request) :
    (s.request .second r).port.secondClass = s.port.secondClass ++ [r] := rfl
@[simp] theorem request_third (s : State) (r : Request) :
    (s.request .third r).port.thirdClass = s.port.thirdClass ++ [r] := rfl

@[simp] theorem withdrawOf_station (s : State) (i : Nat) : (s.withdrawOf i).station = s.station := rfl
@[simp] theorem withdrawOf_line (s : State) (i : Nat) : (s.withdrawOf i).line = s.line := rfl
@[simp] theorem withdrawOf_table (s : State) (i : Nat) : (s.withdrawOf i).table = s.table := rfl
@[simp] theorem withdrawOf_pool (s : State) (i : Nat) : (s.withdrawOf i).pool = s.pool := rfl
@[simp] theorem withdrawOf_lists (s : State) (i : Nat) : (s.withdrawOf i).lists = s.lists := rfl
@[simp] theorem withdrawOf_events (s : State) (i : Nat) : (s.withdrawOf i).events = s.events := rfl
@[simp] theorem withdrawOf_counters (s : State) (i : Nat) : (s.withdrawOf i).counters = s.counters := rfl

@[simp] theorem freePort_granted (s : State) : s.freePort.port.granted = none := rfl
@[simp] theorem freePort_first (s : State) : s.freePort.port.firstClass = s.port.firstClass := rfl
@[simp] theorem freePort_second (s : State) : s.freePort.port.secondClass = s.port.secondClass := rfl
@[simp] theorem freePort_third (s : State) : s.freePort.port.thirdClass = s.port.thirdClass := rfl
@[simp] theorem freePort_station (s : State) : s.freePort.station = s.station := rfl
@[simp] theorem freePort_line (s : State) : s.freePort.line = s.line := rfl
@[simp] theorem freePort_turn (s : State) : s.freePort.turn = s.turn := rfl
@[simp] theorem freePort_table (s : State) : s.freePort.table = s.table := rfl
@[simp] theorem freePort_pool (s : State) : s.freePort.pool = s.pool := rfl
@[simp] theorem freePort_lists (s : State) : s.freePort.lists = s.lists := rfl
@[simp] theorem freePort_fence (s : State) : s.freePort.fence = s.fence := rfl
@[simp] theorem freePort_events (s : State) : s.freePort.events = s.events := rfl
@[simp] theorem freePort_window (s : State) : s.freePort.window = s.window := rfl
@[simp] theorem freePort_counters (s : State) : s.freePort.counters = s.counters := rfl

/-! ### Anchors, the line at rest, results -/

@[simp] theorem anchorNow_turn (s : State) (n : Nat) : (s.anchorNow n).turn = { s.turn with
    condition := .window, anchor := some s.clock, emptyWindows := 0, lastSender := n } := rfl
@[simp] theorem anchorNow_station (s : State) (n : Nat) : (s.anchorNow n).station = s.station := rfl
@[simp] theorem anchorNow_line (s : State) (n : Nat) : (s.anchorNow n).line = s.line := rfl
@[simp] theorem anchorNow_table (s : State) (n : Nat) : (s.anchorNow n).table = s.table := rfl
@[simp] theorem anchorNow_pool (s : State) (n : Nat) : (s.anchorNow n).pool = s.pool := rfl
@[simp] theorem anchorNow_lists (s : State) (n : Nat) : (s.anchorNow n).lists = s.lists := rfl
@[simp] theorem anchorNow_port (s : State) (n : Nat) : (s.anchorNow n).port = s.port := rfl
@[simp] theorem anchorNow_events (s : State) (n : Nat) : (s.anchorNow n).events = s.events := rfl
@[simp] theorem anchorNow_counters (s : State) (n : Nat) : (s.anchorNow n).counters = s.counters := rfl
@[simp] theorem anchorNow_moment (s : State) (n : Nat) : (s.anchorNow n).momentTaken = false := rfl

@[simp] theorem discardAndRest_line (s : State) (n : Nat) :
    (s.discardAndRest n).line = { s.line.discardFrame with phase := .rest, stuckCount := n } := rfl
@[simp] theorem discardAndRest_station (s : State) (n : Nat) : (s.discardAndRest n).station = s.station := rfl
@[simp] theorem discardAndRest_turn (s : State) (n : Nat) : (s.discardAndRest n).turn = s.turn := rfl
@[simp] theorem discardAndRest_table (s : State) (n : Nat) : (s.discardAndRest n).table = s.table := rfl
@[simp] theorem discardAndRest_counters (s : State) (n : Nat) : (s.discardAndRest n).counters = s.counters := rfl

@[simp] theorem hear_phase (l : LineInterface) (h : List LineReading) : (l.hear h).phase = l.phase := rfl
@[simp] theorem hear_record (l : LineInterface) (h : List LineReading) : (l.hear h).record = l.record := rfl
@[simp] theorem hear_faults (l : LineInterface) (h : List LineReading) : (l.hear h).faults = l.faults := rfl
@[simp] theorem hear_spoiling (l : LineInterface) (h : List LineReading) : (l.hear h).spoiling = l.spoiling := rfl
@[simp] theorem hear_brokenWait (l : LineInterface) (h : List LineReading) : (l.hear h).brokenWait = l.brokenWait := rfl
@[simp] theorem hear_bufferA (l : LineInterface) (h : List LineReading) : (l.hear h).bufferA = l.bufferA := rfl
@[simp] theorem hear_bufferB (l : LineInterface) (h : List LineReading) : (l.hear h).bufferB = l.bufferB := rfl
@[simp] theorem lineWasReleased_line (s : State) :
    s.lineWasReleased.line = { s.line with stuckCount := 0 } := rfl

@[simp] theorem lineWasReleased_turn (s : State) : s.lineWasReleased.turn = s.turn := rfl

@[simp] theorem lineWasReleased_station (s : State) : s.lineWasReleased.station = s.station := rfl

@[simp] theorem lineWasReleased_table (s : State) : s.lineWasReleased.table = s.table := rfl

@[simp] theorem lineWasReleased_selectAny (s : State) : s.lineWasReleased.selectAny = s.selectAny := rfl

@[simp] theorem hear_stuckCount (l : LineInterface) (h : List LineReading) :
    (l.hear h).stuckCount = stuckAfter l.stuckCount h := rfl

@[simp] theorem lineOpens_turn (s : State) :
    s.lineOpens.turn = { s.turn with condition := .opened, anchor := none, lastSender := 0 } := rfl
@[simp] theorem lineOpens_station (s : State) : s.lineOpens.station = s.station := rfl
@[simp] theorem lineOpens_line (s : State) : s.lineOpens.line = s.line := rfl
@[simp] theorem lineOpens_table (s : State) : s.lineOpens.table = s.table := rfl

@[simp] theorem answer_window (s : State) (r : Result) : (s.answer r).window = { s.window with result := r } := rfl
@[simp] theorem answer_station (s : State) (r : Result) : (s.answer r).station = s.station := rfl
@[simp] theorem answer_line (s : State) (r : Result) : (s.answer r).line = s.line := rfl
@[simp] theorem answer_turn (s : State) (r : Result) : (s.answer r).turn = s.turn := rfl
@[simp] theorem answer_table (s : State) (r : Result) : (s.answer r).table = s.table := rfl
@[simp] theorem answer_pool (s : State) (r : Result) : (s.answer r).pool = s.pool := rfl
@[simp] theorem answer_lists (s : State) (r : Result) : (s.answer r).lists = s.lists := rfl
@[simp] theorem answer_port (s : State) (r : Result) : (s.answer r).port = s.port := rfl
@[simp] theorem answer_fence (s : State) (r : Result) : (s.answer r).fence = s.fence := rfl
@[simp] theorem answer_events (s : State) (r : Result) : (s.answer r).events = s.events := rfl
@[simp] theorem answer_counters (s : State) (r : Result) : (s.answer r).counters = s.counters := rfl

@[simp] theorem withGone_gone (s : State) (f : List GoneEntry → List GoneEntry) :
    (s.withGone f).lists.gone = f s.lists.gone := rfl
@[simp] theorem withGone_resend (s : State) (f : List GoneEntry → List GoneEntry) :
    (s.withGone f).lists.resend = s.lists.resend := rfl
@[simp] theorem withGone_table (s : State) (f : List GoneEntry → List GoneEntry) :
    (s.withGone f).table = s.table := rfl

@[simp] theorem freeCell_free (s : State) (c : Nat) : (s.freeCell c).pool.free = s.pool.free ++ [c] := rfl
@[simp] theorem freeCell_table (s : State) (c : Nat) : (s.freeCell c).table = s.table := rfl

end Machine
end Sys2Proof
end

