-- ==== Sys2Proof/Laws/Cells.lean ====
section
/-! SUPPORT. What the work of cells at publish entries leaves alone: claims, releases, evictions, a publish entry's
fault, and so the settling of the segmenters after a command. Subscribe entries, chains, staging buffers and the
requests of subscribe entries are not touched. -/

namespace Sys2Proof
namespace Machine

/-- What of an entry the cell work leaves: its key, its chain, its subscribe fields. -/
def Entry.still (e : Entry) : (Nat × Nat × Nat × Bool) × Chain × Option SubscribeEntry := (e.key, e.chain, e.subscribe?)

/-- `t` is `s` after cell work at publish entries. -/
structure CellFrame (s t : State) : Prop where
  line : t.line = s.line
  entries : t.table.map Entry.still = s.table.map Entry.still
  counters : t.counters =
    { s.counters with replayEvictions := t.counters.replayEvictions, eventsLost := t.counters.eventsLost }
  first : ∀ i, (s.subscribeAt i).isSome = true →
    t.port.firstClass.filter (fun r => r.index? == some i) = s.port.firstClass.filter (fun r => r.index? == some i)

/-- Looking up by index commutes with a view of the entries that shows the index. -/
theorem entryAt_still (s : State) (i : Nat) :
    (s.entryAt i).map Entry.still = (s.table.map Entry.still).find? (fun v => v.1.1 == i) := by
  unfold State.entryAt
  rw [List.find?_map]
  rfl

namespace CellFrame

theorem at_still {s t : State} (h : CellFrame s t) (i : Nat) :
    (t.entryAt i).map Entry.still = (s.entryAt i).map Entry.still := by
  rw [entryAt_still, entryAt_still, h.entries]

theorem subscribeAt {s t : State} (h : CellFrame s t) (i : Nat) : t.subscribeAt i = s.subscribeAt i := by
  have k (u : State) : u.subscribeAt i = ((u.entryAt i).map Entry.still).bind (·.2.2) := by
    unfold State.subscribeAt
    cases u.entryAt i <;> rfl
  rw [k, k, h.at_still]

theorem chainAt {s t : State} (h : CellFrame s t) (i : Nat) :
    (t.entryAt i).map Entry.chain = (s.entryAt i).map Entry.chain := by
  have k (u : State) : (u.entryAt i).map Entry.chain = ((u.entryAt i).map Entry.still).map (·.2.1) := by
    cases u.entryAt i <;> rfl
  rw [k, k, h.at_still]

theorem keys {s t : State} (h : CellFrame s t) : t.table.map Entry.key = s.table.map Entry.key := by
  have k (u : State) : u.table.map Entry.key = (u.table.map Entry.still).map (·.1) := by
    rw [List.map_map]
    rfl
  rw [k, k, h.entries]

theorem refl (s : State) : CellFrame s s := ⟨rfl, rfl, rfl, fun _ _ => rfl⟩

theorem trans {s t u : State} (h : CellFrame s t) (k : CellFrame t u) : CellFrame s u where
  line := k.line.trans h.line
  entries := k.entries.trans h.entries
  counters := by rw [k.counters, h.counters]
  first i hi := (k.first i (by rw [h.subscribeAt]; exact hi)).trans (h.first i hi)

theorem pool (s : State) (p : Pool) : CellFrame s { s with pool := p } := ⟨rfl, rfl, rfl, fun _ _ => rfl⟩

theorem lists (s : State) (l : PublishLists) (n : Nat) : CellFrame s { s with lists := l, nextSerial := n } :=
  ⟨rfl, rfl, rfl, fun _ _ => rfl⟩

theorem events (s : State) (e : EventUnit) : CellFrame s { s with events := e } := ⟨rfl, rfl, rfl, fun _ _ => rfl⟩

theorem modifyPublish (s : State) (i : Nat) (f : PublishEntry → PublishEntry) : CellFrame s (s.modifyPublish i f) := by
  refine ⟨rfl, ?_, rfl, fun _ _ => rfl⟩
  unfold State.modifyPublish
  rw [List.map_map]
  refine List.map_congr_left fun e _ => ?_
  simp only [Function.comp]
  split
  · cases e with | mk a b c d r => cases r <;> rfl
  · rfl

/-- A request that is not of a subscribe entry in the first class, or of another class. -/
theorem request (s : State) (c : PortClass) (r : Request) (h : c ≠ .first) : CellFrame s (s.request c r) := by
  cases c
  · exact absurd rfl h
  · exact ⟨rfl, rfl, rfl, fun _ _ => rfl⟩
  · exact ⟨rfl, rfl, rfl, fun _ _ => rfl⟩

/-- Withdrawing the requests of a publish entry. -/
theorem withdrawOf (s : State) (i : Nat) (h : s.subscribeAt i = none) : CellFrame s (s.withdrawOf i) := by
  refine ⟨rfl, rfl, rfl, fun j hj => ?_⟩
  have hij : i ≠ j := fun e => by rw [← e, h] at hj; cases hj
  show (s.port.firstClass.filter _).filter _ = _
  rw [List.filter_filter]
  refine List.filter_congr fun r _ => ?_
  cases hr : r.index? with
  | none => rfl
  | some k =>
    by_cases hk : k = j
    · subst hk
      simp [hr, Ne.symm hij]
    · simp [hk]

theorem latchHostFault (s : State) (place : Nat) : CellFrame s (s.latchHostFault place) :=
  ⟨rfl, rfl, rfl, fun _ _ => rfl⟩

theorem placeEvent (s : State) (ev : Event) : CellFrame s (s.placeEvent ev) := by
  unfold State.placeEvent
  dsimp only
  split
  · exact (events s _).trans (request _ _ _ nofun)
  · exact latchHostFault s _

theorem deliverEvent (s : State) (ev : Event) : CellFrame s (s.deliverEvent ev) := by
  unfold State.deliverEvent
  split
  · exact placeEvent s ev
  · split
    · exact events s _
    · exact ⟨rfl, rfl, rfl, fun _ _ => rfl⟩

theorem emit (s : State) (ev : Event) : CellFrame s (s.emit ev) := by
  unfold State.emit
  split
  · exact (events s _).trans (deliverEvent _ _)
  · exact refl s

theorem addGone (s : State) (stream : Nat) (q : Seq) : CellFrame s (s.addGone stream q) := lists s _ _

theorem checkClosing (s : State) (i : Nat) : CellFrame s (s.checkClosing i) := modifyPublish s i _

theorem unlistResend (s : State) (i stream : Nat) (q : Seq) : CellFrame s (s.unlistResend i stream q) := by
  unfold State.unlistResend
  split
  · exact ((lists s _ s.nextSerial).trans (addGone _ _ _)).trans (checkClosing _ _)
  · exact refl s

theorem leaveReplay (s : State) (a : AgedCell) : CellFrame s (s.leaveReplay a) := by
  unfold State.leaveReplay
  dsimp only
  split
  · exact ((modifyPublish s a.index _).trans (pool _ _)).trans (unlistResend _ _ _ _)
  · exact (modifyPublish s a.index _).trans (pool _ _)

theorem joinSend (s : State) (i c : Nat) : CellFrame s (s.joinSend i c) := by
  unfold State.joinSend
  split
  · exact pool s _
  · split
    · exact modifyPublish s i _
    · exact pool s _

theorem releaseCell (s : State) (c : Nat) : CellFrame s (s.releaseCell c) := by
  unfold State.releaseCell
  split
  · exact (pool s _).trans (joinSend _ _ _)
  · exact pool s _

theorem releaseCells (s : State) (l : List Nat) : CellFrame s (s.releaseCells l) := by
  unfold State.releaseCells
  induction l generalizing s with
  | nil => exact refl s
  | cons c rest ih => exact (releaseCell s c).trans (ih _)

theorem claimCell {s t : State} {c : Nat} (h : s.claimCell = some (c, t)) : CellFrame s t := by
  unfold State.claimCell at h
  split at h
  · cases h; exact pool s _
  · split at h
    · cases h; exact (leaveReplay s _).trans ⟨rfl, rfl, rfl, fun _ _ => rfl⟩
    · cases h

theorem segmenterClaim (s : State) (i : Nat) : CellFrame s (s.segmenterClaim i) := by
  unfold State.segmenterClaim
  split
  · rename_i c t h
    exact (claimCell h).trans (joinSend _ _ _)
  · exact (pool s _).trans (modifyPublish _ _ _)

theorem clearLists (s : State) (i stream : Nat) : CellFrame s (s.clearLists i stream) :=
  ⟨rfl, rfl, rfl, fun _ _ => rfl⟩

/-- A publish entry is no subscribe entry. -/
theorem subscribeAt_of_publish {s : State} {i : Nat} {e : Entry} {p : PublishEntry} (h : s.entryAt i = some e)
    (r : e.role = .publish p) : s.subscribeAt i = none := by
  unfold State.subscribeAt Entry.subscribe?
  rw [h, Option.bind_some, r]

theorem loseClaim (s : State) (i w c : Nat) : CellFrame s (s.loseClaim i w c) := by
  unfold State.loseClaim
  split
  · exact refl s
  · rename_i e he
    split
    · exact refl s
    · rename_i p hp
      exact ((((withdrawOf s _ (subscribeAt_of_publish he hp)).trans (clearLists _ _ _)).trans
        (modifyPublish _ _ _)).trans (releaseCells _ _)).trans (emit _ _)

theorem faultPublish (s : State) (i : Nat) (k : FaultCause) (n : Nat) (d : Word) (h : s.subscribeAt i = none) :
    CellFrame s (s.faultEntry i k n d) := by
  unfold State.faultEntry
  split
  · exact refl s
  · rename_i e he
    split
    · rename_i p hp
      exact ((((withdrawOf s _ (subscribeAt_of_publish he hp)).trans (clearLists _ _ _)).trans
        (modifyPublish _ _ _)).trans (releaseCells _ _)).trans (emit _ _)
    · rename_i u hu
      unfold State.subscribeAt Entry.subscribe? at h
      rw [he, Option.bind_some, hu] at h
      cases h

theorem requestPayload (s : State) (e : Entry) (h : s.subscribeAt e.index = none) :
    CellFrame s (s.requestPayload e) := by
  unfold State.requestPayload
  split
  · split
    · dsimp only
      split
      · exact request s _ _ nofun
      · exact faultPublish s _ _ _ _ h
    · exact refl s
  · exact refl s

/-- With distinct indexes an entry of the table is the one found at its index. -/
theorem entryAt_of_mem {s : State} (h : (s.table.map (·.index)).Nodup) {e : Entry} (he : e ∈ s.table) :
    s.entryAt e.index = some e := by
  have hf : (s.table.find? (·.index == e.index)).isSome := by
    rw [List.find?_isSome]
    exact ⟨e, he, by simp⟩
  obtain ⟨f, hf⟩ := Option.isSome_iff_exists.1 hf
  have hi := entryAt_index (s := s) hf
  rw [State.entryAt, hf, List.inj_on_of_nodup_map h (List.mem_of_find?_eq_some hf) he hi]

/-- The table's indexes are kept. -/
theorem indexes {s t : State} (h : CellFrame s t) : t.table.map (·.index) = s.table.map (·.index) := by
  have := congrArg (List.map Prod.fst) h.keys
  simpa [List.map_map, Function.comp_def, Entry.key] using this

theorem settleRounds (n : Nat) (s : State) (h : (s.table.map (·.index)).Nodup) : CellFrame s (settleRounds n s) := by
  induction n generalizing s with
  | zero => exact refl s
  | succ n ih =>
    unfold Machine.settleRounds
    split
    · exact refl s
    · rename_i e he
      have hm := List.mem_of_find?_eq_some he
      have hp := List.find?_some he
      have step : CellFrame s
          (if e.wantsClaim = true then s.segmenterClaim e.index else s.requestPayload e) := by
        split
        · exact segmenterClaim s _
        · rename_i hw
          refine requestPayload s e ?_
          have hr : s.wantsRead e = true := by simpa [hw] using hp
          unfold State.wantsRead at hr
          split at hr
          · rename_i p hrole
            exact subscribeAt_of_publish (entryAt_of_mem h hm) hrole
          · cases hr
      exact step.trans (ih _ (by rw [step.indexes]; exact h))

/-- Settling the segmenters and the hold-off after a command stays inside the frame. -/
theorem finish (s : State) (h : (s.table.map (·.index)).Nodup) : CellFrame s s.finish := by
  have k := settleRounds Config.poolCells s h
  exact ⟨k.line, k.entries, k.counters, k.first⟩

theorem stationControl (s : State) (c : StationControl) : CellFrame s { s with station := c } :=
  ⟨rfl, rfl, rfl, fun _ _ => rfl⟩

theorem reportState (s : State) (n : StationState) (c : StateCause) (x : Nat) : CellFrame s (s.reportState n c x) :=
  (stationControl s _).trans (emit _ _)

theorem anchorNow (s : State) (x : Nat) : CellFrame s (s.anchorNow x) := ⟨rfl, rfl, rfl, fun _ _ => rfl⟩

/-- What follows a clean frame at the table: the count apart, the same. -/
theorem cleanVerdict (s : State) (x : Nat) (h : (s.table.map (·.index)).Nodup) :
    CellFrame (s.bump .cleanFrames) (s.cleanVerdict x) := by
  unfold State.cleanVerdict
  dsimp only
  split
  · have k := (anchorNow (s.bump .cleanFrames) x).trans (reportState _ .active .joinedByFrame x)
    exact k.trans (finish _ (by rw [k.indexes]; exact h))
  · exact (anchorNow _ _).trans (finish _ h)

end CellFrame

/-- The table's indexes are distinct. -/
theorem State.tableOk.indexes {s : State} (h : s.tableOk) : (s.table.map (·.index)).Nodup :=
  h.1.imp fun h => Nat.ne_of_lt h

/-- With distinct indexes an entry of the table is the one found at its index. -/
theorem State.tableOk.entryAt {s : State} (h : s.tableOk) {e : Entry} (he : e ∈ s.table) :
    s.entryAt e.index = some e := CellFrame.entryAt_of_mem h.indexes he

/-- With distinct streams an entry of the table is the one found for its stream. -/
theorem State.tableOk.entryOf {s : State} (h : s.tableOk) {e : Entry} (he : e ∈ s.table) :
    s.entryOf e.stream = some e := by
  have hf : (s.table.find? (·.stream == e.stream)).isSome := by
    rw [List.find?_isSome]
    exact ⟨e, he, by simp⟩
  obtain ⟨f, hf⟩ := Option.isSome_iff_exists.1 hf
  have hi : f.stream = e.stream := by simpa using List.find?_some hf
  rw [State.entryOf, hf, List.inj_on_of_nodup_map h.2.1 (List.mem_of_find?_eq_some hf) he hi]

/-- With distinct serials an entry of the table is the one found by its serial. -/
theorem State.tableOk.entryBySerial {s : State} (h : s.tableOk) {e : Entry} (he : e ∈ s.table) :
    s.entryBySerial e.serial = some e := by
  have hf : (s.table.find? (·.serial == e.serial)).isSome := by
    rw [List.find?_isSome]
    exact ⟨e, he, by simp⟩
  obtain ⟨f, hf⟩ := Option.isSome_iff_exists.1 hf
  have hi : f.serial = e.serial := by simpa using List.find?_some hf
  rw [State.entryBySerial, hf, List.inj_on_of_nodup_map h.2.2.1 (List.mem_of_find?_eq_some hf) he hi]

end Machine
end Sys2Proof
end

