-- ==== Sys2Proof/Laws/Commands.lean ====
section
/-! SUPPORT. The operations the commands are built from, above the engines: outcomes at the owners, clean frames at
the table, expiries and completions stay inside `EngineFrame`; what reports of station control change. -/

namespace Sys2Proof
namespace Machine

/-! ### Outcomes at the owners -/

theorem EngineFrame.modifyPublishBySerial (s : State) (n : Nat) (f : PublishEntry → PublishEntry) :
    EngineFrame s (s.modifyPublishBySerial n f) := by
  unfold State.modifyPublishBySerial
  split
  · exact .refl s
  · exact .modifyPublish s _ _

theorem EngineFrame.disputeOutcome (s : State) (n : Nat) (a : Attempt) (o : AttemptOutcome) :
    EngineFrame s (s.disputeOutcome n a o) := .modifyPublishBySerial s _ _

theorem EngineFrame.claimOutcome (s : State) (n : Nat) (o : AttemptOutcome) : EngineFrame s (s.claimOutcome n o) :=
  .modifyPublishBySerial s _ _

theorem EngineFrame.yieldOutcome (s : State) (n : Nat) (o : AttemptOutcome) : EngineFrame s (s.yieldOutcome n o) := by
  unfold State.yieldOutcome
  split
  · split
    · exact .refl s
    · split
      · exact .freeEntry s _ _
      · split
        · exact .freeEntry s _ _
        · exact .modifyPublish s _ _
      all_goals exact .refl s
  · exact .refl s

theorem EngineFrame.goneOutcome (s : State) (n : Nat) (q : Seq) (c : Nat) (a : Attempt) (o : AttemptOutcome) :
    EngineFrame s (s.goneOutcome n q c a o) := by
  unfold State.goneOutcome
  dsimp only
  split
  · refine (EngineFrame.bump s _).trans (.withGone _ _ fun h => ?_)
    simpa using goneOk_mark (goneOk_filter h _) (fun g => decide (g.serial = n)) false
  · refine .withGone _ _ fun h => ?_
    simpa using goneOk_mark h (fun g => decide (g.serial = n)) (a.marks o)

theorem EngineFrame.repairOutcome (s : State) (n : Nat) (a : Attempt) (o : AttemptOutcome) :
    EngineFrame s (s.repairOutcome n a o) := by
  unfold State.repairOutcome
  dsimp only
  split
  · split
    · exact .bump s _
    · exact .refl s
  · split
    · exact (EngineFrame.bump s _).trans (.modifySubscribe _ _ _)
    · exact .modifySubscribe s _ _

theorem EngineFrame.resendOutcome (s : State) (n : Nat) (q : Seq) (o : AttemptOutcome) :
    EngineFrame s (s.resendOutcome n q o) := by
  unfold State.resendOutcome
  split
  · split
    · exact ((EngineFrame.filterResend s _).trans (.modifyPublish _ _ _)).trans (.checkClosing _ _)
    · exact .refl s
  · exact .refl s

theorem EngineFrame.makeReplayRoom (s : State) (i : Nat) (p : PublishEntry) :
    EngineFrame s (s.makeReplayRoom i p) := by
  unfold State.makeReplayRoom
  split
  · split
    · exact ((EngineFrame.leaveReplay s _).trans (.bump _ _)).trans (.releaseCell _ _)
    · exact .refl s
  · exact .refl s

theorem EngineFrame.deliverSegment (s : State) (i : Nat) (p : PublishEntry) (c : PublishCell) :
    EngineFrame s (s.deliverSegment i p c) := by
  unfold State.deliverSegment
  dsimp only
  split
  · exact ((((EngineFrame.makeReplayRoom s i p).trans (.modifyPublish _ _ _)).trans (.pool _ _)).trans
      (.requestWriteBack _ _)).trans (.checkClosing _ _)
  · exact (((EngineFrame.makeReplayRoom s i p).trans (.modifyPublish _ _ _)).trans (.pool _ _)).trans
      (.checkClosing _ _)

/-- The owner's outcome is engine work after the round-robin pointer may have moved (R31, R33). -/
theorem ownerOutcome_frame (s : State) (a : Attempt) (o : AttemptOutcome) :
    ∃ p, EngineFrame { s with turn := { s.turn with pointer := p } } (s.ownerOutcome a o) := by
  unfold State.ownerOutcome
  split
  · exact ⟨s.turn.pointer, .disputeOutcome s _ _ _⟩
  · exact ⟨s.turn.pointer, .goneOutcome s _ _ _ _ _⟩
  · exact ⟨s.turn.pointer, .repairOutcome s _ _ _⟩
  · exact ⟨s.turn.pointer, .claimOutcome s _ _⟩
  · exact ⟨s.turn.pointer, .yieldOutcome s _ _⟩
  · exact ⟨s.turn.pointer, .resendOutcome s _ _ _⟩
  · rename_i serial index cell _
    unfold State.newDataOutcome
    split
    · refine ⟨index, ?_⟩
      dsimp only
      split
      · exact .refl _
      · split
        · exact .refl _
        · split
          · split
            · exact .deliverSegment _ _ _ _
            · exact .refl _
          · exact .refl _
    · exact ⟨s.turn.pointer, .refl s⟩

/-! ### Clean frames at the table -/

theorem EngineFrame.setPublisher (s : State) (e : Entry) (u : SubscribeEntry) (n : Option Nat) (k : Nat) :
    EngineFrame s (s.setPublisher e u n k) := by
  unfold State.setPublisher
  split
  · exact .refl s
  · exact (EngineFrame.modifySubscribe s _ _).trans (.emit _ _)

theorem EngineFrame.claimHeard (s : State) (a b : Nat) : EngineFrame s (claimHeard s a b) := by
  unfold Machine.claimHeard
  split
  · exact .refl s
  · split
    · split
      · exact .refl s
      · split
        · split
          · exact .loseClaim s _ _ _
          · exact .refl s
        · exact .modifyPublish s _ _
    · split
      · exact .setPublisher s _ _ _ _
      · exact .refl s

theorem EngineFrame.disputeHeard (s : State) (a b c : Nat) : EngineFrame s (disputeHeard s a b c) := by
  unfold Machine.disputeHeard
  split
  · exact .refl s
  · split
    · split
      · exact .refl s
      · split
        · exact .loseClaim s _ _ _
        · exact .modifyPublish s _ _
    · split
      · exact .setPublisher s _ _ _ _
      · exact .refl s

theorem EngineFrame.yieldHeard (s : State) (a b : Nat) : EngineFrame s (yieldHeard s a b) := by
  unfold Machine.yieldHeard
  split
  · exact .refl s
  · split
    · exact .refl s
    · split
      · dsimp only
        split
        · exact (EngineFrame.setPublisher s _ _ _ _).trans (.loseOrWait _ _ _ _)
        · exact .setPublisher s _ _ _ _
      · exact .refl s

/-- A sequence that the resend list does not name joins it while there is room (R97). -/
theorem EngineFrame.appendResend (s : State) (r : Resend) (room : s.lists.resend.length < Config.resendLimit)
    (new : r ∉ s.lists.resend) :
    EngineFrame s { s with lists := { s.lists with resend := s.lists.resend ++ [r] } } :=
  .lists s _ fun ⟨_, b, c, d⟩ =>
    ⟨by rw [List.length_append]; exact room,
      List.nodup_append.2 ⟨b, List.nodup_singleton _, fun x hx y hy => by
        rw [List.mem_singleton] at hy
        subst hy
        exact fun e => new (e ▸ hx)⟩, c, d⟩

theorem EngineFrame.serveSequence (s : State) (i stream : Nat) (q : Seq) :
    EngineFrame s (s.serveSequence i stream q) := by
  unfold State.serveSequence
  split
  · exact .refl s
  · split
    · exact .addGone s _ _
    · split
      · exact .refl s
      · split
        · rename_i h room
          refine .appendResend s _ room fun hm => h ?_
          unfold State.resendListed
          exact List.any_eq_true.2 ⟨_, hm, by simp⟩
        · exact .refl s
    · exact .refl s
    · exact .refl s

theorem EngineFrame.serveRepair (s : State) (i stream : Nat) (q : Seq) (n : Nat) :
    EngineFrame s (s.serveRepair i stream q n) := by
  refine EngineFrame.trans ?_ (.checkClosing _ _)
  generalize List.range n = l
  induction l generalizing s with
  | nil => exact .refl s
  | cons k rest ih => exact (EngineFrame.serveSequence s i stream _).trans (ih _)

theorem EngineFrame.suppress (s : State) (e : Entry) (u : SubscribeEntry) (a b : Nat) (q : Seq) (n : Nat) :
    EngineFrame s (s.suppress e u a b q n) := by
  unfold State.suppress
  split
  · exact .refl s
  · split
    · dsimp only
      split
      · exact (EngineFrame.modifySubscribe s _ _).trans (.bump _ _)
      · exact .modifySubscribe s _ _
    · exact .refl s

theorem EngineFrame.repairHeard (s : State) (a b c : Nat) (q : Seq) (n : Nat) :
    EngineFrame s (repairHeard s a b c q n) := by
  unfold Machine.repairHeard
  split
  · exact .refl s
  · split
    · split
      · exact .refl s
      · split
        · exact .serveRepair s _ _ _ _
        · split
          · exact .refl s
          · exact .modifyPublish s _ _
    · exact .suppress s _ _ _ _ _ _

theorem EngineFrame.goneHeard (s : State) (a b : Nat) (q : Seq) (n : Nat) : EngineFrame s (goneHeard s a b q n) := by
  unfold Machine.goneHeard
  split
  · split
    · exact .refl s
    · split
      · exact .lose s _ _ _
      · exact .refl s
  · exact .refl s

theorem EngineFrame.takeStaged (s : State) (i : Nat) (k : Option BufferId) (g : StagedSegment) :
    EngineFrame s (s.takeStaged i k g) := by
  unfold State.takeStaged
  split
  · exact .refl s
  · exact (EngineFrame.setBuffer s _ _).trans (.takeSegment _ _ _ _)

theorem EngineFrame.dataHeard (s : State) (k : Option BufferId) (g : StagedSegment) :
    EngineFrame s (dataHeard s k g) := by
  unfold Machine.dataHeard
  split
  · exact .refl s
  · split
    · split
      · exact .refl s
      · exact .modifyPublish s _ _
    · split
      · exact .refl s
      · split
        · exact (EngineFrame.setPublisher s _ _ _ _).trans (.takeStaged _ _ _ _)
        · split
          · exact .takeStaged s _ _ _
          · exact .bump s _

/-! ### Expiries -/

theorem EngineFrame.fallDue (s : State) (i : Nat) (u : SubscribeEntry) : EngineFrame s (s.fallDue i u) := by
  unfold State.fallDue
  dsimp only
  split
  · exact (EngineFrame.modifySubscribe s _ _).trans (.modifySubscribe _ _ _)
  · exact (EngineFrame.modifySubscribe s _ _).trans (.loseOrWait _ _ _ _)
  · exact .modifySubscribe s _ _

theorem EngineFrame.loseRequested (s : State) (i : Nat) (u : SubscribeEntry) : EngineFrame s (s.loseRequested i u) := by
  unfold State.loseRequested
  dsimp only
  split
  · exact (EngineFrame.modifySubscribe s _ _).trans (.lose _ _ _ _)
  · exact .modifySubscribe s _ _

theorem EngineFrame.claimSettleExpiry (i : Nat) (s : State) : EngineFrame s (claimSettleExpiry i s) := by
  unfold Machine.claimSettleExpiry
  split
  · exact .refl s
  · split
    · exact .refl s
    · split
      · exact ((EngineFrame.modifyPublish s _ _).trans (.emit _ _)).trans (.finish _)
      · exact .refl s

theorem EngineFrame.repairDelayExpiry (i : Nat) (s : State) : EngineFrame s (repairDelayExpiry i s) := by
  unfold Machine.repairDelayExpiry
  split
  · exact .refl s
  · split
    · exact (EngineFrame.fallDue s _ _).trans (.finish _)
    · exact .refl s

theorem EngineFrame.repairWaitExpiry (i : Nat) (s : State) : EngineFrame s (repairWaitExpiry i s) := by
  unfold Machine.repairWaitExpiry
  split
  · exact .refl s
  · split
    · split
      · exact (EngineFrame.fallDue s _ _).trans (.finish _)
      · exact (EngineFrame.loseRequested s _ _).trans (.finish _)
    · exact .refl s

theorem EngineFrame.replayAgeLimit (s : State) : EngineFrame s (replayAgeLimit s) := by
  unfold Machine.replayAgeLimit
  split
  · exact .refl s
  · split
    · exact (((EngineFrame.leaveReplay s _).trans (.bump _ _)).trans (.releaseCell _ _)).trans (.finish _)
    · exact .refl s

/-! ### The host port -/

theorem EngineFrame.transferGrant (s : State) : EngineFrame s (transferGrant s) := by
  unfold Machine.transferGrant
  split
  · unfold State.grant
    dsimp only
    split
    · exact .port s _
    · exact .port s _
    · exact .port s _
    · exact .refl s
  · exact .refl s

theorem EngineFrame.endTransfer (s : State) (g : Granted) (f : State → State) (h : ∀ t, EngineFrame t (f t)) :
    EngineFrame s (s.endTransfer g f) := by
  unfold State.endTransfer
  split
  · exact .freePort s
  · exact ((EngineFrame.freePort s).trans (h _)).trans (.finish _)

theorem EngineFrame.headRead (i : Nat) (a : Word) (c : ReadCompletion) (s : State) :
    EngineFrame s (headRead i a c s) := by
  unfold Machine.headRead
  split
  · exact .faultEntry s _ _ _ _
  · dsimp only
    split
    · exact .faultEntry s _ _ _ _
    · exact ((((EngineFrame.modifyChain s _ _).trans (.modifyPublish _ _ _)).trans (.modifySubscribe _ _ _)).trans
        (.makeCurrent _ _ _ _)).trans (.receiveAdvance _ _)

theorem EngineFrame.chainAdvanced (s : State) (i : Nat) : EngineFrame s (s.chainAdvanced i) := by
  unfold State.chainAdvanced
  split
  · exact .publishAdvance s _
  · exact .receiveAdvance s _
  · exact .refl s

theorem EngineFrame.stillEnded (s : State) (i : Nat) : EngineFrame s (s.stillEnded i) := by
  unfold State.stillEnded
  split
  · exact .publishStillEnded s _
  · exact .receiveStillEnded s _
  · exact .refl s

theorem EngineFrame.lookAheadRead (i : Nat) (a : Word) (c : ReadCompletion) (s : State) :
    EngineFrame s (lookAheadRead i a c s) := (EngineFrame.modifyChain s _ _).trans (.chainAdvanced _ _)

theorem EngineFrame.lastLook (i : Nat) (a : Word) (c : ReadCompletion) (s : State) :
    EngineFrame s (lastLook i a c s) := by
  unfold Machine.lastLook
  split
  · exact (EngineFrame.modifyChain s _ _).trans (.chainAdvanced _ _)
  · dsimp only
    split
    · exact (EngineFrame.followLink s _ _).trans (.stillEnded _ _)
    · exact (EngineFrame.followLink s _ _).trans (.chainAdvanced _ _)

theorem EngineFrame.payloadRead (i c : Nat) (b : List Byte) (s : State) : EngineFrame s (payloadRead i c b s) := by
  unfold Machine.payloadRead
  split
  · exact .refl s
  · split
    · dsimp only
      split
      · exact (EngineFrame.modifyPublish s _ _).trans (.checkClosing _ _)
      · exact ((EngineFrame.modifyPublish s _ _).trans (.modifyChain _ _ _)).trans (.publishTake _ _)
    · exact .modifyPublish s _ _

theorem EngineFrame.writeBackDone (i : Nat) (r : WriteBack) (s : State) : EngineFrame s (writeBackDone i r s) := by
  unfold Machine.writeBackDone
  split
  · exact .refl s
  · dsimp only
    split
    · exact (((EngineFrame.modifyPublish s _ _).trans (.emit _ _)).trans (.requestWriteBack _ _)).trans
        (.checkClosing _ _)
    · exact ((EngineFrame.modifyPublish s _ _).trans (.requestWriteBack _ _)).trans (.checkClosing _ _)

theorem EngineFrame.blockReceived (s : State) (i : Nat) (r : RxWriteBack) : EngineFrame s (s.blockReceived i r) := by
  unfold State.blockReceived
  split
  · split
    · exact .refl s
    · exact .emit s _
  · exact .refl s

theorem EngineFrame.headDescriptorReadEnd (c : ReadCompletion) (s : State) :
    EngineFrame s (headDescriptorReadEnd c s) := by
  unfold Machine.headDescriptorReadEnd
  split
  · split
    · split
      · exact .endTransfer s _ _ (.headRead _ _ _)
      · exact .refl s
    · exact .refl s
  · exact .refl s

theorem EngineFrame.lookAheadReadEnd (c : ReadCompletion) (s : State) : EngineFrame s (lookAheadReadEnd c s) := by
  unfold Machine.lookAheadReadEnd
  split
  · split
    · split
      · exact .endTransfer s _ _ (.lookAheadRead _ _ _)
      · exact .refl s
    · exact .refl s
  · exact .refl s

theorem EngineFrame.lastLookEnd (c : ReadCompletion) (s : State) : EngineFrame s (lastLookEnd c s) := by
  unfold Machine.lastLookEnd
  split
  · split
    · split
      · exact .endTransfer s _ _ (.lastLook _ _ _)
      · exact .refl s
    · exact .refl s
  · exact .refl s

theorem EngineFrame.txPayloadReadEnd (c : ReadCompletion) (s : State) : EngineFrame s (txPayloadReadEnd c s) := by
  unfold Machine.txPayloadReadEnd
  split
  · split
    · split
      · exact .endTransfer s _ _ (.payloadRead _ _ _)
      · exact .refl s
    · exact .endTransfer s _ _ fun t => .faultEntry t _ _ _ _
    · exact .refl s
  · exact .refl s

theorem EngineFrame.txWriteBackEnd (c : Completion) (s : State) : EngineFrame s (txWriteBackEnd c s) := by
  unfold Machine.txWriteBackEnd
  split
  · split
    · exact .endTransfer s _ _ (.writeBackDone _ _)
    · exact .endTransfer s _ _ fun t => .faultEntry t _ _ _ _
    · exact .refl s
  · exact .refl s

theorem EngineFrame.rxPayloadWriteEnd (c : Completion) (s : State) : EngineFrame s (rxPayloadWriteEnd c s) := by
  unfold Machine.rxPayloadWriteEnd
  split
  · split
    · refine .endTransfer s _ _ fun t => ?_
      split
      · exact .faultEntry t _ _ _ _
      · exact (EngineFrame.sourceWritten t _ _).trans (.closeProgress _ _)
    · exact .refl s
  · exact .refl s

theorem EngineFrame.rxWriteBackEnd (c : Completion) (s : State) : EngineFrame s (rxWriteBackEnd c s) := by
  unfold Machine.rxWriteBackEnd
  split
  · split
    · refine .endTransfer s _ _ fun t => ?_
      split
      · exact (EngineFrame.blockReceived t _ _).trans (.closeProgress _ _)
      · split
        · exact .closeProgress t _
        · exact .faultEntry t _ _ _ _
    · exact .refl s
  · exact .refl s

/-! ### Window commands at an entry -/

theorem EngineFrame.beginClosing (s : State) (i : Nat) (p : PublishEntry) : EngineFrame s (s.beginClosing i p) := by
  unfold State.beginClosing
  dsimp only
  split
  · exact (EngineFrame.modifyPublish s _ _).trans (.checkClosing _ _)
  · exact ((EngineFrame.modifyPublish s _ _).trans (.pool _ _)).trans (.checkClosing _ _)

end Machine
end Sys2Proof
end

