-- ==== Sys2Proof/Laws/Ended.lean ====
section
/-! SUPPORT. A publish entry that has ended (LOST, FAULT) and that no list names stays as it is while cells move at
other entries and the segmenters settle. -/

namespace Sys2Proof
namespace Machine

/-- The entry at an index has the stream and the publish fields given, has ended, and nothing names it. -/
structure EndedAt (i stream : Nat) (p : PublishEntry) (s : State) : Prop where
  indexes : (s.table.map (·.index)).Nodup
  streams : (s.table.map (·.stream)).Nodup
  entry : ∃ e, s.entryAt i = some e ∧ e.stream = stream ∧ e.role = .publish p
  stopped : p.segmenter = .stopped
  queues : p.sendQueue = [] ∧ p.replayQueue = []
  claim : p.claim ≠ .closing
  forgets : s.forgets i stream

/-- What the next lemma needs of an update of the table: it keeps keys, and the entry at the index. -/
theorem EndedAt.ofTable {i stream : Nat} {p : PublishEntry} {s t : State} (h : EndedAt i stream p s)
    (k : t.table.map Entry.key = s.table.map Entry.key) (e : t.entryAt i = s.entryAt i)
    (f : t.forgets i stream) : EndedAt i stream p t where
  indexes := by
    have := congrArg (List.map Prod.fst) k
    simp only [List.map_map] at this
    exact (show t.table.map (·.index) = s.table.map (·.index) from this) ▸ h.indexes
  streams := by
    have := congrArg (List.map fun v => v.2.2.1) k
    simp only [List.map_map] at this
    exact (show t.table.map (·.stream) = s.table.map (·.stream) from this) ▸ h.streams
  entry := e ▸ h.entry
  stopped := h.stopped
  queues := h.queues
  claim := h.claim
  forgets := f

/-- Updating the publish fields of the entry at an index keeps every key. -/
theorem modifyPublish_keys (s : State) (i : Nat) (f : PublishEntry → PublishEntry) :
    (s.modifyPublish i f).table.map Entry.key = s.table.map Entry.key := (CellFrame.modifyPublish s i f).keys

/-- An update that does not change the ended entry's fields keeps it. -/
theorem EndedAt.modifyPublish {i stream : Nat} {p : PublishEntry} {s : State} (h : EndedAt i stream p s) (j : Nat)
    (f : PublishEntry → PublishEntry) (hf : j = i → f p = p) : EndedAt i stream p (s.modifyPublish j f) := by
  refine h.ofTable (modifyPublish_keys s j f) ?_ h.forgets
  rw [modifyPublish_entryAt]
  obtain ⟨e, he, hs, hr⟩ := h.entry
  rw [he, Option.map_some]
  split
  · rename_i hj
    rw [entryAt_index he] at hj
    cases e with
    | mk a b c d r =>
      cases hr
      simp only [Role.mapPublish, hf hj.symm]
  · rfl

theorem EndedAt.checkClosing {i stream : Nat} {p : PublishEntry} {s : State} (h : EndedAt i stream p s) (j : Nat) :
    EndedAt i stream p (s.checkClosing j) := h.modifyPublish j _ fun _ => if_neg h.claim

theorem EndedAt.freeCell {i stream : Nat} {p : PublishEntry} {s : State} (h : EndedAt i stream p s) (c : Nat) :
    EndedAt i stream p (s.freeCell c) := ⟨h.1, h.2, h.3, h.4, h.5, h.6, h.7⟩

theorem EndedAt.joinSend {i stream : Nat} {p : PublishEntry} {s : State} (h : EndedAt i stream p s) {j : Nat}
    (hj : j ≠ i) (c : Nat) : EndedAt i stream p (s.joinSend j c) := by
  unfold State.joinSend
  split
  · exact h.freeCell c
  · split
    · exact h.modifyPublish j _ fun e => absurd e hj
    · exact h.freeCell c

theorem EndedAt.releaseCell {i stream : Nat} {p : PublishEntry} {s : State} (h : EndedAt i stream p s) (c : Nat) :
    EndedAt i stream p (s.releaseCell c) := by
  unfold State.releaseCell
  split
  · rename_i j hj
    have hw : j ∈ s.pool.waiting := by simpa using List.find?_some hj
    have hji : j ≠ i := fun e => h.forgets.2.1 (e ▸ hw)
    refine EndedAt.joinSend ?_ hji c
    obtain ⟨a, b, d, e, f⟩ := h.forgets
    exact ⟨h.1, h.2, h.3, h.4, h.5, h.6, a, fun hm => b (List.mem_of_mem_erase hm), d, e, f⟩
  · exact h.freeCell c

theorem EndedAt.releaseCells {i stream : Nat} {p : PublishEntry} {s : State} (h : EndedAt i stream p s)
    (l : List Nat) : EndedAt i stream p (s.releaseCells l) := by
  unfold State.releaseCells
  induction l generalizing s with
  | nil => exact h
  | cons c rest ih => exact ih (h.releaseCell c)

/-- An addition to the GONE list for another stream names no entry of this one. -/
theorem goneAdded_streams (list : List GoneEntry) (n stream : Nat) (q : Seq) :
    ∀ g ∈ goneAdded list n stream q, g.stream = stream ∨ ∃ h ∈ list, h.stream = g.stream := by
  intro g hg
  unfold goneAdded at hg
  dsimp only at hg
  split at hg
  · exact .inr ⟨g, hg, rfl⟩
  · split at hg
    · unfold combineGone at hg
      dsimp only at hg
      split at hg
      · exact .inr ⟨g, hg, rfl⟩
      · obtain ⟨g', hg', rfl⟩ := List.mem_map.1 hg
        refine .inr ⟨g', List.mem_of_mem_filter hg', ?_⟩
        split <;> rfl
    · split at hg
      · obtain ⟨g', hg', rfl⟩ := List.mem_map.1 hg
        refine .inr ⟨g', hg', ?_⟩
        split <;> rfl
      · split at hg
        · obtain ⟨g', hg', rfl⟩ := List.mem_map.1 hg
          refine .inr ⟨g', hg', ?_⟩
          split <;> rfl
        · split at hg
          · rcases List.mem_append.1 hg with hg | hg
            · exact .inr ⟨g, hg, rfl⟩
            · rw [List.mem_singleton] at hg
              exact .inl (by rw [hg])
          · exact .inr ⟨g, hg, rfl⟩

theorem EndedAt.unlistResend {i stream : Nat} {p : PublishEntry} {s : State} (h : EndedAt i stream p s) (j n : Nat)
    (q : Seq) (hn : n ≠ stream) : EndedAt i stream p (s.unlistResend j n q) := by
  unfold State.unlistResend
  split
  · refine EndedAt.checkClosing ?_ j
    obtain ⟨a, b, d, e, f⟩ := h.forgets
    refine ⟨h.1, h.2, h.3, h.4, h.5, h.6, a, b, fun r hr => d r (List.mem_of_mem_filter hr), ?_, f⟩
    intro g hg
    rcases goneAdded_streams _ _ _ _ g hg with k | ⟨g', hg', k⟩
    · rw [k]
      exact hn
    · rw [← k]
      exact e g' hg'
  · exact h

/-- An eviction or release of a replay cell of another entry. -/
theorem EndedAt.leaveReplay {i stream : Nat} {p : PublishEntry} {s : State} (h : EndedAt i stream p s) (a : AgedCell)
    (ha : a.index ≠ i) : EndedAt i stream p (s.leaveReplay a) := by
  have step : EndedAt i stream p
      { s.modifyPublish a.index fun p => { p with replayQueue := p.replayQueue.filter (·.cell != a.cell) } with
        pool := { s.pool with aged := s.pool.aged.filter (·.cell != a.cell) } } := by
    have k := h.modifyPublish a.index
      (fun p => { p with replayQueue := p.replayQueue.filter (·.cell != a.cell) }) fun e => absurd e ha
    obtain ⟨b, c, d, e, f⟩ := k.forgets
    exact ⟨k.1, k.2, k.3, k.4, k.5, k.6, fun x hx => b x (List.mem_of_mem_filter hx), c, d, e, f⟩
  unfold State.leaveReplay
  dsimp only
  split
  · rename_i n q hq
    refine EndedAt.unlistResend step _ _ _ ?_
    unfold State.replayName at hq
    cases he : s.entryAt a.index with
    | none => rw [he] at hq; cases hq
    | some e =>
      rw [he, Option.bind_some] at hq
      have hes : e.stream = n := by
        cases hp : e.publish? with
        | none => rw [hp] at hq; cases hq
        | some v =>
          rw [hp, Option.bind_some] at hq
          cases hc : v.replayQueue.find? (·.cell == a.cell) with
          | none => rw [hc] at hq; cases hq
          | some c => rw [hc] at hq; cases hq; rfl
      obtain ⟨e', he', hs', _⟩ := h.entry
      intro e0
      have hm := List.mem_of_find?_eq_some he
      have hm' := List.mem_of_find?_eq_some he'
      have := List.inj_on_of_nodup_map h.streams hm hm' (by rw [hes, e0, hs'])
      rw [← entryAt_index he, this, entryAt_index he'] at ha
      exact ha rfl
  · exact step

theorem EndedAt.events {i stream : Nat} {p : PublishEntry} {s : State} (h : EndedAt i stream p s) (e : EventUnit) :
    EndedAt i stream p { s with events := e } := ⟨h.1, h.2, h.3, h.4, h.5, h.6, h.7⟩

theorem EndedAt.bump {i stream : Nat} {p : PublishEntry} {s : State} (h : EndedAt i stream p s) (w : Counter) :
    EndedAt i stream p (s.bump w) := ⟨h.1, h.2, h.3, h.4, h.5, h.6, h.7⟩

theorem EndedAt.request {i stream : Nat} {p : PublishEntry} {s : State} (h : EndedAt i stream p s) (c : PortClass)
    (r : Request) (hr : r.index? ≠ some i) : EndedAt i stream p (s.request c r) := by
  obtain ⟨a, b, d, e, f⟩ := h.forgets
  refine ⟨?_, ?_, ?_, h.4, h.5, h.6, ?_⟩
  · rw [request_table]; exact h.1
  · rw [request_table]; exact h.2
  · unfold State.entryAt; rw [request_table]; exact h.3
  · unfold State.forgets
    rw [request_pool, request_lists]
    refine ⟨a, b, d, e, ?_⟩
    intro x hx
    have : x ∈ s.port.firstClass ++ s.port.secondClass ++ s.port.thirdClass ∨ x = r := by
      cases c <;> simp only [State.request, List.mem_append, List.mem_singleton] at hx ⊢ <;> tauto
    rcases this with k | k
    · exact f x k
    · rw [k]; exact hr

theorem EndedAt.emit {i stream : Nat} {p : PublishEntry} {s : State} (h : EndedAt i stream p s) (ev : Event) :
    EndedAt i stream p (s.emit ev) := by
  have place (t : State) (k : EndedAt i stream p t) (ev : Event) : EndedAt i stream p (t.placeEvent ev) := by
    unfold State.placeEvent
    dsimp only
    split
    · exact (k.events _).request _ _ nofun
    · exact ⟨k.1, k.2, k.3, k.4, k.5, k.6, k.7⟩
  have deliver (t : State) (k : EndedAt i stream p t) (ev : Event) : EndedAt i stream p (t.deliverEvent ev) := by
    unfold State.deliverEvent
    split
    · exact place t k ev
    · split
      · exact k.events _
      · exact (k.bump _).events _
  unfold State.emit
  split
  · exact deliver _ (h.events _) _
  · exact h

theorem EndedAt.claimCell {i stream : Nat} {p : PublishEntry} {s t : State} (h : EndedAt i stream p s) {c : Nat}
    (hc : s.claimCell = some (c, t)) : EndedAt i stream p t := by
  unfold State.claimCell at hc
  split at hc
  · cases hc
    exact ⟨h.1, h.2, h.3, h.4, h.5, h.6, h.7⟩
  · split at hc
    · rename_i a rest ha
      cases hc
      exact (h.leaveReplay a (h.forgets.1 a (by rw [ha]; exact List.mem_cons_self))).bump _
    · cases hc

theorem EndedAt.segmenterClaim {i stream : Nat} {p : PublishEntry} {s : State} (h : EndedAt i stream p s) {j : Nat}
    (hj : j ≠ i) : EndedAt i stream p (s.segmenterClaim j) := by
  unfold State.segmenterClaim
  split
  · rename_i c t hc
    exact (h.claimCell hc).joinSend hj c
  · refine EndedAt.modifyPublish ?_ j _ fun e => absurd e hj
    obtain ⟨a, b, d, e, f⟩ := h.forgets
    refine ⟨h.1, h.2, h.3, h.4, h.5, h.6, a, ?_, d, e, f⟩
    intro hm
    rcases List.mem_append.1 hm with k | k
    · exact b k
    · exact hj (List.mem_singleton.1 k).symm

/-- The steps that end another publish entry. -/
theorem EndedAt.endOther {i stream : Nat} {p : PublishEntry} {s : State} (h : EndedAt i stream p s) {j : Nat}
    (hj : j ≠ i) (n : Nat) (f : PublishEntry → PublishEntry) (l : List Nat) (ev : Event) :
    EndedAt i stream p (((((s.withdrawOf j).clearLists j n).modifyPublish j f).releaseCells l).emit ev) := by
  refine ((EndedAt.modifyPublish ?_ j f fun e => absurd e hj).releaseCells l).emit ev
  obtain ⟨a, b, d, e, k⟩ := h.forgets
  refine ⟨h.1, h.2, h.3, h.4, h.5, h.6, fun x hx => a x (List.mem_of_mem_filter hx),
    fun hm => b (List.mem_of_mem_filter hm), fun r hr => d r (List.mem_of_mem_filter hr),
    fun g hg => e g (List.mem_of_mem_filter hg), ?_⟩
  intro r hr
  refine k r ?_
  simp only [State.clearLists, State.withdrawOf, HostPort.withdraw, List.mem_append, List.mem_filter] at hr ⊢
  tauto

theorem EndedAt.requestPayload {i stream : Nat} {p : PublishEntry} {s : State} (h : EndedAt i stream p s) {e : Entry}
    (he : s.entryAt e.index = some e) (hj : e.index ≠ i) : EndedAt i stream p (s.requestPayload e) := by
  unfold State.requestPayload
  split
  · rename_i v a d hr hc
    split
    · dsimp only
      split
      · refine h.request _ _ ?_
        simp only [Request.index?, ne_eq, Option.some.injEq]
        exact hj
      · unfold State.faultEntry
        rw [he]
        dsimp only
        rw [hr]
        exact h.endOther hj _ _ _ _
    · exact h
  · exact h

theorem EndedAt.settleRounds {i stream : Nat} {p : PublishEntry} (n : Nat) {s : State} (h : EndedAt i stream p s) :
    EndedAt i stream p (Machine.settleRounds n s) := by
  induction n generalizing s with
  | zero => exact h
  | succ n ih =>
    unfold Machine.settleRounds
    split
    · exact h
    · rename_i e he
      have hm := List.mem_of_find?_eq_some he
      have hp := List.find?_some he
      have hat := CellFrame.entryAt_of_mem h.indexes hm
      have hj : e.index ≠ i := by
        intro hj
        obtain ⟨e', he', _, hr⟩ := h.entry
        rw [← hj, hat] at he'
        cases he'
        unfold Entry.wantsClaim State.wantsRead at hp
        rw [hr] at hp
        simp only [h.stopped] at hp
        split at hp
        · rename_i hv _
          cases hv
          simp [h.stopped] at hp
        · simp at hp
      refine ih ?_
      split
      · exact h.segmenterClaim hj
      · exact h.requestPayload hat hj

/-- An ended entry that nothing names is the same after the settling that follows a command. -/
theorem EndedAt.finish {i stream : Nat} {p : PublishEntry} {s : State} (h : EndedAt i stream p s) :
    EndedAt i stream p s.finish := by
  have k := h.settleRounds Config.poolCells
  exact ⟨k.1, k.2, k.3, k.4, k.5, k.6, k.7⟩

/-- So it is after what follows a clean frame at the table. -/
theorem EndedAt.cleanVerdict {i stream : Nat} {p : PublishEntry} {s : State} (h : EndedAt i stream p s) (x : Nat) :
    EndedAt i stream p (s.cleanVerdict x) := by
  unfold State.cleanVerdict
  dsimp only
  refine EndedAt.finish ?_
  have k : EndedAt i stream p ((s.bump .cleanFrames).anchorNow x) := ⟨h.1, h.2, h.3, h.4, h.5, h.6, h.7⟩
  split
  · unfold State.reportState
    refine EndedAt.emit ?_ _
    exact ⟨k.1, k.2, k.3, k.4, k.5, k.6, k.7⟩
  · exact k

/-- The publish fields of an ended entry. -/
theorem EndedAt.publishAt {i stream : Nat} {p : PublishEntry} {s : State} (h : EndedAt i stream p s) :
    s.publishAt i = some p := by
  obtain ⟨e, he, _, hr⟩ := h.entry
  unfold State.publishAt Entry.publish?
  rw [he, Option.bind_some, hr]

/-- A publish entry whose publishing ends is ended, and nothing names it any more (R64, R72). -/
theorem EndedAt.ofEnded {s : State} (hi : (s.table.map (·.index)).Nodup) (hs : (s.table.map (·.stream)).Nodup)
    {i : Nat} {e : Entry} {p : PublishEntry} (he : s.entryAt i = some e) (hr : e.role = .publish p)
    (claim : ClaimState) (y : Bool) (hc : claim ≠ .closing) (l : List Nat) (ev : Event) :
    EndedAt i e.stream (p.ended claim y)
      (((((s.withdrawOf i).clearLists i e.stream).modifyPublish i fun p => p.ended claim y).releaseCells l).emit
        ev) := by
  refine EndedAt.emit (EndedAt.releaseCells ?_ l) ev
  have keys := modifyPublish_keys ((s.withdrawOf i).clearLists i e.stream) i fun p => p.ended claim y
  have k1 := congrArg (List.map Prod.fst) keys
  have k2 := congrArg (List.map fun v => v.2.2.1) keys
  simp only [List.map_map] at k1 k2
  refine ⟨?_, ?_, ?_, rfl, ⟨rfl, rfl⟩, hc, ?_⟩
  · exact (show _ = s.table.map (·.index) from k1) ▸ hi
  · exact (show _ = s.table.map (·.stream) from k2) ▸ hs
  · refine ⟨{ e with role := .publish (p.ended claim y) }, ?_, rfl, rfl⟩
    rw [modifyPublish_entryAt]
    rw [show State.entryAt ((s.withdrawOf i).clearLists i e.stream) i = s.entryAt i from rfl, he, Option.map_some,
      if_pos (entryAt_index he), hr]
    rfl
  · refine ⟨?_, ?_, ?_, ?_, ?_⟩
    · intro a ha
      simpa using (List.mem_filter.1 ha).2
    · intro hm
      simpa using (List.mem_filter.1 hm).2
    · intro r hr
      simpa using (List.mem_filter.1 hr).2
    · intro g hg
      simpa using (List.mem_filter.1 hg).2
    · intro r hr
      simp only [modifyPublish_port, State.clearLists, State.withdrawOf, HostPort.withdraw, List.mem_append,
        List.mem_filter] at hr
      rcases hr with (⟨_, k⟩ | ⟨_, k⟩) | ⟨_, k⟩ <;> simpa using k

end Machine
end Sys2Proof
end

