-- ==== Sys2Proof/Laws/Heard.lean ====
section
/-! SUPPORT. What the operations on the bit times heard can do: the stuck count (R15), the read-back (R2), a frame's
valid cells and its end mark (R9), the spoil (R13). -/

namespace Sys2Proof
namespace Machine

/-! ### The stuck count (R15) -/

@[simp] theorem stuckAfter_nil (count : Nat) : stuckAfter count [] = count := rfl

@[simp] theorem stuckAfter_cons (count : Nat) (r : LineReading) (heard : List LineReading) :
    stuckAfter count (r :: heard) = stuckAfter (stuckStep count r) heard := rfl

theorem stuckAfter_append (count : Nat) (first second : List LineReading) :
    stuckAfter count (first ++ second) = stuckAfter (stuckAfter count first) second := by
  simp [stuckAfter]

theorem stuckStep_le (count : Nat) (r : LineReading) : stuckStep count r ≤ Config.stuckLimit := by
  unfold stuckStep
  split
  · exact Nat.min_le_left _ _
  all_goals exact Nat.zero_le _

/-- The count never passes 4096. -/
theorem stuckAfter_le (heard : List LineReading) : ∀ count, count ≤ Config.stuckLimit →
    stuckAfter count heard ≤ Config.stuckLimit := by
  induction heard with
  | nil => exact fun _ h => h
  | cons r rest ih => exact fun count _ => ih _ (stuckStep_le count r)

/-- Whatever the count was, a released bit time at the end leaves 0. -/
theorem stuckAfter_released (count : Nat) (heard : List LineReading) : stuckAfter count (heard ++ [none]) = 0 := by
  simp [stuckAfter_append, stuckStep]

/-! ### A line that turns out stuck (R16) -/

@[simp] theorem reachesStuck_nil (count : Nat) : reachesStuck count [] = false := rfl

@[simp] theorem reachesStuck_cons (count : Nat) (r : LineReading) (heard : List LineReading) :
    reachesStuck count (r :: heard) =
      (stuckStep count r == Config.stuckLimit || reachesStuck (stuckStep count r) heard) := rfl

theorem reachesStuck_append (first second : List LineReading) : ∀ count,
    reachesStuck count (first ++ second) =
      (reachesStuck count first || reachesStuck (stuckAfter count first) second) := by
  induction first with
  | nil => exact fun _ => rfl
  | cons r rest ih => exact fun count => by simp [ih, Bool.or_assoc]

/-- Bit times that leave the line unstuck leave the count below 4096. -/
theorem stuckAfter_lt (heard : List LineReading) : ∀ count, count < Config.stuckLimit →
    reachesStuck count heard = false → stuckAfter count heard < Config.stuckLimit := by
  induction heard with
  | nil => exact fun _ h _ => h
  | cons r rest ih =>
    intro count _ h
    simp only [reachesStuck_cons, Bool.or_eq_false_iff, beq_eq_false_iff_ne] at h
    exact ih _ (lt_of_le_of_ne (stuckStep_le count r) h.1) h.2

/-- Only a cell held at a level makes the line stuck, so a stuck line was driven. -/
theorem isSome_of_reachesStuck (heard : List LineReading) : ∀ count, reachesStuck count heard = true →
    heard.any Option.isSome = true := by
  induction heard with
  | nil => exact fun _ h => by cases h
  | cons r rest ih =>
    intro count h
    cases r with
    | some c => rfl
    | none => simpa using ih 0 (by simpa [stuckStep, Config.stuckLimit] using h)

/-! ### The read-back (R2) -/

/-- A frame read back as driven does not fail. -/
theorem readBackFails_self (driven : List LineCell) : readBackFails driven (driven.map some) = false := by
  induction driven with
  | nil => rfl
  | cons c rest ih => simp [readBackFails, ih]

/-- The read-back fails exactly where some bit time differs from the cell driven in it. -/
theorem readBackFails_iff (driven : List LineCell) : ∀ heard : List LineReading,
    readBackFails driven heard = true ↔ ∃ p ∈ driven.zip heard, p.2 ≠ some p.1 := by
  induction driven with
  | nil => simp [readBackFails]
  | cons c rest ih =>
    intro heard
    cases heard with
    | nil => simp [readBackFails]
    | cons r more =>
      by_cases h : r = some c
      · simp [readBackFails, h, ih]
      · simp [readBackFails, h]

/-! ### The verdict slot (R13) -/

@[simp] theorem slotSpoiled_spoiledSlot : slotSpoiled spoiledSlot = true := rfl

/-- Released bit times alone are no spoil. -/
theorem slotSpoiled_released (n : Nat) : slotSpoiled (List.replicate n none) = false := by
  simp [slotSpoiled]

/-! ### Following a frame (R9) -/

@[simp] theorem followFrame_zero (n : Nat) (heard : List LineReading) :
    followFrame n (some .zero :: heard) = (followFrame (n + 1) heard).after .zero := rfl

@[simp] theorem followFrame_one (n : Nat) (heard : List LineReading) :
    followFrame n (some .one :: heard) = (followFrame (n + 1) heard).after .one := rfl

@[simp] theorem followFrame_released (n : Nat) (heard : List LineReading) :
    followFrame n (none :: heard) = .broken := rfl

/-- The end mark ends the frame, whatever is heard after it. -/
@[simp] theorem followFrame_endMark (n : Nat) (heard : List LineReading) :
    followFrame n (some (.held .low) :: some (.held .high) :: heard) = .ended [] := rfl

/-- The start mark alone is recognised as one. -/
theorem activityOf_startMark : activityOf (startMark.map some) = some .startMark := rfl

end Machine
end Sys2Proof
end

