-- ==== Sys2Proof/Laws/PerInstr.lean ====
section
/-! SUPPORT. One fact for each command: its check is exactly the operand range the manual gives it. -/

namespace Sys2Proof

/-- A read that ends OK brings between `least` and `most` bytes. -/
def ReadCompletion.bringsBytes (c : ReadCompletion) (least most : Nat) : Prop :=
  ∀ bytes, c = .ok bytes → least ≤ bytes.length ∧ bytes.length ≤ most

/-- The operands are ones the command can carry: a code outside 1 to 10 (R167), an access of 1, 2 or 4 bytes (R165;
log 32), bit times that make an activity, end a frame, the station's own after its start mark, or break one (R9), the
four of a verdict slot (R3), a table index 0 to 31 (R53), a descriptor of 16 bytes (R181), a payload of 1 to 240 (R91).
The other operands have no value outside their type. -/
def Instr.operandsInRange : Instr → Prop
  | .unknownCommand code _ => code = 0 ∨ 11 ≤ code.toNat
  | .stationRead _ w | .registerWrite _ w _ _ => w = 1 ∨ w = 2 ∨ w = 4
  | .activityBegins heard => ∃ a, Machine.activityOf heard = some a
  | .urgentSlotStart f | .rotationSlotStart f | .holdOffExpiry f =>
    ∀ heard, f = .forestalled heard → ∃ a, Machine.activityOf heard = some a
  | .frameEnd heard =>
    ∃ cells, Machine.followFrame 0 heard = .ended cells ∨ Machine.followFrame 0 (heard.drop 8) = .ended cells
  | .spoiledVerdict heard | .attemptVerdict heard => heard.length = 4
  | .frameBecomesBroken heard => Machine.followFrame 0 heard = .broken
  | .claimSettleExpiry i | .repairDelayExpiry i | .repairWaitExpiry i => i < 32
  | .headDescriptorReadEnd c | .lookAheadReadEnd c | .lastLookEnd c => c.bringsBytes 16 16
  | .txPayloadReadEnd c => c.bringsBytes 1 240
  | .powerOnReset _ _ _ | .attach _ | .detach | .rejoin | .resetStation | .openPublish _ | .openSubscribe _
  | .resume _ | .close _ | .abort _ | .info _ | .eventRingConfigWrite _ _ | .eventConsumerWrite _
  | .intStatusWrite _ | .stagingClaim _ | .cleanFaultyFrame | .cleanData | .cleanRepair | .cleanGone
  | .cleanClaim | .cleanDispute | .cleanYield | .brokenFrameEnd | .holdActivityEnd | .stuckCondition _
  | .stuckEnd _ | .stuckWaitEnd | .windowPassesEmpty | .attemptCollided _ | .replayAgeLimit
  | .coalescingTimerExpiry | .transferGrant | .txWriteBackEnd _ | .rxPayloadWriteEnd _ | .rxWriteBackEnd _
  | .eventWriteEnd _ => True

/-- The check of a first cell is that what forestalls it is an activity. -/
theorem FirstCell.wellFormed_iff (f : FirstCell) :
    f.wellFormed = true ↔ ∀ heard, f = .forestalled heard → ∃ a, Machine.activityOf heard = some a := by
  cases f <;> simp [FirstCell.wellFormed, leavesRest, Option.isSome_iff_exists]

namespace Laws.OperandRange

/-- The check accepts exactly the operands in range. -/
def Statement (i : Instr) : Prop := i.wellFormed = true ↔ i.operandsInRange

theorem activityBegins_iff (heard : List LineReading) :
    leavesRest heard = true ↔ ∃ a, Machine.activityOf heard = some a :=
  Option.isSome_iff_exists

theorem endsFrame_iff (heard : List LineReading) :
    endsFrame heard = true ↔
      ∃ cells, Machine.followFrame 0 heard = .ended cells ∨ Machine.followFrame 0 (heard.drop 8) = .ended cells := by
  unfold endsFrame
  rw [show Machine.startMark.length = 8 from rfl]
  cases Machine.followFrame 0 heard <;> cases Machine.followFrame 0 (heard.drop 8) <;> simp

theorem powerOnReset (n k : BitVec 6) (r : BitVec 2) : Statement (.powerOnReset n k r) :=
  iff_of_true rfl trivial

theorem attach (d : Bool) : Statement (.attach d) :=
  iff_of_true rfl trivial

theorem detach : Statement .detach :=
  iff_of_true rfl trivial

theorem rejoin : Statement .rejoin :=
  iff_of_true rfl trivial

theorem resetStation : Statement .resetStation :=
  iff_of_true rfl trivial

theorem openPublish (n : BitVec 16) : Statement (.openPublish n) :=
  iff_of_true rfl trivial

theorem openSubscribe (n : BitVec 16) : Statement (.openSubscribe n) :=
  iff_of_true rfl trivial

theorem resume (n : BitVec 16) : Statement (.resume n) :=
  iff_of_true rfl trivial

theorem close (n : BitVec 16) : Statement (.close n) :=
  iff_of_true rfl trivial

theorem abort (n : BitVec 16) : Statement (.abort n) :=
  iff_of_true rfl trivial

theorem info (n : BitVec 16) : Statement (.info n) :=
  iff_of_true rfl trivial

theorem unknownCommand (code n : BitVec 16) : Statement (.unknownCommand code n) := by
  simp [Statement, Instr.operandsInRange, Instr.wellFormed, Nat.lt_iff_add_one_le]

theorem stationRead (lane : BitVec 2) (w : Nat) : Statement (.stationRead lane w) := by
  simp [Statement, Instr.operandsInRange, Instr.wellFormed, isAccessWidth, or_assoc]

theorem eventRingConfigWrite (reg : RingRegister) (v : Word) : Statement (.eventRingConfigWrite reg v) :=
  iff_of_true rfl trivial

theorem eventConsumerWrite (v : Word) : Statement (.eventConsumerWrite v) :=
  iff_of_true rfl trivial

theorem intStatusWrite (v : Word) : Statement (.intStatusWrite v) :=
  iff_of_true rfl trivial

theorem registerWrite (o : BitVec 7) (w : Nat) (v : Word) (d : Bool) : Statement (.registerWrite o w v d) := by
  simp [Statement, Instr.operandsInRange, Instr.wellFormed, isAccessWidth, or_assoc]

theorem activityBegins (heard : List LineReading) : Statement (.activityBegins heard) := by
  exact activityBegins_iff heard

theorem stagingClaim (n : BitVec 11) : Statement (.stagingClaim n) :=
  iff_of_true rfl trivial

theorem frameEnd (heard : List LineReading) : Statement (.frameEnd heard) := by
  exact endsFrame_iff heard

theorem spoiledVerdict (heard : List LineReading) : Statement (.spoiledVerdict heard) := by
  exact beq_iff_eq

theorem cleanFaultyFrame : Statement .cleanFaultyFrame :=
  iff_of_true rfl trivial

theorem cleanData : Statement .cleanData :=
  iff_of_true rfl trivial

theorem cleanRepair : Statement .cleanRepair :=
  iff_of_true rfl trivial

theorem cleanGone : Statement .cleanGone :=
  iff_of_true rfl trivial

theorem cleanClaim : Statement .cleanClaim :=
  iff_of_true rfl trivial

theorem cleanDispute : Statement .cleanDispute :=
  iff_of_true rfl trivial

theorem cleanYield : Statement .cleanYield :=
  iff_of_true rfl trivial

theorem brokenFrameEnd : Statement .brokenFrameEnd :=
  iff_of_true rfl trivial

theorem holdActivityEnd : Statement .holdActivityEnd :=
  iff_of_true rfl trivial

theorem stuckCondition (heard : List LineReading) : Statement (.stuckCondition heard) :=
  iff_of_true rfl trivial

theorem stuckEnd (v : Bool) : Statement (.stuckEnd v) :=
  iff_of_true rfl trivial

theorem stuckWaitEnd : Statement .stuckWaitEnd :=
  iff_of_true rfl trivial

theorem windowPassesEmpty : Statement .windowPassesEmpty :=
  iff_of_true rfl trivial

theorem urgentSlotStart (f : FirstCell) : Statement (.urgentSlotStart f) := by
  exact f.wellFormed_iff

theorem rotationSlotStart (f : FirstCell) : Statement (.rotationSlotStart f) := by
  exact f.wellFormed_iff

theorem holdOffExpiry (f : FirstCell) : Statement (.holdOffExpiry f) := by
  exact f.wellFormed_iff

theorem attemptCollided (heard : List LineReading) : Statement (.attemptCollided heard) :=
  iff_of_true rfl trivial

theorem attemptVerdict (heard : List LineReading) : Statement (.attemptVerdict heard) := by
  exact beq_iff_eq

theorem claimSettleExpiry (i : Nat) : Statement (.claimSettleExpiry i) := by
  exact decide_eq_true_iff

theorem repairDelayExpiry (i : Nat) : Statement (.repairDelayExpiry i) := by
  exact decide_eq_true_iff

theorem repairWaitExpiry (i : Nat) : Statement (.repairWaitExpiry i) := by
  exact decide_eq_true_iff

theorem replayAgeLimit : Statement .replayAgeLimit :=
  iff_of_true rfl trivial

theorem coalescingTimerExpiry : Statement .coalescingTimerExpiry :=
  iff_of_true rfl trivial

theorem transferGrant : Statement .transferGrant :=
  iff_of_true rfl trivial

theorem headDescriptorReadEnd (c : ReadCompletion) : Statement (.headDescriptorReadEnd c) := by
  cases c <;> simp [Statement, Instr.operandsInRange, Instr.wellFormed, ReadCompletion.isDescriptor, ReadCompletion.bringsBytes]
  omega

theorem lookAheadReadEnd (c : ReadCompletion) : Statement (.lookAheadReadEnd c) := by
  cases c <;> simp [Statement, Instr.operandsInRange, Instr.wellFormed, ReadCompletion.isDescriptor, ReadCompletion.bringsBytes]
  omega

theorem lastLookEnd (c : ReadCompletion) : Statement (.lastLookEnd c) := by
  cases c <;> simp [Statement, Instr.operandsInRange, Instr.wellFormed, ReadCompletion.isDescriptor, ReadCompletion.bringsBytes]
  omega

theorem txPayloadReadEnd (c : ReadCompletion) : Statement (.txPayloadReadEnd c) := by
  cases c <;> simp [Statement, Instr.operandsInRange, Instr.wellFormed, ReadCompletion.isPayload, ReadCompletion.bringsBytes, Config.segmentBytes]
  grind

theorem txWriteBackEnd (c : Completion) : Statement (.txWriteBackEnd c) :=
  iff_of_true rfl trivial

theorem rxPayloadWriteEnd (c : Completion) : Statement (.rxPayloadWriteEnd c) :=
  iff_of_true rfl trivial

theorem rxWriteBackEnd (c : Completion) : Statement (.rxWriteBackEnd c) :=
  iff_of_true rfl trivial

theorem eventWriteEnd (c : Completion) : Statement (.eventWriteEnd c) :=
  iff_of_true rfl trivial

theorem frameBecomesBroken (heard : List LineReading) : Statement (.frameBecomesBroken heard) := by
  exact beq_iff_eq

end Laws.OperandRange
end Sys2Proof
end

