-- ==== Sys2Proof/Laws/Reports.lean ====
section
/-! SUPPORT. What `State.reports` keeps: emitting depends on the event state and the fence alone, so the events that an
operation asks for are those of its parts, in order. -/

namespace Sys2Proof
namespace Machine

theorem placeEvent_fence (s : State) (ev : Event) : (s.placeEvent ev).fence = s.fence := by
  simp only [State.placeEvent]
  split <;> rfl

theorem deliverEvent_fence (s : State) (ev : Event) : (s.deliverEvent ev).fence = s.fence := by
  unfold State.deliverEvent
  split
  · exact placeEvent_fence s ev
  · split <;> rfl

theorem emit_fence (s : State) (ev : Event) : (s.emit ev).fence = s.fence := by
  unfold State.emit
  split
  · exact deliverEvent_fence _ _
  · rfl

/-- What giving an event its record changes. -/
theorem placeEvent_eventState (s : State) (ev : Event) :
    (s.placeEvent ev).eventState =
      if s.fence.contains (s.events.config.recordAddress s.events.writeIndex) 32 then
        ({ s.events with writeIndex := (s.events.writeIndex + 1) % s.events.config.size },
          s.port.secondClass.filter Request.isEventWrite ++ [.eventWrite s.events.writeIndex ev],
          s.counters.eventsLost)
      else
        ({ s.events with hostFault := true, writesStopped := true, writeIndex := s.events.writeIndex },
          s.port.secondClass.filter Request.isEventWrite, s.counters.eventsLost + 1) := by
  simp only [State.placeEvent]
  split
  · simp [State.eventState, State.request, Request.isEventWrite]
  · rfl

/-- What delivering a numbered event changes. -/
theorem deliverEvent_eventState (s : State) (ev : Event) :
    (s.deliverEvent ev).eventState =
      if s.events.backlog.isEmpty && !s.events.writesStopped && s.events.hasRoom then (s.placeEvent ev).eventState
      else if s.events.backlog.length < 4 then
        ({ s.events with backlog := s.events.backlog ++ [ev] }, s.port.secondClass.filter Request.isEventWrite,
          s.counters.eventsLost)
      else
        ({ s.events with overflow := true }, s.port.secondClass.filter Request.isEventWrite,
          s.counters.eventsLost + 1) := by
  unfold State.deliverEvent
  split
  · rfl
  · split
    · rw [if_pos (by assumption)]
      rfl
    · rw [if_neg (by assumption)]
      rfl

/-- Two states with one event state and one fence emit alike. -/
theorem emit_eventState {s t : State} (h : s.eventState = t.eventState) (hf : s.fence = t.fence) (ev : Event) :
    (s.emit ev).eventState = (t.emit ev).eventState := by
  obtain ⟨he, h'⟩ := Prod.mk.inj h
  obtain ⟨hp, hc⟩ := Prod.mk.inj h'
  unfold State.emit
  rw [he]
  split
  · rw [deliverEvent_eventState, deliverEvent_eventState, placeEvent_eventState, placeEvent_eventState]
    simp only [hp, hc, hf]
  · exact h

/-- Asking for a list of events depends on the event state and the fence alone. -/
theorem State.emitAll_eventState (asked : List Event) {s t : State} (h : s.eventState = t.eventState)
    (hf : s.fence = t.fence) : (asked.foldl State.emit s).eventState = (asked.foldl State.emit t).eventState := by
  induction asked generalizing s t with
  | nil => exact h
  | cons ev rest ih => exact ih (emit_eventState h hf ev) (by rw [emit_fence, emit_fence, hf])

theorem State.reports_nil {s t : State} (h : t.eventState = s.eventState) : s.reports t [] := h

theorem State.reports_refl (s : State) : s.reports s [] := rfl

theorem State.reports_emit (s : State) (ev : Event) : s.reports (s.emit ev) [ev] := rfl

theorem State.reports_congr {s s' t t' : State} {asked : List Event} (hs : s.eventState = s'.eventState)
    (hf : s.fence = s'.fence) (ht : t'.eventState = t.eventState) (h : s.reports t asked) : s'.reports t' asked :=
  ht.trans (h.trans (State.emitAll_eventState asked hs hf))

theorem State.emitAll_fence (asked : List Event) (s : State) : (asked.foldl State.emit s).fence = s.fence := by
  induction asked generalizing s with
  | nil => rfl
  | cons ev rest ih => exact (ih _).trans (emit_fence s ev)

/-- The events of two operations, one after the other. -/
theorem State.reports_append {s t u : State} {first later : List Event} (hf : t.fence = s.fence) (h : s.reports t first)
    (k : t.reports u later) : s.reports u (first ++ later) := by
  unfold State.reports at *
  rw [List.foldl_append, k]
  exact State.emitAll_eventState later h (by rw [hf, State.emitAll_fence])

/-- An operation that asks for nothing before an emission. -/
theorem State.reports_emit_after {s t : State} {asked : List Event} (hf : t.fence = s.fence) (h : s.reports t asked)
    (ev : Event) : s.reports (t.emit ev) (asked ++ [ev]) :=
  State.reports_append hf h (State.reports_emit t ev)

end Machine
end Sys2Proof
end

