-- ==== Sys2Proof/Laws/Placing.lean ====
section
/-! SUPPORT. What placing does at one subscribe entry whose new descriptor has just become current: what each round of
`placeRounds` does, and, put together, what `State.takesUp` says (R115, R117, R121, R138, R142). -/

namespace Sys2Proof
namespace Machine

/-- `t` is `s` with these requests more in the first class and another table, in which the entry at `i` is `f` and every
other entry is one of `s`. -/
structure AtEntry (s t : State) (i : Nat) (f : Entry) (requests : List Request) : Prop where
  eq : t = { s with table := t.table
                    port := { s.port with firstClass := s.port.firstClass ++ requests } }
  indexes : t.table.map (·.index) = s.table.map (·.index)
  entry : t.entryAt i = some f
  others : ∀ g ∈ t.table, g.index ≠ i → g ∈ s.table

namespace AtEntry

theorem refl {s : State} {i : Nat} {f : Entry} (h : s.entryAt i = some f) : AtEntry s s i f [] :=
  ⟨by simp, rfl, h, fun _ hg _ => hg⟩

theorem fence {s t : State} {i : Nat} {f : Entry} {l : List Request} (h : AtEntry s t i f l) : t.fence = s.fence := by
  rw [h.eq]

theorem port {s t : State} {i : Nat} {f : Entry} {l : List Request} (h : AtEntry s t i f l) :
    t.port = { s.port with firstClass := s.port.firstClass ++ l } := congrArg State.port h.eq

theorem line {s t : State} {i : Nat} {f : Entry} {l : List Request} (h : AtEntry s t i f l) : t.line = s.line := by
  rw [h.eq]

theorem pool {s t : State} {i : Nat} {f : Entry} {l : List Request} (h : AtEntry s t i f l) : t.pool = s.pool := by
  rw [h.eq]

theorem counters {s t : State} {i : Nat} {f : Entry} {l : List Request} (h : AtEntry s t i f l) :
    t.counters = s.counters := by
  rw [h.eq]

theorem nodup {s t : State} {i : Nat} {f : Entry} {l : List Request} (h : AtEntry s t i f l)
    (hs : (s.table.map (·.index)).Nodup) : (t.table.map (·.index)).Nodup := by
  rw [h.indexes]
  exact hs

/-- Nothing is reported on the way. -/
theorem eventState {s t : State} {i : Nat} {f : Entry} {l : List Request} (h : AtEntry s t i f l) :
    t.eventState = s.eventState := by
  rw [h.eq]
  rfl

/-- An update of the entries at `i` leaves the others as they are. -/
theorem others_map {s t : State} {i : Nat} {f : Entry} {l : List Request} (h : AtEntry s t i f l)
    (change : Entry → Entry) (hc : ∀ e, (change e).index = e.index) :
    ∀ g ∈ t.table.map (fun e => if e.index = i then change e else e), g.index ≠ i → g ∈ s.table := by
  intro g hg hi
  obtain ⟨e, he, rfl⟩ := List.mem_map.1 hg
  split at hi
  · rename_i q
    rw [hc] at hi
    exact absurd q hi
  · rename_i q
    rw [if_neg q]
    exact h.others e he q

theorem modifySubscribe {s t : State} {i : Nat} {f : Entry} {l : List Request} {u : SubscribeEntry}
    (h : AtEntry s t i f l) (hr : f.role = .subscribe u) (change : SubscribeEntry → SubscribeEntry) :
    AtEntry s (t.modifySubscribe i change) i { f with role := .subscribe (change u) } l := by
  refine ⟨?_, by rw [modifySubscribe_indexes, h.indexes], ?_, h.others_map _ fun _ => rfl⟩
  · rw [State.modifySubscribe]
    conv => lhs; rw [h.eq]
  · rw [modifySubscribe_entryAt, h.entry]
    simp [entryAt_index h.entry, hr, Role.mapSubscribe]

theorem modifyPublish {s t : State} {i : Nat} {f : Entry} {l : List Request} {u : SubscribeEntry}
    (h : AtEntry s t i f l) (hr : f.role = .subscribe u) (change : PublishEntry → PublishEntry) :
    AtEntry s (t.modifyPublish i change) i f l := by
  refine ⟨?_, ?_, ?_, h.others_map _ fun _ => rfl⟩
  · rw [State.modifyPublish]
    conv => lhs; rw [h.eq]
  · rw [← h.indexes]
    unfold State.modifyPublish
    rw [List.map_map]
    refine List.map_congr_left fun e _ => ?_
    simp only [Function.comp]
    split <;> rfl
  · rw [modifyPublish_entryAt, h.entry]
    obtain ⟨_, _, _, _, role⟩ := f
    dsimp only at hr
    subst hr
    simp [Role.mapPublish]

theorem modifyChain {s t : State} {i : Nat} {f : Entry} {l : List Request} (h : AtEntry s t i f l)
    (change : Chain → Chain) : AtEntry s (t.modifyChain i change) i { f with chain := change f.chain } l := by
  refine ⟨?_, by rw [modifyChain_indexes, h.indexes], ?_, h.others_map _ fun _ => rfl⟩
  · rw [State.modifyChain]
    conv => lhs; rw [h.eq]
  · rw [modifyChain_entryAt, h.entry]
    simp [entryAt_index h.entry]

theorem request {s t : State} {i : Nat} {f : Entry} {l : List Request} (h : AtEntry s t i f l) (r : Request) :
    AtEntry s (t.request .first r) i f (l ++ [r]) := by
  refine ⟨?_, h.indexes, h.entry, h.others⟩
  rw [State.request]
  dsimp only
  rw [congrArg HostPort.firstClass h.port]
  conv => lhs; rw [h.eq]
  simp

/-- A subscribe entry follows a link. -/
theorem followLink {s t : State} {i : Nat} {f : Entry} {l : List Request} {u : SubscribeEntry} (h : AtEntry s t i f l)
    (hr : f.role = .subscribe u) (link : Word) : AtEntry s (t.followLink i link) i
      { f with chain := { f.chain with lookAhead := s.fence.lookAheadFor link } } (l ++ s.fence.linkReads i link) := by
  rw [← h.fence]
  unfold State.followLink Fence.linkReads Fence.lookAheadFor Fence.checkDescriptor
  by_cases h0 : link = 0
  · simp only [h0, if_true]
    simpa using h.modifyChain _
  · by_cases h1 : link.toNat % 16 ≠ 0
    · simp only [if_neg h0, if_pos h1]
      simpa using h.modifyChain _
    · by_cases h2 : t.fence.contains link.toNat 16 = true
      · simp only [h0, h1, h2, if_true, if_false]
        have hc : t.readClassAt i = .first := by simp [State.readClassAt, h.entry, Entry.readClass, hr]
        rw [hc]
        exact (h.modifyChain fun c => { c with lookAhead := .reading link }).request _
      · simp only [h0, h1, h2, if_false]
        simpa using h.modifyChain _

/-- A descriptor becomes current at a subscribe entry. -/
theorem makeCurrent {s t : State} {i : Nat} {f : Entry} {l : List Request} {u : SubscribeEntry} (h : AtEntry s t i f l)
    (hr : f.role = .subscribe u) (a : Word) (d : Descriptor) : AtEntry s (t.makeCurrent i a d) i
      { f with chain := { f.chain with current := .held a d, lookAhead := s.fence.lookAheadFor d.link } }
      (l ++ s.fence.linkReads i d.link) :=
  (h.modifyChain _).followLink hr _

/-- A subscribe entry looks at its tail again. -/
theorem lookAgain {s t : State} {i : Nat} {f : Entry} {l : List Request} {u : SubscribeEntry} (h : AtEntry s t i f l)
    (hr : f.role = .subscribe u) (tail : Word) : AtEntry s (t.lookAgain i tail) i
      { f with chain := { f.chain with lookAhead := .looking } } (l ++ [.lastLook i tail]) := by
  unfold State.lookAgain
  have hc : t.readClassAt i = .first := by simp [State.readClassAt, h.entry, Entry.readClass, hr]
  have k := h.modifyChain fun c => { c with lookAhead := .looking }
  rw [hc]
  exact k.request _

/-- Placing leaves the current descriptor for the HELD look-ahead. -/
theorem takeHeld {s t : State} {e f : Entry} {l : List Request} {u : SubscribeEntry} (h : AtEntry s t e.index f l)
    (hr : f.role = .subscribe u) (hc : f.chain.current = e.chain.current) (a : Word) (d : Descriptor) :
    AtEntry s (t.takeHeld e.index a d) e.index
      { f with role := .subscribe u.freshDescriptor,
               chain := { f.chain with current := .held a d, lookAhead := s.fence.lookAheadFor d.link } }
      (l ++ e.leaving u ++ s.fence.linkReads e.index d.link) := by
  unfold State.takeHeld
  rw [h.entry]
  dsimp only
  rw [hr]
  dsimp only
  have k : AtEntry s (match u.block, f.chain.current with
      | some b, .held full rec =>
        t.request .first (.rxWriteBack e.index
          { descriptor := full, used := rec.length, start := u.firstOfBlock, endFlag := false, status := .ok,
            sequence := u.descriptorSequence.getD b.sequence, closes := none })
      | _, _ => t) e.index f (l ++ e.leaving u) := by
    unfold Entry.leaving
    rw [hc]
    cases u.block with
    | none => simpa using h
    | some b =>
      cases e.chain.current with
      | none => simpa using h
      | reading y => simpa using h
      | held y z => exact h.request _
  exact (k.modifySubscribe hr SubscribeEntry.freshDescriptor).makeCurrent rfl a d

/-- A piece inside the fence is requested into a fresh descriptor. -/
theorem placePiece {s t : State} {i : Nat} {f : Entry} {l : List Request} {u : SubscribeEntry} (h : AtEntry s t i f l)
    (hr : f.role = .subscribe u) (a : Word) (d : Descriptor) (pl : Placing) (hw : u.writeOffset = 0)
    (hin : s.fence.contains d.buffer.toNat (min (pl.length - pl.placed) d.length) = true) :
    AtEntry s (t.placePiece i a d u pl) i
      { f with role := .subscribe { u with
          placing := some { pl with placed := pl.placed + min (pl.length - pl.placed) d.length }
          block := some (match u.block with
            | some b => { b with bytes := b.bytes + min (pl.length - pl.placed) d.length }
            | none => ⟨a, pl.sequence, min (pl.length - pl.placed) d.length, pl.sender⟩)
          firstOfBlock := u.firstOfBlock || u.block.isNone
          descriptorSequence := some (u.descriptorSequence.getD pl.sequence)
          writeOffset := min (pl.length - pl.placed) d.length
          starved := false } }
      (l ++ [.rxPayload i pl.source a d.buffer pl.placed (min (pl.length - pl.placed) d.length)]) := by
  unfold State.placePiece
  simp only [hw, Nat.sub_zero, Nat.add_zero, Nat.zero_add, h.fence, hin, if_true, BitVec.ofNat_toNat,
    BitVec.setWidth_eq]
  exact (h.request _).modifySubscribe hr _

/-- An open block closes, with no look-ahead HELD: no descriptor is current then. -/
theorem closeBlock {s t : State} {i : Nat} {f : Entry} {l : List Request} {u : SubscribeEntry} {a : Word}
    {d : Descriptor} {b : OpenBlock} (h : AtEntry s t i f l) (hr : f.role = .subscribe u) (status : BlockStatus)
    (hc : f.chain.current = .held a d) (hb : u.block = some b) (hl : ∀ x y, f.chain.lookAhead ≠ .held x y) :
    AtEntry s (t.closeBlock i status) i
      { f with role := .subscribe { u with
                 block := none, writeOffset := 0, firstOfBlock := false, descriptorSequence := none },
               chain := { f.chain with current := CurrentDescriptor.none } }
      (l ++ [.rxWriteBack i
        ⟨a, u.writeOffset, u.firstOfBlock, true, status, u.descriptorSequence.getD b.sequence, some b⟩]) := by
  unfold State.closeBlock
  rw [h.entry]
  dsimp only
  rw [hr, hc]
  dsimp only
  rw [hb]
  unfold State.finishDescriptor
  dsimp only
  have k := (h.request (.rxWriteBack i
    ⟨a, u.writeOffset, u.firstOfBlock, true, status, u.descriptorSequence.getD b.sequence, some b⟩)).modifySubscribe hr
      fun u => { u with block := none }
  rw [k.entry]
  simp only [Option.map_some]
  split
  · rename_i q
    simp only [Option.some.injEq] at q
    exact absurd q (hl _ _)
  · exact (k.modifySubscribe rfl SubscribeEntry.freshDescriptor).modifyChain _

/-- While a write from it is outstanding the source of a placed segment keeps its place (R18, R116). -/
theorem sourceWritten {s t : State} {i : Nat} {f : Entry} {l : List Request} (h : AtEntry s t i f l)
    (source : SegmentSource) {r : Request} (hr : r ∈ l) (hs : Request.writesFrom source r = true) :
    t.sourceWritten i source = t := by
  have ho : t.port.outstanding (Request.writesFrom source) = true := by
    have k : t.port.firstClass.any (Request.writesFrom source) = true := by
      rw [h.port]
      exact List.any_eq_true.2 ⟨r, List.mem_append_right _ hr, hs⟩
    simp [HostPort.outstanding, k]
  cases source with
  | staging k => simp [State.sourceWritten, State.freeBufferIfDone, ho]
  | cell c =>
    simp only [State.sourceWritten, State.releaseIfWritten]
    split
    · rfl
    · simp [ho]

/-- Requests that write from no source change nothing of what is outstanding from one. -/
theorem outstanding {s t : State} {i : Nat} {f : Entry} {l : List Request} (h : AtEntry s.freePort t i f l)
    (hl : ∀ r ∈ l, ∀ source, Request.writesFrom source r = false)
    (hg : ∀ g, s.port.granted = some g → ∀ source, Request.writesFrom source g.request = false)
    (source : SegmentSource) :
    t.port.outstanding (Request.writesFrom source) = s.port.outstanding (Request.writesFrom source) := by
  have k : l.any (Request.writesFrom source) = false := by
    rw [List.any_eq_false]
    intro r hr
    simp [hl r hr source]
  unfold HostPort.outstanding
  rw [h.port]
  simp only [List.any_append, k, State.freePort]
  cases hp : s.port.granted with
  | none => simp
  | some g => simp [hg g hp source]

end AtEntry

/-! ### The end of a segment's placing -/

/-- The fields of an entry whose segment's last byte is placed, before its block closes and expected moves (R115). -/
def SubscribeEntry.segmentEnded (u : SubscribeEntry) (source : SegmentSource) : SubscribeEntry :=
  let v := { u with placing := none, starved := false }
  match source with
  | .staging _ => v
  | .cell c => v.markWritten c

theorem endPlacing_eq (t : State) (i : Nat) (pl : Placing) : t.endPlacing i pl =
    (((if pl.last then (t.modifySubscribe i fun u => u.segmentEnded pl.source).closeBlock i .ok
      else t.modifySubscribe i fun u => u.segmentEnded pl.source).modifySubscribe i
        SubscribeEntry.advance).sourceWritten i pl.source) := by
  obtain ⟨source, _, _, last, _, _, _⟩ := pl
  cases source <;> rfl

/-- What moving expected on leaves (R126). -/
theorem SubscribeEntry.advance_fields (u : SubscribeEntry) (x : Seq) (h : u.expected = some x) :
    u.advance.expected = some (x + 1) ∧ u.advance.partPlaced = 0 ∧ u.advance.placing = u.placing ∧
      u.advance.starved = u.starved ∧ u.advance.waiting = u.waiting ∧ u.advance.written = u.written ∧
      u.advance.writeOffset = u.writeOffset ∧ u.advance.block = u.block ∧
      u.advance.firstOfBlock = u.firstOfBlock ∧ u.advance.descriptorSequence = u.descriptorSequence := by
  have hx : seqAfter x 1 = x + 1 := rfl
  unfold SubscribeEntry.advance
  rw [h]
  dsimp only
  unfold SubscribeEntry.settleRepair SubscribeEntry.moveExpected SubscribeEntry.repairIdle
  rw [hx]
  split
  · simp
  · split <;> simp

theorem SubscribeEntry.segmentEnded_fields (u : SubscribeEntry) (source : SegmentSource) :
    (u.segmentEnded source).expected = u.expected ∧ (u.segmentEnded source).placing = none ∧
      (u.segmentEnded source).starved = false ∧
      (u.segmentEnded source).waiting = (u.waiting.filter fun c => source != .cell c.cell) ∧
      (u.segmentEnded source).written = u.written ++ (u.waiting.filter fun c => source == .cell c.cell) ∧
      (u.segmentEnded source).writeOffset = u.writeOffset ∧ (u.segmentEnded source).block = u.block ∧
      (u.segmentEnded source).firstOfBlock = u.firstOfBlock ∧
      (u.segmentEnded source).descriptorSequence = u.descriptorSequence := by
  cases source with
  | staging k =>
    have hk (c : ReorderCell) : (SegmentSource.staging k == .cell c.cell) = false := by simp
    simp [SubscribeEntry.segmentEnded, bne, hk]
  | cell k =>
    have hk (c : ReorderCell) : (SegmentSource.cell k == .cell c.cell) = (c.cell == k) := by
      rw [Bool.eq_iff_iff]
      simp only [beq_iff_eq, SegmentSource.cell.injEq]
      exact eq_comm
    refine ⟨rfl, rfl, rfl, ?_, ?_, rfl, rfl, rfl, rfl⟩
    · simp [SubscribeEntry.segmentEnded, SubscribeEntry.markWritten, bne, hk]
    · simp [SubscribeEntry.segmentEnded, SubscribeEntry.markWritten, hk]

/-- A segment without LAST ends with a write of it outstanding. -/
theorem AtEntry.endPlacing {s t : State} {i : Nat} {f : Entry} {l : List Request} {u : SubscribeEntry}
    (h : AtEntry s t i f l) (hr : f.role = .subscribe u) (pl : Placing) {r : Request} (hm : r ∈ l)
    (hs : Request.writesFrom pl.source r = true) (hl : pl.last = false) :
    AtEntry s (t.endPlacing i pl) i { f with role := .subscribe (u.segmentEnded pl.source).advance } l := by
  have k := (h.modifySubscribe hr fun u => u.segmentEnded pl.source).modifySubscribe rfl SubscribeEntry.advance
  rw [endPlacing_eq, hl]
  simp only [Bool.false_eq_true, if_false]
  rw [k.sourceWritten pl.source hm hs]
  exact k

/-- One with LAST closes its block OK. -/
theorem AtEntry.endPlacingLast {s t : State} {i : Nat} {f : Entry} {l : List Request} {u : SubscribeEntry}
    (h : AtEntry s t i f l) (hr : f.role = .subscribe u) (pl : Placing) {r : Request} (hm : r ∈ l)
    (hs : Request.writesFrom pl.source r = true) (hl : pl.last = true) {a : Word} {d : Descriptor} {b : OpenBlock}
    (hc : f.chain.current = .held a d) (hb : u.block = some b) (hk : ∀ x y, f.chain.lookAhead ≠ .held x y) :
    AtEntry s (t.endPlacing i pl) i
      { f with role := .subscribe ({ u.segmentEnded pl.source with
                 block := none, writeOffset := 0, firstOfBlock := false,
                 descriptorSequence := none } : SubscribeEntry).advance,
               chain := { f.chain with current := CurrentDescriptor.none } }
      (l ++ [.rxWriteBack i
        ⟨a, u.writeOffset, u.firstOfBlock, true, .ok, u.descriptorSequence.getD b.sequence, some b⟩]) := by
  obtain ⟨-, -, -, -, -, e1, e2, e3, e4⟩ := u.segmentEnded_fields pl.source
  have k := (h.modifySubscribe hr fun u => u.segmentEnded pl.source).closeBlock rfl .ok hc (e2.trans hb) hk
  rw [e1, e3, e4] at k
  have k := k.modifySubscribe rfl SubscribeEntry.advance
  rw [endPlacing_eq, hl]
  simp only [if_true]
  rw [k.sourceWritten pl.source (List.mem_append_left _ hm) hs]
  exact k

/-! ### One round of placing -/

/-- A round with bytes left and room in the current descriptor. -/
theorem placeRounds_piece (t : State) (i : Nat) (f : Entry) (u : SubscribeEntry) (pl : Placing) (a : Word)
    (d : Descriptor) (fuel : Nat) (hf : t.entryAt i = some f) (hr : f.role = .subscribe u)
    (ht : u.takesFrames = true) (hp : u.placing = some pl) (hl : pl.placed < pl.length)
    (hc : f.chain.current = .held a d) (hw : u.writeOffset < d.length) :
    placeRounds i (fuel + 1) t = placeRounds i fuel
      (if u.block.isSome || pl.first then t.placePiece i a d u pl else t.orphanPlacing i) := by
  have hn : ¬pl.length ≤ pl.placed := by omega
  conv => lhs; unfold placeRounds
  rw [hf]
  dsimp only
  rw [hr]
  dsimp only
  rw [hp, hc]
  simp [ht, hn, hw]

/-- A round with no bytes left. -/
theorem placeRounds_end (t : State) (i : Nat) (f : Entry) (u : SubscribeEntry) (pl : Placing) (fuel : Nat)
    (hf : t.entryAt i = some f) (hr : f.role = .subscribe u) (ht : u.takesFrames = true) (hp : u.placing = some pl)
    (hl : pl.length ≤ pl.placed) : placeRounds i (fuel + 1) t = placeRounds i fuel (t.endPlacing i pl) := by
  conv => lhs; unfold placeRounds
  rw [hf]
  dsimp only
  rw [hr]
  dsimp only
  rw [hp]
  simp [ht, hl]

/-- A round with bytes left where no descriptor is current, or a full one: it goes by the look-ahead. -/
theorem placeRounds_full (t : State) (i : Nat) (f : Entry) (u : SubscribeEntry) (pl : Placing) (fuel : Nat)
    (hf : t.entryAt i = some f) (hr : f.role = .subscribe u) (ht : u.takesFrames = true) (hp : u.placing = some pl)
    (hl : pl.placed < pl.length)
    (hc : f.chain.current = .none ∨ ∃ a d, f.chain.current = .held a d ∧ d.length ≤ u.writeOffset) :
    placeRounds i (fuel + 1) t = match f.chain.lookAhead with
      | .held address d => placeRounds i fuel (t.takeHeld i address d)
      | .reading _ => t
      | .looking => t
      | .faulty address cause => t.faultEntry i cause cause.lookAheadBytes address
      | .ended =>
        if u.starved then t else if u.chainEnded then t.starve i else t.lookAgain i (f.chain.tail.getD 0)
      | .none => t.starve i := by
  have hn : ¬pl.length ≤ pl.placed := by omega
  conv => lhs; unfold placeRounds
  rw [hf]
  dsimp only
  rw [hr]
  dsimp only
  rw [hp]
  rcases hc with hc | ⟨a, d, hc, hd⟩
  · rw [hc]
    cases f.chain.lookAhead <;> simp [ht, hn]
  · have hw : ¬u.writeOffset < d.length := by omega
    rw [hc]
    cases f.chain.lookAhead <;> simp [ht, hn, hw]

/-- A faulted entry places nothing. -/
theorem placeRounds_faulted (t : State) (i n : Nat) {u : SubscribeEntry} (h : t.subscribeAt i = some u)
    (hu : u.state = .fault) : placeRounds i n t = t := by
  cases n with
  | zero => rfl
  | succ n =>
    unfold placeRounds
    unfold State.subscribeAt at h
    cases hf : t.entryAt i with
    | none => rfl
    | some f =>
      rw [hf, Option.bind_some, Entry.subscribe?] at h
      dsimp only
      cases hr : f.role with
      | publish p => rfl
      | subscribe v =>
        rw [hr] at h
        cases h
        simp [SubscribeEntry.takesFrames, hu]

/-- Draining stops where the first waiting segment does not stand at expected. -/
theorem placeRounds_stop (t : State) (i : Nat) (f : Entry) (u : SubscribeEntry) (y : Seq)
    (hf : t.entryAt i = some f) (hr : f.role = .subscribe u) (hp : u.placing = none) (hs : u.starved = false)
    (hx : u.expected = some y) (hn : ∀ c rest, u.waiting = c :: rest → c.sequence ≠ y) (n : Nat) :
    placeRounds i n t = t := by
  cases n with
  | zero => rfl
  | succ n =>
    unfold placeRounds
    rw [hf]
    dsimp only
    rw [hr]
    dsimp only
    rw [hp]
    dsimp only
    rw [hs, hx]
    split
    · rfl
    · simp only [Bool.false_eq_true, if_false]
      split
      · rfl
      · rename_i c rest hw
        rw [if_neg]
        intro hc
        exact hn _ _ hw (Option.some.inj hc).symm

/-! ### What a fault and the settling after a command leave -/

theorem releaseCell_counters (s : State) (c : Nat) : (s.releaseCell c).counters = s.counters := by
  unfold State.releaseCell State.joinSend State.freeCell
  split
  · split
    · rfl
    · split <;> rfl
  · rfl

theorem releaseCell_eventState (s : State) (c : Nat) :
    (s.releaseCell c).eventState = s.eventState ∧ (s.releaseCell c).fence = s.fence := by
  unfold State.releaseCell State.joinSend State.freeCell
  split
  · split
    · exact ⟨rfl, rfl⟩
    · split <;> exact ⟨rfl, rfl⟩
  · exact ⟨rfl, rfl⟩

theorem releaseCells_eventState (l : List Nat) (s : State) :
    (s.releaseCells l).eventState = s.eventState ∧ (s.releaseCells l).fence = s.fence := by
  induction l generalizing s with
  | nil => exact ⟨rfl, rfl⟩
  | cons c l ih =>
    have h := ih (s.releaseCell c)
    have k := releaseCell_eventState s c
    exact ⟨h.1.trans k.1, h.2.trans k.2⟩

theorem withdrawOf_eventState (s : State) (i : Nat) : (s.withdrawOf i).eventState = s.eventState := by
  unfold State.eventState State.withdrawOf HostPort.withdraw
  simp only [List.filter_filter]
  congr 2
  apply List.filter_congr
  intro r _
  cases r <;> simp [Request.isEventWrite, Request.index?]

/-- With no claim waiting a released cell joins the free list at its tail. -/
theorem releaseCell_free (s : State) (c : Nat) (h : s.pool.waiting = []) :
    (s.releaseCell c).pool.free = s.pool.free ++ [c] := by
  have k : nextAfter s.pool.waitingPointer (fun i => ([] : List Nat).contains i) = none := by
    unfold nextAfter
    rw [List.find?_eq_none]
    intro i _
    simp
  unfold State.releaseCell
  rw [h, k]
  rfl

/-- A subscribe entry that does not close enters FAULT, and one STREAM_FAULT event tells it (R147). -/
theorem faultEntry_subscribe (t : State) (i : Nat) (f : Entry) (v : SubscribeEntry) (hf : t.entryAt i = some f)
    (hr : f.role = .subscribe v) (hc : v.closing = false) (cause : FaultCause) (n : Nat) (a : Word) :
    (t.faultEntry i cause n a).subscribeAt i = some v.faulted ∧
      t.reports (t.faultEntry i cause n a) [streamEvent .streamFault cause.code f.stream (v.publisher.getD 0)
        ((v.expected.map BitVec.toNat).getD 0) n a] := by
  unfold State.faultEntry
  rw [hf]
  dsimp only
  rw [hr]
  dsimp only
  rw [hc]
  simp only [Bool.false_eq_true, if_false]
  constructor
  · have k : ((t.withdrawOf i).discardHeldOf f.stream).subscribeAt i = some v := by
      have he : ((t.withdrawOf i).discardHeldOf f.stream).entryAt i = some f := hf
      simp [State.subscribeAt, he, Entry.subscribe?, hr]
    rw [(CellFrame.emit _ _).subscribeAt, (CellFrame.releaseCells _ _).subscribeAt, modifySubscribe_subscribeAt, k]
    rfl
  · refine State.reports_emit_after (asked := []) ?_ ?_ _
    · rw [(releaseCells_eventState _ _).2]
      rfl
    · refine State.reports_nil ?_
      rw [(releaseCells_eventState _ _).1]
      exact withdrawOf_eventState t i

/-- A subscribe entry is the same after cell work at publish entries. -/
theorem CellFrame.subscribeEntry {s t : State} (h : CellFrame s t) {i : Nat} {f : Entry} {v : SubscribeEntry}
    (hf : s.entryAt i = some f) (hr : f.role = .subscribe v) : t.entryAt i = some f := by
  have k := h.at_still i
  rw [hf] at k
  cases hg : t.entryAt i with
  | none =>
    rw [hg] at k
    cases k
  | some g =>
    rw [hg] at k
    simp only [Option.map_some, Option.some.injEq] at k
    obtain ⟨key, rest⟩ := Prod.mk.inj k
    obtain ⟨chain, fields⟩ := Prod.mk.inj rest
    clear rest k
    obtain ⟨_, _, _, _, role⟩ := g
    obtain ⟨_, _, _, _, _⟩ := f
    simp only [Entry.key, Prod.mk.injEq] at key chain hr
    obtain ⟨rfl, rfl, rfl, -⟩ := key
    subst chain hr
    cases role with
    | publish p => simp [Entry.subscribe?] at fields
    | subscribe u =>
      simp only [Entry.subscribe?, Option.some.injEq] at fields
      rw [fields]

/-- Settling after a command leaves a subscribe entry and its requests. -/
theorem finish_subscribe (w : State) (i : Nat) (f : Entry) (v : SubscribeEntry) (hn : (w.table.map (·.index)).Nodup)
    (hf : w.entryAt i = some f) (hr : f.role = .subscribe v) : w.finish.entryAt i = some f ∧
      ∀ r ∈ w.port.firstClass, r.index? = some i → r ∈ w.finish.port.firstClass := by
  have k := CellFrame.finish w hn
  refine ⟨k.subscribeEntry hf hr, ?_⟩
  intro r hm hi
  have hs : (w.subscribeAt i).isSome = true := by simp [State.subscribeAt, hf, Entry.subscribe?, hr]
  have m : r ∈ w.port.firstClass.filter (fun r => r.index? == some i) := List.mem_filter.2 ⟨hm, by simp [hi]⟩
  rw [← k.first i hs] at m
  exact (List.mem_filter.1 m).1

/-! ### The source of a segment that is given up -/

/-- A staging buffer that the entry at `e` no longer places from is freed once no write from it is outstanding and no
other entry places from it (R18, R116). `s` is the state before, in which the other entries have the fields they have
in `t`. -/
theorem freeBufferIfDone_line (s t : State) (e : Entry) (k : BufferId) (f : Entry) (v : SubscribeEntry)
    (hn : (s.table.map (·.index)).Nodup)
    (ho : t.port.outstanding (Request.writesFrom (.staging k)) = s.port.outstanding (Request.writesFrom (.staging k)))
    (hl : t.line = s.line) (hi : t.table.map (·.index) = s.table.map (·.index)) (hf : t.entryAt e.index = some f)
    (hr : f.role = .subscribe v) (hv : v.places (.staging k) = false)
    (hs : ∀ g ∈ t.table, g.index ≠ e.index → ∃ h ∈ s.table, h.index = g.index ∧ h.subscribe? = g.subscribe?) :
    ∃ l : LineInterface, t.freeBufferIfDone k = { t with line := l } ∧
      (∀ j, j ≠ k ∨ s.port.outstanding (Request.writesFrom (.staging k)) = true → l.buffer j = s.line.buffer j) ∧
      (s.port.outstanding (Request.writesFrom (.staging k)) = true → l = s.line) ∧
      (s.port.outstanding (Request.writesFrom (.staging k)) = false →
        (∀ g r, g ∈ s.table → g ≠ e → g.role = .subscribe r → r.places (.staging k) = false) →
        l.buffer k = .free) := by
  unfold State.freeBufferIfDone
  rw [ho]
  split
  · rename_i q
    refine ⟨t.line, rfl, fun j _ => by rw [hl], fun _ => hl, ?_⟩
    intro h1 h2
    exfalso
    rw [h1, Bool.false_or] at q
    obtain ⟨g, hg, hp⟩ := List.any_eq_true.1 q
    by_cases hgi : g.index = e.index
    · have hm := CellFrame.entryAt_of_mem (s := t) (by rw [hi]; exact hn) hg
      rw [hgi, hf] at hm
      rw [← Option.some.inj hm, Entry.subscribe?, hr] at hp
      rw [show v.places (.staging k) = true from hp] at hv
      cases hv
    · obtain ⟨h, hh, hhi, hhs⟩ := hs g hg hgi
      rw [← hhs] at hp
      cases hhr : h.role with
      | publish p => simp [Entry.subscribe?, hhr] at hp
      | subscribe r =>
        have k1 := h2 h r hh (by rintro rfl; exact hgi hhi.symm) hhr
        rw [Entry.subscribe?, hhr] at hp
        rw [show r.places (.staging k) = true from hp] at k1
        cases k1
  · rename_i q
    refine ⟨(t.setBuffer k .free).line, rfl, ?_, ?_, fun _ _ => buffer_setBuffer _ _ _⟩
    · intro j hj
      rcases hj with hj | hj
      · rw [← hl]
        cases k <;> cases j <;> first | exact absurd rfl hj | rfl
      · simp [hj] at q
    · intro hj
      simp [hj] at q

/-- A written cell is released once no write from it is outstanding (R116); no event is asked for. -/
theorem AtEntry.releaseIfWritten {s t : State} {i : Nat} {f : Entry} {l : List Request} {u : SubscribeEntry}
    (h : AtEntry s t i f l) (hr : f.role = .subscribe u) (c : Nat) {busy : Bool}
    (ho : t.port.outstanding (Request.writesFrom (.cell c)) = busy) :
    let w := t.releaseIfWritten i c
    w.entryAt i = some { f with role := .subscribe { u with
      written := if busy then u.written else u.written.filter (·.cell != c) } } ∧
    w.table.map (·.index) = s.table.map (·.index) ∧ w.eventState = s.eventState ∧ w.counters = s.counters ∧
    w.line = s.line ∧
    (u.written.any (·.cell == c) = true → busy = false → s.pool.waiting = [] →
      w.pool.free = s.pool.free ++ [c]) := by
  intro w
  have hsub : t.subscribeAt i = some u := by simp [State.subscribeAt, h.entry, Entry.subscribe?, hr]
  have hw : w = if u.written.any (·.cell == c) && !busy then
      (t.modifySubscribe i fun u => { u with written := u.written.filter (·.cell != c) }).releaseCell c else t := by
    show t.releaseIfWritten i c = _
    unfold State.releaseIfWritten
    rw [hsub]
    dsimp only
    rw [ho]
  cases busy with
  | true =>
    rw [Bool.not_true, Bool.and_false] at hw
    rw [hw]
    obtain ⟨_, _, _, _, role⟩ := f
    dsimp only at hr
    subst hr
    exact ⟨h.entry, h.indexes, h.eventState, h.counters, h.line, fun _ q => nomatch q⟩
  | false =>
    rw [Bool.not_false, Bool.and_true] at hw
    have k := h.modifySubscribe hr fun u => { u with written := u.written.filter (·.cell != c) }
    split at hw
    · rw [hw]
      refine ⟨(CellFrame.releaseCell _ c).subscribeEntry k.entry rfl, ?_, ?_, ?_, ?_, ?_⟩
      · rw [(CellFrame.releaseCell _ c).indexes, k.indexes]
      · rw [(releaseCell_eventState _ c).1, k.eventState]
      · rw [releaseCell_counters, k.counters]
      · rw [(CellFrame.releaseCell _ c).line, k.line]
      · intro _ _ hp
        have hpool : (t.modifySubscribe i fun u => { u with
            written := u.written.filter (·.cell != c) }).pool = s.pool := k.pool
        rw [releaseCell_free _ _ (by rw [hpool]; exact hp), hpool]
    · rename_i q
      have hu : u.written.filter (·.cell != c) = u.written := by
        rw [List.filter_eq_self]
        intro d hd
        simp only [Bool.not_eq_true, List.any_eq_false] at q
        simpa using q d hd
      rw [hw]
      obtain ⟨_, _, _, _, role⟩ := f
      dsimp only at hr
      subst hr
      refine ⟨by simpa [hu] using h.entry, h.indexes, h.eventState, h.counters, h.line, ?_⟩
      intro q' _ _
      exact absurd q' q

theorem SubscribeEntry.places_self (u : SubscribeEntry) (pl : Placing) (h : u.placing = some pl)
    (source : SegmentSource) : u.places source = true ↔ pl.source = source := by
  simp [SubscribeEntry.places, h]

/-- An orphan gives up its source and expected moves on; the rest of the entry stays (R111, R114; log 37). -/
theorem orphanPlacing_leaves {s t : State} {e f : Entry} {l : List Request} {u : SubscribeEntry} {pl : Placing}
    {x : Seq} (hs : s.tableOk) (h : AtEntry s.freePort t e.index f l) (hr : f.role = .subscribe u.freshDescriptor)
    (hl : ∀ r ∈ l, ∀ source, Request.writesFrom source r = false)
    (hg : ∀ g, s.port.granted = some g → ∀ source, Request.writesFrom source g.request = false)
    (hp : u.placing = some pl) (hx : u.expected = some x) (hb : u.block = none) :
    let w := t.orphanPlacing e.index
    let own := u.waiting.filter fun c => pl.source == .cell c.cell
    s.reports w [] ∧ w.counters = { s.counters with orphanSegments := s.counters.orphanSegments + 1 } ∧
    (∀ c, own = [c] → s.port.outstanding (Request.writesFrom (.cell c.cell)) = false → s.pool.waiting = [] →
      w.pool.free = s.pool.free ++ [c.cell]) ∧
    (w.table.map (·.index)).Nodup ∧
    ∃ v, w.entryAt e.index = some { f with role := .subscribe v } ∧ v.expected = some (x + 1) ∧ v.placing = none ∧
      v.partPlaced = 0 ∧ v.starved = false ∧
      v.waiting = (u.waiting.filter fun c => pl.source != .cell c.cell) ∧ GivesUp s w e u v ∧ v.block = none ∧
      v.writeOffset = 0 := by
  intro w own
  have ho := h.outstanding hl hg
  have hpl := u.places_self pl hp
  have h1 := h.modifySubscribe hr fun u => { u with placing := none }
  have hsub : (t.subscribeAt e.index).bind (·.placing) = some pl := by
    have : t.subscribeAt e.index = some u.freshDescriptor := by simp [State.subscribeAt, h.entry, Entry.subscribe?, hr]
    rw [this]
    exact hp
  have hw : w = ((t.giveUp e.index).modifySubscribe e.index fun v =>
      SubscribeEntry.advance { v with starved := false }).bump .orphanSegments := rfl
  cases hk : pl.source with
  | staging k =>
    obtain ⟨line, e1, e2, -, e3⟩ := freeBufferIfDone_line s
      (t.modifySubscribe e.index fun u => { u with placing := none }) e k _ _ hs.indexes (ho (.staging k)) h1.line
      h1.indexes h1.entry rfl rfl fun g hm hi => ⟨g, h1.others g hm hi, rfl, rfl⟩
    have hgive : t.giveUp e.index =
        { t.modifySubscribe e.index fun u => { u with placing := none } with line := line } := by
      unfold State.giveUp
      rw [hsub]
      dsimp only
      rw [hk]
      exact e1
    have h2 := h1.modifySubscribe rfl fun v => SubscribeEntry.advance { v with starved := false }
    obtain ⟨a1, a2, a3, a4, a5, a6, a7, a8, -, -⟩ := SubscribeEntry.advance_fields
      { u.freshDescriptor with placing := none, starved := false } x hx
    have hwt : w.table = ((t.modifySubscribe e.index fun u => { u with placing := none }).modifySubscribe e.index
        fun v => SubscribeEntry.advance { v with starved := false }).table := by rw [hw, hgive]; rfl
    have hwl : w.line = line := by rw [hw, hgive]; rfl
    have hown : own = [] := by
      rw [List.filter_eq_nil_iff]
      intro c _
      simp [hk]
    refine ⟨State.reports_nil ?_, ?_, ?_, ?_, _, (congrArg (List.find? _) hwt).trans h2.entry, a1, a3, a2, a4, ?_,
      ⟨a3, ?_, ?_, ?_, fun _ => a6⟩, a8.trans hb, a7⟩
    · have k : w.eventState = (t.modifySubscribe e.index fun u => { u with placing := none }).eventState := by
        rw [hw, hgive]
        rfl
      rw [k, h1.eventState]
      rfl
    · rw [hw, hgive]
      show (State.counters (t.modifySubscribe e.index fun u => { u with placing := none })).add .orphanSegments 1 = _
      rw [h1.counters]
      rfl
    · intro c hc
      rw [hown] at hc
      cases hc
    · rw [hwt]
      exact h2.nodup hs.indexes
    · refine a5.trans ?_
      symm
      show List.filter _ u.waiting = u.waiting
      rw [List.filter_eq_self]
      intro c _
      simp [bne]
    · intro j hj h3 h4
      obtain rfl : k = j := by rw [hpl, hk] at hj; exact SegmentSource.staging.inj hj
      rw [hwl]
      exact e3 h3 h4
    · intro j hj
      rw [hwl]
      refine e2 j ?_
      by_cases hjk : j = k
      · subst hjk
        right
        rcases hj with hj | hj
        · rw [(hpl (.staging j)).2 hk] at hj
          cases hj
        · exact hj
      · exact Or.inl hjk
    · intro c hc
      rw [hpl, hk] at hc
      cases hc
  | cell c =>
    have h2 := h1.modifySubscribe rfl (·.markWritten c)
    obtain ⟨e1, e2, e3, e4, e5, e6⟩ := h2.releaseIfWritten rfl c (ho (.cell c))
    have hgive : t.giveUp e.index = ((t.modifySubscribe e.index fun u => { u with placing := none }).modifySubscribe
        e.index (·.markWritten c)).releaseIfWritten e.index c := by
      unfold State.giveUp
      rw [hsub]
      dsimp only
      rw [hk]
    rw [← hgive] at e1 e2 e3 e4 e5 e6
    have hcell (d : ReorderCell) : (SegmentSource.cell c == .cell d.cell) = (d.cell == c) := by
      rw [Bool.eq_iff_iff]
      simp only [beq_iff_eq, SegmentSource.cell.injEq]
      exact eq_comm
    have hwe := modifySubscribe_entryAt (t.giveUp e.index) e.index e.index fun v =>
      SubscribeEntry.advance { v with starved := false }
    rw [e1, Option.map_some, if_pos (show f.index = e.index from entryAt_index h.entry)] at hwe
    obtain ⟨a1, a2, a3, a4, a5, a6, a7, a8, -, -⟩ := SubscribeEntry.advance_fields
      { SubscribeEntry.markWritten { u.freshDescriptor with placing := none } c with
        written := if s.port.outstanding (Request.writesFrom (.cell c)) then
            (SubscribeEntry.markWritten { u.freshDescriptor with placing := none } c).written
          else (SubscribeEntry.markWritten { u.freshDescriptor with placing := none } c).written.filter (·.cell != c)
        starved := false } x hx
    refine ⟨State.reports_nil ?_, ?_, ?_, ?_, _, hwe, a1, a3, a2, a4, ?_, ⟨a3, ?_, ?_, ?_, ?_⟩, a8.trans hb, a7⟩
    · have k : w.eventState = (t.giveUp e.index).eventState := rfl
      rw [k, e3]
      rfl
    · rw [hw]
      show (t.giveUp e.index).counters.add .orphanSegments 1 = _
      rw [e4]
      rfl
    · intro d hd hb hq
      have hm : d ∈ own := by simp [hd]
      have hdc : d.cell = c := by
        have := (List.mem_filter.1 hm).2
        rw [hk, hcell] at this
        simpa using this
      rw [hdc] at hb ⊢
      refine e6 ?_ hb hq
      refine List.any_eq_true.2 ⟨d, List.mem_append_right _ ?_, by simp [hdc]⟩
      exact List.mem_filter.2 ⟨(List.mem_filter.1 hm).1, by simp [hdc]⟩
    · rw [hw]
      show (List.map _ ((t.giveUp e.index).modifySubscribe e.index _).table).Nodup
      rw [modifySubscribe_indexes, e2]
      exact hs.indexes
    · refine a5.trans ?_
      simp only [bne, hcell]
      rfl
    · intro j hj
      rw [hpl, hk] at hj
      cases hj
    · intro j _
      show (t.giveUp e.index).line.buffer j = _
      rw [e5]
      rfl
    · intro d hd
      obtain rfl : c = d := by rw [hpl, hk] at hd; exact SegmentSource.cell.inj hd
      refine a6.trans ?_
      split
      · rfl
      · show List.filter _ (u.written ++ u.waiting.filter (·.cell == c)) = _
        rw [List.filter_append, List.filter_filter]
        simp
    · intro hall
      have hc := hall c
      rw [(hpl (.cell c)).2 hk] at hc
      cases hc

/-! ### The cell that a starved segment takes -/

/-- What emitting an event can change: the event unit, the event writes that wait, and EVENTS_LOST (R157, R159). -/
theorem emit_shape (s : State) (ev : Event) : ∃ (unit : EventUnit) (writes : List Request) (lost : BitVec 32),
    s.emit ev = { s with events := unit
                         port := { s.port with secondClass := s.port.secondClass ++ writes }
                         counters := { s.counters with eventsLost := lost } } ∧
      ∀ r ∈ writes, r.isEventWrite = true := by
  unfold State.emit
  split
  · unfold State.deliverEvent
    split
    · unfold State.placeEvent
      dsimp only
      split
      · exact ⟨_, [_], _, rfl, by simp [Request.isEventWrite]⟩
      · refine ⟨{ s.events with number := s.events.number + 1, hostFault := true, writesStopped := true }, [],
          (s.counters.add .eventsLost 1).eventsLost, ?_, by simp⟩
        simp only [List.append_nil]
        rfl
    · split
      · exact ⟨{ s.events with
          number := s.events.number + 1, backlog := s.events.backlog ++ [{ ev with number := s.events.number }] }, [],
          s.counters.eventsLost, by simp, by simp⟩
      · refine ⟨{ s.events with number := s.events.number + 1, overflow := true }, [],
          (s.counters.add .eventsLost 1).eventsLost, ?_, by simp⟩
        simp only [List.append_nil]
        rfl
  · exact ⟨s.events, [], s.counters.eventsLost, by simp, by simp⟩

theorem emit_outstanding (s : State) (ev : Event) (source : SegmentSource) :
    (s.emit ev).port.outstanding (Request.writesFrom source) = s.port.outstanding (Request.writesFrom source) := by
  obtain ⟨unit, writes, lost, h, hw⟩ := emit_shape s ev
  have k : writes.any (Request.writesFrom source) = false := by
    rw [List.any_eq_false]
    intro r hr
    have := hw r hr
    cases r <;> simp_all [Request.isEventWrite, Request.writesFrom]
  rw [h]
  simp [HostPort.outstanding, List.any_append, k]

/-- What unlisting a resend leaves (R86, R98). -/
theorem unlistResend_leaves (s : State) (i stream : Nat) (q : Seq) :
    (s.unlistResend i stream q).eventState = s.eventState ∧ (s.unlistResend i stream q).port = s.port ∧
      (s.unlistResend i stream q).pool = s.pool ∧ (s.unlistResend i stream q).counters = s.counters ∧
      (s.unlistResend i stream q).lists = s.listsWithout i stream q := by
  unfold State.unlistResend State.listsWithout State.resendListed
  split
  · rename_i h
    refine ⟨rfl, rfl, rfl, rfl, ?_⟩
    rw [if_pos]
    · show PublishLists.mk _ _ = _
      congr 1
      apply List.filter_congr
      rintro ⟨a, b⟩ _
      by_cases h1 : a = i <;> by_cases h2 : b = q <;> simp [h1, h2]
    · obtain ⟨⟨a, b⟩, hr, h2⟩ := List.any_eq_true.1 h
      simp only [Bool.and_eq_true, beq_iff_eq] at h2
      obtain ⟨rfl, rfl⟩ := h2
      exact hr
  · rename_i h
    refine ⟨rfl, rfl, rfl, rfl, (if_neg ?_).symm⟩
    exact fun hm => h (List.any_eq_true.2 ⟨_, hm, by simp⟩)

/-- What a replay cell that leaves its queue leaves (R82, R86). -/
theorem leaveReplay_leaves (s : State) (c : AgedCell) :
    (s.leaveReplay c).eventState = s.eventState ∧ (s.leaveReplay c).port = s.port ∧
      (s.leaveReplay c).pool = { s.pool with aged := s.pool.aged.filter (fun d => d.cell != c.cell) } ∧
      (s.leaveReplay c).counters = s.counters ∧
      ∀ f p d, s.entryAt c.index = some f → f.role = .publish p →
        p.replayQueue.find? (fun d => d.cell == c.cell) = some d →
        (s.leaveReplay c).lists = s.listsWithout c.index f.stream d.sequence := by
  unfold State.leaveReplay
  dsimp only
  split
  · rename_i stream q hn
    obtain ⟨h1, h2, h3, h4, h5⟩ := unlistResend_leaves { s.modifyPublish c.index (fun p => { p with
      replayQueue := p.replayQueue.filter (·.cell != c.cell) }) with
        pool := { s.pool with aged := s.pool.aged.filter (·.cell != c.cell) } } c.index stream q
    refine ⟨h1, h2, h3, h4, fun f p d hf hp hd => h5.trans ?_⟩
    simp only [State.replayName, hf, Option.bind_some, Entry.publish?, hp, hd, Option.map_some, Option.some.injEq,
      Prod.mk.injEq] at hn
    obtain ⟨rfl, rfl⟩ := hn
    rfl
  · rename_i hn
    refine ⟨rfl, rfl, rfl, rfl, fun f p d hf hp hd => ?_⟩
    simp [State.replayName, hf, Entry.publish?, hp, hd] at hn

/-! ### Placing goes on in a new descriptor -/

theorem Fence.lookAheadFor_not_held (f : Fence) (link a : Word) (d : Descriptor) : f.lookAheadFor link ≠ .held a d := by
  unfold Fence.lookAheadFor
  split
  · simp
  · split
    · simp
    · split <;> simp

/-- A link that fails its check has brought no byte (R147). -/
theorem Fence.lookAheadBytes_of_link {f : Fence} {link : Word} {cause : FaultCause}
    (h : f.lookAheadFor link = .faulty link cause) : cause.lookAheadBytes = 0 := by
  unfold Fence.lookAheadFor at h
  split at h
  · cases h
  · split at h
    · cases h
      rfl
    · split at h
      · cases h
      · cases h
        rfl

theorem Fence.linkReads_write_nothing (f : Fence) (i : Nat) (link : Word) :
    ∀ r ∈ f.linkReads i link, ∀ source, Request.writesFrom source r = false := by
  intro r hr source
  unfold Fence.linkReads at hr
  split at hr
  · rw [List.mem_singleton] at hr
    subst hr
    rfl
  · cases hr

theorem Entry.leaving_write_nothing (e : Entry) (u : SubscribeEntry) :
    ∀ r ∈ e.leaving u, ∀ source, Request.writesFrom source r = false := by
  intro r hr source
  unfold Entry.leaving at hr
  split at hr
  · rw [List.mem_singleton] at hr
    subst hr
    rfl
  · cases hr

/-- With a descriptor fresh at the entry, the rounds of placing do what `State.takesUp` says. -/
theorem placeRounds_takesUp {s t : State} {e f : Entry} {u : SubscribeEntry} {pl : Placing} {x : Seq} {a : Word}
    {d : Descriptor} {before : List Request} (hs : s.tableOk)
    (h : AtEntry s.freePort t e.index f (before ++ s.fence.linkReads e.index d.link))
    (hr : f.role = .subscribe u.freshDescriptor) (hfs : f.stream = e.stream)
    (hc : f.chain = { e.chain with current := .held a d, lookAhead := s.fence.lookAheadFor d.link, tail := some a })
    (hg : ∀ g, s.port.granted = some g → ∀ source, Request.writesFrom source g.request = false)
    (hbw : ∀ r ∈ before, ∀ source, Request.writesFrom source r = false)
    (ht : u.takesFrames = true) (hp : u.placing = some pl) (hl : pl.placed < pl.length) (hx : u.expected = some x)
    (hd : d.length ≠ 0) (n : Nat) : s.takesUp (placeRounds e.index (n + 4) t) e u pl x a d before := by
  have hclosing : u.closing = false := by
    unfold SubscribeEntry.takesFrames at ht
    revert ht
    cases u.closing <;> simp
  have hround := placeRounds_piece t e.index f u.freshDescriptor pl a d (n + 3) h.entry hr ht hp hl (by rw [hc])
    (Nat.pos_of_ne_zero hd)
  unfold State.takesUp
  intro m fits inside look chain piece block others own stops filled ended stands asked faults
  have hstands {w : State} {g : Entry} {v : SubscribeEntry} {l : List Request} (k : AtEntry s.freePort w e.index g l)
      (hv : g.role = .subscribe v) : w.finish.entryAt e.index = some g ∧
        (piece ∈ l → piece ∈ w.finish.port.firstClass) := by
    have q := finish_subscribe w e.index g v (k.nodup hs.indexes) k.entry hv
    refine ⟨q.1, fun hm => q.2 piece ?_ rfl⟩
    rw [k.port]
    exact List.mem_append_right _ hm
  have hchain : f.chain = chain := hc
  refine ⟨fun hfirst => ?_, fun hb hf hstop => ?_⟩
  · have hfirst' : (u.block.isSome || pl.first) = true := by simpa using hfirst
    have hw : placeRounds e.index (n + 4) t = placeRounds e.index (n + 3)
        (t.placePiece e.index a d u.freshDescriptor pl) := by
      rw [hround]
      exact congrArg _ (if_pos hfirst')
    have hasked {g : Entry} {v : SubscribeEntry} {l : List Request}
        (k : AtEntry s.freePort (placeRounds e.index (n + 4) t) e.index g
          (before ++ s.fence.linkReads e.index d.link ++ l)) (hv : g.role = .subscribe v) (hm : piece ∈ l) :
        asked l ∧ stands g.chain v := by
      have q := hstands k hv
      refine ⟨⟨State.reports_nil k.eventState, k.line, k.pool, k.counters, q.2 (List.mem_append_right _ hm), ?_⟩, g,
        k.entry, q.1, hv, rfl⟩
      rw [k.port]
      simp [State.freePort]
    by_cases hin : inside = true
    · have k := h.placePiece hr a d pl rfl hin
      generalize t.placePiece e.index a d u.freshDescriptor pl = t1 at hw k
      have k : AtEntry s.freePort t1 e.index { f with role := .subscribe filled }
          (before ++ s.fence.linkReads e.index d.link ++ [piece]) := by
        simp only [SubscribeEntry.freshDescriptor, Bool.false_or, Option.getD_none] at k
        exact k
      have hm : piece ∈ before ++ s.fence.linkReads e.index d.link ++ [piece] := by simp
      have hs1 : Request.writesFrom pl.source piece = true := by simp [piece, Request.writesFrom]
      obtain ⟨b1, b2, b3, b4, b5, b6, b7, b8, b9⟩ := filled.segmentEnded_fields pl.source
      refine ⟨fun q => absurd hin (by simp [q]), fun _ hfit hstop hlast => ?_, fun _ hfit hstop hlast => ?_,
        fun _ hfit hlook => ?_, fun _ hfit hlink hend => ?_, fun _ hfit cause hlook => ?_⟩
      · have hn : pl.length ≤ pl.placed + m := by
          have : m = pl.length - pl.placed := Nat.min_eq_left hfit
          omega
        have q := k.endPlacing rfl { pl with placed := pl.placed + m } hm hs1 hlast
        rw [placeRounds_end t1 e.index _ filled _ (n + 2) k.entry rfl ht rfl hn] at hw
        generalize t1.endPlacing e.index { pl with placed := pl.placed + m } = t2 at hw q
        obtain ⟨a1, a2, a3, a4, a5, a6, a7, a8, a9, a10⟩ :=
          (filled.segmentEnded pl.source).advance_fields x (b1.trans hx)
        rw [placeRounds_stop t2 e.index _ _ (x + 1) q.entry rfl (a3.trans b2) (a4.trans b3) a1
          (fun c rest hcr => hstop c rest ((a5.trans b4).symm.trans hcr))] at hw
        rw [← hw] at q
        have r := hasked q rfl (List.mem_singleton.2 rfl)
        exact ⟨r.1, _, by rw [← hchain]; exact r.2, ⟨a1, a3.trans b2, a2, a4.trans b3, a5.trans b4⟩, a6.trans b5,
          a7.trans b6, a8.trans b7, a9.trans b8, a10.trans b9⟩
      · have hn : pl.length ≤ pl.placed + m := by
          have : m = pl.length - pl.placed := Nat.min_eq_left hfit
          omega
        have q := k.endPlacingLast rfl { pl with placed := pl.placed + m } hm hs1 hlast (a := a) (d := d) (b := block)
          (by rw [hc]) rfl (by rw [hc]; exact Fence.lookAheadFor_not_held _ _)
        rw [placeRounds_end t1 e.index _ filled _ (n + 2) k.entry rfl ht rfl hn] at hw
        generalize t1.endPlacing e.index { pl with placed := pl.placed + m } = t2 at hw q
        obtain ⟨a1, a2, a3, a4, a5, a6, a7, a8, -, -⟩ := SubscribeEntry.advance_fields
          { filled.segmentEnded pl.source with
            block := none, writeOffset := 0, firstOfBlock := false, descriptorSequence := none } x (b1.trans hx)
        rw [placeRounds_stop t2 e.index _ _ (x + 1) q.entry rfl (a3.trans b2) (a4.trans b3) a1
          (fun c rest hcr => hstop c rest ((a5.trans b4).symm.trans hcr))] at hw
        rw [← hw, List.append_assoc] at q
        have r := hasked q rfl (by simp)
        exact ⟨r.1, _, by rw [hc] at r; exact r.2, ⟨a1, a3.trans b2, a2, a4.trans b3, a5.trans b4⟩, a6.trans b5, a7, a8⟩
      all_goals
        have hm1 : m = d.length := Nat.min_eq_right (Nat.le_of_not_le hfit)
        have hm2 : ¬pl.length - pl.placed ≤ d.length := hfit
        have hn : pl.placed + m < pl.length := by omega
        have hfull := placeRounds_full t1 e.index _ filled { pl with placed := pl.placed + m } (n + 2) k.entry rfl ht
          rfl hn (.inr ⟨a, d, by rw [hc], Nat.le_of_eq hm1.symm⟩)
        rw [hfull, hc] at hw
        dsimp only at hw
      · rw [show s.fence.lookAheadFor d.link = .reading d.link from hlook] at hw
        dsimp only at hw
        rw [← hw] at k
        have r := hasked k rfl (List.mem_singleton.2 rfl)
        exact ⟨r.1, by rw [← hchain]; exact r.2⟩
      · rw [show s.fence.lookAheadFor d.link = .ended by simp [Fence.lookAheadFor, hlink]] at hw
        simp only [filled, hend, Bool.false_eq_true, if_false, Option.getD_some] at hw
        have q := k.lookAgain rfl a
        rw [← hw, List.append_assoc] at q
        have r := hasked q rfl (by simp)
        exact ⟨r.1, by rw [hc] at r; exact r.2⟩
      · rw [show s.fence.lookAheadFor d.link = .faulty d.link cause from hlook] at hw
        dsimp only at hw
        have q := faultEntry_subscribe t1 e.index _ _ k.entry rfl hclosing cause cause.lookAheadBytes d.link
        rw [← hw, Fence.lookAheadBytes_of_link hlook] at q
        refine ⟨⟨_, q.1, rfl, rfl, rfl, rfl, rfl, rfl⟩, ?_⟩
        have q2 := q.2
        simp only [filled, hx, hfs, Option.map_some, Option.getD_some] at q2
        exact State.reports_congr k.eventState k.fence rfl q2
    · have hin : inside = false := by simpa using hin
      refine ⟨fun _ => ?_, fun q => absurd q (by simp [hin]), fun q => absurd q (by simp [hin]),
        fun q => absurd q (by simp [hin]), fun q => absurd q (by simp [hin]), fun q => absurd q (by simp [hin])⟩
      have hpiece : t.placePiece e.index a d u.freshDescriptor pl = t.faultEntry e.index .fence m a := by
        have h1 : t.fence.contains d.buffer.toNat m = false := by
          rw [h.fence]
          exact hin
        unfold State.placePiece
        exact if_neg (by
          show ¬t.fence.contains d.buffer.toNat m = true
          rw [h1]
          simp)
      have q := faultEntry_subscribe t e.index _ _ h.entry hr hclosing .fence m a
      have hrest : placeRounds e.index (n + 3) (t.faultEntry e.index .fence m a) = t.faultEntry e.index .fence m a :=
        placeRounds_faulted _ _ _ q.1 rfl
      rw [hpiece, hrest] at hw
      rw [← hw] at q
      refine ⟨⟨_, q.1, rfl, rfl, rfl, rfl, rfl, rfl⟩, ?_⟩
      have q2 := q.2
      simp only [SubscribeEntry.freshDescriptor, hx, hfs, Option.map_some, Option.getD_some] at q2
      exact State.reports_congr h.eventState h.fence rfl q2
  · have k := orphanPlacing_leaves hs h hr (fun r hm source => by
      rcases List.mem_append.1 hm with hm | hm
      · exact hbw r hm source
      · exact Fence.linkReads_write_nothing _ _ _ r hm source) hg hp hx hb
    obtain ⟨k1, k2, k3, k4, v, k5, k6, k7, k8, k9, k10, k11, k12, k13⟩ := k
    have hw : placeRounds e.index (n + 4) t = t.orphanPlacing e.index := by
      rw [hround, if_neg (by simp [SubscribeEntry.freshDescriptor, hb, hf])]
      exact placeRounds_stop _ _ _ v (x + 1) k5 rfl k7 k9 k6 (by rw [k10]; exact hstop) _
    have k14 := (finish_subscribe _ _ _ v k4 k5 rfl).1
    rw [← hw] at k1 k2 k3 k5 k11 k14
    exact ⟨k1, k2, k3, v, ⟨_, k5, k14, rfl, hc⟩, ⟨k6, k7, k8, k9, k10⟩, k11, k12, k13⟩

end Machine
end Sys2Proof
end

