-- ==== Sys2Proof/Tests/Slice0.lean ====
section
/-! SUPPORT. Tests: the examples of the manual, an ill-formed term for each check, and for each statement with
hypotheses a state and operands that meet them. -/

open Sys2Proof Sys2Proof.Machine

namespace Sys2Proof.Tests

/-! ### Small states -/

/-- The state a command answers. -/
def after (c : Instr) (s : State) : State :=
  match exec c s with
  | .next t => t
  | .fault r => nomatch r
  | .refused _ => s

/-- The state after a list of commands. -/
def afterAll (cs : List Instr) (s : State) : State := cs.foldl (fun t c => after c t) s

/-- An ACTIVE station 2 of a ring of 4, at rest in a window that begins now, with a fence, a ready ring, two free cells
and the given entries. -/
def active (table : List Entry) : State :=
  { State.powerOn ⟨2, 4, 0⟩ with
    station := { StationControl.powerOn ⟨2, 4, 0⟩ with state := .active }
    line := { LineInterface.powerOn with phase := .rest }
    turn := { TurnUnit.powerOn with condition := .window, anchor := some 0 }
    table := table
    pool := ⟨[5, 6], [], [], 31⟩
    fence := ⟨0x10000, 0x1FFFF⟩
    events := { EventUnit.powerOn with ready := true, config := ⟨0x18000, 4, 1, 1⟩ }
    nextSerial := 32 }

/-- The state with another station state. -/
def inState (x : StationState) (s : State) : State := { s with station := { s.station with state := x } }

/-- The state with another line condition and receive phase. -/
def onLine (c : LineCondition) (p : ReceivePhase) (s : State) : State :=
  { s with turn := { s.turn with condition := c }, line := { s.line with phase := p } }

/-- The frame stands in the receive record, in its verdict slot. -/
def hearing (f : Frame) (s : State) : State :=
  { s with turn := { s.turn with condition := .busy }, line := { s.line with phase := .verdict, record := some f } }

/-- An attempt stands in the attempt record. -/
def sending (f : Frame) (src : AttemptSource) (s : State) : State :=
  { s with turn := { s.turn with attempt := some ⟨f, src, false⟩ } }

/-- A transfer is granted. -/
def granting (r : Request) (s : State) : State :=
  { s with port := { s.port with granted := some ⟨r, s.transferAddress r, [], false⟩ } }

/-- One cell held low, as bit times heard. -/
def low : LineReading := some (.held .low)

/-- A verdict slot in which nothing is driven. -/
def silence : List LineReading := List.replicate 4 none

/-- What the line shows of a frame after its start mark. -/
def heardOf (f : Frame) : List LineReading := (f.cells ++ endMark).map some

/-- A publish entry in a claim state. -/
def pub (claim : ClaimState) : PublishEntry := { PublishEntry.created 0 with claim := claim, claimDue := false }

/-- A subscribe entry that knows publisher 3 and expects sequence 4095. -/
def sub : SubscribeEntry := { SubscribeEntry.created with publisher := some 3, expected := some 4095 }

/-- The publish entry at the lowest index, of stream 0. -/
def pubEntry (p : PublishEntry) : Entry := ⟨0, 0, 0, ⟨false, .none, .none, none⟩, .publish p⟩

/-- The subscribe entry at the highest index, of the highest stream. -/
def subEntry (u : SubscribeEntry) : Entry := ⟨31, 31, 1023, ⟨false, .none, .none, none⟩, .subscribe u⟩

/-- The subscribe entry with a descriptor of capacity 240 held, at its end. -/
def subHeld (u : SubscribeEntry) : Entry :=
  { subEntry u with chain := ⟨true, .held 0x10000 ⟨0, 0x11000, 240, false⟩, .ended, some 0x10000⟩ }

/-- A complete one-segment cell of sequence 0. -/
def cell : PublishCell := ⟨9, 0, true, true, 1, [0, 7], true, some ⟨0x10000, 1, true⟩⟩

/-- A staged segment of the stream of `subEntry`, one byte long. -/
def segment (q : Seq) (first last : Bool) : StagedSegment := ⟨1023, 3, q, first, last, false, 1, [0, 7]⟩

/-- A descriptor's 16 bytes: link, buffer 0x11000, the given length. -/
def record (link : Nat) (length : Nat) : List Byte :=
  littleEndian 4 link ++ littleEndian 4 0x11000 ++ littleEndian 2 length ++ List.replicate 6 0

/-! ### The manual's examples and the operand checks -/

/-- The check of 123456789 in bytes is 29B1 (R8). -/
theorem test_check_figure :
    checkOf ([49, 50, 51, 52, 53, 54, 55, 56, 57].flatMap fun b => bitsOf 8 b) = 0x29B1#16 := by decide +kernel

/-- The covered cells of a CLAIM of station 2 for stream 90 (11.1). -/
theorem test_claim_bits : (Frame.claim 2 90).coveredBits =
    [true, false, false] ++ [false, false, false, false, true, false] ++
      [false, false, false, false, true, false, true, true, false, true, false] := by decide +kernel

/-- The twelve bytes of the example are coded as its four tokens; with the decoded length 13, or the coded length 9, the
decoder finds an error (01, section 1.3). -/
theorem test_coding_example :
    let bytes : List Byte := [0x41, 0x41, 0x41, 0x41, 0x41, 0x42, 0x43, 0x44, 0x44, 0x44, 0x45, 0x45]
    let coded : List Byte := [0x82, 0x41, 0x01, 0x42, 0x43, 0x80, 0x44, 0x01, 0x45, 0x45]
    encodePayload bytes = coded ∧ decodePayload coded = some bytes ∧ decodePayload (coded.take 9) = none ∧
      (Frame.data 1 40 17 true true false 13 coded).codingError = true := by decide +kernel

/-- A DATA frame whose coded-length field is 9 while ten coded bytes stand in its body has a format error and a coding
error (01, section 1.3). -/
theorem test_a_wrong_coded_length_is_a_coding_error_too :
    let coded : List Byte := [0x82, 0x41, 0x01, 0x42, 0x43, 0x80, 0x44, 0x01, 0x45, 0x45]
    let covered := (Frame.data 1 40 17 true true false 12 (coded.take 9)).coveredBits ++ bitsOf 8 0x45
    let faults := readFaults 4 ((covered ++ bitsOf 16 (checkOf covered).toNat).map cellOf)
    faults.format = true ∧ faults.coding = true ∧ faults.check = false ∧ faults.violation = false := by decide +kernel

/-- The start mark is 1, 0, 1, 0, 1, 0, held high, held low, the end mark held low, held high (R3); a receiver that
missed its first cells takes the mark from two alternating cells on, and anything else is other activity (R9). -/
theorem test_marks :
    let mark : List LineCell := [.one, .zero, .one, .zero, .one, .zero, .held .high, .held .low]
    (Frame.claim 2 90).onLine = mark ++ (Frame.claim 2 90).cells ++ [.held .low, .held .high] ∧
      activityOf ((mark.drop 4).map some) = some .startMark ∧ activityOf ((mark.drop 5).map some) = some .other ∧
      activityOf [some .one, some .one] = some .other ∧ activityOf [some .one, none] = some .other ∧
      activityOf [none, some .one, some .zero] = none ∧
      followFrame 0 [some .one, low, low] = .broken ∧ followFrame 0 [low, some (.held .high)] = .ended [] ∧
      followFrame 9 [low, some .one, low, some (.held .high)] = .ended [.held .low, .one] ∧
      followFrame 9 [none] = .broken := by decide +kernel

/-- With a record of 2 the slots of four stations belong to 3, 4, 1 and 2; with a record of 0, to 1, 2, 3 and 4 (02, the
example of a missed frame). -/
theorem test_slots_of_the_example :
    [3, 4, 1, 2].map (fun n => ownedSlot 4 n 2) = [0, 1, 2, 3] ∧
      [1, 2, 3, 4].map (fun n => ownedSlot 4 n 0) = [0, 1, 2, 3] := by decide +kernel

/-- Steps 1, 2 and 3 of the example of chapter 10: BAD_STATE, BAD_CONFIG, then JOINING with one event. -/
theorem test_attach_example :
    let s := State.powerOn ⟨3, 8, 0⟩
    let t := afterAll [.registerWrite 0x14 4 0x10000 false, .registerWrite 0x18 4 0x1FFFF false,
      .registerWrite 0x1C 4 0x18000 false, .registerWrite 0x20 4 0x04000806 false,
      .registerWrite 0x0C 4 1 false] s
    (after (.openSubscribe 7) s).window.result = .badState ∧ (after (.attach false) s).window.result = .badConfig ∧
      t.window.result = .done ∧ t.station.state = .joining ∧ t.events.number = 1 ∧
      t.readRegister 0x20 = 0x04000806#32 := by decide +kernel

/-- Station 4, CLAIMING with one segment queued, hears station 2's CLAIM: LOST at once, its cell free again, CLAIM_LOST
emitted, the CLAIM no longer selected (04, the contest of stream 90 in the other order). -/
theorem test_contest_example :
    let s := active [pubEntry { PublishEntry.created 0 with sendQueue := [cell] }]
    let t := after .cleanClaim (hearing (.claim 1 0) s)
    (t.publishAt 0).map (·.claim) = some .lost ∧ t.pool.free = [5, 6, 9] ∧ t.events.number = 1 ∧
      t.selectAny = none := by decide +kernel

/-- Each check of `Instr.wellFormed` refuses an ill-formed command. -/
theorem test_ill_formed_commands_are_refused :
    ∀ c ∈ [.unknownCommand 10 0, .stationRead 0 3, .registerWrite 0x0C 8 0 false, .activityBegins [],
      .activityBegins [some .one], .urgentSlotStart (.forestalled []), .rotationSlotStart (.forestalled [none]),
      .holdOffExpiry (.forestalled [some .one]), .frameEnd [low], .frameEnd [some .one, none], .spoiledVerdict [],
      .attemptVerdict [low], .frameBecomesBroken [], .frameBecomesBroken (heardOf (.claim 1 0)), .claimSettleExpiry 32,
      .repairDelayExpiry 32, .repairWaitExpiry 32, .headDescriptorReadEnd (.ok [0]), .lookAheadReadEnd (.ok []),
      .lastLookEnd (.ok []), .txPayloadReadEnd (.ok []), .txPayloadReadEnd (.ok (List.replicate 241 0))],
      Instr.wellFormed c = false := by decide +kernel

/-- Boundary operands are accepted. -/
theorem test_boundary_commands_are_accepted :
    ∀ c ∈ [.unknownCommand 0 0, .unknownCommand 11 0, .stationRead 3 1, .registerWrite 0x0C 2 0 false,
      .activityBegins (startMark.map some), .activityBegins [low], .urgentSlotStart (.forestalled [low]),
      .frameEnd (heardOf (.claim 1 0)), .frameEnd ((Frame.claim 1 0).onLine.map some), .spoiledVerdict [low, none, none, none],
      .attemptVerdict silence, .frameBecomesBroken [none], .claimSettleExpiry 31,
      .headDescriptorReadEnd (.ok (record 0 1)), .txPayloadReadEnd (.ok (List.replicate 240 0))],
      Instr.wellFormed c = true := by decide +kernel

/-- No word spells a command. -/
theorem test_no_word_spells_a_command (n w : Nat) : decodeTableWord n w = none := rfl

/-! ### States that meet the hypotheses of the statements -/

theorem test_hyps_AnIdleStep :
    let s := active [pubEntry { pub .claiming with settleTimer := some 1 }, subEntry { sub with repairTimer := some 1 }]
    let e := active [pubEntry { pub .claiming with settleTimer := some 0 },
      subEntry { sub with repair := .requested, repairTimer := some 0 }]
    (s.pending = [] ∧ s.momentTaken = false ∧ s.due ≠ []) ∧
    (.claimSettleExpiry 0 ∈ e.due ∧ .repairWaitExpiry 31 ∈ e.due ∧ .repairDelayExpiry 31 ∉ e.due) ∧
    ({ s with momentTaken := true }.momentTaken = true ∧ s.station.state.receiving = true ∧
      (s.publishAt 0).isSome = true ∧ (s.subscribeAt 31).isSome = true) ∧
    (inState .hold s).station.state.receiving = false ∧
    { s with events := { s.events with timer := .running 1 } }.events.timer = .running 1 ∧
    (s.line.phase = .rest ∧ (onLine .busy .broken s).line.phase ≠ .rest) ∧
    (s.turn.condition = .window ∧ s.turn.anchor = some 0 ∧ 1 ≤ s.ringSize ∧
      [0, 16 * (ownedSlot s.ringSize s.ownNumber s.turn.lastSender + 1), 16 * (s.ringSize + 1), 1].map (fun d =>
        { s with clock := 0 + s.turn.emptyWindows * (16 * (s.ringSize + 1)) + d }.windowDue) =
      [[.urgentSlotStart .sent], [.rotationSlotStart .sent], [.windowPassesEmpty, .urgentSlotStart .sent], []]) := by
  decide +kernel

theorem test_hyps_EachRotationSlot :
    (2 ≤ 2 ∧ 2 ≤ 32 ∧ 0 ≤ 2 ∧ ownedSlot 2 1 0 = 0) ∧ (32 ≤ 32 ∧ ownedSlot 32 32 32 = 31 ∧ ownedSlot 32 1 32 = 0) := by
  decide +kernel

theorem test_hyps_TheRegisterMap :
    (2 ≤ (2 : BitVec 6).toNat ∧ 1 ≤ (1 : BitVec 6).toNat ∧ (2 : BitVec 6).toNat ≤ (2 : BitVec 6).toNat) ∧
      (32 : BitVec 6).toNat ≤ 32 := by decide +kernel

theorem test_hyps_IdentAndStraps :
    ((3 : BitVec 7).toNat / 4 = 0 ∧ (4 : BitVec 7).toNat / 4 = 1 ∧ (7 : BitVec 7).toNat / 4 ≤ 1) ∧
      exec .detach State.reset = .next (after .detach State.reset) := ⟨by decide, rfl⟩

theorem test_hyps_ResetStation :
    let s (consumer : Nat) (limit : Word) : State := { active [] with
      fence := ⟨0x10000, limit⟩, events := { (active []).events with consumer := consumer } }
    ((inState .disabled (active [])).station.state = .disabled ∧ (active []).station.state ≠ .disabled ∧
      (active []).fence.contains ((active []).events.config.recordAddress (active []).events.producer) 32 = true) ∧
    ((s 0 0x1FFFF).events.ready = true ∧ (0 + 1) % 2 ^ (s 0 0x1FFFF).events.config.sizeCode.toNat ≠ 0 ∧
      (0 + 1) % 2 ^ (s 1 0x1FFFF).events.config.sizeCode.toNat = 1 ∧ (State.powerOn ⟨2, 4, 0⟩).events.ready = false) ∧
    ((after .resetStation (s 0 0x1FFFF)).port.secondClass = [.eventWrite 0 (stateRecord 9 .detached .active 0 0)] ∧
      (after .resetStation (s 1 0x1FFFF)).events.backlog = [stateRecord 9 .detached .active 0 0] ∧
      (after .resetStation (s 0 0x1800F)).counters.eventsLost = 1) := by
  decide +kernel

theorem test_hyps_AnEncodedPayload :
    (∀ n ∈ [1, 240], 1 ≤ (List.replicate n (0 : Byte)).length ∧ (List.replicate n (0 : Byte)).length ≤ 240) := by
  decide +kernel

theorem test_hyps_AFrameIsReadBack :
    (63 ≤ 63 ∧ (Frame.claim 63 1023).inRange 63 = true) ∧ (Frame.claim 1 0).inRange 2 = true ∧
      (Frame.gone 1 0 4095 16).inRange 2 = true ∧ (Frame.repair 1 0 2 0 1).inRange 2 = true ∧
      (Frame.data 1 0 0 true true false 240 (encodePayload (List.replicate 240 0))).inRange 2 = true := by
  decide +kernel

/-- Bodies that fit their kind and one that does not, a check of 16 bits, and cells with a violation. -/
theorem test_hyps_TheFaultsOfCells :
    (validCell .zero = true ∧ validCell .one = true ∧ boundaryTransition .one .one = true ∧
      boundaryTransition .one .zero = false) ∧
    ((7 < 8 ∧ 63 < 64 ∧ (List.replicate 16 false).length = 16) ∧ (List.replicate 11 true).length = 11 ∧
      (readFaults 4 [.held .high]).violation = true) ∧
    (let body := bitsOf 11 1 ++ bitsOf 12 0 ++ [true, true, false] ++ bitsOf 8 1 ++ bitsOf 8 2 ++ bitsOf 16 7;
      42 ≤ body.length ∧ body.length = 42 + 8 * bitField body 34 8) ∧
    (let body := List.replicate 42 true;
      42 ≤ body.length ∧ body.length ≠ 42 + 8 * bitField body 34 8) := by decide +kernel

theorem test_hyps_AFrameIsStagedAndJudged :
    let s := onLine .busy .frame (active [subEntry sub])
    let bad := heardOf (.claim 5 0)
    let own := sending (.claim 2 0) (.claim 0) s
    let line := ((Frame.claim 2 0).onLine.map some)
    (s.station.state.receiving = true ∧ s.line.phase = .frame ∧ s.turn.attempt = none ∧
      ∀ c ∈ [[], [(1 : Byte)]], s.line.bufferA ≠ .filling c ∧ s.line.bufferB ≠ .filling c) ∧
    ((s.entryOf 1022).bind Entry.subscribe? = none ∧ (s.entryOf 1023).bind Entry.subscribe? = some sub) ∧
    (s.line.bufferA = .free ∧
      (s.setBuffer .a (.held (segment 0 true true))).line.bufferA ≠ .free ∧
      (s.setBuffer .a (.held (segment 0 true true))).line.bufferB = .free ∧
      ((s.setBuffer .a (.held (segment 0 true true))).setBuffer .b (.held (segment 1 true true))).line.bufferB
        ≠ .free) ∧
    (own.turn.attempt.isSome = true ∧ (after (.frameEnd line) own).line.phase = .verdict ∧
      line.dropLast ≠ line ∧ (after (.frameEnd (line.set 9 none)) own).line.phase = .broken) ∧
    ((Frame.claim 4 0).inRange s.ringSize = true ∧ (Frame.claim 4 0).codingError = false) ∧
    (followFrame 0 bad = .ended (Frame.claim 5 0).cells ∧ (readFaults s.ringSize (Frame.claim 5 0).cells).any = true ∧
      (after (.frameEnd bad) s).counters.spoilsDriven = 1 ∧ reachesStuck s.line.stuckCount bad = false) ∧
    (followFrame 0 [none] = .broken ∧ followFrame 0 [some .one] = .going) := by decide +kernel

theorem test_hyps_ActivityAndItsEnds :
    let s := active []
    (s.station.state.attached = true ∧ s.line.phase = .rest ∧ activityOf (startMark.map some) = some .startMark ∧
      activityOf [low] = some .other ∧ activityOf [none] = none) ∧
    ([low].any Option.isSome = true ∧ followFrame 0 [none] = .broken ∧ silence.any Option.isSome = false ∧
      reachesStuck s.line.stuckCount (startMark.map some) = false ∧ reachesStuck 4094 [low] = false ∧
      reachesStuck 4095 [none] = false) ∧
    (s.station.state.receiving = true ∧ (onLine .busy .frame s).line.phase = .frame ∧ s.turn.attempt = none) ∧
    ((onLine .busy .verdict s).line.phase = .verdict ∧
      { (onLine .busy .verdict s).line with faults := ⟨false, true, false, false⟩ }.faults.any = true ∧
      s.line.spoiling = false) ∧
    ((onLine .busy .broken s).line.phase = .broken ∧ s.line.brokenWait ≠ .stuckWait) ∧
    ((inState .hold (onLine .busy .broken s)).station.state = .hold ∧ s.line.brokenWait = .activity) ∧
    { (onLine .busy .broken s).line with brokenWait := .stuckWait }.brokenWait = .stuckWait := by decide +kernel

theorem test_hyps_AStuckLine :
    (∀ x ∈ [StationState.joining, .active, .quiet, .hold],
      (inState x (active [])).station.state.attached = true ∧ (inState x (active [])).line.phase ≠ .stuck) ∧
    (reachesStuck 4095 [low] = true ∧ reachesStuck 4094 [low] = false ∧ reachesStuck 4095 [some .one, low] = false ∧
      reachesStuck 4094 [low, low, none] = true ∧ 4096 ≤ 4096) ∧
    (onLine .stuck .stuck (active [])).station.state.attached = true ∧
      (onLine .stuck .stuck (active [])).line.phase = .stuck := by decide +kernel

/-- One held cell short of 4096, a frame's end, its break, an activity, driven cells in the wait, a spoil and a spoil of
the own frame make the line stuck; a read-back that differs first ends the attempt. -/
theorem test_any_bit_time_may_make_the_line_stuck :
    let s (c : LineCondition) (p : ReceivePhase) : State :=
      let t := onLine c p (active [])
      { t with line := { t.line with stuckCount := 4095, brokenWait := .stuckWait } }
    let own (p : ReceivePhase) := sending (.claim 2 0) (.claim 0) (s .busy p)
    let ends := [low, some (.held .high)]
    (followFrame 0 ends = .ended [] ∧ followFrame 0 [low, low] = .broken ∧ activityOf [low] = some .other) ∧
    (∀ t ∈ [after (.frameEnd ends) (s .busy .frame), after (.frameBecomesBroken [low, low]) (s .busy .frame),
        after (.activityBegins [low]) (s .window .rest), after (.activityBegins [low]) (s .busy .broken),
        after (.spoiledVerdict [low, none, none, none]) (s .busy .verdict),
        after (.attemptVerdict [low, none, none, none]) (own .verdict), after (.attemptCollided [low]) (own .frame)],
      t.line.phase = .stuck ∧ t.line.stuckCount = 4096 ∧ t.turn.condition = .stuck ∧ t.station.state = .hold ∧
        t.turn.attempt = none) ∧
    (after (.attemptCollided [low]) (own .frame)).counters.ownCollisions = 1 := by decide +kernel

theorem test_hyps_TwoEmptyWindows :
    let s := active []
    s.station.state.attached = true ∧ s.turn.condition = .window ∧ s.line.phase = .rest ∧ s.turn.emptyWindows = 0 ∧
      { s.turn with emptyWindows := 1 }.emptyWindows ≠ 0 := by decide +kernel

/-- A spoil leaves the stuck count at 6. The released bit times of a window, and those before the own rotation slot,
return it to 0: 4090 held bit times then do not make the line stuck (R15). -/
theorem test_a_released_window_clears_the_stuck_count :
    let s : State := hearing (.claim 1 0) (active [])
    let t := after .spoiledVerdict { s with line := { s.line with stuckCount := 2 } }
    t.line.stuckCount = 6 ∧ (after (.urgentSlotStart .sent) t).line.stuckCount = 6 ∧
      (after .windowPassesEmpty t).line.stuckCount = 0 ∧ (after (.rotationSlotStart .sent) t).line.stuckCount = 0 ∧
      reachesStuck (after .windowPassesEmpty t).line.stuckCount (List.replicate 4090 low) = false := by decide +kernel

/-- The end of HOLD is reported first, then ACTIVE (R50). -/
theorem test_the_end_of_hold_is_reported_in_order :
    let s := inState .hold (active [])
    let h := { s with turn := { s.turn with emptyWindows := 1 } }
    let t := after .windowPassesEmpty h
    let asked := [stateRecord 6 .joining .hold 0 0, stateRecord 3 .active .joining 0 0]
    h.reports t asked ∧ t.station.state = .active ∧
      t.port.secondClass = [.eventWrite 0 (stateRecord 6 .joining .hold 0 0),
        .eventWrite 1 { stateRecord 3 .active .joining 0 0 with number := 1 }] := by
  unfold State.reports; decide +kernel

theorem test_hyps_ACleanFrame :
    ∀ f ∈ [Frame.claim 1 0, .data 4 1023 4095 true true false 1 [0, 7], .gone 3 0 0 16],
      (hearing f (active [subEntry sub])).hears f := by
  unfold State.hears; decide +kernel

theorem test_hyps_CleanFramesAtAPublishEntry :
    let s := active [pubEntry (pub .claiming)]
    let o := active [pubEntry (pub .owned)]
    (s.tableOk ∧ pubEntry (pub .claiming) ∈ s.table ∧ (pub .claiming).claim = .claiming) ∧
    ((hearing (.claim 1 0) s).hears (.claim 1 0) ∧ 1 < s.ownNumber) ∧
    ((hearing (.dispute 3 0 4) s).hears (.dispute 3 0 4) ∧ 3 ≠ s.ownNumber ∧ 4 ≠ s.ownNumber) ∧
    ((hearing (.claim 3 0) s).hears (.claim 3 0) ∧ s.ownNumber < 3) ∧
    (o.tableOk ∧ pubEntry (pub .owned) ∈ o.table ∧ (pub .closing).claim = .closing) ∧
    ((hearing (.dispute 3 0 1) o).hears (.dispute 3 0 1) ∧ 1 < o.ownNumber) := by
  unfold State.hears State.tableOk; decide +kernel

/-- A LOST and a FAULT entry, with nothing queued, hear a CLAIM and a REPAIR of their stream and stay as they are. -/
theorem test_an_ended_publish_entry_takes_no_frame :
    let ended (c : ClaimState) : PublishEntry := { pub c with segmenter := .stopped }
    let s (c : ClaimState) (f : Frame) := hearing f (active [pubEntry (ended c)])
    let f : Frame := .claim 1 0
    let r : Frame := .repair 3 0 2 0 1
    ((s .lost f).tableOk ∧ pubEntry (ended .lost) ∈ (s .lost f).table ∧ (s .lost f).hears f ∧ f.stream = 0 ∧
      (ended .lost).isEnded .lost false ∧ (s .lost f).pool.waiting = []) ∧
    (after .cleanClaim (s .lost f)).publishAt 0 = some (ended .lost) ∧
    (after .cleanRepair (s .fault r)).publishAt 0 = some (ended .fault) := by
  unfold State.hears State.tableOk PublishEntry.isEnded; decide +kernel

theorem test_hyps_CleanFramesKeepTheRecordedPublisher :
    let s := active [subEntry sub]
    let n := active [subEntry { sub with publisher := none }]
    (s.tableOk ∧ n.tableOk ∧ subEntry sub ∈ s.table ∧ sub.state = .opened ∧ sub.closing = false) ∧
    (hearing (.claim 4 1023) s).hears (.claim 4 1023) ∧ (hearing (.dispute 1 1023 4) s).hears (.dispute 1 1023 4) ∧
    ((hearing (.yield 3 1023) s).hears (.yield 3 1023) ∧ sub.repair ≠ .due) ∧
    ((hearing (.data 4 1023 0 true true false 1 [0, 7]) n).hears (.data 4 1023 0 true true false 1 [0, 7]) ∧
      n.line.fillingBuffer = none) ∧
    (sub.publisher = some 3 ∧
      (hearing (.data 4 1023 0 true true false 1 [0, 7]) s).hears (.data 4 1023 0 true true false 1 [0, 7])) ∧
    ((segment 0 true true).stream = (subEntry sub).stream ∧
      ∀ k ∈ [none, some BufferId.a], let t := dataHeard n k (segment 0 true true)
        t.events.number = 1 ∧ (t.subscribeAt 31).bind (·.publisher) = some 3) := by
  unfold State.hears State.tableOk; decide +kernel

/-- A closing entry and one in FAULT drop the DATA frame staged in buffer A, from a station that is not their publisher
too. -/
theorem test_an_entry_that_takes_no_frame :
    let f : Frame := .data 4 1023 4095 true true false 1 [0, 7]
    let s (u : SubscribeEntry) := (hearing f (active [subEntry u])).setBuffer .a (.filling [0, 7])
    let c := { sub with closing := true }
    let d := { sub with state := .fault }
    (f.stream = 1023 ∧ (s c).hears f ∧ subEntry c ∈ (s c).table ∧ subEntry d ∈ (s d).table) ∧
    ((after .cleanData (s c)).subscribeAt 31 = some c ∧ (after .cleanData (s d)).subscribeAt 31 = some d) ∧
    ((after .cleanData (s c)).line.bufferA = .free ∧ (after .cleanData (s d)).line.bufferA = .free) ∧
    (after .cleanData (s c)).counters.foreignData = 0 := by
  unfold State.hears; decide +kernel

theorem test_hyps_ARepairIsServed :
    let p := { pub .owned with replayQueue := [cell], nextSequence := 1 }
    let s := active [pubEntry p]
    let listed (n : Nat) := (List.range n).map fun k => (⟨1, BitVec.ofNat 12 k⟩ : Resend)
    (s.tableOk ∧ pubEntry p ∈ s.table ∧ p.oldestHeld = 0) ∧
    (1 ≤ forwardDistance 4095 p.oldestHeld ∧ forwardDistance 2049 p.oldestHeld ≤ 2047) ∧
    (forwardDistance 2048 p.oldestHeld = 2048 ∧ p.replayQueue.length ≤ forwardDistance p.oldestHeld 2048) ∧
    (forwardDistance p.oldestHeld 0 < p.replayQueue.length ∧ (⟨0, 0⟩ : Resend) ∉ listed 15 ∧ (listed 15).length < 16 ∧
      16 ≤ (listed 16).length) ∧
    (p.claim = .owned ∧ (pub .lost).claim ≠ .owned ∧ (pub .lost).claim ≠ .closing) := by
  unfold State.tableOk; decide +kernel

theorem test_hyps_TheGoneList :
    goneOk [] 0 ∧ goneOk [⟨0, 7, 4095, 16, false⟩, ⟨1, 7, 100, 1, true⟩, ⟨2, 8, 0, 2, false⟩] 3 := by
  unfold goneOk goneApart; decide +kernel

/-- A sequence joins two entries in either order, grows one at its end or its front, is covered, or is dropped. -/
theorem test_the_gone_list_joins_and_grows :
    let low : GoneEntry := ⟨0, 7, 4094, 8, true⟩
    let high : GoneEntry := ⟨1, 7, 7, 7, false⟩
    let other : GoneEntry := ⟨2, 8, 0, 2, false⟩
    let full : List GoneEntry := [⟨0, 7, 4095, 16, false⟩, other, ⟨3, 9, 0, 1, false⟩, ⟨4, 10, 0, 1, false⟩]
    (goneOk [low, other, high] 3 ∧ goneOk [high, low] 3 ∧ goneOk full 5 ∧ low.count + high.count ≤ 15) ∧
    (goneAdded [low, other, high] 3 7 6 = [{ low with count := 16 }, other] ∧
      goneAdded [high, low] 3 7 6 = [{ high with first := 4094, count := 16 }]) ∧
    (goneAdded [low, other] 3 7 6 = [{ low with count := 9 }, other] ∧
      goneAdded [other, high] 3 7 6 = [other, { high with first := 6, count := 8 }] ∧
      goneAdded [low, other] 3 7 5 = [low, other]) ∧
    goneAdded full 5 7 15 = full := by
  unfold goneOk goneApart; decide +kernel

theorem test_hyps_AnotherStationsRepair :
    let u := { sub with repair := .due }
    let s := active [subEntry u]
    (s.tableOk ∧ subEntry u ∈ s.table ∧ u.takesFrames = true ∧ u.publisher = some 3 ∧ u.expected = some 4095) ∧
    ((hearing (.repair 4 1023 3 4080 16) s).hears (.repair 4 1023 3 4080 16) ∧ forwardDistance 4080 4095 < 16 ∧
      4 ≠ s.ownNumber) ∧
    ((hearing (.repair 4 1023 3 4080 15) s).hears (.repair 4 1023 3 4080 15) ∧ 15 ≤ forwardDistance 4080 4095) ∧
    ((hearing (.repair 2 1023 3 4080 16) s).hears (.repair 2 1023 3 4080 16) ∧ 2 = s.ownNumber) := by
  unfold State.hears State.tableOk; decide +kernel

theorem test_hyps_ACleanGone :
    let u := { sub with block := some ⟨0x10000, 4094, 1, 3⟩ }
    let s := active [subHeld u]
    (s.tableOk ∧ subHeld u ∈ s.table ∧ u.takesFrames = true ∧ u.expected = some 4095 ∧ u.publisher = some 3) ∧
    ((hearing (.gone 3 1023 4080 16) s).hears (.gone 3 1023 4080 16) ∧ forwardDistance 4080 4095 < 16 ∧
      u.placing = none ∧ (∀ c ∈ ([⟨5, 2, true, true, 3, [7]⟩] : List ReorderCell), c.sequence ≠ (4080 + 16#12)) ∧
      u.block.isSome = true ∧
      (subHeld u).chain.current = .held 0x10000 ⟨0, 0x11000, 240, false⟩) ∧
    ((hearing (.gone 4 1023 4080 16) s).hears (.gone 4 1023 4080 16) ∧ u.publisher ≠ some 4) ∧
    ((hearing (.gone 3 1023 4080 15) s).hears (.gone 3 1023 4080 15) ∧ 15 ≤ forwardDistance 4080 4095) := by
  unfold State.hears State.tableOk; decide +kernel

/-- Entry 31 as it hears the GONE of its expected sequence alone, starved with that segment parked in cell 5, or placing
it from staging buffer A; a segment of sequence 0 waits in cell 4. -/
def losing (parked first : Bool) : State :=
  let c : ReorderCell := ⟨4, 0, first, false, 3, [7]⟩
  let d : ReorderCell := ⟨5, 4095, true, true, 3, [7, 8]⟩
  let pl : Placing := ⟨if parked then .cell 5 else .staging .a, 4095, true, true, 3, 2, 1⟩
  let u := { sub with placing := some pl, starved := parked, waiting := if parked then [d, c] else [c] }
  { (hearing (.gone 3 1023 4095 1) (active [subHeld u])).setBuffer .a (.held (segment 4095 true true)) with
    pool := ⟨[6], [], [], 31⟩ }

theorem test_hyps_ALoss :
    ((losing true false).hears (.gone 3 1023 4095 1) ∧ forwardDistance 4095 4095 < 1) ∧
    (losing true false).port.outstanding (Request.writesFrom (.cell 5)) = false ∧
    (losing false true).port.outstanding (Request.writesFrom (.staging .a)) = false ∧
    (losing false true).fence.contains (0x11000 + 0) 1 = true := by
  unfold State.hears; decide +kernel

/-- The loss gives up the parked segment, and without FIRST the waiting segment is an orphan. -/
theorem test_a_loss_gives_up_the_parked_segment :
    let t := after .cleanGone (losing true false)
    (t.subscribeAt 31).map (fun v => (v.expected, v.placing, v.waiting, v.written)) = some (some 1, none, [], []) ∧
    t.pool.free = [6, 5, 4] ∧ t.counters.orphanSegments = 1 := by decide +kernel

/-- The loss gives up the segment being placed, and with FIRST the waiting segment is placed and opens a block. -/
theorem test_a_loss_drains_a_first :
    let t := after .cleanGone (losing false true)
    (t.subscribeAt 31).map (fun v => (v.expected, v.placing, v.waiting, v.block)) =
      some (some 1, none, [], some ⟨0x10000, 0, 1, 3⟩) ∧
    t.line.bufferA = .free ∧ t.port.firstClass = [.rxPayload 31 (.cell 4) 0x10000 0x11000 0 1] := by decide +kernel

theorem test_hyps_ASegmentIsTaken :
    let s := active [subEntry sub]
    let w : ReorderCell := ⟨5, 126, true, true, 3, [7]⟩
    let g (q : Seq) := segment q true true
    (s.tableOk ∧ subEntry sub ∈ s.table ∧ sub.takesFrames = true ∧ sub.publisher = some (g 0).sender ∧
      (g 0).stream = (subEntry sub).stream) ∧
    ({ sub with expected := none }.expected = none ∧ (segment 0 false true).first = false) ∧
    (2048 ≤ forwardDistance 4095 (g 2047).sequence ∧ 2048 ≤ forwardDistance 4095 (g 4094).sequence) ∧
    ((g 4095).sequence = 4095 ∧
      { sub with placing := some ⟨.staging .a, 4095, true, true, 3, 1, 0⟩ }.placing.isSome = true ∧
      { sub with starved := true, waiting := [⟨5, 4095, true, true, 3, [7]⟩] }.starved = true ∧
      (sub.placing = none ∧ sub.starved = false ∧ sub.waiting = [] ∧ sub.block = none)) ∧
    (1 ≤ forwardDistance 4095 (g 0).sequence ∧ forwardDistance 4095 (g 126).sequence ≤ 127) ∧
    ([w].any (fun c => c.sequence == (g 126).sequence) = true ∧
      sub.waiting.any (fun c => c.sequence == (g 126).sequence) = false ∧ s.pool.free = 5 :: [6] ∧
      (List.replicate 7 w).length + sub.waiting.length < 8 ∧ 8 ≤ (List.replicate 8 w).length + sub.waiting.length) ∧
    (128 ≤ forwardDistance 4095 (g 127).sequence ∧ forwardDistance 4095 (g 2046).sequence ≤ 2047 ∧
      forwardDistance 4095 (g 127).sequence ≤ 2047) := by
  unfold State.tableOk; decide +kernel

/-- At an UNSYNCED entry a FIRST sets expected and is placed; the entry is synced. -/
theorem test_a_first_syncs_the_entry :
    let u := { sub with expected := none }
    let g := segment 200 true false
    let t := ((active [subHeld u]).setBuffer .a (.held g)).takeSegment 31 .a g
    (u.expected = none ∧ g.first = true ∧ u.placing = none ∧ u.starved = false) ∧
    (t.subscribeAt 31).map (fun v => (v.expected, v.writeOffset)) = some (some 201, 1) ∧
    t.port.firstClass = [.rxPayload 31 (.staging .a) 0x10000 0x11000 0 1] := by decide +kernel

/-- An ahead segment with no free cell evicts the oldest replay cell and waits in it; without one it is dropped. -/
theorem test_an_ahead_segment_without_a_free_cell :
    let s := active [pubEntry { pub .owned with replayQueue := [cell], nextSequence := 1 }, subEntry sub]
    let e := { s with pool := ⟨[], [⟨9, 0, 3⟩], [], 31⟩, lists := ⟨[⟨0, 0⟩], []⟩ }
    let n := { s with pool := ⟨[], [], [], 31⟩ }
    let t := e.takeSegment 31 .a (segment 0 true true)
    let d := n.takeSegment 31 .a (segment 0 true true)
    ((t.subscribeAt 31).map fun u => (u.waiting.map (·.cell), u.repair)) = some ([9], .waiting) ∧
      ((s.entryAt 0).map (·.stream) = some 0 ∧ t.lists = e.listsWithout 0 0 0 ∧ t.lists = ⟨[], [⟨32, 0, 0, 1, false⟩]⟩) ∧
      (t.pool.aged = [] ∧ t.counters.replayEvictions = 1 ∧ (t.publishAt 0).map (·.replayQueue) = some []) ∧
      (d.counters.reorderDrops = 1 ∧ (d.subscribeAt 31).map (·.waiting) = some []) := by decide +kernel

/-- A far segment closes the open block LOST and moves the expected sequence; without FIRST the entry is UNSYNCED, and a
segment in order without a block is an orphan. -/
theorem test_far_arrivals_and_orphans :
    let u := { sub with block := some ⟨0x10000, 4094, 1, 3⟩, writeOffset := 1, starved := true,
                        waiting := [⟨4, 3, true, true, 3, [7]⟩] }
    let s := active [subHeld u]
    let far := s.takeSegment 31 .a (segment 200 false true)
    let first := s.takeSegment 31 .a (segment 200 true false)
    let orphan := (active [subEntry sub]).takeSegment 31 .a (segment 4095 false true)
    ((far.subscribeAt 31).map fun v => (v.expected, v.block.isNone, v.starved, v.waiting)) =
        some (none, true, false, []) ∧
      (far.pool.free = [5, 6, 4] ∧ far.port.firstClass.length = 1 ∧ far.events.number = 1) ∧
      ((first.subscribeAt 31).bind (·.expected)) = some 200 ∧
      (orphan.subscribeAt 31).bind (·.expected) = some 0 ∧ orphan.counters.orphanSegments = 1 := by decide +kernel

theorem test_hyps_AnInOrderSegmentIsPlaced :
    let u := { sub with writeOffset := 239 }
    let v := { u with block := some ⟨0x10000, 4094, 239, 3⟩ }
    let g := segment 4095 true false
    let s := (active [subHeld u]).setBuffer .a (.held g)
    let c : ReorderCell := ⟨5, 0, false, false, 3, [7]⟩
    (s.tableOk ∧ subHeld u ∈ s.table ∧ u.takesFrames = true ∧ u.expected = some g.sequence ∧ u.placing = none ∧
      u.partPlaced = 0 ∧ u.starved = false ∧ u.waiting = [] ∧ u.highestSeen = none ∧
      s.line.buffer .a = .held g ∧ g.last = false ∧ 1 ≤ g.bytes.length ∧ u.writeOffset + g.bytes.length ≤ 240 ∧
      s.fence.contains (0x11000 + u.writeOffset) g.bytes.length = true) ∧
    ((segment 4095 false false).first = false ∧ v.block.isSome = true) ∧ (g.first = true ∧ u.block = none) ∧
    ((segment 4095 true true).last = true ∧ (subHeld u).chain.lookAhead = .ended) ∧
    (c.sequence = g.sequence + 1 ∧ c.first = false ∧ c.last = false ∧ 1 ≤ c.bytes.length ∧
      238 + g.bytes.length + c.bytes.length ≤ 240 ∧
      s.fence.contains (0x11000 + (238 + g.bytes.length)) c.bytes.length = true) ∧
    (g.bytes.length ≤ { u with partPlaced := 1 }.partPlaced ∧ 0 < { u with partPlaced := 1 }.partPlaced ∧
      v.block = some ⟨0x10000, 4094, 239, 3⟩ ∧ (subHeld v).chain.current = .held 0x10000 ⟨0, 0x11000, 240, false⟩) ∧
    (u.writeOffset < 240 ∧ s.fence.contains (0x1FFFF + u.writeOffset) (min g.bytes.length (240 - 239)) = false) ∧
    ({ (subHeld u).chain with current := CurrentDescriptor.none }.lookAhead = .ended ∧ u.chainEnded = false ∧
      { u with chainEnded := true }.chainEnded = true ∧
      (s.port.outstanding (Request.writesFrom (.staging .a)) = false ∧ s.placingFrom .a = false)) ∧
    (s.pool.free = 5 :: [6] ∧ ([] : List ReorderCell).length + u.waiting.length < 8 ∧
      8 ≤ (List.replicate 8 c).length + u.waiting.length) ∧
    ({ u with starved := true }.starved = true ∧ ([c].all fun c => c.sequence != g.sequence) = true) := by
  unfold State.tableOk; decide +kernel

/-- A segment of two bytes at the last byte of a descriptor goes on in the HELD look-ahead, with the full write-back
between its two pieces; with LAST its block closes OK in the second descriptor. -/
theorem test_a_segment_over_two_descriptors :
    let u := { sub with writeOffset := 239, block := some ⟨0x10000, 4094, 239, 3⟩, firstOfBlock := true,
                        descriptorSequence := some 4094 }
    let e := { subEntry u with
      chain := ⟨true, .held 0x10000 ⟨0, 0x11000, 240, false⟩, .held 0x10010 ⟨0, 0x11800, 240, false⟩, some 0x10010⟩ }
    let g (last : Bool) : StagedSegment := ⟨1023, 3, 4095, false, last, false, 2, [1, 7, 8]⟩
    let t (last : Bool) := ((active [e]).setBuffer .a (.held (g last))).takeSegment 31 .a (g last)
    let held := (239 < 240 ∧ 240 < 239 + (g false).bytes.length ∧ 239 + (g false).bytes.length ≤ 240 + 240)
    held ∧ ((t false).port.firstClass.map Request.byteCount) = [1, 6, 1] ∧
      (((t false).subscribeAt 31).map fun v => (v.expected, v.writeOffset, v.firstOfBlock)) = some (some 0, 1, false) ∧
      ((t true).port.firstClass.map Request.byteCount) = [1, 6, 1, 6] ∧
      ((t true).subscribeAt 31).map (fun v => v.block.isNone) = some true := by decide +kernel

/-- Over a descriptor that is full on arrival, the full write-back goes first and the segment stands in the HELD
look-ahead whole; with no look-ahead the entry starves. -/
theorem test_a_segment_over_a_full_descriptor :
    let u := { sub with writeOffset := 240, block := some ⟨0x10000, 4094, 240, 3⟩, descriptorSequence := some 4094 }
    let e (l : LookAhead) := { subEntry u with
      chain := ⟨true, .held 0x10000 ⟨0, 0x11000, 240, false⟩, l, some 0x10010⟩ }
    let g : StagedSegment := ⟨1023, 3, 4095, false, false, false, 2, [1, 7, 8]⟩
    let s (l : LookAhead) := (active [e l]).setBuffer .a (.held g)
    let t (l : LookAhead) := (s l).takeSegment 31 .a g
    let held := LookAhead.held 0x10010 ⟨0, 0x11800, 2, false⟩
    (240 ≤ u.writeOffset ∧ g.bytes.length ≤ 2 ∧ (s held).fence.contains 0x11800 2 = true ∧ u.waiting = []) ∧
      ((t held).port.firstClass.map Request.byteCount = [6, 2] ∧
        ((t held).subscribeAt 31).map (fun v => (v.expected, v.writeOffset)) = some (some 0, 2)) ∧
      ((t .none).subscribeAt 31).map (fun v => (v.starved, v.waiting.length)) = some (true, 1) := by
  decide +kernel

/-- Entry 31 with five bytes of the block of sequence 4095 in its descriptor and some bytes of its expected segment
placed takes a segment of two bytes. -/
def copyTaken (placed : Nat) (first : Bool) : State :=
  let g : StagedSegment := ⟨1023, 3, 4095, first, false, false, 2, [1, 7, 8]⟩
  let u : SubscribeEntry := { sub with partPlaced := placed, writeOffset := 5, block := some ⟨0x10000, 4095, 5, 3⟩ }
  ((active [subHeld u]).setBuffer .a (.held g)).takeSegment 31 .a g

/-- A copy of a segment of which one byte is placed goes on at its second byte, and one of which all is placed has no
piece. -/
theorem test_a_copy_of_a_partly_placed_segment :
    let of (s : State) := (s.subscribeAt 31).map fun v => (v.expected, v.partPlaced, v.writeOffset)
    ((copyTaken 1 false).port.firstClass = [.rxPayload 31 (.staging .a) 0x10000 0x11005 1 1] ∧
      of (copyTaken 1 false) = some (some 0, 0, 6)) ∧
    ((copyTaken 2 false).port.firstClass = [] ∧ (copyTaken 2 false).line.bufferA = .free ∧
      of (copyTaken 2 false) = some (some 0, 0, 5)) := by decide +kernel

/-- A copy with FIRST closes its own block LOST and waits for a descriptor from its second byte on (log 8). -/
theorem test_a_first_closes_its_own_block :
    (copyTaken 1 true).port.firstClass =
        [.rxWriteBack 31 ⟨0x10000, 5, false, true, .lost, 4095, some ⟨0x10000, 4095, 5, 3⟩⟩, .lastLook 31 0x10000] ∧
      (((copyTaken 1 true).subscribeAt 31).bind (·.block)).isNone = true ∧
      ((copyTaken 1 true).subscribeAt 31).bind (·.placing) =
        some ⟨.staging .a, 4095, true, false, 3, 2, 1⟩ := by decide +kernel

/-- A FIRST that a starved entry holds closes the open block LOST; without a cell to hold it none closes (log 8). -/
theorem test_a_first_at_a_starved_entry :
    let g := segment 4095 true true
    let u := { sub with starved := true, block := some ⟨0x10000, 4090, 5, 3⟩, writeOffset := 5 }
    let s := (active [subHeld u]).setBuffer .a (.held g)
    let t (s : State) := s.takeSegment 31 .a g
    let of (s : State) := (s.subscribeAt 31).map fun v => (v.starved, v.waiting.length, v.block.isSome)
    of (t s) = some (true, 1, false) ∧ (t s).port.firstClass.map Request.byteCount = [6] ∧
      of (t { s with pool := ⟨[], [], [], 31⟩ }) = some (true, 0, true) := by decide +kernel

/-- Without a descriptor a chain at its END is looked at again, and one with no look-ahead starves: the segment waits in
a cell, its buffer is free, and RX_STARVED is emitted once. -/
theorem test_a_segment_without_a_descriptor :
    let g := segment 4095 true true
    let e (l : LookAhead) : Entry := { subEntry sub with chain := ⟨true, .none, l, some 0x10000⟩ }
    let t (l : LookAhead) := ((active [e l]).setBuffer .a (.held g)).takeSegment 31 .a g
    (t .ended).port.firstClass = [.lastLook 31 0x10000] ∧
      ((t .none).subscribeAt 31).map (fun v => (v.starved, v.waiting.length, v.placing.isSome)) = some (true, 1, true) ∧
      (t .none).line.bufferA = .free ∧ (t .none).events.number = 1 ∧ (t .none).pool.free = [6] := by decide +kernel

/-- With the head, the look-ahead or the tail being read a segment waits and nothing else changes; a FAULTY look-ahead
puts the entry in FAULT. -/
theorem test_a_segment_that_meets_a_read_or_a_fault :
    let g := segment 4095 true true
    let s (c : CurrentDescriptor) (l : LookAhead) : State :=
      (active [{ subEntry sub with chain := ⟨true, c, l, some 0x10000⟩ }]).setBuffer .a (.held g)
    let t (c : CurrentDescriptor) (l : LookAhead) := (s c l).takeSegment 31 .a g
    let waits (c : CurrentDescriptor) (l : LookAhead) : Bool :=
      t c l == (s c l).modifySubscribe 31 fun v =>
        { v with placing := some ⟨.staging .a, 4095, true, true, 3, 1, 0⟩ }
    (waits (.reading 0x10000) .none ∧ waits .none (.reading 0x10010) ∧ waits .none .looking ∧
      waits (.held 0x10000 ⟨0, 0x11000, 0, false⟩) .looking) ∧
    ((t .none (.faulty 0x10010 .busError)).subscribeAt 31).map (·.state) = some .fault ∧
    (t .none (.faulty 0x10010 .busError)).events.number = 1 := by decide +kernel

/-- A take has found the chain ended and a GONE ends the starvation: the next FIRST starves at once, with no read of the
tail; after a RESUME that found nothing either, the take looks again (R144). -/
theorem test_the_tail_is_not_read_again_before_resume :
    let g := segment 0 true true
    let pl : Placing := ⟨.cell 5, 4095, true, true, 3, 1, 0⟩
    let u := { sub with starved := true, chainEnded := true, placing := some pl, waiting := [⟨5, 4095, true, true, 3, [7]⟩] }
    let e : Entry := { subEntry u with chain := ⟨true, .none, .ended, some 0x10000⟩ }
    let s := after .cleanGone (hearing (.gone 3 1023 4095 1) (active [e]))
    let arrive (t : State) := (t.setBuffer .a (.held g)).takeSegment 31 .a g
    let resumed := after (.resume 1023) s
    let looked := after (.lastLookEnd (.ok (record 0 1))) (granting (.lastLook 31 0x10000) { resumed with port := s.port })
    ((s.subscribeAt 31).map fun v => (v.starved, v.chainEnded, v.expected)) = some (false, true, some 0) ∧
      (((arrive s).subscribeAt 31).map (·.starved) = some true ∧ (arrive s).port.firstClass = []) ∧
      resumed.port.firstClass = [.lastLook 31 0x10000] ∧
      (((arrive looked).subscribeAt 31).map (·.starved) = some false ∧
        (arrive looked).port.firstClass = [.lastLook 31 0x10000]) := by decide +kernel

/-- A DISPUTE is due, unmarked. -/
def disputing : Entry := pubEntry { pub .owned with disputeDue := true }

/-- A REPAIR is due, with publisher 3 and expected sequence 4095. -/
def asking : Entry := subEntry { sub with repair := .due, highestSeen := some 0 }

theorem test_hyps_TheUrgentSlot :
    ((active [disputing]).tableOk ∧ (active [asking]).tableOk ∧ (active []).tableOk) ∧
    (∃ p, disputing.role = .publish p ∧ p.disputeDue = true ∧ p.disputeMark = false) ∧
    (∀ e' ∈ [disputing], disputing.index ≤ e'.index) ∧
    (∀ e ∈ [asking], ¬∃ p, e.role = .publish p ∧ p.disputeDue = true ∧ p.disputeMark = false) ∧
    ([(⟨0, 1023, 0, 16, false⟩ : GoneEntry)] = ⟨0, 1023, 0, 16, false⟩ :: []) ∧
    (¬∃ g rest, (active [asking]).lists.gone = g :: rest ∧ g.mark = false) ∧
    (∃ u, asking.role = .subscribe u ∧ u.asks 3 4095 ∧ u.repairMark = false) ∧
    (∀ e' ∈ [asking], asking.index ≤ e'.index) ∧
    (∀ e ∈ (active []).table, ¬∃ u, e.role = .subscribe u ∧ u.repairMark = false) := by
  refine ⟨?_, ⟨_, rfl, by decide⟩, by decide, by simp [asking, subEntry], rfl, by simp [active, State.powerOn],
    ⟨_, rfl, ?_, rfl⟩, by decide, by simp [active]⟩
  · unfold State.tableOk; decide +kernel
  · unfold SubscribeEntry.asks; decide

/-- An entry with its CLAIM due, one with its YIELD due, one with a segment to resend, one with a segment to send. -/
def claimer : Entry := pubEntry { pub .claiming with claimDue := true }
def yielder : Entry := pubEntry { pub .fault with yieldDue := true }
def resender : Entry := pubEntry { pub .owned with replayQueue := [cell], nextSequence := 1 }
def sender : Entry := pubEntry { pub .owned with sendQueue := [cell], nextSequence := 1 }

theorem test_hyps_TheRotationSlot :
    (∀ e ∈ [disputing, asking, claimer, yielder, resender, sender],
      (active [e]).tableOk ∧ (active [e]).turn.pointer < 32 ∧ ∀ e' ∈ [e], e.index ≤ e'.index) ∧
    (∃ p, disputing.role = .publish p ∧ p.disputeDue = true) ∧
    (∀ e ∈ [asking, claimer, yielder, resender, sender], ¬∃ p, e.role = .publish p ∧ p.disputeDue = true) ∧
    ((active []).lists.gone = [] ∧ ∃ u, asking.role = .subscribe u ∧ u.asks 3 4095) ∧
    (∀ e ∈ [claimer, yielder, resender, sender], ¬∃ u target x, e.role = .subscribe u ∧ u.asks target x) ∧
    (∃ p, claimer.role = .publish p ∧ p.claimDue = true ∧ p.claim = .claiming) ∧
    (∀ e ∈ [yielder, resender, sender], ¬∃ p, e.role = .publish p ∧ p.claimDue = true ∧ p.claim = .claiming) ∧
    (∃ p, yielder.role = .publish p ∧ p.yieldDue = true) ∧
    (∀ e ∈ [resender, sender], ¬∃ p, e.role = .publish p ∧ p.yieldDue = true) ∧
    (∃ p, resender.role = .publish p ∧ p.claim = .owned ∧
      p.replayQueue.find? (fun c => c.sequence == (⟨0, 0⟩ : Resend).sequence) = some cell ∧ resender.index = 0) ∧
    ((active []).lists.resend = [] ∧ ∃ p rest, sender.role = .publish p ∧ p.claim = .owned ∧
      p.sendQueue = cell :: rest ∧ cell.complete = true) := by
  refine ⟨?_, ⟨_, rfl, rfl⟩, ?_, ⟨rfl, _, rfl, ?_⟩, ?_, ⟨_, rfl, rfl, rfl⟩, ?_, ⟨_, rfl, rfl⟩, ?_, ⟨_, rfl, rfl, rfl, rfl⟩,
    rfl, _, _, rfl, rfl, rfl, rfl⟩
  · unfold State.tableOk; decide +kernel
  · simp [asking, claimer, yielder, resender, sender, subEntry, pubEntry, pub, PublishEntry.created]
  · unfold SubscribeEntry.asks; decide
  · simp [claimer, yielder, resender, sender, pubEntry]
  · simp [yielder, resender, sender, pubEntry, pub]
  · simp [resender, sender, pubEntry, pub, PublishEntry.created]

theorem test_hyps_AnActiveStationStarts :
    let s := active [disputing]
    let o := { onLine .opened .rest s with turn := { s.turn with condition := .opened, holdOff := some 0 } }
    (s.station.state = .active ∧ s.line.phase = .rest ∧ s.turn.attempt = none ∧ s.turn.condition = .window ∧
      s.selectUrgent = some (.dispute 2 0 2, .dispute 0) ∧ s.selectAny = some (.dispute 2 0 2, .dispute 0)) ∧
    ((active []).selectUrgent = none ∧ (active []).selectAny = none) ∧
    (o.station.state = .active ∧ o.line.phase = .rest ∧ o.turn.attempt = none ∧ o.turn.condition = .opened ∧
      o.turn.holdOff.isSome = true ∧ o.selectAny.isSome = true) ∧
    after (.rotationSlotStart (.forestalled [low])) s = after (.activityBegins [low]) s ∧
    (inState .quiet s).station.state ≠ .active := by decide +kernel

theorem test_hyps_AnOwnAttemptEnds :
    let s := active [disputing]
    let f := { s with station := { s.station with history := List.replicate 7 .spoiled ++ List.replicate 9 .delivered } }
    ∀ t ∈ [s, f], t.historyOk ∧ t.station.state = .active ∧
      (sending (.dispute 2 0 2) (.dispute 0) (onLine .busy .frame t)).line.phase = .frame ∧
      (sending (.dispute 2 0 2) (.dispute 0) (onLine .busy .verdict t)).line.phase = .verdict ∧
      (sending (.dispute 2 0 2) (.dispute 0) t).turn.attempt = some ⟨.dispute 2 0 2, .dispute 0, false⟩ := by
  unfold State.historyOk; decide +kernel

/-- A read-back differs at its first cell or at the last of the frame, or at none. -/
theorem test_hyps_AReadBack :
    let f := Frame.dispute 2 0 2
    (f.onLine[0]? = some .one ∧ [some LineCell.zero][0]? = some (some .zero) ∧ some LineCell.zero ≠ some .one) ∧
      readBackFails f.onLine (f.onLine.map some) = false ∧ readBackFails f.onLine [some .one] = false ∧
      readBackFails f.onLine ((f.onLine.map some).set (f.onLine.length - 1) none) = true ∧
      silence.any Option.isSome = false ∧ [low].any Option.isSome = true := by decide +kernel

/-- The eighth failure in the history takes the station to QUIET, the seventh does not (R42). -/
theorem test_the_eighth_failure_makes_quiet :
    let s (n : Nat) := sending (.dispute 2 0 2) (.dispute 0) (onLine .busy .frame (active [disputing]))
      |> fun t => { t with station := { t.station with history := List.replicate n .spoiled } }
    (after (.attemptCollided [none]) (s 7)).station.state = .quiet ∧
      (after (.attemptCollided [none]) (s 6)).station.state = .active := by
  decide +kernel

theorem test_hyps_AFailedAttempt :
    ((active [disputing]).tableOk ∧ disputing ∈ (active [disputing]).table ∧
      (AttemptSource.dispute 0) = .dispute disputing.serial ∧ disputing.publish?.map (·.disputeDue) = some true) ∧
    ((active [asking]).tableOk ∧ asking ∈ (active [asking]).table ∧
      (AttemptSource.repair 31) = .repair asking.serial ∧ asking.subscribe?.map (·.repair) = some .due) := by
  unfold State.tableOk; decide +kernel

theorem test_hyps_ADeliveredFrame :
    let g : GoneEntry := ⟨3, 1023, 0, 16, true⟩
    let closing := pubEntry { pub .fault with yieldDue := true, closeRequested := true }
    ((active [disputing]).tableOk ∧ disputing ∈ (active [disputing]).table ∧ disputing.publish?.isSome = true) ∧
    (((active [yielder]).ownerOutcome ⟨.claim 2 0, .claim 0, false⟩ .delivered).publishAt 0).map (·.claimSent) = some true ∧
    (claimer.publish?.map (·.claim) = some .claiming ∧ yielder.publish?.map (·.claim) = some .fault ∧
      closing.publish?.map (fun p => (p.claim, p.closeRequested)) = some (.fault, true)) ∧
    (5 ∉ (active [disputing]).table.map (·.serial) ∧ 5 ∉ [g].map (·.serial)) ∧
    ((([g].map (·.serial)).Nodup) ∧ g ∈ [g] ∧ [g].erase g = [] ∧ ((1 : Seq) ≠ g.first ∨ 15 ≠ g.count)) ∧
    (asking ∈ (active [asking]).table ∧ (AttemptSource.repair 31) = .repair asking.serial ∧
      (Frame.repair 2 1023 3 4095 1) = .repair 2 1023 3 4095 1) ∧
    (resender ∈ (active [resender]).table ∧ (AttemptSource.resend 0 0) = .resend resender.serial 0 ∧
      (⟨resender.index, 0⟩ : Resend) ∈ [(⟨0, 0⟩ : Resend)] ∧ [(⟨0, 0⟩ : Resend)].Nodup) := by
  unfold State.tableOk; decide +kernel

theorem test_hyps_ADeliveredSegment :
    let p := { pub .owned with sendQueue := [cell], nextSequence := 1, replayQueue := List.replicate 31 cell }
    let s := active [pubEntry p]
    s.tableOk ∧ pubEntry p ∈ s.table ∧ p.claim = .owned ∧ p.sendQueue = cell :: [] ∧
      (∀ d ∈ ([] : List PublishCell), d.cell ≠ cell.cell) ∧ p.replayQueue.length < 32 ∧
      (AttemptSource.newData 0 0 9) = .newData (pubEntry p).serial (pubEntry p).index cell.cell ∧
      (cell.last = true → cell.tag.isSome = true) := by
  unfold State.tableOk; decide +kernel

/-- A CLOSING entry whose replay queue is full releases its head; its last segment delivered, it waits for the SENT
write-back, and its YIELD is not yet due. -/
theorem test_hyps_AFullReplayQueue :
    let queue : List PublishCell := (List.range 32).map fun k => { cell with cell := 100 + k, sequence := BitVec.ofNat 12 k }
    let p := { pub .closing with sendQueue := [cell], nextSequence := 33, replayQueue := queue, segmenter := .stopped }
    let s := { active [pubEntry p] with lists := ⟨[⟨0, 0⟩], []⟩ }
    let t := s.ownerOutcome ⟨.claim 2 0, .newData 0 0 9, false⟩ .delivered
    t.lists = s.listsWithout 0 0 0 ∧ t.lists.gone.length = 1 ∧
    (s.tableOk ∧ p.claim = .closing ∧ 32 ≤ p.replayQueue.length ∧ s.pool.waiting = [] ∧
      (∀ d ∈ queue.drop 1, d.cell ≠ 100)) ∧
    (t.pool.free = [5, 6, 100] ∧ t.counters.replayReleases = 1 ∧
      (t.publishAt 0).map (fun v => (v.replayQueue.length, v.writeBacks.length, v.yieldDue)) = some (32, 1, false)) := by
  unfold State.tableOk; decide +kernel

theorem test_hyps_Attach :
    let s := { inState .detached (active []) with
      fence := ⟨0x18000, 0x181FF⟩, events := { EventUnit.powerOn with config := ⟨0x18000, 4, 15, 0⟩ } }
    let size := 2 ^ s.events.config.sizeCode.toNat
    ((active []).station.state ≠ .detached ∧ s.station.state = .detached) ∧
    (s.fence.base.toNat < s.fence.limit.toNat ∧ 4 ≤ s.events.config.sizeCode.toNat ∧
      s.events.config.sizeCode.toNat ≤ 10 ∧ 1 ≤ s.events.config.threshold.toNat ∧
      s.events.config.threshold.toNat ≤ size - 1 ∧ s.fence.base.toNat ≤ s.events.config.base.toNat ∧
      s.events.config.base.toNat + 32 * size - 1 ≤ s.fence.limit.toNat) ∧
    ¬16 ≤ size - 1 ∧ s.events.ready = false ∧ (active []).events.ready = true := by decide +kernel

theorem test_hyps_DetachAndRejoin :
    ((inState .detached (active [])).station.state = .detached) ∧
    ((active []).station.state ≠ .detached ∧ (active []).station.state ≠ .disabled ∧ (active [asking]).table ≠ [] ∧
      (active []).table = []) ∧
    ((active []).station.state ≠ .quiet ∧ (inState .quiet (active [])).station.state = .quiet) := by decide +kernel

/-- A table with its 32 entries. -/
def full : List Entry := (List.range 32).map fun i => ⟨i, i, i, ⟨false, .none, .none, none⟩, .subscribe .created⟩

theorem test_hyps_ARefusedEntryCommand :
    ((0 : BitVec 16) = 0 ∧ 11 ≤ (11 : BitVec 16).toNat) ∧
    ((inState .detached (active [])).tableOk ∧ (inState .detached (active [])).station.state = .detached) ∧
    ((active []).station.state = .active ∧ 1024 ≤ (1024 : BitVec 16).toNat ∧ (1023 : BitVec 16).toNat < 1024) ∧
    (1023 ∉ (active []).table.map (·.stream) ∧ 1023 ∈ (active [asking]).table.map (·.stream)) ∧
    ((active full).tableOk ∧ 1023 ∉ full.map (·.stream) ∧ full.length = 32 ∧ (full.drop 1).length < 32) ∧
    ((0x1FFF8#32).toNat % 16 ≠ 0 ∧ (0xFFF0#32).toNat < (active []).fence.base.toNat ∧
      (active []).fence.limit.toNat < (0x20000#32).toNat + 15) := by
  unfold State.tableOk; decide +kernel

theorem test_hyps_AnOpen :
    let s := { active full.dropLast with window := { Window.powerOn with argument := 0x1FFF0 } }
    (s.tableOk ∧ s.station.state.attached = true ∧ (1023 : BitVec 16).toNat < 1024 ∧
      (1023 : BitVec 16).toNat ∉ s.table.map (·.stream) ∧ 31 ∉ s.table.map (·.index) ∧
      (∀ j, j < 31 → j ∈ s.table.map (·.index))) ∧
    (s.window.argument.toNat % 16 = 0 ∧ s.fence.contains s.window.argument.toNat 16 = true) ∧
    (active []).window.argument = 0 := by
  unfold State.tableOk; decide +kernel

theorem test_hyps_Resume :
    let e := { pubEntry (pub .owned) with chain := ⟨true, .none, .ended, some 0x10000⟩ }
    let s := { active [claimer] with window := { Window.powerOn with argument := 0x1FFF0 } }
    (s.tableOk ∧ s.station.state.attached = true ∧ (0 : BitVec 16).toNat < 1024 ∧ claimer ∈ s.table ∧
      claimer.stream = (0 : BitVec 16).toNat) ∧
    (claimer.resumable = true ∧ claimer.chain.linked = false ∧ s.window.argument ≠ 0 ∧
      s.window.argument.toNat % 16 = 0 ∧ s.fence.contains s.window.argument.toNat 16 = true) ∧
    ¬(0x20000#32).toNat < 0x20000 ∧ s.fence.contains 0x20000 16 = false ∧
    ((active [e]).tableOk ∧ e.resumable = true ∧ e.chain.linked = true ∧ e.chain.lookAhead = .ended) ∧
    (yielder.resumable = false ∧ (active []).window.argument = 0 ∧
      { e.chain with lookAhead := .looking }.lookAhead ≠ .ended) := by
  unfold State.tableOk; decide +kernel

theorem test_hyps_CloseOfAPublishEntry :
    let s := active [yielder]
    (s.tableOk ∧ s.station.state.attached = true ∧ (0 : BitVec 16).toNat < 1024 ∧ yielder ∈ s.table ∧
      yielder.stream = (0 : BitVec 16).toNat) ∧
    ((pub .fault).claim = .fault ∧ (pub .fault).yieldDue = false ∧ (pub .lost).claim = .lost ∧
      { pub .fault with yieldDue := true }.yieldDue = true) ∧
    ((pub .owned).claim = .owned ∧ { pub .owned with position := 1 }.position > 0 ∧ (pub .closing).claim = .closing) := by
  unfold State.tableOk; decide +kernel

theorem test_hyps_CloseOfASubscribeEntry :
    let u := { sub with block := some ⟨0x10000, 4094, 1, 3⟩ }
    let s := active [subHeld u]
    (s.tableOk ∧ s.station.state.attached = true ∧ (1023 : BitVec 16).toNat < 1024 ∧ subHeld u ∈ s.table ∧
      (subHeld u).stream = (1023 : BitVec 16).toNat ∧ u.state = .opened ∧ u.closing = false ∧ u.placing = none ∧
      (subHeld u).chain.current = .held 0x10000 ⟨0, 0x11000, 240, false⟩) ∧
    (sub.block = none ∧ s.port.outstanding (Request.receiveWriteOf 31) = false ∧
      (granting (.rxPayload 31 (.cell 5) 0x10000 0x11000 0 1) s).port.outstanding (Request.receiveWriteOf 31) = true) ∧
    ({ sub with state := .fault }.state = .fault ∧ { sub with closing := true }.closing = true) := by
  unfold State.tableOk; decide +kernel

/-- CLOSE while a segment is being placed from a staging buffer frees the buffer. -/
theorem test_close_gives_up_a_placing :
    let g := segment 4095 true true
    let u := { sub with placing := some ⟨.staging .a, 4095, true, true, 3, 1, 0⟩ }
    let s := (active [{ subEntry u with chain := ⟨true, .none, .looking, some 0x10000⟩ }]).setBuffer .a (.held g)
    s.port.outstanding (Request.writesFrom (.staging .a)) = false ∧ u.block = none ∧
      (after (.close 1023) s).line.bufferA = .free ∧ (after (.close 1023) s).table = [] := by decide +kernel

/-- CLOSE with a write outstanding and one of two bytes placed: the entry stays, with part placed 1 (R108; log 44). -/
theorem test_close_keeps_what_was_placed :
    let u := { sub with placing := some ⟨.cell 5, 4095, true, true, 3, 2, 1⟩ }
    let e := { subEntry u with chain := ⟨true, .none, .looking, some 0x10000⟩ }
    let s := granting (.rxPayload 31 (.cell 5) 0x10000 0x11000 0 1) (active [e])
    ((after (.close 1023) s).subscribeAt 31).map (fun v => (v.closing, v.partPlaced, v.placing)) =
      some (true, 1, none) := by decide +kernel

/-- A closing entry that stays for its write takes no clean frame of its stream. -/
theorem test_close_ends_reception :
    let f : Frame := .claim 4 1023
    let s := granting (.rxPayload 31 (.cell 5) 0x10000 0x11000 0 1) (active [subEntry sub])
    let t := after (.close 1023) s
    (f.stream = 1023 ∧ (t.subscribeAt 31).map (·.closing) = some true) ∧
    (after .cleanClaim (hearing f t)).subscribeAt 31 = t.subscribeAt 31 := by decide +kernel

theorem test_hyps_AbortAndInfo :
    let u := { sub with attempts := 3, highestSeen := some 126, writeOffset := 65535, partPlaced := 239,
                        requested := some (4095, 16), waiting := List.replicate 8 ⟨5, 0, true, true, 3, [7]⟩ }
    let s := active [pubEntry (pub .owned), subEntry u]
    (s.tableOk ∧ s.station.state.attached = true ∧ subEntry u ∈ s.table ∧ pubEntry (pub .owned) ∈ s.table ∧
      (subEntry u).stream = (1023 : BitVec 16).toNat ∧ (1023 : BitVec 16).toNat < 1024) ∧ s.pool.waiting = [] ∧
    (u.attempts ≤ 3 ∧ u.publisher.getD 0 ≤ 32 ∧ u.reorderCount ≤ 8 ∧ u.highestDistance ≤ 127 ∧
      u.writeOffset < 65536 ∧ u.partPlaced < 240 ∧ (u.requested.map Prod.snd).getD 0 ≤ 16) ∧
    ((pub .owned).sendQueue.length ≤ 8 ∧ (pub .owned).writeBacks.length ≤ 8) := by
  unfold State.tableOk; decide +kernel

theorem test_hyps_StationRead :
    (active []).turn.lastSender ≤ 32 ∧ failureCount (List.replicate 8 .spoiled) ≤ 8 ∧
      (after (.stationRead 3 1) (active [])).window.readData = (active []).stationWord := by decide +kernel

theorem test_hyps_RingAndConsumerWrites :
    let s := active []
    (s.station.state ≠ .disabled ∧ s.station.state ≠ .detached ∧ (inState .detached s).station.state = .detached) ∧
    (s.events.ready = true ∧ s.events.writesStopped = false) := by decide +kernel

/-- An event goes to the ring, loses its record outside the fence, joins the backlog of a full ring, or is lost with
OVERFLOW. -/
theorem test_where_an_event_goes :
    let ev := streamEvent .claimWon 0 1 2 0 0 0
    let s (limit : Word) (consumer : Nat) (held : List Event) : State := { active [] with
      fence := ⟨0x10000, limit⟩, events := { (active []).events with consumer := consumer, backlog := held } }
    let t (limit : Word) (consumer n : Nat) := (s limit consumer (List.replicate n ev)).emit ev
    ((active []).events.ready = true ∧ (State.powerOn ⟨2, 4, 0⟩).events.ready = false) ∧
    ((t 0x1FFFF 0 0).port.secondClass = [.eventWrite 0 ev] ∧ (t 0x1FFFF 0 0).events.writeIndex = 1) ∧
    ((t 0x18000 0 0).events.hostFault = true ∧ (t 0x18000 0 0).counters.eventsLost = 1) ∧
    ((t 0x1FFFF 1 0).events.backlog = [ev] ∧ (t 0x1FFFF 0 3).events.backlog.length = 4) ∧
    ((t 0x1FFFF 0 4).events.overflow = true ∧ (t 0x1FFFF 0 4).counters.eventsLost = 1) := by decide +kernel

/-- A write of EVENT_CONSUMER drains two records held back; with room for one it drains one; and with the second
record's place outside the fence it loses that record and latches HOST_FAULT. -/
theorem test_the_backlog_drains :
    let ev := streamEvent .claimWon 0 1 2 0 0 0
    let s (index : Nat) (limit : Word) : State := { active [] with
      fence := ⟨0x10000, limit⟩, events := { (active []).events with backlog := [ev, ev], writeIndex := index } }
    let t (value : Word) (limit : Word) := after (.eventConsumerWrite value) (s 14 limit)
    ((t 14 0x1FFFF).events.backlog = [] ∧ (t 14 0x1FFFF).port.secondClass.length = 2 ∧
      (t 14 0x1FFFF).events.writeIndex = 0) ∧
    ((t 0 0x1FFFF).events.backlog = [ev] ∧ (t 0 0x1FFFF).port.secondClass.length = 1) ∧
    ((t 14 0x181DF).events.backlog = [] ∧ (t 14 0x181DF).events.hostFault = true ∧
      (t 14 0x181DF).counters.eventsLost = 1) := by decide +kernel

theorem test_hyps_ARegisterWrite :
    (((0x0D : BitVec 7).toNat % 4 ≠ 0) ∧ 0x50 ≤ (0x50 : BitVec 7).toNat) ∧
    ((inState .detached (active [])).station.state = .detached ∧ (active []).station.state = .active) ∧
    ((0xFFFF0001#32).toNat % 65536 = 1 ∧ (0x0000000A#32).toNat % 65536 = 10 ∧ 11 ≤ (0x0000FFFF#32).toNat % 65536 ∧
      (0x000B0000#32).toNat % 65536 = 0) ∧
    ((List.range 160).length ≤ 160 ∧ (active []).pool.aged.length ≤ 160 ∧ (List.range 32).length ≤ 32) := by
  decide +kernel

theorem test_hyps_TheTimers :
    let e := pubEntry { pub .claiming with settleTimer := some 0 }
    let s := { active [e] with pool := ⟨[], [⟨9, 0, 65536⟩], [], 31⟩ }
    (s.tableOk ∧ e ∈ s.table ∧ e.publish?.map (fun p => (p.claim, p.settleTimer)) = some (.claiming, some 0) ∧
      s.station.state.receiving = true) ∧
    (s.pool.aged = ⟨9, 0, 65536⟩ :: [] ∧ s.pool.waiting = [] ∧ (active []).pool.aged = [] ∧
      (⟨9, 0, 65536⟩ : AgedCell).age ≥ 65536 ∧ (⟨9, 0, 65535⟩ : AgedCell).age < 65536) ∧
    ((pub .claiming).settleTimer = none ∧ CoalescingTimer.running 0 = .running 0 ∧
      (active []).events.timer ≠ .running 0) := by
  unfold State.tableOk; decide +kernel

/-- A cell released at the age limit, named by the resend list, goes to the entry that waits first after the pointer. -/
theorem test_hyps_AReleaseToAWaitingEntry :
    let e := { pubEntry { pub .owned with segmenter := .waitCell, replayQueue := [cell], nextSequence := 1 } with
      chain := ⟨true, .held 0x10000 ⟨0, 0x11000, 241, true⟩, .ended, some 0x10000⟩ }
    let s := { active [e] with pool := ⟨[], [⟨9, 0, 65536⟩], [0], 31⟩, lists := ⟨[⟨0, 0⟩], []⟩ }
    let t := after .replayAgeLimit s
    (e ∈ s.table ∧ e.index ∈ s.pool.waiting ∧ s.pool.waitingPointer < 32 ∧
      (∀ i ∈ s.pool.waiting, i < 32 ∧ (e.index + 31 - 31) % 32 ≤ (i + 31 - 31) % 32)) ∧
    (t.pool = ⟨[], [], [], 0⟩ ∧ t.lists.resend = [] ∧ t.lists.gone.length = 1 ∧
      (t.publishAt 0).map (fun v => (v.segmenter, v.sendQueue.map (·.decodedLength))) = some (.filling, [240]) ∧
      t.port.thirdClass = [.txPayload 0 9 0x11000 240]) := by decide +kernel

theorem test_hyps_TheRepairTimers :
    let u := { sub with repair := .waiting, repairTimer := some 0, highestSeen := some 14 }
    let s := active [subEntry u]
    (s.tableOk ∧ subEntry u ∈ s.table ∧ u.expected = some 4095 ∧ u.repairTimer.isSome = true ∧
      s.station.state.receiving = true ∧ u.starved = false ∧ u.repair = .waiting ∧ u.publisher.isSome = true) ∧
    ({ u with publisher := none }.publisher = none ∧ u.placing = none ∧ u.waiting = [] ∧ u.block = none ∧
      1 ≤ u.repairCount 4095) ∧
    ({ u with repair := .requested, attempts := 2 }.attempts < 3 ∧ 3 ≤ { u with attempts := 3 }.attempts ∧
      forwardDistance 4095 4095 < 1) ∧
    ((inState .hold s).station.state.receiving = false ∧ { u with starved := true }.starved ≠ false) := by
  unfold State.tableOk; decide +kernel

/-- The delay expires without a publisher while a segment is being placed: the range is lost, and the waiting segment at
the new expected sequence drained as an orphan. -/
theorem test_a_delay_without_a_publisher :
    let c : ReorderCell := ⟨4, 2, false, false, 3, [7]⟩
    let pl : Placing := ⟨.staging .a, 4095, true, true, 3, 1, 0⟩
    let u := { sub with publisher := none, placing := some pl, waiting := [c], highestSeen := some 2,
                        repair := .waiting, repairTimer := some 0 }
    let s := (active [subEntry u]).setBuffer .a (.held (segment 4095 true true))
    let t := after (.repairDelayExpiry 31) s
    (u.repairCount 4095 = 3 ∧ u.takesFrames = true ∧ u.block = none) ∧
    (t.subscribeAt 31).map (fun v => (v.expected, v.placing, v.waiting, v.repair)) = some (some 3, none, [], .idle) ∧
    (t.line.bufferA = .free ∧ t.counters.orphanSegments = 1 ∧ t.events.number = 1) := by decide +kernel

/-- A YIELD heard at a DUE entry that would ask for an empty range: the request is withdrawn with its mark, and with a
gap seen the entry waits again; with a range to ask for it is lost. -/
theorem test_hyps_AYieldAtADueEntry :
    let c : ReorderCell := ⟨4, 4095, false, false, 3, [7]⟩
    let u := { sub with repair := .due, repairMark := true, highestSeen := some 14, waiting := [c] }
    let s := hearing (.yield 3 1023) (active [subEntry u])
    let v := { u with waiting := [] }
    let t := hearing (.yield 3 1023) (active [subEntry v])
    (s.tableOk ∧ s.hears (.yield 3 1023) ∧ u.placing = none ∧ u.publisher = some 3 ∧ u.takesFrames = true ∧
      u.repairCount 4095 = 0) ∧
    ((after .cleanYield s).subscribeAt 31 =
      some { u with publisher := none, repair := .waiting, repairTimer := some 2048, repairMark := false }) ∧
    (t.hears (.yield 3 1023) ∧ v.repairCount 4095 = 16 ∧
      ((after .cleanYield t).subscribeAt 31).map (fun w => (w.expected, w.repair)) = some (some 15, .idle)) := by
  unfold State.hears State.tableOk; decide +kernel

theorem test_hyps_ThePort :
    let r : Request := .headRead 31 0x10000
    let s := active [asking]
    (s.port.granted = none ∧ (s.request .first r).port.firstClass = r :: [] ∧
      (s.request .second r).port.secondClass = r :: [] ∧ (s.request .third r).port.thirdClass = r :: [] ∧
      s.port.firstClass = [] ∧ s.port.secondClass = [] ∧ s.port.thirdClass = []) ∧
    ((granting r s).port.granted.isSome = true ∧ (⟨r, 0x10000, [], true⟩ : Granted).discarded = true) ∧
    ((record 0 1).length = 16 ∧ (granting r s).hreqPin = true ∧ s.hreqPin = false) ∧
    (ReadCompletion.isDescriptor (.ok (record 0 1)) = true ∧ ReadCompletion.isDescriptor .error = true ∧
      (∀ b ∈ [[(1 : Byte)]], b.length = 1)) ∧
    (s.setBuffer .b (.held (segment 0 true true))).line.buffer .b = .held (segment 0 true true) := by decide +kernel

/-- Addresses and bytes of the writes: 4 at offset 12, 6 at offset 10, 32 at a place of the ring, a payload from a pool
cell. -/
theorem test_the_bytes_of_a_transfer :
    let u := { sub with written := [⟨5, 4094, true, true, 3, [7, 8, 9]⟩] }
    let s := active [subEntry u]
    let t : Request := .txWriteBack 0 ⟨0x10000, 1, 0x123, true⟩
    let r : Request := .rxWriteBack 31 ⟨0x10010, 0x102, true, false, .lost, 0xFFF, none⟩
    let p : Request := .rxPayload 31 (.cell 5) 0x10010 0x11001 1 2
    let e : Request := .eventWrite 3 (streamEvent .claimWon 0 1 2 0 0 0)
    (s.transferAddress t = 0x1000C ∧ s.writtenBytes t = [1, 0, 0x23, 0x01]) ∧
      (s.transferAddress r = 0x1001A ∧ s.writtenBytes r = [0x02, 0x01, 1, 2, 0xFF, 0x0F]) ∧
      (s.subscribeAt 31 = some u ∧ (u.written ++ u.waiting).find? (fun c => c.cell == 5) = u.written.head? ∧
        s.writtenBytes p = [8, 9]) ∧
      (s.transferAddress e = 0x18060 ∧ (s.writtenBytes e).take 8 = [5, 0, 0, 0, 0, 0, 1, 0]) ∧
      (writeInto (record 0 1) 12 (s.writtenBytes t)).length = 16 := by decide +kernel

theorem test_hyps_AHeadRead :
    let e := { asking with chain := ⟨true, .reading 0x10000, .none, none⟩ }
    let p := { claimer with chain := ⟨true, .reading 0x10000, .none, none⟩ }
    let s := granting (.headRead 31 0x10000) (active [e])
    let t := granting (.headRead 0 0x10000) (active [p])
    (s.tableOk ∧ e ∈ s.table ∧ s.port.granted = some ⟨.headRead e.index 0x10000, 0x10000, [], false⟩ ∧
      e.subscribe?.map (fun u => (u.placing, u.starved, u.closing)) = some (none, false, false)) ∧
    (t.tableOk ∧ p ∈ t.table ∧ t.port.granted = some ⟨.headRead p.index 0x10000, 0x10000, [], false⟩) ∧
    ((record 0 1).length = 16 ∧ (descriptorOf (record 0 1)).length ≠ 0 ∧ (descriptorOf (record 0 1)).link = 0 ∧
      (descriptorOf (record 0 0)).length = 0 ∧ (rxDescriptorOf (record 0 1)).length ≠ 0) ∧
    ({ sub with starved := true, placing := none }.placing = none ∧ { sub with closing := true }.closing = true ∧
      sub.closing = false) ∧
    ((descriptorOf (record 0x10008 1)).link ≠ 0 ∧ (descriptorOf (record 0x10008 1)).link.toNat % 16 ≠ 0) ∧
    ((descriptorOf (record 0x1FFF0 1)).link.toNat % 16 = 0 ∧
      s.fence.contains (descriptorOf (record 0x1FFF0 1)).link.toNat 16 = true ∧
      s.fence.contains (descriptorOf (record 0x20000 1)).link.toNat 16 = false) := by
  unfold State.tableOk; decide +kernel

/-- Entry 31 waits for its head with a segment of ten bytes being placed from staging buffer A. -/
def awaitingHead (first last : Bool) : Entry :=
  { subEntry { sub with placing := some ⟨.staging .a, 4095, first, last, 3, 10, 0⟩ } with
    chain := ⟨true, .reading 0x10000, .none, none⟩ }

/-- Its head's read is granted. -/
def headGranted (first last : Bool) : State := granting (.headRead 31 0x10000) (active [awaitingHead first last])

/-- What the read of a record leaves. -/
def headTaken (s : State) (link n : Nat) : State := after (.headDescriptorReadEnd (.ok (record link n))) s

/-- Of entry 31: the expected sequence, the bytes placed, the write offset, the state. -/
def placedAt31 (s : State) : Option (Option Seq × Option Nat × Nat × SubscribeState) :=
  (s.subscribeAt 31).map fun v => (v.expected, v.placing.map (·.placed), v.writeOffset, v.state)

theorem test_hyps_ASegmentThatWaitsForTheHead :
    (headGranted true false).tableOk ∧ awaitingHead true false ∈ (headGranted true false).table ∧
      sub.takesFrames = true ∧ (rxDescriptorOf (record 0 4)).length = 4 := by
  unfold State.tableOk; decide +kernel

/-- A segment that waits for the head fits, with LAST its block closes, or it fills the descriptor and waits for the next
one or looks at the tail, or is in FAULT by its link or by the fence; without FIRST and a block it is an orphan. -/
theorem test_a_segment_that_waits_for_the_head :
    let s := headGranted true false
    let piece (n : Nat) : Request := .rxPayload 31 (.staging .a) 0x10000 0x11000 0 n
    let t : List State := [headTaken s 0 240, headTaken (headGranted true true) 0 240, headTaken s 0 4,
      headTaken s 0x10010 4, headTaken (headGranted false false) 0 240, headTaken s 0x10008 4,
      headTaken { s with fence := ⟨0x10000, 0x11003⟩ } 0 240]
    t.map (·.port.firstClass) =
      [[piece 10], [piece 10, .rxWriteBack 31 ⟨0x10000, 10, true, true, .ok, 4095, some ⟨0x10000, 4095, 10, 3⟩⟩],
        [piece 4, .lastLook 31 0x10000], [.lookAheadRead 31 0x10010, piece 4], [], [], []] ∧
    t.map placedAt31 =
      [some (some 0, none, 10, .opened), some (some 0, none, 0, .opened), some (some 4095, some 4, 4, .opened),
        some (some 4095, some 4, 4, .opened), some (some 0, none, 0, .opened), some (some 4095, none, 4, .fault),
        some (some 4095, none, 0, .fault)] := by decide +kernel

theorem test_hyps_ALookAheadRead :
    let e := { subHeld sub with chain := ⟨true, .held 0x10000 ⟨0, 0x11000, 240, false⟩, .reading 0x10010, some 0x10000⟩ }
    let p := { pubEntry (pub .owned) with chain := ⟨true, .none, .reading 0x10010, some 0x10000⟩ }
    let s := granting (.lookAheadRead 31 0x10010) (active [e])
    let t := granting (.lookAheadRead 0 0x10010) (active [p])
    (s.tableOk ∧ e ∈ s.table ∧ s.port.granted = some ⟨.lookAheadRead e.index 0x10010, 0x10010, [], false⟩ ∧
      sub.placing = none ∧ sub.starved = false) ∧
    (t.tableOk ∧ p ∈ t.table ∧ t.port.granted = some ⟨.lookAheadRead p.index 0x10010, 0x10010, [], false⟩ ∧
      (pub .owned).segmenter = .noChain ∧ p.chain.current = .none) ∧
    (granting (.lastLook 31 0x10000) (active [e])).port.granted = some ⟨.lastLook e.index 0x10000, 0x10000, [], false⟩ := by
  unfold State.tableOk; decide +kernel

/-- A publish entry with a current block keeps what its look-ahead read brings; one whose take waits takes the record,
or is in FAULT after an ERROR. -/
theorem test_a_look_ahead_at_a_publish_entry :
    let d : Descriptor := ⟨0x10010, 0x11000, 240, false⟩
    let p (c : CurrentDescriptor) : Entry :=
      { pubEntry { pub .owned with segmenter := .ready } with chain := ⟨true, c, .reading 0x10010, some 0x10000⟩ }
    let s (c : CurrentDescriptor) : State :=
      granting (.lookAheadRead 0 0x10010) { active [p c] with pool := ⟨[], [], [], 31⟩ }
    let t (c : CurrentDescriptor) (r : ReadCompletion) := after (.lookAheadReadEnd r) (s c)
    let chain (u : State) := (u.entryAt 0).map (·.chain)
    let next : Descriptor := descriptorOf (record 0 1)
    (chain (t (.held 0x10000 d) (.ok (record 0 1))) =
        some ⟨true, .held 0x10000 d, .held 0x10010 next, some 0x10010⟩ ∧
      chain (t (.held 0x10000 d) .error) = some ⟨true, .held 0x10000 d, .faulty 0x10010 .busError, some 0x10000⟩) ∧
    (chain (t .none (.ok (record 0 1))) = some ⟨true, .held 0x10010 next, .ended, some 0x10010⟩ ∧
      ((t .none .error).publishAt 0).map (fun v => (v.claim, v.yieldDue)) = some (.fault, true)) := by decide +kernel

/-- A starved entry without a block holds a segment without FIRST: the descriptor that comes makes it an orphan (log
37). -/
theorem test_an_orphan_held_by_a_starved_entry :
    let c : ReorderCell := ⟨4, 4095, false, false, 3, [7, 8]⟩
    let pl : Placing := ⟨.cell 4, 4095, false, false, 3, 2, 0⟩
    let u := { sub with starved := true, placing := some pl, waiting := [c] }
    let e : Entry := { subEntry u with chain := ⟨true, .none, .reading 0x10010, some 0x10000⟩ }
    let s := granting (.lookAheadRead 31 0x10010) (active [e])
    let t := after (.lookAheadReadEnd (.ok (record 0 1))) s
    (u.takesFrames = true ∧ u.block = none ∧ pl.first = false ∧ pl.placed < pl.length ∧
      s.port.outstanding (Request.writesFrom (.cell 4)) = false ∧ s.pool.waiting = []) ∧
    (t.subscribeAt 31).map (fun v => (v.expected, v.placing, v.waiting, v.starved)) = some (some 0, none, [], false) ∧
    (t.counters.orphanSegments = 1 ∧ t.pool.free = [5, 6, 4]) := by decide +kernel

/-- The publish side's END after a second look, and the subscribe side's: a placing from a cell starves, and a starved
one goes on in the HELD look-ahead from its part placed. -/
theorem test_hyps_ATakeThatWaited :
    let c : ReorderCell := ⟨4, 4095, true, false, 3, [7, 8]⟩
    let pl : Placing := ⟨.cell 4, 4095, true, false, 3, 2, 1⟩
    let u := { sub with placing := some pl, waiting := [c] }
    let e (starved : Bool) (l : LookAhead) : Entry :=
      { subEntry { u with starved := starved } with chain := ⟨true, .none, l, some 0x10000⟩ }
    let p := { pubEntry { pub .owned with segmenter := .ready } with chain := ⟨true, .none, .looking, some 0x10000⟩ }
    let look := after (.lastLookEnd (.ok (record 0 1))) (granting (.lastLook 31 0x10000) (active [e false .looking]))
    let held := after (.lookAheadReadEnd (.ok (record 0 1)))
      (granting (.lookAheadRead 31 0x10010) (active [e true (.reading 0x10010)]))
    let ended := after (.lastLookEnd (.ok (record 0 1))) (granting (.lastLook 0 0x10000) (active [p]))
    ((descriptorOf (record 0 1)).link = 0 ∧ u.takesFrames = true ∧ pl.placed < pl.length ∧
      pl.length - pl.placed ≤ (rxDescriptorOf (record 0 1)).length ∧ pl.first = true) ∧
    (look.subscribeAt 31).map (fun v => (v.starved, v.partPlaced)) = some (true, 1) ∧
    ((held.subscribeAt 31).map fun v => (v.starved, v.expected, v.written, v.writeOffset)) =
      some (false, some 0, [c], 1) ∧
    (ended.publishAt 0).map (·.segmenter) = some .noChain := by decide +kernel

/-- A block fills its descriptor and the segment being placed, or the starvation, waits for the look-ahead read: the full
write-back goes first, then the segment goes on from its eighth byte in the new descriptor. -/
theorem test_a_full_descriptor_is_left_for_the_look_ahead :
    let c : ReorderCell := ⟨4, 4095, false, false, 3, [1, 2, 3, 4, 5, 6, 7, 8, 9, 10]⟩
    let u := { sub with writeOffset := 240, firstOfBlock := true, descriptorSequence := some 4094,
                        block := some ⟨0x10000, 4094, 240, 3⟩ }
    let pl (source : SegmentSource) : Placing := ⟨source, 4095, false, false, 3, 10, 7⟩
    let e (v : SubscribeEntry) : Entry :=
      { subHeld v with chain := ⟨true, .held 0x10000 ⟨0, 0x11000, 240, false⟩, .reading 0x10010, some 0x10000⟩ }
    let s (v : SubscribeEntry) : State := granting (.lookAheadRead 31 0x10010) (active [e v])
    let t (v : SubscribeEntry) := after (.lookAheadReadEnd (.ok (record 0 240))) (s v)
    let staged := { u with placing := some (pl (.staging .a)) }
    let parked := { u with placing := some (pl (.cell 4)), waiting := [c], starved := true, partPlaced := 7 }
    let dropped := { u with starved := true, partPlaced := 7 }
    let full : Request := .rxWriteBack 31 ⟨0x10000, 240, true, false, .ok, 4094, none⟩
    let piece (source : SegmentSource) : Request := .rxPayload 31 source 0x10010 0x11000 7 3
    let of (w : State) := (w.subscribeAt 31).map fun v => (v.expected, v.partPlaced, v.writeOffset, v.starved)
    ((s staged).tableOk ∧ e staged ∈ (s staged).table ∧ (rxDescriptorOf (record 0 240)).length = 240 ∧
      (240 : Nat) ≤ u.writeOffset ∧ staged.takesFrames = true ∧ (pl (.staging .a)).placed < (pl (.staging .a)).length ∧
      dropped.placing = none) ∧
    ((t staged).port.firstClass = [full, piece (.staging .a)] ∧ of (t staged) = some (some 0, 0, 3, false)) ∧
    ((t parked).port.firstClass = [full, piece (.cell 4)] ∧ of (t parked) = some (some 0, 0, 3, false)) ∧
    ((t dropped).port.firstClass = [full] ∧ of (t dropped) = some (some 4095, 7, 0, false)) := by
  unfold State.tableOk; decide +kernel

/-- Entry 31 places a segment from staging buffer A and looks at its tail; entry 0 has a replay cell to be resent. -/
def lookingFor (waiting : List ReorderCell) : Entry :=
  { subEntry { sub with placing := some ⟨.staging .a, 4095, true, false, 3, 10, 7⟩, waiting := waiting } with
    chain := ⟨true, .held 0x10000 ⟨0, 0x11000, 0, false⟩, .looking, some 0x10000⟩ }

/-- The read of that last look is granted. -/
def lookGranted (waiting : List ReorderCell) (pool : Pool) : State :=
  granting (.lastLook 31 0x10000)
    ({ active [pubEntry { pub .owned with replayQueue := [cell], nextSequence := 1 }, lookingFor waiting] with
        pool := pool, lists := ⟨[⟨0, 0⟩], []⟩ }.setBuffer .a (.held (segment 4095 true false)))

/-- The last look found 0. -/
def lookEnded (s : State) : State := after (.lastLookEnd (.ok (record 0 1))) s

/-- A payload write from staging buffer A waits. -/
def withWrite (s : State) : State :=
  { s with port := { s.port with firstClass := [.rxPayload 31 (.staging .a) 0x10000 0x11000 0 7] } }

theorem test_hyps_AStagedSegmentStarves :
    let s := lookGranted [] ⟨[5, 6], [], [], 31⟩
    (s.tableOk ∧ lookingFor [] ∈ s.table ∧ s.line.buffer .a = .held (segment 4095 true false)) ∧
      (descriptorOf (record 0 1)).link = 0 ∧ s.port.outstanding (Request.writesFrom (.staging .a)) = false ∧
      (withWrite s).port.outstanding (Request.writesFrom (.staging .a)) = true := by
  unfold State.tableOk; decide +kernel

/-- The last look finds 0 for a segment placed from a staging buffer: it moves to a free cell, or to an evicted one, or is
dropped with 8 cells held or with none to be had; the buffer is free unless a write from it is outstanding. -/
theorem test_a_staged_segment_starves_at_the_last_look :
    let held : List ReorderCell :=
      (List.range 8).map fun n => ⟨100 + n, BitVec.ofNat 12 n, false, false, 3, [7]⟩
    let evicting := lookGranted [] ⟨[], [⟨9, 0, 3⟩], [], 31⟩
    let t : List State := [lookGranted [] ⟨[5, 6], [⟨9, 0, 3⟩], [], 31⟩, evicting,
      lookGranted held ⟨[5, 6], [], [], 31⟩, lookGranted [] ⟨[], [], [], 31⟩].map lookEnded
    (t.map (·.pool.free) = [[6], [], [5, 6], []] ∧
      t.map (fun u => (u.counters.replayEvictions, u.counters.reorderDrops)) = [(0, 0), (1, 0), (0, 1), (0, 1)]) ∧
    t.map (fun u => (u.subscribeAt 31).map fun v => (v.starved, v.partPlaced, v.placing.map (·.source))) =
      [some (true, 7, some (.cell 5)), some (true, 7, some (.cell 9)), some (true, 7, none), some (true, 7, none)] ∧
    (t.map (·.line.buffer .a) = [.free, .free, .free, .free] ∧
      (lookEnded (withWrite (lookGranted [] ⟨[5, 6], [], [], 31⟩))).line.buffer .a =
        .held (segment 4095 true false)) ∧
    ((lookEnded evicting).lists = evicting.listsWithout 0 0 0 ∧ (lookEnded evicting).lists.gone.length = 1) := by
  decide +kernel

theorem test_hyps_APayloadRead :
    let c := { cell with complete := false, coded := [] }
    let p := { pub .owned with sendQueue := [c], nextSequence := 1, segmenter := .filling }
    let e := { pubEntry p with
      chain := ⟨true, .held 0x10000 ⟨0, 0x11000, 1, true⟩, .held 0x10010 ⟨0, 0x11100, 1, false⟩, some 0x10010⟩ }
    let s := granting (.txPayload 0 9 0x11000 1) (active [e])
    (s.tableOk ∧ e ∈ s.table ∧ s.port.granted = some ⟨.txPayload e.index 9 0x11000 1, 0x11000, [], false⟩ ∧
      [(7 : Byte)].length = 1 ∧ p.sendQueue.find? (fun x => x.cell == 9) = some c) ∧
    (c.last = true ∧ p.claim ≠ .closing ∧ e.chain.lookAhead = .held 0x10010 ⟨0, 0x11100, 1, false⟩ ∧
      { c with last := false }.last = false ∧ (pub .closing).claim = .closing) := by
  unfold State.tableOk; decide +kernel

/-- After the LAST cell's read the segmenter goes by the look-ahead: END is looked at again, a FAULTY one faults, and
without one the chain has ended. -/
theorem test_after_the_last_cell :
    let c := { cell with complete := false, coded := [] }
    let p := { pub .owned with sendQueue := [c], nextSequence := 1, segmenter := .filling }
    let t (l : LookAhead) := after (.txPayloadReadEnd (.ok [7])) (granting (.txPayload 0 9 0x11000 1) (active
      [{ pubEntry p with chain := ⟨true, .held 0x10000 ⟨0, 0x11000, 1, true⟩, l, some 0x10000⟩ }]))
    (((t .ended).entryAt 0).map (·.chain.lookAhead) = some .looking ∧
      .lastLook 0 0x10000 ∈ (t .ended).port.thirdClass) ∧
    ((t (.faulty 0x10008 .badDescriptor)).publishAt 0).map (·.claim) = some .fault ∧
    ((t .none).publishAt 0).map (fun v => (v.segmenter, v.position)) = some (.noChain, 0) ∧
    ((t (.reading 0x10010)).publishAt 0).map (·.segmenter) = some .ready := by decide +kernel

theorem test_hyps_AWriteTransfer :
    let r : WriteBack := ⟨0x10000, 1, 0, true⟩
    let p := { pub .owned with writeBacks := [r] }
    let x : Request := .rxPayload 31 (.staging .a) 0x10000 0x11000 0 1
    let y : Request := .rxPayload 31 (.cell 5) 0x10000 0x11000 0 1
    let u := { sub with written := [⟨5, 4094, true, true, 3, [7]⟩] }
    let b : Request := .rxWriteBack 31 ⟨0x10000, 1, true, true, .ok, 4094, some ⟨0x10000, 4094, 1, 3⟩⟩
    let s := active [subHeld u]
    ((granting (.txWriteBack 0 r) (active [pubEntry p])).tableOk ∧ p.writeBacks = r :: []) ∧
    (s.tableOk ∧ subHeld u ∈ s.table ∧ (granting x s).port.granted = some ⟨x, 0x11000, [], false⟩ ∧
      (granting y s).port.granted = some ⟨y, 0x11000, [], false⟩ ∧ (granting b s).port.granted = some ⟨b, 0x1000A, [], false⟩) ∧
    ((s.port.firstClass ++ s.port.secondClass ++ s.port.thirdClass).any (Request.writesFrom (.staging .a)) = false ∧
      s.placingFrom .a = false ∧ u.closing = false ∧ u.written.any (fun z => z.cell == 5) = true ∧
      s.pool.waiting = []) ∧
    ({ u with closing := true }.closing = true ∧ u.closing = false ∧
      (after (.rxWriteBackEnd .ok) (granting b (active [subHeld { u with closing := true }]))).entryAt 31 = none ∧
      (s.port.firstClass ++ s.port.secondClass ++ s.port.thirdClass).any (Request.receiveWriteOf 31) = false) := by
  unfold State.tableOk; decide +kernel

/-- A CLOSING entry with the write-backs given, and the resend list. -/
def draining (writeBacks : List WriteBack) (resend : List Resend) : State :=
  { active [pubEntry { pub .closing with
      segmenter := .stopped, replayQueue := [cell], nextSequence := 1, writeBacks := writeBacks }] with
    lists := ⟨resend, []⟩ }

/-- The YIELD of a CLOSING entry is due once its last SENT write-back or its last resend is done, and not while either
list still holds something of it. -/
theorem test_a_closing_entry_yields_when_its_lists_are_empty :
    let r : WriteBack := ⟨0x10000, 1, 0, true⟩
    let sent (s : State) := after (.txWriteBackEnd .ok) (granting (.txWriteBack 0 r) s)
    let resent (s : State) := s.ownerOutcome ⟨.claim 2 0, .resend 0 0, false⟩ .delivered
    ([sent (draining [r] []), sent (draining [r, r] []), sent (draining [r] [⟨0, 0⟩]),
        resent (draining [] [⟨0, 0⟩]), resent (draining [r] [⟨0, 0⟩]), resent (draining [] [⟨0, 0⟩, ⟨0, 1⟩])].map
      fun t => (t.publishAt 0).map (·.yieldDue)) =
      [some true, some false, some false, some true, some false, some false] := by decide +kernel

theorem test_hyps_AnEventWrite :
    let s (x : CoalescingTimer) : State := granting (.eventWrite 0 (streamEvent .claimWon 0 1 2 0 0 0))
      { active [] with events := { (active []).events with timer := x } }
    (s .stopped).port.granted = some ⟨.eventWrite 0 (streamEvent .claimWon 0 1 2 0 0 0), 0x18000, [], false⟩ ∧
      (s .stopped).events.producer = (s .stopped).events.consumer ∧ (s .stopped).events.config.coalescing ≠ 0 ∧
      [CoalescingTimer.stopped, .expired, .running 7].map (fun x => (after (.eventWriteEnd .ok) (s x)).events.timer) =
        [.running 256, .running 256, .running 7] := by decide +kernel

theorem test_hyps_Frames :
    let s := { active [asking] with turn := { TurnUnit.powerOn with condition := .opened } }
    s.tableOk ∧ s.turn.holdOff = none ∧ s.finish.turn.holdOff = some 32 ∧
      (s.station.state = .active ∧ s.turn.condition = .opened ∧ s.finish.selectAny.isSome = true) ∧
      s.station.state.attached = true := by
  unfold State.tableOk; decide +kernel

/-- A READY entry takes a free cell, an evicted one, or waits; outside the fence it is in FAULT. -/
theorem test_hyps_ASegmenterClaims :
    let p := { pub .owned with segmenter := .ready, position := 240, nextSequence := 4095, replayQueue := [cell] }
    let e (buffer : Word) := { pubEntry p with
      chain := ⟨true, .held 0x10000 ⟨0, buffer, 250, true⟩, .ended, some 0x10000⟩ }
    let s (buffer : Word) (pool : Pool) : State := { active [e buffer] with pool := pool }
    let f := (s 0x11000 ⟨[5], [⟨9, 0, 3⟩], [], 31⟩).finish
    let v := (s 0x11000 ⟨[], [⟨9, 0, 3⟩], [], 31⟩).finish
    let w := (s 0x11000 ⟨[], [], [], 31⟩).finish
    ((s 0x11000 ⟨[5], [], [], 31⟩).tableOk ∧ (e 0x11000).wantsClaim = true ∧
      (s 0x11000 ⟨[5], [], [], 31⟩).port.outstanding (Request.payloadReadOf 0) = false) ∧
    ((f.publishAt 0).map (fun q => (q.sendQueue, q.nextSequence)) =
        some ([⟨5, 4095, false, true, 10, [], false, some ⟨0x10000, 250, true⟩⟩], 0) ∧
      f.port.thirdClass = [.txPayload 0 5 0x110F0 10]) ∧
    ((v.publishAt 0).map (fun q => (q.sendQueue.map (·.cell), q.replayQueue)) = some ([9], []) ∧ v.pool.aged = [] ∧
      v.counters.replayEvictions = 1) ∧
    ((w.publishAt 0).map (·.segmenter) = some .waitCell ∧ w.pool.waiting = [0]) ∧
    ((s 0x1FF10 ⟨[5], [⟨9, 0, 3⟩], [], 31⟩).finish.publishAt 0).map (·.claim) = some .fault ∧
    ((active []).table.find? (fun e => e.wantsClaim || (active []).wantsRead e) = none) := by
  unfold State.tableOk; decide +kernel

theorem test_hyps_Invariants :
    let s := active [pubEntry (pub .owned), asking]
    (s.historyOk ∧ s.tableOk ∧ s.offLineOk ∧ s.stuckOk ∧ s.fenceOk ∧ s.ringOk ∧ s.listsOk) ∧
      (State.powerOn ⟨0, 0, 0⟩).station.state = .disabled := by
  unfold State.historyOk State.tableOk State.offLineOk State.stuckOk State.fenceOk State.ringOk State.listsOk goneOk goneApart
  decide +kernel

/-- One cell in each place: a send queue, a replay queue with its age, two reorder lists, and the free list. -/
def pooled : State :=
  { active [pubEntry { pub .owned with sendQueue := [cell], replayQueue := [{ cell with cell := 8 }] },
      subEntry { sub with waiting := [⟨7, 1, true, true, 3, [7]⟩], written := [⟨6, 4094, true, true, 3, [7]⟩] }] with
    pool := ⟨List.range 6 ++ (List.range 150).map (· + 10), [⟨8, 0, 0⟩], [], 31⟩ }

theorem pooled_index (i : Nat) (e : Entry) (h : pooled.entryAt i = some e) : i = 0 ∨ i = 31 := by
  have hm := List.mem_of_find?_eq_some h
  have hi : e.index = i := by simpa using List.find?_some h
  simp only [pooled, active, State.powerOn, List.mem_cons, List.not_mem_nil, or_false] at hm
  rcases hm with rfl | rfl
  · exact Or.inl hi.symm
  · exact Or.inr hi.symm

theorem test_hyps_CellsOk : pooled.tableOk ∧ pooled.cellsOk := by
  have hp : ∀ i p, pooled.publishAt i = some p → i = 0 ∧ pooled.publishAt 0 = some p := by
    intro i p h
    obtain ⟨e, he, -⟩ := Option.bind_eq_some_iff.1 h
    rcases pooled_index i e he with rfl | rfl
    · exact ⟨rfl, h⟩
    · cases (show pooled.publishAt 31 = none by decide +kernel).symm.trans h
  have hs : ∀ i u, pooled.subscribeAt i = some u → i = 31 ∧ pooled.subscribeAt 31 = some u := by
    intro i u h
    obtain ⟨e, he, -⟩ := Option.bind_eq_some_iff.1 h
    rcases pooled_index i e he with rfl | rfl
    · cases (show pooled.subscribeAt 0 = none by decide +kernel).symm.trans h
    · exact ⟨rfl, h⟩
  refine ⟨by unfold State.tableOk; decide +kernel, by unfold State.cellsHeldOnce; decide +kernel,
    ⟨by decide +kernel, ?_⟩, ⟨?_, ?_⟩, ⟨by decide +kernel, by decide +kernel⟩, fun _ => Nat.zero_le _⟩
  · intro i p h
    obtain ⟨rfl, h⟩ := hp i p h
    obtain rfl := Option.some.inj h
    decide +kernel
  · intro i p h
    obtain ⟨rfl, h⟩ := hp i p h
    obtain rfl := Option.some.inj h
    decide +kernel
  · intro i u h
    obtain ⟨rfl, h⟩ := hs i u h
    obtain rfl := Option.some.inj h
    decide +kernel

end Sys2Proof.Tests
end

section
/-! Power-on reset: what the command leaves, and what it gives station control (03_station_states.md). -/

namespace Sys2Proof
namespace Machine

/-- POWER_ON_RESET replaces the whole state but the queue of commands (log 26). -/
theorem exec_powerOnReset_eq (n k : BitVec 6) (r : BitVec 2) (s : State) :
    exec (.powerOnReset n k r) s = .next { State.powerOn ⟨n, k, r⟩ with pending := s.pending } :=
  rfl

/-- When the sampled straps leave the station unusable (R36). -/
theorem Straps.valid_eq_false_iff (p : Straps) :
    p.valid = false ↔
      p.ring.toNat < 2 ∨ 32 < p.ring.toNat ∨ p.station.toNat = 0 ∨ p.ring.toNat < p.station.toNat := by
  simp only [Straps.valid, Bool.and_eq_false_iff, decide_eq_false_iff_not]
  omega

/-- R36 decides the state after power-on reset: DISABLED where the straps are out of range, else DETACHED. -/
theorem StationControl.powerOn_state (p : Straps) :
    (StationControl.powerOn p).state =
      if p.ring.toNat < 2 ∨ 32 < p.ring.toNat ∨ p.station.toNat = 0 ∨ p.ring.toNat < p.station.toNat then
        .disabled
      else .detached := by
  simp only [← p.valid_eq_false_iff, StationControl.powerOn]
  cases p.valid with
  | false => rfl
  | true => rfl

/-- Settles O5: the state is R36's decision on the straps; every other field is a fixed power-on value (R48). -/
theorem powerOnResetGivesStationControlItsValues : Obligations.PowerOnResetGivesStationControlItsValues := by
  intro n k r s
  have hstate := StationControl.powerOn_state ⟨n, k, r⟩
  exact ⟨_, exec_powerOnReset_eq n k r s, rfl, hstate, rfl, rfl, rfl, rfl, rfl, rfl, rfl, rfl⟩

end Machine
end Sys2Proof
end

section
/-! The STRAPS register and the strap values: what reads show, and that only POWER_ON_RESET samples them
(10_the_register_window_and_commands.md, R179; R36). -/

namespace Sys2Proof
namespace Machine

/-! ### Reads of IDENT and STRAPS -/

/-- The strap values stand in the word at the bits of 11.3, without overlap. -/
theorem Straps.word_toNat (p : Straps) :
    p.word.toNat = p.station.toNat + 256 * p.ring.toNat + 65536 * p.rate.toNat := by
  have hstation := p.station.isLt
  have hring := p.ring.isLt
  have hrate := p.rate.isLt
  simp only [Straps.word, packFields, List.foldl_cons, List.foldl_nil, BitVec.toNat_ofNat]
  omega

theorem Straps.word_station (p : Straps) : fieldOf p.word 0 6 = p.station.toNat := by
  have hstation := p.station.isLt
  rw [fieldOf, p.word_toNat]
  omega

theorem Straps.word_ring (p : Straps) : fieldOf p.word 8 6 = p.ring.toNat := by
  have hstation := p.station.isLt
  have hring := p.ring.isLt
  rw [fieldOf, p.word_toNat]
  omega

theorem Straps.word_rate (p : Straps) : fieldOf p.word 16 2 = p.rate.toNat := by
  have hstation := p.station.isLt
  have hring := p.ring.isLt
  have hrate := p.rate.isLt
  rw [fieldOf, p.word_toNat]
  omega

theorem readRegister_ident (s : State) {o : BitVec 7} (h : o.toNat / 4 = 0) :
    s.readRegister o = 0x03400001#32 := by
  simp only [State.readRegister, h]

theorem readRegister_straps (s : State) {o : BitVec 7} (h : o.toNat / 4 = 1) :
    s.readRegister o = s.station.straps.word := by
  simp only [State.readRegister, h]

/-- IDENT and STRAPS are read-only: a write to either is ignored, at any width and alignment (R165, R179). -/
theorem registerWrite_ident_or_straps {o : BitVec 7} (w : Nat) (v : Word) (d : Bool) (s : State)
    (h : o.toNat / 4 ≤ 1) : registerWrite o w v d s = s := by
  have hreg : o.toNat / 4 = 0 ∨ o.toNat / 4 = 1 := by omega
  unfold registerWrite
  split
  · rfl
  · rcases hreg with hident | hstraps
    · simp only [hident]
    · simp only [hstraps]

/-! ### Reports and the stuck line keep the straps -/

@[simp] theorem emit_station (s : State) (ev : Event) : (s.emit ev).station = s.station := (emit_rest s ev).1

@[simp] theorem finish_station (s : State) : s.finish.station = s.station := (EngineFrame.finish s).station

@[simp] theorem reportState_straps (s : State) (new : StationState) (cause : StateCause) (n : Nat) :
    (s.reportState new cause n).station.straps = s.station.straps := by
  simp only [State.reportState, emit_station]

@[simp] theorem joinIfOpen_straps (s : State) : s.joinIfOpen.station.straps = s.station.straps := by
  unfold State.joinIfOpen
  split
  · simp only [reportState_straps]
  · rfl

@[simp] theorem becomeStuck_straps (s : State) : s.becomeStuck.station.straps = s.station.straps := by
  unfold State.becomeStuck
  dsimp only
  split
  · simp only [reportState_straps]
  · rfl

/-- Bit times that may leave the line stuck keep the straps if what they lead to otherwise does. -/
theorem unlessStuck_straps {s other : State} (heard : List LineReading)
    (h : other.station.straps = s.station.straps) :
    (s.unlessStuck heard other).station.straps = s.station.straps := by
  unfold State.unlessStuck
  split
  · exact becomeStuck_straps s
  · exact h

/-! ### The turn unit keeps the straps -/

theorem activityBegins_straps (s : State) (heard : List LineReading) :
    (s.activityBegins heard).station.straps = s.station.straps := by
  unfold State.activityBegins
  split
  · split
    · exact unlessStuck_straps heard rfl
    · split
      · exact unlessStuck_straps heard rfl
      · rfl
    · rfl
  · rfl

theorem start_straps (s : State) (selected : Option Candidate) (urgent : Bool) (first : FirstCell) :
    (s.start selected urgent first).station.straps = s.station.straps := by
  unfold State.start
  split
  · rfl
  · split
    · exact activityBegins_straps s _
    · rfl

/-- The three moments at which a frame may start: `t` is the state with, or without, the line known released. -/
theorem start_straps_of_moment {s t : State} (ht : t.station = s.station) (mayStart : Bool)
    (selected : Option Candidate) (urgent : Bool) (first : FirstCell) :
    (if mayStart then t.start selected urgent first else s).station.straps = s.station.straps := by
  split
  · rw [start_straps, ht]
  · rfl

theorem ownerOutcome_station (s : State) (a : Attempt) (o : AttemptOutcome) :
    (s.ownerOutcome a o).station = s.station := by
  obtain ⟨_, frame⟩ := ownerOutcome_frame s a o
  exact frame.station

/-- An outcome changes the history and, at the eighth failure, the state (R41, R42). -/
theorem recordOutcome_straps (s : State) (o : AttemptOutcome) :
    (s.recordOutcome o).station.straps = s.station.straps := by
  unfold State.recordOutcome
  dsimp only
  split
  · simp only [State.enterQuiet, reportState_straps]
  · rfl

@[simp] theorem endAttempt_straps (s : State) (a : Attempt) (o : AttemptOutcome) :
    (s.endAttempt a o).station.straps = s.station.straps := by
  simp only [State.endAttempt, recordOutcome_straps, ownerOutcome_station]

theorem attemptCollided_straps (heard : List LineReading) (s : State) :
    (attemptCollided heard s).station.straps = s.station.straps := by
  unfold attemptCollided
  split
  · rfl
  · split
    · dsimp only
      split
      · simp only [becomeStuck_straps, finish_station, endAttempt_straps, bump_station]
      · simp only [finish_station, endAttempt_straps, bump_station]
    · rfl

theorem attemptVerdict_straps (heard : List LineReading) (s : State) :
    (attemptVerdict heard s).station.straps = s.station.straps := by
  unfold attemptVerdict
  split
  · rfl
  · split
    · dsimp only
      split
      · refine unlessStuck_straps heard ?_
        simp only [finish_station, endAttempt_straps, bump_station, anchorNow_station]
      · simp only [finish_station, endAttempt_straps, bump_station, anchorNow_station]
    · rfl

/-! ### The line interface keeps the straps -/

theorem stagingClaim_station (stream : BitVec 11) (s : State) : (stagingClaim stream s).station = s.station := by
  unfold stagingClaim
  split
  · split
    · rfl
    · split
      · exact setBuffer_station s _ _
      · exact bump_station s _
  · rfl

theorem judgeFrame_station (s : State) (cells : List LineCell) : (s.judgeFrame cells).station = s.station := by
  unfold State.judgeFrame
  dsimp only
  split <;> rfl

theorem frameHeard_straps (s : State) (heard : List LineReading) :
    (s.frameHeard heard).station.straps = s.station.straps := by
  unfold State.frameHeard
  dsimp only
  split
  · exact unlessStuck_straps heard (congrArg _ (judgeFrame_station _ _))
  · exact unlessStuck_straps heard rfl
  · rfl

theorem frameEnd_straps (heard : List LineReading) (s : State) :
    (frameEnd heard s).station.straps = s.station.straps := by
  unfold frameEnd
  split
  · split
    · split
      · rfl
      · exact attemptCollided_straps heard s
    · exact frameHeard_straps s heard
  · rfl

theorem frameBecomesBroken_straps (heard : List LineReading) (s : State) :
    (frameBecomesBroken heard s).station.straps = s.station.straps := by
  unfold frameBecomesBroken
  split
  · exact frameHeard_straps s heard
  · rfl

theorem spoiledVerdict_straps (heard : List LineReading) (s : State) :
    (spoiledVerdict heard s).station.straps = s.station.straps := by
  unfold spoiledVerdict
  split
  · exact unlessStuck_straps heard rfl
  · rfl

theorem cleanFaultyFrame_station (s : State) : (cleanFaultyFrame s).station = s.station := by
  unfold cleanFaultyFrame
  split <;> rfl

@[simp] theorem cleanVerdict_straps (s : State) (sender : Nat) :
    (s.cleanVerdict sender).station.straps = s.station.straps := by
  unfold State.cleanVerdict
  dsimp only
  rw [finish_station]
  split
  · simp only [reportState_straps, anchorNow_station, bump_station]
  · rfl

/-- What every clean frame does: engine work at the table on a state that differs in the line interface alone, then the
clean verdict (R14, R59). -/
theorem cleanVerdict_straps_of_frame {s t : State} (l : LineInterface) (sender : Nat)
    (h : EngineFrame { s with line := l } t) : (t.cleanVerdict sender).station.straps = s.station.straps := by
  rw [cleanVerdict_straps, h.station]

theorem cleanData_straps (s : State) : (cleanData s).station.straps = s.station.straps := by
  unfold cleanData
  split
  · exact cleanVerdict_straps_of_frame _ _ (.dataHeard _ _ _)
  · rfl

theorem cleanRepair_straps (s : State) : (cleanRepair s).station.straps = s.station.straps := by
  unfold cleanRepair
  split
  · exact cleanVerdict_straps_of_frame _ _ (.repairHeard _ _ _ _ _ _)
  · rfl

theorem cleanGone_straps (s : State) : (cleanGone s).station.straps = s.station.straps := by
  unfold cleanGone
  split
  · exact cleanVerdict_straps_of_frame _ _ (.goneHeard _ _ _ _ _)
  · rfl

theorem cleanClaim_straps (s : State) : (cleanClaim s).station.straps = s.station.straps := by
  unfold cleanClaim
  split
  · exact cleanVerdict_straps_of_frame _ _ (.claimHeard _ _ _)
  · rfl

theorem cleanDispute_straps (s : State) : (cleanDispute s).station.straps = s.station.straps := by
  unfold cleanDispute
  split
  · exact cleanVerdict_straps_of_frame _ _ (.disputeHeard _ _ _ _)
  · rfl

theorem cleanYield_straps (s : State) : (cleanYield s).station.straps = s.station.straps := by
  unfold cleanYield
  split
  · exact cleanVerdict_straps_of_frame _ _ (.yieldHeard _ _ _)
  · rfl

theorem brokenFrameEnd_station (s : State) : (brokenFrameEnd s).station = s.station := by
  unfold brokenFrameEnd
  dsimp only
  split_ifs <;> rfl

theorem holdActivityEnd_station (s : State) : (holdActivityEnd s).station = s.station := by
  unfold holdActivityEnd
  split <;> rfl

theorem stuckCondition_straps (heard : List LineReading) (s : State) :
    (stuckCondition heard s).station.straps = s.station.straps := by
  unfold stuckCondition
  split
  · exact becomeStuck_straps s
  · rfl

theorem stuckEnd_station (atValidCell : Bool) (s : State) : (stuckEnd atValidCell s).station = s.station := by
  unfold stuckEnd
  split <;> rfl

theorem stuckWaitEnd_station (s : State) : (stuckWaitEnd s).station = s.station := by
  unfold stuckWaitEnd
  split <;> rfl

theorem recover_straps (s : State) : s.recover.station.straps = s.station.straps := by
  unfold State.recover
  split
  · exact reportState_straps s _ _ _
  · rfl

theorem windowPassesEmpty_straps (s : State) : (windowPassesEmpty s).station.straps = s.station.straps := by
  unfold windowPassesEmpty
  split
  · dsimp only
    split
    · rfl
    · simp only [finish_station, joinIfOpen_straps, recover_straps, lineOpens_station, lineWasReleased_station]
  · rfl

/-! ### The event unit keeps station control -/

theorem drainEvents_station (l : List Event) (s : State) : (drainEvents l s).station = s.station := by
  induction l generalizing s with
  | nil => rfl
  | cons ev rest ih =>
    unfold drainEvents
    split
    · rfl
    · rw [ih, (EngineFrame.placeEvent s ev).station]

theorem endTransfer_station (s : State) (g : Granted) (effect : State → State)
    (h : ∀ t, (effect t).station = t.station) : (s.endTransfer g effect).station = s.station := by
  unfold State.endTransfer
  split
  · exact freePort_station s
  · rw [finish_station, h, freePort_station]

theorem eventWriteEnd_station (c : Completion) (s : State) : (eventWriteEnd c s).station = s.station := by
  unfold eventWriteEnd
  split
  · split
    · refine endTransfer_station s _ _ fun t => ?_
      split <;> rfl
    · rfl
  · rfl

theorem coalescingTimerExpiry_station (s : State) : (coalescingTimerExpiry s).station = s.station := by
  unfold coalescingTimerExpiry
  split <;> rfl

/-! ### The register window keeps the straps -/

theorem attach_straps (lineDriven : Bool) (s : State) :
    (attach lineDriven s).station.straps = s.station.straps := by
  unfold attach
  split
  · rfl
  · split
    · rfl
    · simp only [answer_station, reportState_straps]

theorem detach_straps (s : State) : (detach s).station.straps = s.station.straps := by
  unfold detach
  split
  · rfl
  · split
    · rfl
    · simp only [answer_station, reportState_straps]

theorem rejoin_straps (s : State) : (rejoin s).station.straps = s.station.straps := by
  unfold rejoin
  split
  · rfl
  · simp only [finish_station, answer_station, joinIfOpen_straps, reportState_straps]

theorem resetStation_straps (s : State) : (resetStation s).station.straps = s.station.straps := by
  unfold resetStation
  split
  · rfl
  · simp only [answer_station, reportState_straps]

theorem createEntry_station (s : State) (i stream : Nat) (role : Role) :
    (s.createEntry i stream role).station = s.station := by
  unfold State.createEntry
  dsimp only
  split
  · rfl
  · exact (EngineFrame.takeHead _ _ _).station

theorem openEntry_station (stream : BitVec 16) (role : Role) (s : State) :
    (openEntry stream role s).station = s.station := by
  unfold openEntry
  split
  · rfl
  · split
    · rfl
    · split
      · rfl
      · split
        · rfl
        · split
          · rfl
          · rw [finish_station, answer_station, createEntry_station]

/-- The shared checks of RESUME, CLOSE, ABORT and INFO answer alone, so the effect at the entry decides (R167). -/
theorem onEntry_station (stream : BitVec 16) (effect : Entry → State → State) (s : State)
    (h : ∀ e, (effect e s).station = s.station) : (onEntry stream effect s).station = s.station := by
  unfold onEntry
  split_ifs
  · rfl
  · rfl
  · split
    · rfl
    · exact h _

theorem resumeEntry_station (e : Entry) (s : State) : (resumeEntry e s).station = s.station := by
  unfold resumeEntry
  split_ifs
  · rfl
  · rfl
  · rfl
  · rw [answer_station, (EngineFrame.takeHead s _ _).station]
  · rw [answer_station, (EngineFrame.lookAgain _ _ _).station, modifySubscribe_station]
  · rfl

/-- What CLOSE does at an entry before its answer is engine work (R70, R71). -/
theorem closeEntry_station (e : Entry) (s : State) : (closeEntry e s).station = s.station := by
  unfold closeEntry
  dsimp only
  rw [finish_station, answer_station]
  split
  · split
    · exact (EngineFrame.freeEntry s _ _).station
    · exact (EngineFrame.freeEntry s _ _).station
    · exact (EngineFrame.beginClosing s _ _).station
    · rfl
    · split
      · rfl
      · exact (EngineFrame.freeEntry s _ _).station
  · split_ifs
    · exact (EngineFrame.freeEntry s _ _).station
    · rfl
    · exact (EngineFrame.closeSubscribe s _).station

theorem abortEntry_station (e : Entry) (s : State) : (abortEntry e s).station = s.station := by
  rw [abortEntry, finish_station, answer_station, (EngineFrame.freeEntry s _ _).station]

theorem resume_station (stream : BitVec 16) (s : State) : (resume stream s).station = s.station :=
  onEntry_station stream _ s fun e => resumeEntry_station e s

theorem close_station (stream : BitVec 16) (s : State) : (close stream s).station = s.station :=
  onEntry_station stream _ s fun e => closeEntry_station e s

theorem abort_station (stream : BitVec 16) (s : State) : (abort stream s).station = s.station :=
  onEntry_station stream _ s fun e => abortEntry_station e s

theorem info_station (stream : BitVec 16) (s : State) : (info stream s).station = s.station :=
  onEntry_station stream _ s fun _ => rfl

theorem unknownCommand_station (code : BitVec 16) (s : State) : (unknownCommand code s).station = s.station := by
  unfold unknownCommand
  split <;> rfl

theorem commandWord_straps (code stream : BitVec 16) (lineDriven : Bool) (s : State) :
    (commandWord code stream lineDriven s).station.straps = s.station.straps := by
  unfold commandWord
  split
  · exact attach_straps lineDriven s
  · exact detach_straps s
  · exact rejoin_straps s
  · exact resetStation_straps s
  · exact congrArg _ (openEntry_station _ _ s)
  · exact congrArg _ (openEntry_station _ _ s)
  · exact congrArg _ (resume_station stream s)
  · exact congrArg _ (close_station stream s)
  · exact congrArg _ (abort_station stream s)
  · exact congrArg _ (info_station stream s)
  · exact congrArg _ (unknownCommand_station code s)

theorem ringConfigWrite_station (reg : RingRegister) (v : Word) (s : State) :
    (ringConfigWrite reg v s).station = s.station := by
  unfold ringConfigWrite
  split <;> rfl

theorem consumerWrite_station (v : Word) (s : State) : (consumerWrite v s).station = s.station := by
  unfold consumerWrite
  dsimp only
  split
  · rw [drainEvents_station]
  · rfl

theorem fenceWrite_station (f : Fence → Fence) (s : State) : (fenceWrite f s).station = s.station := by
  unfold fenceWrite
  split <;> rfl

theorem registerWrite_straps (o : BitVec 7) (w : Nat) (v : Word) (lineDriven : Bool) (s : State) :
    (registerWrite o w v lineDriven s).station.straps = s.station.straps := by
  unfold registerWrite
  split
  · rfl
  · split
    case h_1 => exact commandWord_straps _ _ lineDriven s
    case h_3 => exact congrArg _ (fenceWrite_station _ s)
    case h_4 => exact congrArg _ (fenceWrite_station _ s)
    case h_5 => exact congrArg _ (ringConfigWrite_station _ v s)
    case h_6 => exact congrArg _ (ringConfigWrite_station _ v s)
    case h_7 => exact congrArg _ (consumerWrite_station v s)
    all_goals rfl

/-! ### Every command -/

/-- Engine work keeps station control, and so the straps. -/
theorem EngineFrame.straps {s t : State} (h : EngineFrame s t) : t.station.straps = s.station.straps :=
  congrArg _ h.station

/-- Every command but POWER_ON_RESET ends in a state with the strap values it found (R36). -/
theorem exec_keeps_straps (c : Instr) (s : State) (h : ∀ n k r, c ≠ .powerOnReset n k r) :
    ∃ t, exec c s = .next t ∧ t.station.straps = s.station.straps := by
  cases c with
  | powerOnReset n k r => exact absurd rfl (h n k r)
  | attach d => exact ⟨_, rfl, attach_straps d s⟩
  | detach => exact ⟨_, rfl, detach_straps s⟩
  | rejoin => exact ⟨_, rfl, rejoin_straps s⟩
  | resetStation => exact ⟨_, rfl, resetStation_straps s⟩
  | openPublish n => exact ⟨_, rfl, congrArg _ (openEntry_station _ _ s)⟩
  | openSubscribe n => exact ⟨_, rfl, congrArg _ (openEntry_station _ _ s)⟩
  | resume n => exact ⟨_, rfl, congrArg _ (resume_station n s)⟩
  | close n => exact ⟨_, rfl, congrArg _ (close_station n s)⟩
  | abort n => exact ⟨_, rfl, congrArg _ (abort_station n s)⟩
  | info n => exact ⟨_, rfl, congrArg _ (info_station n s)⟩
  | unknownCommand code n => exact ⟨_, rfl, congrArg _ (unknownCommand_station code s)⟩
  | stationRead lane w => exact ⟨_, rfl, rfl⟩
  | eventRingConfigWrite reg v => exact ⟨_, rfl, congrArg _ (ringConfigWrite_station reg v s)⟩
  | eventConsumerWrite v => exact ⟨_, rfl, congrArg _ (consumerWrite_station v s)⟩
  | intStatusWrite v => exact ⟨_, rfl, rfl⟩
  | registerWrite o w v d => exact ⟨_, rfl, registerWrite_straps o w v d s⟩
  | activityBegins heard => exact ⟨_, rfl, activityBegins_straps s heard⟩
  | stagingClaim n => exact ⟨_, rfl, congrArg _ (stagingClaim_station n s)⟩
  | frameEnd heard => exact ⟨_, rfl, frameEnd_straps heard s⟩
  | spoiledVerdict heard => exact ⟨_, rfl, spoiledVerdict_straps heard s⟩
  | cleanFaultyFrame => exact ⟨_, rfl, congrArg _ (cleanFaultyFrame_station s)⟩
  | cleanData => exact ⟨_, rfl, cleanData_straps s⟩
  | cleanRepair => exact ⟨_, rfl, cleanRepair_straps s⟩
  | cleanGone => exact ⟨_, rfl, cleanGone_straps s⟩
  | cleanClaim => exact ⟨_, rfl, cleanClaim_straps s⟩
  | cleanDispute => exact ⟨_, rfl, cleanDispute_straps s⟩
  | cleanYield => exact ⟨_, rfl, cleanYield_straps s⟩
  | brokenFrameEnd => exact ⟨_, rfl, congrArg _ (brokenFrameEnd_station s)⟩
  | holdActivityEnd => exact ⟨_, rfl, congrArg _ (holdActivityEnd_station s)⟩
  | stuckCondition heard => exact ⟨_, rfl, stuckCondition_straps heard s⟩
  | stuckEnd v => exact ⟨_, rfl, congrArg _ (stuckEnd_station v s)⟩
  | stuckWaitEnd => exact ⟨_, rfl, congrArg _ (stuckWaitEnd_station s)⟩
  | windowPassesEmpty => exact ⟨_, rfl, windowPassesEmpty_straps s⟩
  | urgentSlotStart f => exact ⟨_, rfl, start_straps_of_moment rfl _ _ _ f⟩
  | rotationSlotStart f => exact ⟨_, rfl, start_straps_of_moment (lineWasReleased_station s) _ _ _ f⟩
  | holdOffExpiry f => exact ⟨_, rfl, start_straps_of_moment (lineWasReleased_station s) _ _ _ f⟩
  | attemptCollided heard => exact ⟨_, rfl, attemptCollided_straps heard s⟩
  | attemptVerdict heard => exact ⟨_, rfl, attemptVerdict_straps heard s⟩
  | claimSettleExpiry i => exact ⟨_, rfl, (EngineFrame.claimSettleExpiry i s).straps⟩
  | repairDelayExpiry i => exact ⟨_, rfl, (EngineFrame.repairDelayExpiry i s).straps⟩
  | repairWaitExpiry i => exact ⟨_, rfl, (EngineFrame.repairWaitExpiry i s).straps⟩
  | replayAgeLimit => exact ⟨_, rfl, (EngineFrame.replayAgeLimit s).straps⟩
  | coalescingTimerExpiry => exact ⟨_, rfl, congrArg _ (coalescingTimerExpiry_station s)⟩
  | transferGrant => exact ⟨_, rfl, (EngineFrame.transferGrant s).straps⟩
  | headDescriptorReadEnd c => exact ⟨_, rfl, (EngineFrame.headDescriptorReadEnd c s).straps⟩
  | lookAheadReadEnd c => exact ⟨_, rfl, (EngineFrame.lookAheadReadEnd c s).straps⟩
  | lastLookEnd c => exact ⟨_, rfl, (EngineFrame.lastLookEnd c s).straps⟩
  | txPayloadReadEnd c => exact ⟨_, rfl, (EngineFrame.txPayloadReadEnd c s).straps⟩
  | txWriteBackEnd c => exact ⟨_, rfl, (EngineFrame.txWriteBackEnd c s).straps⟩
  | rxPayloadWriteEnd c => exact ⟨_, rfl, (EngineFrame.rxPayloadWriteEnd c s).straps⟩
  | rxWriteBackEnd c => exact ⟨_, rfl, (EngineFrame.rxWriteBackEnd c s).straps⟩
  | eventWriteEnd c => exact ⟨_, rfl, congrArg _ (eventWriteEnd_station c s)⟩
  | frameBecomesBroken heard => exact ⟨_, rfl, frameBecomesBroken_straps heard s⟩

/-- Settles O7: reads by the layout of the STRAPS word, the sampling by POWER_ON_RESET alone, the writes by the map's
read-only offsets (R179). -/
theorem identAndStrapsReadAsSampled : Obligations.IdentAndStrapsReadAsSampled := by
  refine ⟨fun s o h => readRegister_ident s h, fun s o h => ?_, fun n k r s => ?_, fun c s t hc ht => ?_,
    fun o w v d s h => ?_⟩
  · rw [readRegister_straps s h]
    exact ⟨Straps.word_station _, Straps.word_ring _, Straps.word_rate _⟩
  · exact ⟨_, exec_powerOnReset_eq n k r s, rfl⟩
  · obtain ⟨u, hu, hstraps⟩ := exec_keeps_straps c s hc
    obtain rfl : u = t := Host.Outcome.next.inj (hu.symm.trans ht)
    exact hstraps
  · exact congrArg Host.Outcome.next (registerWrite_ident_or_straps w v d s h)

end Machine
end Sys2Proof
end

section
/-! What every command keeps that does not write the configuration: the queue, the configuration, and the invariants of
station control, of the table, of the line and of the lists. Said once for the shared operations. -/

namespace Sys2Proof
namespace Machine

/-! ### What a step keeps -/

/-- From `s` to `t` the queue and the configuration stay, and every invariant but that of the stuck line is kept. -/
structure Steady (s t : State) : Prop where
  pending : t.pending = s.pending
  fence : t.fence = s.fence
  config : t.events.config = s.events.config
  enable : t.events.enable = s.events.enable
  argument : t.window.argument = s.window.argument
  counterIndex : t.window.counterIndex = s.window.counterIndex
  history : s.historyOk → t.historyOk
  table : s.tableOk → t.tableOk
  offLine : s.offLineOk → t.offLineOk
  lists : s.listsOk → t.listsOk

/-- `Steady`, with the invariant of the stuck line. -/
structure Keeps (s t : State) : Prop extends Steady s t where
  stuck : s.stuckOk → t.stuckOk

theorem Steady.trans {s t u : State} (h : Steady s t) (k : Steady t u) : Steady s u where
  pending := k.pending.trans h.pending
  fence := k.fence.trans h.fence
  config := k.config.trans h.config
  enable := k.enable.trans h.enable
  argument := k.argument.trans h.argument
  counterIndex := k.counterIndex.trans h.counterIndex
  history := k.history ∘ h.history
  table := k.table ∘ h.table
  offLine := k.offLine ∘ h.offLine
  lists := k.lists ∘ h.lists

theorem Keeps.refl (s : State) : Keeps s s := ⟨⟨rfl, rfl, rfl, rfl, rfl, rfl, id, id, id, id⟩, id⟩

theorem Keeps.trans {s t u : State} (h : Keeps s t) (k : Keeps t u) : Keeps s u :=
  ⟨h.toSteady.trans k.toSteady, k.stuck ∘ h.stuck⟩

/-! ### The engines -/

/-- The table's invariant speaks of the keys alone. -/
theorem tableOk_iff_keys (s : State) :
    s.tableOk ↔ ((s.table.map Entry.key).map (·.1)).Pairwise (· < ·) ∧
      ((s.table.map Entry.key).map (·.2.2.1)).Nodup ∧ ((s.table.map Entry.key).map (·.2.1)).Nodup ∧
      ∀ k ∈ s.table.map Entry.key, k.1 < Config.tableSize ∧ k.2.2.1 < Config.streamCount ∧ k.2.1 < s.nextSerial := by
  simp only [State.tableOk, List.map_map, List.forall_mem_map]
  rfl

/-- Entries may leave the table, and serials may be given, without harm to the table's invariant. -/
theorem tableOk_of_keys {s t : State} (h : s.tableOk) (keys : (t.table.map Entry.key).Sublist (s.table.map Entry.key))
    (serial : s.nextSerial ≤ t.nextSerial) : t.tableOk := by
  rw [tableOk_iff_keys] at h ⊢
  obtain ⟨indexes, streams, serials, bounds⟩ := h
  refine ⟨indexes.sublist (keys.map _), streams.sublist (keys.map _), serials.sublist (keys.map _), fun k hk => ?_⟩
  obtain ⟨hi, hs, hn⟩ := bounds k (keys.subset hk)
  exact ⟨hi, hs, Nat.lt_of_lt_of_le hn serial⟩

/-- An empty table stays empty where entries can only leave. -/
theorem EngineFrame.table_nil {s t : State} (h : EngineFrame s t) (hs : s.table = []) : t.table = [] := by
  have keys := h.keys
  rw [hs] at keys
  exact List.map_eq_nil_iff.1 (List.sublist_nil.1 keys)

/-- Work of the engines keeps the invariants. -/
theorem EngineFrame.keeps {s t : State} (h : EngineFrame s t) : Keeps s t where
  pending := h.pending
  fence := h.fence
  config := h.config
  enable := h.enable
  argument := by rw [h.window]
  counterIndex := by rw [h.window]
  history ok := by
    unfold State.historyOk
    rw [h.station]
    exact ok
  table ok := tableOk_of_keys ok h.keys h.serial
  offLine ok := fun off => by
    rw [h.station] at off
    obtain ⟨table, phase, condition, anchor, sender, holdOff, attempt⟩ := ok off
    refine ⟨h.table_nil table, h.phase.trans phase, h.condition.trans condition, h.anchor.trans anchor,
      h.lastSender.trans sender, ?_, h.attempt.trans attempt⟩
    rcases h.holdOff with same | stopped | active
    · exact same.trans holdOff
    · exact stopped
    · rw [active] at off
      cases off
  lists := h.limits
  stuck ok := by
    unfold State.stuckOk
    rw [h.phase, h.condition, h.station, h.stuckCount]
    exact ok

/-! ### Plain updates -/

theorem Keeps.window (s : State) (w : Window) (argument : w.argument = s.window.argument)
    (counterIndex : w.counterIndex = s.window.counterIndex) : Keeps s { s with window := w } :=
  ⟨⟨rfl, rfl, rfl, rfl, argument, counterIndex, id, id, id, id⟩, id⟩

theorem Keeps.answer (s : State) (r : Result) : Keeps s (s.answer r) := .window s _ rfl rfl

theorem Keeps.counters (s : State) (c : Counters) : Keeps s { s with counters := c } :=
  ⟨⟨rfl, rfl, rfl, rfl, rfl, rfl, id, id, id, id⟩, id⟩

theorem Keeps.bump (s : State) (which : Counter) : Keeps s (s.bump which) := .counters s _

theorem Keeps.events (s : State) (e : EventUnit) (config : e.config = s.events.config)
    (enable : e.enable = s.events.enable)
    (backlog : s.events.backlog.length ≤ Config.backlogLimit → e.backlog.length ≤ Config.backlogLimit) :
    Keeps s { s with events := e } :=
  ⟨⟨rfl, rfl, config, enable, rfl, rfl, id, id, id, fun ⟨a, b, c, d⟩ => ⟨a, b, c, backlog d⟩⟩, id⟩

/-- At a station that follows the line, the line interface and the turn unit may change in any way that leaves the
phase STUCK to `becomeStuck`. -/
theorem Steady.lineTurn (s : State) (l : LineInterface) (tu : TurnUnit) (m : Bool)
    (attached : s.station.state.attached = true) :
    Steady s { s with line := l, turn := tu, momentTaken := m } where
  pending := rfl
  fence := rfl
  config := rfl
  enable := rfl
  argument := rfl
  counterIndex := rfl
  history := id
  table := id
  offLine _ := fun off => by
    rw [show s.station.state.attached = false from off] at attached
    cases attached
  lists := id

theorem Keeps.lineTurn (s : State) (l : LineInterface) (tu : TurnUnit) (m : Bool)
    (attached : s.station.state.attached = true) (phase : l.phase ≠ .stuck)
    (condition : tu.condition ≠ .stuck ∨ (tu.condition = s.turn.condition ∧ s.line.phase ≠ .stuck))
    (count : (s.line.phase ≠ .stuck → s.line.stuckCount < Config.stuckLimit) → l.stuckCount < Config.stuckLimit) :
    Keeps s { s with line := l, turn := tu, momentTaken := m } where
  toSteady := .lineTurn s l tu m attached
  stuck ok := by
    obtain ⟨both, -, below⟩ := ok
    refine ⟨⟨fun stuck => absurd stuck phase, fun stuck => ?_⟩, fun stuck => absurd stuck phase, fun _ => count below⟩
    rcases condition with other | ⟨same, calm⟩
    · exact absurd stuck other
    · exact absurd (both.2 (same ▸ stuck)) calm

/-- A change of the line interface alone. -/
theorem Keeps.line (s : State) (l : LineInterface) (attached : s.station.state.attached = true)
    (calm : s.line.phase ≠ .stuck) (phase : l.phase ≠ .stuck)
    (count : s.line.stuckCount < Config.stuckLimit → l.stuckCount < Config.stuckLimit) :
    Keeps s { s with line := l } :=
  .lineTurn s l s.turn s.momentTaken attached phase (.inr ⟨rfl, calm⟩) fun below => count (below calm)

/-- A change of the turn unit alone that leaves the line condition. -/
theorem Keeps.turn (s : State) (tu : TurnUnit) (attached : s.station.state.attached = true)
    (calm : s.line.phase ≠ .stuck) (condition : tu.condition = s.turn.condition) : Keeps s { s with turn := tu } :=
  .lineTurn s s.line tu s.momentTaken attached calm (.inr ⟨condition, calm⟩) fun below => below calm

theorem Keeps.anchorNow (s : State) (n : Nat) (attached : s.station.state.attached = true)
    (calm : s.line.phase ≠ .stuck) : Keeps s (s.anchorNow n) :=
  .lineTurn s s.line _ _ attached calm (.inl nofun) fun below => below calm

theorem Keeps.lineWasReleased (s : State) (attached : s.station.state.attached = true)
    (calm : s.line.phase ≠ .stuck) : Keeps s s.lineWasReleased :=
  .line s _ attached calm calm fun _ => (by decide : 0 < Config.stuckLimit)

/-! ### Station control -/

/-- Station control may change at an attached station that stays attached, keeping its history's limits; it leaves HOLD
only where the line is not stuck. -/
theorem Keeps.station (s : State) (c : StationControl) (attached : c.state.attached = true)
    (calm : c.state = .hold ∨ s.line.phase ≠ .stuck)
    (history : s.historyOk → State.historyOk { s with station := c }) : Keeps s { s with station := c } where
  pending := rfl
  fence := rfl
  config := rfl
  enable := rfl
  argument := rfl
  counterIndex := rfl
  history := history
  table := id
  offLine _ := fun off => by
    rw [show c.state.attached = false from off] at attached
    cases attached
  lists := id
  stuck ok := by
    obtain ⟨both, -, below⟩ := ok
    exact ⟨both, fun stuck => calm.resolve_right fun other => other stuck, below⟩

theorem Keeps.reportState (s : State) (new : StationState) (cause : StateCause) (n : Nat)
    (attached : new.attached = true) (calm : new = .hold ∨ s.line.phase ≠ .stuck)
    (history : s.historyOk → new = .active ∨ new = .joining ∨ (new = .hold ∧ s.station.resumeTo = .joining) →
      failureCount s.station.history < Config.failureLimit) : Keeps s (s.reportState new cause n) :=
  (Keeps.station s { s.station with state := new, stateChanged := true } attached calm fun ok =>
    ⟨ok.1, ok.2.1, history ok⟩).trans (EngineFrame.emit _ _).keeps

theorem Keeps.joinIfOpen (s : State) (calm : s.line.phase ≠ .stuck) : Keeps s s.joinIfOpen := by
  unfold State.joinIfOpen
  split
  case isTrue h => exact .reportState s _ _ _ rfl (.inr calm) fun ok _ => ok.2.2 (.inr (.inl h.1))
  case isFalse => exact .refl s

theorem Keeps.recover (s : State) (calm : s.line.phase ≠ .stuck) : Keeps s s.recover := by
  unfold State.recover
  split
  case isTrue h =>
    refine .reportState s _ _ _ ?_ (.inr calm) fun ok back => ?_
    · cases s.station.resumeTo <;> rfl
    · cases hr : s.station.resumeTo with
      | joining => exact ok.2.2 (.inr (.inr ⟨h, hr⟩))
      | quiet => simp [hr, ResumeTo.state] at back
  case isFalse => exact .refl s

/-! ### The stuck line -/

/-- The states an attached station can be in while it does not receive: HOLD alone. -/
theorem hold_of_attached {c : StationState} (attached : c.attached = true) (h : c.receiving = false) : c = .hold := by
  cases c with
  | disabled | detached => cases attached
  | joining | active | quiet => cases h
  | hold => rfl

/-- A stuck line leaves an attached station in HOLD, and its invariant holds whatever held before (R16, R44). -/
theorem becomeStuck_stuckOk (s : State) (attached : s.station.state.attached = true) : s.becomeStuck.stuckOk := by
  obtain ⟨line, turn, -⟩ := becomeStuck_rest s
  refine ⟨by simp [line, turn], fun _ => ?_, fun other => absurd (by rw [line]) other⟩
  unfold State.becomeStuck
  dsimp only
  split
  case isTrue => simp [State.reportState]
  case isFalse h => exact hold_of_attached attached (by simpa using h)

/-- Of a station that enters HOLD the resume-to record is JOINING only where its history lets it be ACTIVE again. -/
theorem historyOk_hold {s : State} (ok : s.historyOk) (receiving : s.station.state.receiving = true)
    (joining : s.station.state.resumeRecord = .joining) :
    failureCount s.station.history < Config.failureLimit := by
  refine ok.2.2 ?_
  cases h : s.station.state <;> simp_all [StationState.receiving, StationState.resumeRecord]

theorem Steady.becomeStuck (s : State) (attached : s.station.state.attached = true) : Steady s s.becomeStuck := by
  unfold State.becomeStuck
  dsimp only
  split
  case isTrue receiving =>
    refine Steady.trans (t := { s with
        line := { s.line.discardFrame with phase := .stuck, stuckCount := Config.stuckLimit }
        turn := { s.turn with condition := .stuck, anchor := none, lastSender := 0, holdOff := none, attempt := none }
        station := { s.station with
          stuckSeen := true, resumeTo := s.station.state.resumeRecord, state := .hold, stateChanged := true } })
      ?_ (EngineFrame.emit _ _).keeps.toSteady
    refine ⟨rfl, rfl, rfl, rfl, rfl, rfl, fun ok => ⟨ok.1, ok.2.1, fun back => ?_⟩, id, fun _ off => (by cases off), id⟩
    rcases back with active | joining | ⟨-, record⟩
    · cases active
    · cases joining
    · exact historyOk_hold (s := s) ok receiving record
  case isFalse =>
    refine ⟨rfl, rfl, rfl, rfl, rfl, rfl, id, id, fun _ off => ?_, id⟩
    rw [show s.station.state.attached = false from off] at attached
    cases attached

theorem Keeps.becomeStuck (s : State) (attached : s.station.state.attached = true) : Keeps s s.becomeStuck :=
  ⟨.becomeStuck s attached, fun _ => becomeStuck_stuckOk s attached⟩

theorem Keeps.unlessStuck {s other : State} (heard : List LineReading) (attached : s.station.state.attached = true)
    (h : reachesStuck s.line.stuckCount heard = false → Keeps s other) : Keeps s (s.unlessStuck heard other) := by
  unfold State.unlessStuck
  split
  case isTrue => exact .becomeStuck s attached
  case isFalse calm => exact h (by simpa using calm)

/-- Bit times heard that do not reach the stuck line leave the count below it. -/
theorem hear_below {s : State} {heard : List LineReading} (h : reachesStuck s.line.stuckCount heard = false)
    (below : s.line.stuckCount < Config.stuckLimit) : (s.line.hear heard).stuckCount < Config.stuckLimit := by
  rw [hear_stuckCount]
  exact stuckAfter_lt heard _ below h

end Machine
end Sys2Proof
end

section
/-! Every command but the writers of the configuration keeps the queue, the configuration and the invariants. -/

namespace Sys2Proof
namespace Machine

/-! ### The turn unit -/

theorem attached_of_receiving {c : StationState} (h : c.receiving = true) : c.attached = true := by
  cases c with
  | disabled | detached | hold => cases h
  | joining | active | quiet => rfl

theorem Keeps.activityBegins (s : State) (heard : List LineReading) : Keeps s (s.activityBegins heard) := by
  unfold State.activityBegins
  split
  case isFalse => exact .refl s
  case isTrue attached =>
    split
    case h_1 _ _ _ hphase _ =>
      refine .unlessStuck heard attached fun calm => ?_
      have off : s.line.phase ≠ .stuck := by simp [hphase]
      refine .lineTurn s _ _ s.momentTaken attached ?_ ?_ fun below => hear_below calm (below off)
      · dsimp only
        split <;> simp
      · cases hc : s.turn.condition with
        | stuck => exact .inr ⟨by simp [LineCondition.onActivity], off⟩
        | _ => exact .inl (by simp [LineCondition.onActivity])
    case h_2 _ _ _ hphase _ =>
      have off : s.line.phase ≠ .stuck := by simp [hphase]
      split
      case isFalse => exact .refl s
      case isTrue =>
        exact .unlessStuck heard attached fun calm => .line s _ attached off off fun below => hear_below calm below
    case h_3 => exact .refl s

/-- What the guard of a start says (R25). -/
theorem mayStart_iff (s : State) (c : LineCondition) :
    s.mayStart c = true ↔ s.station.state = .active ∧ s.turn.condition = c ∧ s.line.phase = .rest ∧
      s.turn.attempt = none := by
  simp [State.mayStart, and_assoc]

theorem Keeps.start (s : State) (selected : Option Candidate) (urgent : Bool) (first : FirstCell)
    (active : s.station.state = .active) (rest : s.line.phase = .rest) :
    Keeps s (s.start selected urgent first) := by
  have off : s.line.phase ≠ .stuck := by simp [rest]
  unfold State.start
  split
  case h_1 => exact .refl s
  case h_2 =>
    split
    case h_1 heard => exact .activityBegins s heard
    case h_2 => exact .lineTurn s _ _ s.momentTaken (by rw [active]; rfl) nofun (.inl nofun) fun below => below off

theorem Keeps.startReleased (s : State) (selected : Option Candidate) (urgent : Bool) (first : FirstCell)
    (active : s.station.state = .active) (rest : s.line.phase = .rest) :
    Keeps s (s.lineWasReleased.start selected urgent first) :=
  (Keeps.lineWasReleased s (by rw [active]; rfl) (by simp [rest])).trans
    (.start s.lineWasReleased selected urgent first active rest)

/-! ### The end of an attempt -/

/-- The history with one outcome more holds at most 16, and at most one failure more (R41). -/
theorem pushOutcome_bounds (history : List AttemptOutcome) (o : AttemptOutcome)
    (h : history.length ≤ Config.historyLimit) :
    (pushOutcome history o).length ≤ Config.historyLimit ∧
      failureCount (pushOutcome history o) ≤ failureCount history + 1 := by
  have grown : failureCount (history ++ [o]) ≤ failureCount history + 1 := by
    rw [failureCount, failureCount, List.countP_append, List.countP_singleton]
    split <;> omega
  unfold pushOutcome
  split
  case isTrue room => exact ⟨by rw [List.length_append, List.length_singleton]; omega, grown⟩
  case isFalse =>
    refine ⟨by rw [List.length_drop, List.length_append, List.length_singleton]; omega, Nat.le_trans ?_ grown⟩
    exact ((history ++ [o]).drop_sublist 1).countP_le

/-- The station's history may take an outcome where ACTIVE is left before the eighth failure counts. -/
theorem Keeps.recordOutcome (s : State) (o : AttemptOutcome) (active : s.station.state = .active)
    (calm : s.line.phase ≠ .stuck) : Keeps s (s.recordOutcome o) := by
  have attached : s.station.state.attached = true := by rw [active]; rfl
  have pushed : s.historyOk → (pushOutcome s.station.history o).length ≤ Config.historyLimit ∧
      failureCount (pushOutcome s.station.history o) ≤ Config.failureLimit := fun ok =>
    have below := ok.2.2 (.inl active)
    have ⟨length, failures⟩ := pushOutcome_bounds s.station.history o ok.1
    ⟨length, Nat.le_trans failures below⟩
  unfold State.recordOutcome
  dsimp only
  split
  case isFalse few =>
    refine .station s _ attached (.inr calm) fun ok => ⟨(pushed ok).1, (pushed ok).2, fun _ => ?_⟩
    exact Nat.lt_of_not_le fun many => few ⟨active, many⟩
  case isTrue =>
    have quieted : Keeps s { s with
        turn := { s.turn with holdOff := none }
        table := s.table.map fun e => { e with role := e.role.mapSubscribe SubscribeEntry.quieted } } :=
      (Keeps.turn s { s.turn with holdOff := none } attached calm rfl).trans
        (EngineFrame.mapTable _ _ fun e => Role.mapSubscribe_kind e _).keeps
    refine quieted.trans (Keeps.trans (.station _
      { s.station with history := pushOutcome s.station.history o, state := .quiet, stateChanged := true }
      rfl (.inr calm) fun ok => ⟨(pushed ok).1, (pushed ok).2, fun back => ?_⟩) (EngineFrame.emit _ _).keeps)
    rcases back with back | back | ⟨back, -⟩ <;> cases back

theorem Keeps.ownerOutcome (s : State) (a : Attempt) (o : AttemptOutcome) (attached : s.station.state.attached = true)
    (calm : s.line.phase ≠ .stuck) : Keeps s (s.ownerOutcome a o) := by
  obtain ⟨p, frame⟩ := ownerOutcome_frame s a o
  exact (Keeps.turn s { s.turn with pointer := p } attached calm rfl).trans frame.keeps

theorem ownerOutcome_phase (s : State) (a : Attempt) (o : AttemptOutcome) :
    (s.ownerOutcome a o).line.phase = s.line.phase := by
  obtain ⟨p, frame⟩ := ownerOutcome_frame s a o
  exact frame.phase

theorem Keeps.endAttempt (s : State) (a : Attempt) (o : AttemptOutcome) (active : s.station.state = .active)
    (calm : s.line.phase ≠ .stuck) : Keeps s (s.endAttempt a o) := by
  have attached : s.station.state.attached = true := by rw [active]; rfl
  refine ((Keeps.turn s { s.turn with attempt := none } attached calm rfl).trans
    (.ownerOutcome _ a o attached calm)).trans (.recordOutcome _ o ?_ ?_)
  · rw [ownerOutcome_station]
    exact active
  · rw [ownerOutcome_phase]
    exact calm

theorem Keeps.finish (s : State) : Keeps s s.finish := (EngineFrame.finish s).keeps

/-- An attempt that ends leaves the station attached. -/
theorem endAttempt_attached (s : State) (a : Attempt) (o : AttemptOutcome) (attached : s.station.state.attached = true) :
    (s.endAttempt a o).station.state.attached = true := by
  unfold State.endAttempt State.recordOutcome State.enterQuiet State.reportState
  dsimp only
  split
  · rw [emit_station]
    rfl
  · dsimp only
    rw [ownerOutcome_station]
    exact attached

theorem Keeps.attemptCollided (heard : List LineReading) (s : State) : Keeps s (attemptCollided heard s) := by
  unfold Machine.attemptCollided
  split
  case h_1 => exact .refl s
  case h_2 a _ =>
    split
    case isFalse => exact .refl s
    case isTrue h =>
      obtain ⟨active, phase, -⟩ := h
      have attached : s.station.state.attached = true := by rw [active]; rfl
      have off : s.line.phase ≠ .stuck := by simp [phase]
      let broken : State := { s with line := { s.line.hear heard with phase := .broken, brokenWait := .activity } }
      have ends : Keeps broken ((broken.bump .ownCollisions).endAttempt a .collided).finish :=
        ((Keeps.bump broken .ownCollisions).trans (.endAttempt (broken.bump .ownCollisions) a .collided active nofun)).trans
          (.finish _)
      have there : ((broken.bump .ownCollisions).endAttempt a .collided).finish.station.state.attached = true := by
        rw [finish_station]
        exact endAttempt_attached (broken.bump .ownCollisions) a _ attached
      dsimp only
      split
      case isTrue =>
        exact ⟨((Steady.lineTurn s _ s.turn s.momentTaken attached).trans ends.toSteady).trans (.becomeStuck _ there),
          fun _ => becomeStuck_stuckOk _ there⟩
      case isFalse calm =>
        exact (Keeps.line s broken.line attached off nofun fun below => hear_below (by simpa using calm) below).trans ends

/-- A verdict slot without a driven bit time does not reach the stuck line. -/
theorem not_reachesStuck_of_clean {heard : List LineReading} (count : Nat) (h : slotSpoiled heard = false) :
    reachesStuck count heard = false := by
  cases hr : reachesStuck count heard with
  | false => rfl
  | true => exact absurd (isSome_of_reachesStuck heard count hr) (by simpa [slotSpoiled] using h)

theorem Keeps.attemptVerdict (heard : List LineReading) (s : State) : Keeps s (attemptVerdict heard s) := by
  unfold Machine.attemptVerdict
  split
  case h_1 => exact .refl s
  case h_2 a _ =>
    split
    case isFalse => exact .refl s
    case isTrue h =>
      obtain ⟨active, phase⟩ := h
      have attached : s.station.state.attached = true := by rw [active]; rfl
      have off : s.line.phase ≠ .stuck := by simp [phase]
      let rested : State := { s with line := { s.line.hear heard with phase := .rest } }
      have verdict (sender : Nat) (which : Counter) (o : AttemptOutcome)
          (calm : reachesStuck s.line.stuckCount heard = false) :
          Keeps s ((((rested.anchorNow sender).bump which).endAttempt a o).finish) :=
        ((((Keeps.line s rested.line attached off nofun fun below => hear_below calm below).trans
          (.anchorNow rested sender attached nofun)).trans (.bump (rested.anchorNow sender) which)).trans
          (.endAttempt ((rested.anchorNow sender).bump which) a o active nofun)).trans (.finish _)
      dsimp only
      split
      case isTrue => exact .unlessStuck heard attached fun calm => verdict _ _ _ calm
      case isFalse clean => exact verdict _ _ _ (not_reachesStuck_of_clean _ (by simpa using clean))

/-! ### The line interface -/

theorem Keeps.stagingClaim (stream : BitVec 11) (s : State) : Keeps s (stagingClaim stream s) := by
  unfold Machine.stagingClaim
  split
  case isFalse => exact .refl s
  case isTrue =>
    split
    case h_1 => exact .refl s
    case h_2 =>
      split
      case h_1 k _ => exact (EngineFrame.setBuffer s k _).keeps
      case h_2 => exact .bump s _

theorem fill_phase_stuckCount (l : LineInterface) (f : Option Frame) :
    (l.fill f).phase = l.phase ∧ (l.fill f).stuckCount = l.stuckCount := by
  unfold LineInterface.fill
  split
  · split
    · rename_i k _
      cases k <;> exact ⟨rfl, rfl⟩
    · exact ⟨rfl, rfl⟩
  · exact ⟨rfl, rfl⟩

theorem Keeps.judgeFrame (s : State) (cells : List LineCell) (attached : s.station.state.attached = true)
    (calm : s.line.phase ≠ .stuck) : Keeps s (s.judgeFrame cells) := by
  have judged : Keeps s { s with line := { s.line.fill (readFrame cells) with
      phase := .verdict, record := readFrame cells, faults := readFaults s.ringSize cells
      spoiling := s.station.state == .active && (readFaults s.ringSize cells).any } } :=
    .line s _ attached calm nofun fun below => by
      rw [← (fill_phase_stuckCount s.line (readFrame cells)).2] at below
      exact below
  unfold State.judgeFrame
  dsimp only
  split
  case isTrue => exact judged.trans (.bump _ _)
  case isFalse => exact judged

theorem Keeps.frameHeard (s : State) (heard : List LineReading) (attached : s.station.state.attached = true)
    (calm : s.line.phase ≠ .stuck) : Keeps s (s.frameHeard heard) := by
  unfold State.frameHeard
  dsimp only
  split
  case h_1 cells _ =>
    exact .unlessStuck heard attached fun below =>
      (Keeps.line s (s.line.hear heard) attached calm calm fun h => hear_below below h).trans
        (.judgeFrame _ cells attached calm)
  case h_2 =>
    exact .unlessStuck heard attached fun below =>
      .line s ((s.line.hear heard).breakFrame) attached calm nofun fun h => hear_below below h
  case h_3 => exact .refl s

/-- A frame's cells are valid ones, and there are some. -/
theorem cells_valid (f : Frame) : (∀ c ∈ f.cells, validCell c = true) ∧ f.cells ≠ [] := by
  refine ⟨fun c hc => ?_, ?_⟩
  · obtain ⟨b, -, rfl⟩ := List.mem_map.1 hc
    cases b <;> rfl
  · simp [Frame.cells, Frame.bits, Frame.coveredBits, bitsOf, List.range_succ]

/-- Valid cells return the stuck count to 0 (R15). -/
theorem stuckAfter_valid (cells : List LineCell) (h : ∀ c ∈ cells, validCell c = true) (ne : cells ≠ []) :
    ∀ count, stuckAfter count (cells.map some) = 0 := by
  induction cells with
  | nil => exact absurd rfl ne
  | cons c rest ih =>
    intro count
    have zero : stuckStep count (some c) = 0 := by
      have hc := h c List.mem_cons_self
      cases c with
      | zero | one => rfl
      | held level => cases hc
    rw [List.map_cons, stuckAfter_cons, zero]
    by_cases hr : rest = []
    · rw [hr]
      rfl
    · exact ih (fun d hd => h d (List.mem_cons_of_mem c hd)) hr 0

/-- The own frame read back leaves a stuck count of 2: its end mark's two violations after valid cells (R3, R15). -/
theorem stuckAfter_onLine (f : Frame) (count : Nat) : stuckAfter count (f.onLine.map some) = 2 := by
  have ⟨valid, ne⟩ := cells_valid f
  rw [Frame.onLine, List.map_append, List.map_append, stuckAfter_append, stuckAfter_append,
    stuckAfter_valid f.cells valid ne]
  rfl

theorem Keeps.frameEnd (heard : List LineReading) (s : State) : Keeps s (frameEnd heard s) := by
  unfold Machine.frameEnd
  split
  case isFalse => exact .refl s
  case isTrue h =>
    simp only [Bool.and_eq_true, beq_iff_eq] at h
    obtain ⟨receiving, phase⟩ := h
    have attached := attached_of_receiving receiving
    have off : s.line.phase ≠ .stuck := by simp [phase]
    split
    case h_1 a _ =>
      split
      case isTrue whole =>
        refine .line s _ attached off nofun fun _ => ?_
        rw [whole]
        exact (stuckAfter_onLine a.frame s.line.stuckCount).trans_lt (by decide)
      case isFalse => exact .attemptCollided heard s
    case h_2 => exact .frameHeard s heard attached off

theorem Keeps.frameBecomesBroken (heard : List LineReading) (s : State) : Keeps s (frameBecomesBroken heard s) := by
  unfold Machine.frameBecomesBroken
  split
  case isFalse => exact .refl s
  case isTrue h =>
    simp only [Bool.and_eq_true, beq_iff_eq] at h
    obtain ⟨⟨⟨receiving, phase⟩, -⟩, -⟩ := h
    exact .frameHeard s heard (attached_of_receiving receiving) (by simp [phase])

/-- A station in the verdict slot of another station's frame follows the line, which is not stuck. -/
theorem inVerdict_iff (s : State) :
    s.inVerdict = true ↔ s.station.state.receiving = true ∧ s.line.phase = .verdict ∧ s.turn.attempt = none := by
  simp [State.inVerdict, and_assoc]

theorem Keeps.discardAndRest (s : State) (count : Nat) (attached : s.station.state.attached = true)
    (calm : s.line.phase ≠ .stuck)
    (below : s.line.stuckCount < Config.stuckLimit → count < Config.stuckLimit) : Keeps s (s.discardAndRest count) :=
  .line s _ attached calm nofun below

theorem Keeps.spoiledVerdict (heard : List LineReading) (s : State) : Keeps s (spoiledVerdict heard s) := by
  unfold Machine.spoiledVerdict
  split
  case isFalse => exact .refl s
  case isTrue h =>
    simp only [Bool.and_eq_true, inVerdict_iff] at h
    obtain ⟨⟨receiving, phase, -⟩, -⟩ := h
    have attached := attached_of_receiving receiving
    exact .unlessStuck heard attached fun calm =>
      ((Keeps.discardAndRest s _ attached (by simp [phase]) fun below => stuckAfter_lt heard _ below calm).trans
        (.bump _ _)).trans (.anchorNow _ _ attached nofun)

theorem Keeps.cleanFaultyFrame (s : State) : Keeps s (cleanFaultyFrame s) := by
  unfold Machine.cleanFaultyFrame
  split
  case isFalse => exact .refl s
  case isTrue h =>
    simp only [Bool.and_eq_true, inVerdict_iff] at h
    obtain ⟨⟨⟨receiving, phase, -⟩, -⟩, -⟩ := h
    have attached := attached_of_receiving receiving
    exact ((Keeps.discardAndRest s 0 attached (by simp [phase]) fun _ => by decide).trans (.bump _ _)).trans
      (.anchorNow _ _ attached nofun)

/-- A frame that is heard is heard in its verdict slot, by a station that receives. -/
theorem heardFrame_verdict {s : State} {f : Frame} (h : s.heardFrame = some f) :
    s.station.state.receiving = true ∧ s.line.phase = .verdict := by
  unfold State.heardFrame at h
  split at h
  case isTrue guard =>
    simp only [Bool.and_eq_true, inVerdict_iff] at guard
    exact ⟨guard.1.1.1, guard.1.1.2.1⟩
  case isFalse => cases h

theorem Keeps.cleanVerdict (s : State) (sender : Nat) (attached : s.station.state.attached = true)
    (calm : s.line.phase ≠ .stuck) : Keeps s (s.cleanVerdict sender) := by
  have anchored : Keeps s ((s.bump .cleanFrames).anchorNow sender) :=
    (Keeps.bump s _).trans (.anchorNow _ _ attached calm)
  unfold State.cleanVerdict
  dsimp only
  refine (Keeps.trans anchored ?_).trans (.finish _)
  split
  case isTrue joining => exact .reportState _ _ _ _ rfl (.inr calm) fun ok _ => ok.2.2 (.inr (.inl joining))
  case isFalse => exact .refl _

/-- The verdict of a clean frame, after whatever the engines did with the frame. -/
theorem Keeps.cleanFrame {s t : State} {f : Frame} (heard : s.heardFrame = some f) (sender : Nat)
    (h : EngineFrame { s with line := s.line.discardFrame.verdictOver } t) : Keeps s (t.cleanVerdict sender) := by
  obtain ⟨receiving, phase⟩ := heardFrame_verdict heard
  have attached := attached_of_receiving receiving
  refine ((Keeps.line s s.line.discardFrame.verdictOver attached (by simp [phase]) nofun fun _ =>
    (by decide : 0 < Config.stuckLimit)).trans h.keeps).trans
    (.cleanVerdict t sender ?_ ?_)
  · rw [h.station]
    exact attached
  · rw [h.phase]
    nofun

theorem Keeps.cleanData (s : State) : Keeps s (cleanData s) := by
  unfold Machine.cleanData
  split
  case h_1 heard => exact .cleanFrame heard _ (.dataHeard _ _ _)
  case h_2 => exact .refl s

theorem Keeps.cleanRepair (s : State) : Keeps s (cleanRepair s) := by
  unfold Machine.cleanRepair
  split
  case h_1 heard => exact .cleanFrame heard _ (.repairHeard _ _ _ _ _ _)
  case h_2 => exact .refl s

theorem Keeps.cleanGone (s : State) : Keeps s (cleanGone s) := by
  unfold Machine.cleanGone
  split
  case h_1 heard => exact .cleanFrame heard _ (.goneHeard _ _ _ _ _)
  case h_2 => exact .refl s

theorem Keeps.cleanClaim (s : State) : Keeps s (cleanClaim s) := by
  unfold Machine.cleanClaim
  split
  case h_1 heard => exact .cleanFrame heard _ (.claimHeard _ _ _)
  case h_2 => exact .refl s

theorem Keeps.cleanDispute (s : State) : Keeps s (cleanDispute s) := by
  unfold Machine.cleanDispute
  split
  case h_1 heard => exact .cleanFrame heard _ (.disputeHeard _ _ _ _)
  case h_2 => exact .refl s

theorem Keeps.cleanYield (s : State) : Keeps s (cleanYield s) := by
  unfold Machine.cleanYield
  split
  case h_1 heard => exact .cleanFrame heard _ (.yieldHeard _ _ _)
  case h_2 => exact .refl s

theorem Keeps.activityEnds (s : State) (attached : s.station.state.attached = true) (calm : s.line.phase ≠ .stuck) :
    Keeps s s.activityEnds :=
  (Keeps.discardAndRest s 0 attached calm fun _ => by decide).trans (.anchorNow _ 0 attached nofun)

/-- A broken frame ends at an attached station alone. -/
theorem brokenFrameEnd_cases (s : State) :
    brokenFrameEnd s = s ∨ (s.station.state.attached = true ∧ s.line.phase = .broken ∧
      brokenFrameEnd s = s.activityEnds.bump .brokenFrames) := by
  have acts (counted : Bool) (h : counted = true → s.station.state.attached = true) :
      (if s.line.phase = .broken ∧ counted = true then s.activityEnds.bump .brokenFrames else s) = s ∨
        (s.station.state.attached = true ∧ s.line.phase = .broken ∧
          (if s.line.phase = .broken ∧ counted = true then s.activityEnds.bump .brokenFrames else s) =
            s.activityEnds.bump .brokenFrames) := by
    split
    case isTrue guard => exact .inr ⟨h guard.2, guard.1, rfl⟩
    case isFalse => exact .inl rfl
  unfold brokenFrameEnd
  cases s.line.brokenWait with
  | activity => exact acts _ attached_of_receiving
  | afterStuck => exact acts _ id
  | stuckWait => exact acts false nofun

theorem Keeps.brokenFrameEnd (s : State) : Keeps s (brokenFrameEnd s) := by
  rcases brokenFrameEnd_cases s with same | ⟨attached, phase, acts⟩
  · rw [same]
    exact .refl s
  · rw [acts]
    exact (Keeps.activityEnds s attached (by simp [phase])).trans (.bump _ _)

theorem Keeps.holdActivityEnd (s : State) : Keeps s (holdActivityEnd s) := by
  unfold Machine.holdActivityEnd
  split
  case isFalse => exact .refl s
  case isTrue h => exact .activityEnds s (by rw [h.1]; rfl) (by simp [h.2.1])

theorem Keeps.stuckCondition (heard : List LineReading) (s : State) : Keeps s (stuckCondition heard s) := by
  unfold Machine.stuckCondition
  split
  case isFalse => exact .refl s
  case isTrue h =>
    simp only [Bool.and_eq_true] at h
    exact .becomeStuck s h.1.1

theorem Keeps.stuckEnd (atValidCell : Bool) (s : State) : Keeps s (stuckEnd atValidCell s) := by
  unfold Machine.stuckEnd
  split
  case isFalse => exact .refl s
  case isTrue h =>
    simp only [Bool.and_eq_true] at h
    exact .lineTurn s _ _ s.momentTaken h.1 nofun (.inl nofun) fun _ => (by decide : 0 < Config.stuckLimit)

theorem Keeps.stuckWaitEnd (s : State) : Keeps s (stuckWaitEnd s) := by
  unfold Machine.stuckWaitEnd
  split
  case isFalse => exact .refl s
  case isTrue h =>
    simp only [Bool.and_eq_true, beq_iff_eq] at h
    obtain ⟨⟨attached, phase⟩, -⟩ := h
    exact .activityEnds s attached (by simp [phase])

theorem recover_phase (s : State) : s.recover.line.phase = s.line.phase := by
  unfold State.recover State.reportState
  split
  · rw [(emit_rest _ _).2.1]
  · rfl

theorem Keeps.windowPassesEmpty (s : State) : Keeps s (windowPassesEmpty s) := by
  unfold Machine.windowPassesEmpty
  split
  case isFalse => exact .refl s
  case isTrue h =>
    simp only [Bool.and_eq_true, beq_iff_eq] at h
    obtain ⟨⟨attached, -⟩, phase⟩ := h
    have calm : s.line.phase ≠ .stuck := by simp [phase]
    have released := Keeps.lineWasReleased s attached calm
    dsimp only
    split
    case isTrue => exact released.trans (.turn _ _ attached calm rfl)
    case isFalse =>
      have opens : Keeps s.lineWasReleased s.lineWasReleased.lineOpens :=
        .lineTurn _ _ _ _ attached calm (.inl nofun) fun below => below calm
      refine (((released.trans opens).trans (.recover _ calm)).trans (.joinIfOpen _ ?_)).trans (.finish _)
      rw [recover_phase]
      exact calm

end Machine
end Sys2Proof
end

section
/-! The register window, the event unit, the port and time: what their commands keep; and with it the statements on the
invariants of station control, table, line and configuration. -/

namespace Sys2Proof
namespace Machine

/-! ### The event unit -/

/-- Draining the backlog is engine work, and leaves no more in the backlog than it held (R158). -/
theorem drainEvents_frame (l : List Event) (s : State) : ∃ (u : State) (rest : List Event), EngineFrame s u ∧
    rest.length ≤ l.length ∧ drainEvents l s = { u with events := { u.events with backlog := rest } } := by
  induction l generalizing s with
  | nil => exact ⟨s, [], .refl s, Nat.le_refl _, rfl⟩
  | cons ev more ih =>
    unfold drainEvents
    split
    case isTrue => exact ⟨s, ev :: more, .refl s, Nat.le_refl _, rfl⟩
    case isFalse =>
      obtain ⟨u, rest, frame, length, eq⟩ := ih (s.placeEvent ev)
      exact ⟨u, rest, (EngineFrame.placeEvent s ev).trans frame, Nat.le_succ_of_le length, eq⟩

theorem Keeps.consumerWrite (value : Word) (s : State) : Keeps s (consumerWrite value s) := by
  unfold Machine.consumerWrite
  generalize fieldOf value 0 10 % s.events.config.size = consumer
  have consumed : Keeps s { s with events := s.events.consume consumer } := .events s _ rfl rfl id
  dsimp only
  split
  case isFalse => exact consumed
  case isTrue =>
    obtain ⟨u, rest, frame, length, eq⟩ := drainEvents_frame (s.events.consume consumer).backlog
      { s with events := s.events.consume consumer }
    have drained := consumed.trans frame.keeps
    rw [eq]
    exact ⟨⟨drained.pending, drained.fence, drained.config, drained.enable, drained.argument, drained.counterIndex,
      drained.history, drained.table, drained.offLine, fun ok =>
        have ⟨resends, alike, gone, _⟩ := drained.lists ok
        ⟨resends, alike, gone, Nat.le_trans length ok.2.2.2⟩⟩, drained.stuck⟩

theorem Keeps.intStatusWrite (value : Word) (s : State) : Keeps s (intStatusWrite value s) :=
  .events s _ rfl rfl id

theorem Keeps.coalescingTimerExpiry (s : State) : Keeps s (coalescingTimerExpiry s) := by
  unfold Machine.coalescingTimerExpiry
  split
  · exact .events s _ rfl rfl id
  · exact .refl s
  · exact .refl s

theorem EngineFrame.recordFailed (s : State) (place : Nat) : EngineFrame s (s.recordFailed place) :=
  ((EngineFrame.latchHostFault s place).trans (.countBy _ .eventsLost _)).trans (.port _ _)

theorem Keeps.eventWriteEnd (c : Completion) (s : State) : Keeps s (eventWriteEnd c s) := by
  unfold Machine.eventWriteEnd
  split
  case h_2 => exact .refl s
  case h_1 g _ =>
    split
    case h_2 => exact .refl s
    case h_1 place _ _ =>
      unfold State.endTransfer
      split
      case isTrue => exact (EngineFrame.freePort s).keeps
      case isFalse =>
        refine ((EngineFrame.freePort s).keeps.trans ?_).trans (.finish _)
        cases c with
        | ok => exact .events _ _ rfl rfl id
        | error => exact (EngineFrame.recordFailed _ place).keeps

/-! ### Station commands -/

theorem Keeps.attach (lineDriven : Bool) (s : State) : Keeps s (attach lineDriven s) := by
  unfold Machine.attach
  split
  case isTrue => exact .answer s _
  case isFalse =>
    split
    case isTrue => exact .answer s _
    case isFalse =>
      have started : Keeps s { s with
          events := s.events.start
          station := { s.station with history := [], state := .joining, stateChanged := true }
          line := s.line.leaveOff lineDriven
          turn := s.turn.start lineDriven s.clock } := by
        refine ⟨⟨rfl, rfl, ?_, ?_, rfl, rfl, fun ok => ⟨Nat.zero_le _, Nat.zero_le _, fun _ => (by decide : 0 < 8)⟩, id,
          fun _ off => (by cases off), fun ⟨resends, alike, gone, backlog⟩ => ⟨resends, alike, gone, ?_⟩⟩, fun _ => ?_⟩
        · unfold EventUnit.start; split <;> rfl
        · unfold EventUnit.start; split <;> rfl
        · unfold EventUnit.start
          split
          · exact backlog
          · exact Nat.zero_le _
        · cases lineDriven <;>
            exact ⟨⟨nofun, nofun⟩, nofun, fun _ => (by decide : 0 < Config.stuckLimit)⟩
      exact (started.trans (EngineFrame.emit _ _).keeps).trans (.answer _ _)

theorem Keeps.detach (s : State) : Keeps s (detach s) := by
  unfold Machine.detach
  split
  case isTrue => exact .answer s _
  case isFalse =>
    split
    case isTrue => exact .answer s _
    case isFalse empty =>
      have table : s.table = [] := by simpa using empty
      have off : Keeps s { s with
          line := s.line.enterOff, turn := s.turn.stop
          station := { s.station with state := .detached, stateChanged := true } } := by
        refine ⟨⟨rfl, rfl, rfl, rfl, rfl, rfl, fun ok => ⟨ok.1, ok.2.1, fun back => ?_⟩, id,
          fun _ _ => ⟨table, rfl, rfl, rfl, rfl, rfl, rfl⟩, id⟩, fun _ =>
          ⟨⟨nofun, nofun⟩, nofun, fun _ => (by decide : 0 < Config.stuckLimit)⟩⟩
        rcases back with back | back | ⟨back, -⟩ <;> cases back
      exact (off.trans (EngineFrame.emit _ _).keeps).trans (.answer _ _)

theorem Keeps.rejoin (s : State) : Keeps s (rejoin s) := by
  unfold Machine.rejoin
  split
  case isTrue => exact .answer s _
  case isFalse quiet =>
    have quiet : s.station.state = .quiet := Decidable.not_not.1 quiet
    -- QUIET is neither off the line nor HOLD, so the line is not stuck
    have joins : Keeps s { s with
        station := { s.station with history := [], state := .joining, stateChanged := true } } := by
      refine ⟨⟨rfl, rfl, rfl, rfl, rfl, rfl, fun _ => ⟨Nat.zero_le _, Nat.zero_le _, fun _ => (by decide : 0 < 8)⟩, id,
        fun _ off => (by cases off), id⟩, fun ⟨both, hold, below⟩ => ⟨both, fun stuck => ?_, below⟩⟩
      rw [hold stuck] at quiet
      cases quiet
    have opens (u : State) : Keeps u u.joinIfOpen := by
      unfold State.joinIfOpen
      split
      case isFalse => exact .refl u
      case isTrue joining =>
        refine Keeps.trans (t := { u with station := { u.station with state := .active, stateChanged := true } })
          ⟨⟨rfl, rfl, rfl, rfl, rfl, rfl, fun ok => ⟨ok.1, ok.2.1, fun _ => ok.2.2 (.inr (.inl joining.1))⟩, id,
            fun _ off => (by cases off), id⟩, fun ⟨both, hold, below⟩ => ⟨both, fun stuck => ?_, below⟩⟩
          (EngineFrame.emit _ _).keeps
        rw [hold stuck] at joining
        cases joining.1
    exact (((joins.trans (EngineFrame.emit _ _).keeps).trans (opens _)).trans (.answer _ _)).trans (.finish _)

theorem goneOk_nil (n : Nat) : goneOk [] n :=
  ⟨Nat.zero_le _, List.nodup_nil, nofun, nofun⟩

theorem Keeps.resetStation (s : State) : Keeps s (resetStation s) := by
  unfold Machine.resetStation
  split
  case isTrue => exact .answer s _
  case isFalse =>
    have cleared : Keeps s { s with
        station := { s.station with
          resumeTo := .joining, history := [], stuckSeen := false, state := .detached, stateChanged := true }
        line := .powerOn
        turn := .powerOn
        table := []
        pool := .powerOn
        lists := ⟨[], []⟩
        port := s.port.softReset
        events := s.events.softReset
        window := { s.window with info0 := 0, info1 := 0, info2 := 0, info3 := 0 }
        counters := .zero } :=
      { pending := rfl, fence := rfl, config := rfl, enable := rfl, argument := rfl, counterIndex := rfl
        history := fun _ => ⟨Nat.zero_le _, Nat.zero_le _, fun _ => (by decide : 0 < 8)⟩
        table := fun _ => ⟨.nil, List.nodup_nil, List.nodup_nil, fun _ he => absurd he List.not_mem_nil⟩
        offLine := fun _ _ => ⟨rfl, rfl, rfl, rfl, rfl, rfl, rfl⟩
        lists := fun _ => ⟨Nat.zero_le _, List.nodup_nil, goneOk_nil _, Nat.zero_le _⟩
        stuck := fun _ => ⟨⟨nofun, nofun⟩, nofun, fun _ => (by decide : 0 < Config.stuckLimit)⟩ }
    exact (cleared.trans (EngineFrame.emit _ _).keeps).trans (.answer _ _)

/-! ### Entry commands -/

/-- Inserting an entry in its place adds it to the others. -/
theorem insertEntry_perm (new : Entry) (table : List Entry) : (insertEntry new table).Perm (new :: table) := by
  induction table with
  | nil => exact .refl _
  | cons e rest ih =>
    unfold insertEntry
    split
    case isTrue => exact .refl _
    case isFalse => exact (ih.cons e).trans (.swap new e rest)

/-- The order of index is kept where the new entry's index is free. -/
theorem insertEntry_sorted (new : Entry) (table : List Entry) (sorted : (table.map (·.index)).Pairwise (· < ·))
    (free : new.index ∉ table.map (·.index)) : ((insertEntry new table).map (·.index)).Pairwise (· < ·) := by
  induction table with
  | nil => exact List.pairwise_singleton _ _
  | cons e rest ih =>
    rw [List.map_cons, List.pairwise_cons] at sorted
    obtain ⟨above, sorted⟩ := sorted
    rw [List.map_cons, List.mem_cons, not_or] at free
    unfold insertEntry
    split
    case isTrue below =>
      simp only [List.map_cons, List.pairwise_cons, List.mem_cons, forall_eq_or_imp]
      exact ⟨⟨below, fun i hi => Nat.lt_trans below (above i hi)⟩, above, sorted⟩
    case isFalse other =>
      rw [List.map_cons, List.pairwise_cons]
      refine ⟨fun i hi => ?_, ih sorted free.2⟩
      rcases List.mem_cons.1 (((insertEntry_perm new rest).map _).subset hi) with rfl | hi
      · exact Nat.lt_of_le_of_ne (Nat.le_of_not_lt other) (Ne.symm free.1)
      · exact above i hi

/-- The lowest free index is one of the table's, and no entry stands there (R53). -/
theorem lowestFree_free {s : State} {i : Nat} (h : s.lowestFree = some i) :
    i < Config.tableSize ∧ i ∉ s.table.map (·.index) := by
  have hm := List.mem_of_find?_eq_some h
  have hp := List.find?_some h
  refine ⟨List.mem_range.1 hm, fun hi => ?_⟩
  obtain ⟨e, he, rfl⟩ := List.mem_map.1 hi
  rw [List.any_eq_true.2 ⟨e, he, by simp⟩] at hp
  cases hp

/-- A stream without an entry stands in no entry of the table. -/
theorem entryOf_none {s : State} {stream : Nat} (h : s.entryOf stream = none) : stream ∉ s.table.map (·.stream) := by
  intro hm
  obtain ⟨e, he, rfl⟩ := List.mem_map.1 hm
  exact absurd (List.find?_eq_none.1 h e he) (by simp)

/-- The state with a new entry, before its head is taken. -/
def State.withEntry (s : State) (index stream : Nat) (role : Role) : State :=
  { s with
    table := insertEntry ⟨index, s.nextSerial, stream, .ofHead 0, role⟩ s.table
    nextSerial := s.nextSerial + 1 }

theorem createEntry_eq (s : State) (index stream : Nat) (role : Role) :
    s.createEntry index stream role =
      if s.window.argument = 0 then s.withEntry index stream role
      else (s.withEntry index stream role).takeHead index s.window.argument :=
  rfl

theorem withEntry_tableOk {s : State} {index stream : Nat} (role : Role) (ok : s.tableOk)
    (index_lt : index < Config.tableSize) (free : index ∉ s.table.map (·.index)) (stream_lt : stream < Config.streamCount)
    (unused : stream ∉ s.table.map (·.stream)) : (s.withEntry index stream role).tableOk := by
  obtain ⟨sorted, streams, serials, bounds⟩ := ok
  let new : Entry := ⟨index, s.nextSerial, stream, .ofHead 0, role⟩
  have perm := insertEntry_perm new s.table
  refine ⟨insertEntry_sorted new s.table sorted free, ?_, ?_, fun e he => ?_⟩
  · exact (perm.map (·.stream)).nodup_iff.2 (List.nodup_cons.2 ⟨unused, streams⟩)
  · refine (perm.map (·.serial)).nodup_iff.2 (List.nodup_cons.2 ⟨fun hs => ?_, serials⟩)
    obtain ⟨e, he, same⟩ := List.mem_map.1 hs
    exact Nat.lt_irrefl _ (same ▸ (bounds e he).2.2)
  · rcases List.mem_cons.1 (perm.subset he) with rfl | he
    · exact ⟨index_lt, stream_lt, Nat.lt_succ_self _⟩
    · obtain ⟨hi, hs, hn⟩ := bounds e he
      exact ⟨hi, hs, Nat.lt_succ_of_lt hn⟩

theorem Keeps.createEntry (s : State) (index stream : Nat) (role : Role)
    (attached : s.station.state.attached = true) (index_lt : index < Config.tableSize)
    (free : index ∉ s.table.map (·.index)) (stream_lt : stream < Config.streamCount)
    (unused : stream ∉ s.table.map (·.stream)) : Keeps s (s.createEntry index stream role) := by
  have created : Keeps s (s.withEntry index stream role) :=
    ⟨⟨rfl, rfl, rfl, rfl, rfl, rfl, id, fun ok => withEntry_tableOk role ok index_lt free stream_lt unused,
      fun _ off => (by rw [show s.station.state.attached = false from off] at attached; cases attached),
      fun ⟨resends, alike, gone, backlog⟩ => ⟨resends, alike, goneOk_mono gone (Nat.le_succ _), backlog⟩⟩, id⟩
  rw [createEntry_eq]
  split
  case isTrue => exact created
  case isFalse => exact created.trans (EngineFrame.takeHead _ _ _).keeps

theorem Keeps.openEntry (stream : BitVec 16) (role : Role) (s : State) : Keeps s (openEntry stream role s) := by
  unfold Machine.openEntry
  split
  case isTrue => exact .answer s _
  case isFalse attached =>
    split
    case isTrue => exact .answer s _
    case isFalse stream_lt =>
      split
      case isTrue => exact .answer s _
      case isFalse unused =>
        split
        case h_1 => exact .answer s _
        case h_2 index free =>
          split
          case isTrue => exact .answer s _
          case isFalse =>
            obtain ⟨index_lt, free⟩ := lowestFree_free free
            exact ((Keeps.createEntry s index _ role (by simpa using attached) index_lt free
              (Nat.lt_of_not_le stream_lt) (entryOf_none (by simpa using unused))).trans (.answer _ _)).trans (.finish _)

theorem Keeps.onEntry (stream : BitVec 16) (effect : Entry → State → State) (s : State)
    (h : ∀ e, Keeps s (effect e s)) : Keeps s (onEntry stream effect s) := by
  unfold Machine.onEntry
  split
  case isTrue => exact .answer s _
  case isFalse =>
    split
    case isTrue => exact .answer s _
    case isFalse =>
      split
      case h_1 => exact .answer s _
      case h_2 e _ => exact h e

theorem Keeps.resumeEntry (e : Entry) (s : State) : Keeps s (resumeEntry e s) := by
  unfold Machine.resumeEntry
  split_ifs
  · exact .answer s _
  · exact .answer s _
  · exact .answer s _
  · exact (EngineFrame.takeHead s _ _).keeps.trans (.answer _ _)
  · exact ((EngineFrame.modifySubscribe s _ _).trans (.lookAgain _ _ _)).keeps.trans (.answer _ _)
  · exact .answer s _

/-- What CLOSE does at its entry before it answers (R70, R71). -/
def closeEffect (e : Entry) (s : State) : State :=
  match e.role with
  | .publish p =>
    match p.claim with
    | .claiming | .lost => s.freeEntry e.index .close
    | .owned => s.beginClosing e.index p
    | .closing => s
    | .fault =>
      if p.yieldDue then s.modifyPublish e.index fun v => { v with closeRequested := true }
      else s.freeEntry e.index .close
  | .subscribe u =>
    if u.state = SubscribeState.fault then s.freeEntry e.index .close
    else if u.closing then s
    else s.closeSubscribe e.index

theorem closeEntry_eq (e : Entry) (s : State) : closeEntry e s = ((closeEffect e s).answer .done).finish := by
  rfl

theorem EngineFrame.closeEffect (e : Entry) (s : State) : EngineFrame s (closeEffect e s) := by
  unfold Machine.closeEffect
  split
  · split
    · exact .freeEntry s _ _
    · exact .freeEntry s _ _
    · exact .beginClosing s _ _
    · exact .refl s
    · split
      · exact .modifyPublish s _ _
      · exact .freeEntry s _ _
  · split_ifs
    · exact .freeEntry s _ _
    · exact .refl s
    · exact .closeSubscribe s _

theorem Keeps.closeEntry (e : Entry) (s : State) : Keeps s (closeEntry e s) := by
  rw [closeEntry_eq]
  exact ((EngineFrame.closeEffect e s).keeps.trans (.answer _ _)).trans (.finish _)

theorem Keeps.abortEntry (e : Entry) (s : State) : Keeps s (abortEntry e s) :=
  ((EngineFrame.freeEntry s _ _).keeps.trans (.answer _ _)).trans (.finish _)

theorem Keeps.infoEntry (e : Entry) (s : State) : Keeps s (infoEntry e s) := .window s _ rfl rfl

theorem Keeps.unknownCommand (code : BitVec 16) (s : State) : Keeps s (unknownCommand code s) := by
  unfold Machine.unknownCommand
  split
  · exact .answer s _
  · exact .refl s

theorem Keeps.stationRead (s : State) (w : Word) : Keeps s { s with
    window := { s.window with readData := w }
    station := { s.station with stateChanged := false, stuckSeen := false } } :=
  ⟨⟨rfl, rfl, rfl, rfl, rfl, rfl, id, id, id, id⟩, id⟩

theorem Keeps.commandWord (code stream : BitVec 16) (lineDriven : Bool) (s : State) :
    Keeps s (commandWord code stream lineDriven s) := by
  unfold Machine.commandWord
  split
  · exact .attach lineDriven s
  · exact .detach s
  · exact .rejoin s
  · exact .resetStation s
  · exact .openEntry _ _ s
  · exact .openEntry _ _ s
  · exact .onEntry _ _ s fun e => .resumeEntry e s
  · exact .onEntry _ _ s fun e => .closeEntry e s
  · exact .onEntry _ _ s fun e => .abortEntry e s
  · exact .onEntry _ _ s fun e => .infoEntry e s
  · exact .unknownCommand code s

/-! ### Every command -/

/-- The commands that write the configuration: the reset pin and the writes of registers. -/
def configures : Instr → Bool
  | .powerOnReset _ _ _ | .eventRingConfigWrite _ _ | .registerWrite _ _ _ _ => true
  | _ => false

/-- Every other command keeps the configuration and the invariants. -/
theorem exec_keeps (c : Instr) (s : State) (h : configures c = false) : ∃ t, exec c s = .next t ∧ Keeps s t := by
  cases c with
  | powerOnReset n k r => cases h
  | eventRingConfigWrite reg v => cases h
  | registerWrite o w v d => cases h
  | attach d => exact ⟨_, rfl, .attach d s⟩
  | detach => exact ⟨_, rfl, .detach s⟩
  | rejoin => exact ⟨_, rfl, .rejoin s⟩
  | resetStation => exact ⟨_, rfl, .resetStation s⟩
  | openPublish n => exact ⟨_, rfl, .openEntry n _ s⟩
  | openSubscribe n => exact ⟨_, rfl, .openEntry n _ s⟩
  | resume n => exact ⟨_, rfl, .onEntry n _ s fun e => .resumeEntry e s⟩
  | close n => exact ⟨_, rfl, .onEntry n _ s fun e => .closeEntry e s⟩
  | abort n => exact ⟨_, rfl, .onEntry n _ s fun e => .abortEntry e s⟩
  | info n => exact ⟨_, rfl, .onEntry n _ s fun e => .infoEntry e s⟩
  | unknownCommand code n => exact ⟨_, rfl, .unknownCommand code s⟩
  | stationRead lane w => exact ⟨_, rfl, .stationRead s _⟩
  | eventConsumerWrite v => exact ⟨_, rfl, .consumerWrite v s⟩
  | intStatusWrite v => exact ⟨_, rfl, .intStatusWrite v s⟩
  | activityBegins heard => exact ⟨_, rfl, .activityBegins s heard⟩
  | stagingClaim n => exact ⟨_, rfl, .stagingClaim n s⟩
  | frameEnd heard => exact ⟨_, rfl, .frameEnd heard s⟩
  | spoiledVerdict heard => exact ⟨_, rfl, .spoiledVerdict heard s⟩
  | cleanFaultyFrame => exact ⟨_, rfl, .cleanFaultyFrame s⟩
  | cleanData => exact ⟨_, rfl, .cleanData s⟩
  | cleanRepair => exact ⟨_, rfl, .cleanRepair s⟩
  | cleanGone => exact ⟨_, rfl, .cleanGone s⟩
  | cleanClaim => exact ⟨_, rfl, .cleanClaim s⟩
  | cleanDispute => exact ⟨_, rfl, .cleanDispute s⟩
  | cleanYield => exact ⟨_, rfl, .cleanYield s⟩
  | brokenFrameEnd => exact ⟨_, rfl, .brokenFrameEnd s⟩
  | holdActivityEnd => exact ⟨_, rfl, .holdActivityEnd s⟩
  | stuckCondition heard => exact ⟨_, rfl, .stuckCondition heard s⟩
  | stuckEnd v => exact ⟨_, rfl, .stuckEnd v s⟩
  | stuckWaitEnd => exact ⟨_, rfl, .stuckWaitEnd s⟩
  | windowPassesEmpty => exact ⟨_, rfl, .windowPassesEmpty s⟩
  | urgentSlotStart first =>
    refine ⟨_, rfl, ?_⟩
    split
    case isTrue may =>
      obtain ⟨active, -, rest, -⟩ := (mayStart_iff s _).1 may
      exact .start s _ _ _ active rest
    case isFalse => exact .refl s
  | rotationSlotStart first =>
    refine ⟨_, rfl, ?_⟩
    split
    case isTrue may =>
      obtain ⟨active, -, rest, -⟩ := (mayStart_iff s _).1 may
      exact .startReleased s _ _ _ active rest
    case isFalse => exact .refl s
  | holdOffExpiry first =>
    refine ⟨_, rfl, ?_⟩
    split
    case isTrue may =>
      obtain ⟨active, -, rest, -⟩ := (mayStart_iff s _).1 (Bool.and_eq_true_iff.1 may).1
      exact .startReleased s _ _ _ active rest
    case isFalse => exact .refl s
  | attemptCollided heard => exact ⟨_, rfl, .attemptCollided heard s⟩
  | attemptVerdict heard => exact ⟨_, rfl, .attemptVerdict heard s⟩
  | claimSettleExpiry i => exact ⟨_, rfl, (EngineFrame.claimSettleExpiry i s).keeps⟩
  | repairDelayExpiry i => exact ⟨_, rfl, (EngineFrame.repairDelayExpiry i s).keeps⟩
  | repairWaitExpiry i => exact ⟨_, rfl, (EngineFrame.repairWaitExpiry i s).keeps⟩
  | replayAgeLimit => exact ⟨_, rfl, (EngineFrame.replayAgeLimit s).keeps⟩
  | coalescingTimerExpiry => exact ⟨_, rfl, .coalescingTimerExpiry s⟩
  | transferGrant => exact ⟨_, rfl, (EngineFrame.transferGrant s).keeps⟩
  | headDescriptorReadEnd c => exact ⟨_, rfl, (EngineFrame.headDescriptorReadEnd c s).keeps⟩
  | lookAheadReadEnd c => exact ⟨_, rfl, (EngineFrame.lookAheadReadEnd c s).keeps⟩
  | lastLookEnd c => exact ⟨_, rfl, (EngineFrame.lastLookEnd c s).keeps⟩
  | txPayloadReadEnd c => exact ⟨_, rfl, (EngineFrame.txPayloadReadEnd c s).keeps⟩
  | txWriteBackEnd c => exact ⟨_, rfl, (EngineFrame.txWriteBackEnd c s).keeps⟩
  | rxPayloadWriteEnd c => exact ⟨_, rfl, (EngineFrame.rxPayloadWriteEnd c s).keeps⟩
  | rxWriteBackEnd c => exact ⟨_, rfl, (EngineFrame.rxWriteBackEnd c s).keeps⟩
  | eventWriteEnd c => exact ⟨_, rfl, .eventWriteEnd c s⟩
  | frameBecomesBroken heard => exact ⟨_, rfl, .frameBecomesBroken heard s⟩

end Machine
end Sys2Proof
end

section
/-! The writers of the configuration, the passing of time, and every step: the invariants of station control, of the
table, of the line, of the configuration and of the lists. -/

namespace Sys2Proof
namespace Machine

/-! ### What every command keeps -/

/-- From `s` to `t` the queue stays and every invariant but the cell pool's is kept. -/
structure Sound (s t : State) : Prop where
  pending : t.pending = s.pending
  history : s.historyOk → t.historyOk
  table : s.tableOk → t.tableOk
  offLine : s.offLineOk → t.offLineOk
  stuck : s.stuckOk → t.stuckOk
  fence : s.fenceOk → t.fenceOk
  ring : s.ringOk → t.ringOk
  lists : s.listsOk → t.listsOk

theorem Keeps.sound {s t : State} (h : Keeps s t) : Sound s t where
  pending := h.pending
  history := h.history
  table := h.table
  offLine := h.offLine
  stuck := h.stuck
  fence ok := by
    unfold State.fenceOk
    rw [h.fence]
    exact ok
  ring ok := by
    unfold State.ringOk
    rw [h.config]
    exact ok
  lists := h.lists

/-! ### Power-on reset -/

/-- The state after power-on reset meets every invariant but the pool's, whatever waits in its queue. -/
theorem powerOn_sound (s : State) (p : Straps) : Sound s { State.powerOn p with pending := s.pending } where
  pending := rfl
  history _ := ⟨Nat.zero_le _, Nat.zero_le _, fun _ => (by decide : 0 < 8)⟩
  table _ := ⟨.nil, List.nodup_nil, List.nodup_nil, fun _ he => absurd he List.not_mem_nil⟩
  offLine _ := fun _ => ⟨rfl, rfl, rfl, rfl, rfl, rfl, rfl⟩
  stuck _ := ⟨⟨nofun, nofun⟩, nofun, fun _ => (by decide : 0 < Config.stuckLimit)⟩
  fence _ := ⟨rfl, .inl rfl⟩
  ring _ := rfl
  lists _ := ⟨Nat.zero_le _, List.nodup_nil, goneOk_nil _, Nat.zero_le _⟩

/-! ### Register writes -/

/-- Clearing the four lowest bits leaves a multiple of 16 (R137). -/
theorem and_clears_unit (v : Word) : (v &&& 0xFFFFFFF0#32).toNat % 16 = 0 := by
  have low : (v &&& 0xFFFFFFF0#32).extractLsb' 0 4 = 0#4 := by
    rw [BitVec.extractLsb'_and, show (0xFFFFFFF0#32).extractLsb' 0 4 = 0#4 from by decide, BitVec.and_zero]
  simpa using congrArg BitVec.toNat low

/-- Setting the four lowest bits leaves the last byte of a 16-byte unit (R137). -/
theorem or_fills_unit (v : Word) : (v ||| 0x0000000F#32).toNat % 16 = 15 := by
  have low : (v ||| 0x0000000F#32).extractLsb' 0 4 = 15#4 := by
    rw [BitVec.extractLsb'_or, show (0x0000000F#32).extractLsb' 0 4 = BitVec.allOnes 4 from by decide,
      BitVec.or_allOnes]
    rfl
  simpa using congrArg BitVec.toNat low

/-- Clearing the five lowest bits leaves a multiple of 32 (R155). -/
theorem and_clears_record (v : Word) : (v &&& 0xFFFFFFE0#32).toNat % 32 = 0 := by
  have low : (v &&& 0xFFFFFFE0#32).extractLsb' 0 5 = 0#5 := by
    rw [BitVec.extractLsb'_and, show (0xFFFFFFE0#32).extractLsb' 0 5 = 0#5 from by decide, BitVec.and_zero]
  simpa using congrArg BitVec.toNat low

theorem fenceWrite_sound (f : Fence → Fence) (s : State)
    (h : s.fenceOk → State.fenceOk { s with fence := f s.fence }) : Sound s (fenceWrite f s) := by
  unfold fenceWrite
  split
  case isTrue => exact ⟨rfl, id, id, id, id, h, id, id⟩
  case isFalse => exact (Keeps.refl s).sound

theorem ringConfigWrite_sound (reg : RingRegister) (v : Word) (s : State) : Sound s (ringConfigWrite reg v s) := by
  unfold ringConfigWrite
  split
  case isFalse => exact (Keeps.refl s).sound
  case isTrue =>
    refine ⟨rfl, id, id, id, id, id, fun ok => ?_, fun ⟨resends, alike, gone, _⟩ =>
      ⟨resends, alike, gone, Nat.zero_le _⟩⟩
    cases reg with
    | eventBase => exact and_clears_record v
    | eventCtrl => exact ok

/-- A write of a register is ignored, or does what its register's writes do (R165). -/
theorem registerWrite_elim {P : State → Prop} (o : BitVec 7) (w : Nat) (v : Word) (d : Bool) (s : State) (same : P s)
    (command : ∀ code stream, P (commandWord code stream d s))
    (argument : P { s with window := { s.window with argument := v } })
    (base : P (fenceWrite (fun f => { f with base := v &&& 0xFFFFFFF0#32 }) s))
    (limit : P (fenceWrite (fun f => { f with limit := v ||| 0x0000000F#32 }) s))
    (ring : ∀ reg, P (ringConfigWrite reg v s)) (consumer : P (consumerWrite v s)) (status : P (intStatusWrite v s))
    (enable : P { s with events := { s.events with enable := BitVec.ofNat 3 (fieldOf v 0 3) } })
    (index : P { s with window := { s.window with counterIndex := BitVec.ofNat 4 (fieldOf v 0 4) } }) :
    P (registerWrite o w v d s) := by
  unfold registerWrite
  split
  case isTrue => exact same
  case isFalse =>
    split
    · exact command _ _
    · exact argument
    · exact base
    · exact limit
    · exact ring _
    · exact ring _
    · exact consumer
    · exact status
    · exact enable
    · exact index
    · exact same

theorem registerWrite_sound (o : BitVec 7) (w : Nat) (v : Word) (d : Bool) (s : State) :
    Sound s (registerWrite o w v d s) :=
  registerWrite_elim o w v d s (same := (Keeps.refl s).sound)
    (command := fun code stream => (Keeps.commandWord code stream d s).sound)
    (argument := ⟨rfl, id, id, id, id, id, id, id⟩)
    (base := fenceWrite_sound _ s fun ok => ⟨and_clears_unit v, ok.2⟩)
    (limit := fenceWrite_sound _ s fun ok => ⟨ok.1, .inr (or_fills_unit v)⟩)
    (ring := fun reg => ringConfigWrite_sound reg v s) (consumer := (Keeps.consumerWrite v s).sound)
    (status := (Keeps.intStatusWrite v s).sound) (enable := ⟨rfl, id, id, id, id, id, id, id⟩)
    (index := ⟨rfl, id, id, id, id, id, id, id⟩)

/-! ### Every command and every step -/

theorem exec_sound (c : Instr) (s : State) : ∃ t, exec c s = .next t ∧ Sound s t := by
  cases h : configures c with
  | false =>
    obtain ⟨t, ends, keeps⟩ := exec_keeps c s h
    exact ⟨t, ends, keeps.sound⟩
  | true =>
    cases c with
    | powerOnReset n k r => exact ⟨_, rfl, powerOn_sound s ⟨n, k, r⟩⟩
    | eventRingConfigWrite reg v => exact ⟨_, rfl, ringConfigWrite_sound reg v s⟩
    | registerWrite o w v d => exact ⟨_, rfl, registerWrite_sound o w v d s⟩
    | _ => cases h

/-- The timers of an entry are not of its key. -/
theorem count_key (e : Entry) : e.count.key = e.key := by
  cases e with
  | mk i n t c r => cases r <;> rfl

theorem passBitTime_table (s : State) :
    s.passBitTime.table = if s.station.state.receiving then s.table.map Entry.count else s.table := by
  unfold State.passBitTime
  dsimp only
  split <;> rfl

/-- What one bit time leaves alone. -/
theorem passBitTime_rest (s : State) :
    s.passBitTime.station = s.station ∧ s.passBitTime.lists = s.lists ∧ s.passBitTime.port = s.port ∧
      s.passBitTime.fence = s.fence ∧ s.passBitTime.window = s.window ∧ s.passBitTime.counters = s.counters ∧
      s.passBitTime.nextSerial = s.nextSerial ∧ s.passBitTime.pending = s.pending ∧
      s.passBitTime.events = { s.events with timer := s.events.timer.count } ∧
      s.passBitTime.turn = { s.turn with holdOff := countDown s.turn.holdOff } ∧
      s.passBitTime.line = { s.line with
        stuckCount := if s.line.phase = .rest then 0 else s.line.stuckCount } := by
  unfold State.passBitTime
  dsimp only
  refine ⟨?_, ?_, ?_, ?_, ?_, ?_, ?_, ?_, rfl, rfl, ?_⟩
  case _ => split <;> rfl
  all_goals split <;> rfl

theorem passBitTime_keys (s : State) : s.passBitTime.table.map Entry.key = s.table.map Entry.key := by
  rw [passBitTime_table]
  split
  · rw [List.map_map, show Entry.key ∘ Entry.count = Entry.key from funext count_key]
  · rfl

/-- One bit time keeps the invariants: the timers are in none of them. -/
theorem passBitTime_sound (s : State) : Sound s s.passBitTime := by
  obtain ⟨station, lists, -, fence, -, -, serial, pending, events, turn, line⟩ := passBitTime_rest s
  refine ⟨pending, fun ok => ?_, fun ok => ?_, fun ok off => ?_, fun ok => ?_, fun ok => ?_, fun ok => ?_, fun ok => ?_⟩
  · unfold State.historyOk
    rw [station]
    exact ok
  · exact tableOk_of_keys ok (passBitTime_keys s ▸ .refl _) (Nat.le_of_eq serial.symm)
  · rw [station] at off
    obtain ⟨table, phase, condition, anchor, sender, holdOff, attempt⟩ := ok off
    refine ⟨List.map_eq_nil_iff.1 ((passBitTime_keys s).trans (by rw [table]; rfl)), ?_⟩
    rw [line, turn]
    exact ⟨phase, condition, anchor, sender, by rw [holdOff]; rfl, attempt⟩
  · obtain ⟨both, hold, below⟩ := ok
    unfold State.stuckOk
    rw [line, turn, station]
    refine ⟨both, hold, fun other => ?_⟩
    dsimp only
    split
    · decide
    · exact below other
  · unfold State.fenceOk
    rw [fence]
    exact ok
  · unfold State.ringOk
    rw [events]
    exact ok
  · obtain ⟨resends, alike, gone, backlog⟩ := ok
    unfold State.listsOk
    rw [lists, serial, events]
    exact ⟨resends, alike, gone, backlog⟩

/-- A step runs the command at the front of the queue, or queues what falls due, or lets one bit time pass (log 1). -/
theorem step_cases {s t : State} (h : step s = .next t) :
    (∃ c rest, s.pending = c :: rest ∧ exec c { s with pending := rest } = .next t) ∨
      t = { s with momentTaken := true, pending := s.due } ∨ t = s.passBitTime := by
  unfold step at h
  split at h
  case h_2 c rest front => exact .inl ⟨c, rest, front, h⟩
  case h_1 =>
    obtain rfl := Host.Outcome.next.inj h
    unfold State.tick
    split
    · exact .inr (.inl rfl)
    · exact .inr (.inr rfl)

/-- Every step keeps the invariants, but for the cell pool's; the queue is the step's own. -/
theorem step_sound {s t : State} (h : step s = .next t) : ∃ pending, Sound { s with pending := pending } t := by
  rcases step_cases h with ⟨c, rest, -, ends⟩ | rfl | rfl
  · obtain ⟨u, ends', sound⟩ := exec_sound c { s with pending := rest }
    obtain rfl := Host.Outcome.next.inj (ends.symm.trans ends')
    exact ⟨rest, sound⟩
  · exact ⟨s.due, rfl, id, id, id, id, id, id, id⟩
  · exact ⟨s.pending, passBitTime_sound s⟩

/-! ### The statements -/

/-- Settles O56: an outcome joins the history of an ACTIVE station alone, and the eighth failure takes it to QUIET. -/
theorem everyStepKeepsTheHistoryWithinItsLimits : Obligations.EveryStepKeepsTheHistoryWithinItsLimits := by
  intro s t ok h
  obtain ⟨_, sound⟩ := step_sound h
  exact sound.history ok

/-- Settles O57: each of the three invariants is kept by every operation of a command. -/
theorem everyStepKeepsTheStreamTable : Obligations.EveryStepKeepsTheStreamTable := by
  refine ⟨fun s t ok h => ?_, fun s t ok h => ?_, fun s t ok h => ?_⟩ <;> obtain ⟨_, sound⟩ := step_sound h
  · exact sound.table ok
  · exact sound.offLine ok
  · exact sound.stuck ok

/-- Settles O58: only register writes touch the two, and they align what they take. -/
theorem everyStepKeepsFenceAndRingAligned : Obligations.EveryStepKeepsFenceAndRingAligned := by
  intro s t fence ring h
  obtain ⟨_, sound⟩ := step_sound h
  exact ⟨sound.fence fence, sound.ring ring⟩

/-- Settles O2: the queue by `exec_sound`, the straps by `exec_keeps_straps`. -/
theorem everyCommandCompletesAndKeepsQueueAndStraps : Obligations.EveryCommandCompletesAndKeepsQueueAndStraps := by
  intro c s
  obtain ⟨t, ends, sound⟩ := exec_sound c s
  refine ⟨t, ends, sound.pending, fun other => ?_⟩
  obtain ⟨u, ends', straps⟩ := exec_keeps_straps c s other
  obtain rfl := Host.Outcome.next.inj (ends.symm.trans ends')
  exact straps

/-- Settles O1: `step` looks at the front of the queue alone. -/
theorem stepRunsTheCommandAtTheFront : Obligations.StepRunsTheCommandAtTheFront := by
  intro c rest s
  rfl

/-- Settles O54: each of the commands is engine work, by its `EngineFrame` lemma. -/
theorem engineCommandsLeaveStationLineAndConfiguration :
    Obligations.EngineCommandsLeaveStationLineAndConfiguration := by
  intro s t i c d x hx ends
  simp only [List.mem_cons, List.not_mem_nil, or_false] at hx
  rcases hx with rfl | rfl | rfl | rfl | rfl | rfl | rfl | rfl | rfl | rfl | rfl | rfl <;>
    obtain rfl := Host.Outcome.next.inj ends
  · exact .claimSettleExpiry i s
  · exact .repairDelayExpiry i s
  · exact .repairWaitExpiry i s
  · exact .replayAgeLimit s
  · exact .transferGrant s
  · exact .headDescriptorReadEnd c s
  · exact .lookAheadReadEnd c s
  · exact .lastLookEnd c s
  · exact .txPayloadReadEnd c s
  · exact .txWriteBackEnd d s
  · exact .rxPayloadWriteEnd d s
  · exact .rxWriteBackEnd d s

/-- On the line neither the fence nor the ring registers may be written (R137, R155). -/
theorem not_configurable {c : StationState} (attached : c.attached = true) : c.configurable = false := by
  cases c with
  | disabled | detached => cases attached
  | joining | active | quiet | hold => rfl

theorem fenceWrite_attached (f : Fence → Fence) {s : State} (attached : s.station.state.attached = true) :
    fenceWrite f s = s := by
  simp [fenceWrite, not_configurable attached]

theorem ringConfigWrite_attached (reg : RingRegister) (v : Word) {s : State}
    (attached : s.station.state.attached = true) : ringConfigWrite reg v s = s := by
  simp [ringConfigWrite, not_configurable attached]

/-- On the line no register write changes fence or ring registers (R137, R155). -/
theorem registerWrite_attached (o : BitVec 7) (w : Nat) (v : Word) (d : Bool) {s : State}
    (attached : s.station.state.attached = true) :
    (registerWrite o w v d s).fence = s.fence ∧ (registerWrite o w v d s).events.config = s.events.config := by
  have of {t : State} (keeps : Keeps s t) : t.fence = s.fence ∧ t.events.config = s.events.config :=
    ⟨keeps.fence, keeps.config⟩
  refine registerWrite_elim (P := fun t => t.fence = s.fence ∧ t.events.config = s.events.config) o w v d s
    (same := ⟨rfl, rfl⟩) (command := fun code stream => of (.commandWord code stream d s)) (argument := ⟨rfl, rfl⟩)
    (base := ?_) (limit := ?_) (ring := fun reg => ?_) (consumer := of (.consumerWrite v s))
    (status := of (.intStatusWrite v s)) (enable := ⟨rfl, rfl⟩) (index := ⟨rfl, rfl⟩)
  · rw [fenceWrite_attached _ attached]
    exact ⟨rfl, rfl⟩
  · rw [fenceWrite_attached _ attached]
    exact ⟨rfl, rfl⟩
  · rw [ringConfigWrite_attached _ _ attached]
    exact ⟨rfl, rfl⟩

/-- A write of the ring registers leaves the rest of the configuration. -/
theorem ringConfigWrite_rest (reg : RingRegister) (v : Word) (s : State) :
    (ringConfigWrite reg v s).fence = s.fence ∧ (ringConfigWrite reg v s).events.enable = s.events.enable ∧
      (ringConfigWrite reg v s).window = s.window := by
  unfold ringConfigWrite
  split <;> exact ⟨rfl, rfl, rfl⟩

/-- Settles O55: by `exec_keeps` for the other commands, by their guards for the two that write. -/
theorem onlyRegisterWritesChangeTheConfiguration : Obligations.OnlyRegisterWritesChangeTheConfiguration := by
  intro c s t ends notReset
  cases h : configures c with
  | false =>
    obtain ⟨u, ends', keeps⟩ := exec_keeps c s h
    obtain rfl := Host.Outcome.next.inj (ends.symm.trans ends')
    exact ⟨fun _ => ⟨keeps.fence, keeps.enable, keeps.argument, keeps.counterIndex⟩, fun _ _ => keeps.config,
      fun _ => ⟨keeps.fence, keeps.config⟩⟩
  | true =>
    cases c with
    | powerOnReset n k r => exact absurd rfl (notReset n k r)
    | eventRingConfigWrite reg v =>
      obtain rfl := Host.Outcome.next.inj ends
      obtain ⟨fence, enable, window⟩ := ringConfigWrite_rest reg v s
      refine ⟨fun _ => ⟨fence, enable, by rw [window], by rw [window]⟩, fun _ other => absurd rfl (other reg v),
        fun attached => ?_⟩
      rw [ringConfigWrite_attached reg v attached]
      exact ⟨rfl, rfl⟩
    | registerWrite o w v d =>
      obtain rfl := Host.Outcome.next.inj ends
      exact ⟨fun other => absurd rfl (other o w v d), fun other => absurd rfl (other o w v d),
        registerWrite_attached o w v d⟩
    | _ => cases h

/-- With no entry there is no cell to hold: a full free list is the whole pool. -/
theorem cellsOk_powerOn (p : Straps) : (State.powerOn p).cellsOk := by
  have noPublish (i : Nat) : (State.powerOn p).publishAt i = none := rfl
  have noSubscribe (i : Nat) : (State.powerOn p).subscribeAt i = none := rfl
  refine ⟨?_, ⟨fun a ha => absurd ha List.not_mem_nil, fun i q h => ?_⟩, ⟨fun i q h => ?_, fun i u h => ?_⟩,
    ⟨List.nodup_nil, fun i hi => absurd hi List.not_mem_nil⟩, fun i => Nat.zero_le _⟩
  · show (List.range Config.poolCells ++ []).Perm (List.range Config.poolCells)
    rw [List.append_nil]
  · rw [noPublish] at h
    cases h
  · rw [noPublish] at h
    cases h
  · rw [noSubscribe] at h
    cases h

/-- Settles O60: the values of power-on reset, invariant by invariant. -/
theorem theResetStateIsSafe : Obligations.TheResetStateIsSafe :=
  ⟨⟨Nat.zero_le _, Nat.zero_le _, fun _ => (by decide : 0 < 8)⟩,
    ⟨.nil, List.nodup_nil, List.nodup_nil, fun _ he => absurd he List.not_mem_nil⟩,
    fun _ => ⟨rfl, rfl, rfl, rfl, rfl, rfl, rfl⟩,
    ⟨⟨nofun, nofun⟩, nofun, fun _ => (by decide : 0 < Config.stuckLimit)⟩, ⟨rfl, .inl rfl⟩, rfl,
    ⟨Nat.zero_le _, List.nodup_nil, goneOk_nil _, Nat.zero_le _⟩, cellsOk_powerOn _⟩

end Machine
end Sys2Proof
end

section
/-! The pool's invariant, with the cells an operation has in hand: what a change of one entry, of the pool or of the
port has to show for it. -/

namespace Sys2Proof
namespace Machine

/-! ### The invariant -/

/-- The cells of the replay queue of the entry at an index. -/
def State.replayCells (s : State) (i : Nat) : List Nat :=
  match s.publishAt i with
  | some p => p.replayQueue.map PublishCell.cell
  | none => []

/-- The payload reads of the entry at an index that wait or are in flight with their result wanted. -/
def State.payloadReads (s : State) (i : Nat) : Nat := s.port.wanted.countP (Request.payloadReadOf i)

/-- The payload reads a segmenter condition allows (R91). -/
def Segmenter.reads (c : Segmenter) : Nat := if c == .filling then 1 else 0

/-- The pool's invariant while an operation has the `loose` cells in hand: with none of them it is `State.cellsOk`. -/
structure PoolOk (s : State) (loose : List Nat) : Prop where
  indexes : (s.table.map (·.index)).Nodup
  held : (loose ++ (s.pool.free ++ s.table.flatMap Entry.cells)).Perm (List.range Config.poolCells)
  aged : ∀ i, (s.pool.aged.filter (·.index == i)).map AgedCell.cell = s.replayCells i
  queues : ∀ i p, s.publishAt i = some p →
    p.sendQueue.length ≤ Config.sendLimit ∧ p.replayQueue.length ≤ Config.replayLimit
  reorder : ∀ i u, s.subscribeAt i = some u → u.reorderCount ≤ Config.reorderLimit
  once : s.pool.waiting.Nodup
  waits : ∀ i ∈ s.pool.waiting, ∃ p, s.publishAt i = some p ∧ p.segmenter = .waitCell ∧
    p.sendQueue.length < Config.sendLimit
  reads : ∀ i p, s.publishAt i = some p → s.payloadReads i ≤ p.segmenter.reads
  unread : ∀ i, s.publishAt i = none → s.payloadReads i = 0

theorem replayCells_some {s : State} {i : Nat} {p : PublishEntry} (h : s.publishAt i = some p) :
    s.replayCells i = p.replayQueue.map PublishCell.cell := by
  unfold State.replayCells
  rw [h]

theorem replayCells_none {s : State} {i : Nat} (h : s.publishAt i = none) : s.replayCells i = [] := by
  unfold State.replayCells
  rw [h]

/-- With no cell in hand the invariant is the statements' own. -/
theorem poolOk_of_cellsOk {s : State} (table : s.tableOk) (ok : s.cellsOk) : PoolOk s [] := by
  obtain ⟨held, ⟨agedEntry, aged⟩, ⟨publish, subscribe⟩, ⟨once, waits⟩, reads⟩ := ok
  refine ⟨table.indexes, held, fun i => ?_, publish, subscribe, once, waits, fun i p hp => ?_, fun i hp => ?_⟩
  · cases hp : s.publishAt i with
    | some p => rw [replayCells_some hp, aged i p hp]
    | none =>
      rw [replayCells_none hp, List.map_eq_nil_iff, List.filter_eq_nil_iff]
      intro a ha hi
      have named := agedEntry a ha
      rw [eq_of_beq hi, hp] at named
      cases named
  · have := reads i
    rw [hp] at this
    exact this
  · have := reads i
    rw [hp] at this
    exact Nat.le_zero.1 this

theorem PoolOk.cellsOk {s : State} (ok : PoolOk s []) : s.cellsOk := by
  refine ⟨ok.held, ⟨fun a ha => ?_, fun i p hp => ?_⟩, ⟨ok.queues, ok.reorder⟩, ⟨ok.once, ok.waits⟩, fun i => ?_⟩
  · cases hp : s.publishAt a.index with
    | some p => rfl
    | none =>
      have none := ok.aged a.index
      rw [replayCells_none hp, List.map_eq_nil_iff, List.filter_eq_nil_iff] at none
      exact absurd (beq_self_eq_true a.index) (none a ha)
  · rw [ok.aged i, replayCells_some hp]
  · cases hp : s.publishAt i with
    | some p => exact ok.reads i p hp
    | none => exact Nat.le_of_eq (ok.unread i hp)

/-- No entry and no place of the pool changes, and no payload read joins. -/
theorem PoolOk.same {s t : State} {l : List Nat} (ok : PoolOk s l) (table : t.table = s.table) (pool : t.pool = s.pool)
    (reads : ∀ i, t.payloadReads i ≤ s.payloadReads i) : PoolOk t l := by
  have entry (i : Nat) : t.entryAt i = s.entryAt i := by unfold State.entryAt; rw [table]
  have publish (i : Nat) : t.publishAt i = s.publishAt i := by unfold State.publishAt; rw [entry]
  have subscribe (i : Nat) : t.subscribeAt i = s.subscribeAt i := by unfold State.subscribeAt; rw [entry]
  refine ⟨?_, ?_, fun i => ?_, fun i p hp => ?_, fun i u hu => ?_, ?_, fun i hi => ?_, fun i p hp => ?_, fun i hp => ?_⟩
  · rw [table]
    exact ok.indexes
  · rw [table, pool]
    exact ok.held
  · unfold State.replayCells
    rw [pool, publish]
    exact ok.aged i
  · exact ok.queues i p (publish i ▸ hp)
  · exact ok.reorder i u (subscribe i ▸ hu)
  · rw [pool]
    exact ok.once
  · rw [publish]
    exact ok.waits i (pool ▸ hi)
  · exact Nat.le_trans (reads i) (ok.reads i p (publish i ▸ hp))
  · exact Nat.le_zero.1 (ok.unread i (publish i ▸ hp) ▸ reads i)

/-! ### One entry changes -/

/-- The cells of the entries at other indexes. -/
def otherCells (table : List Entry) (i : Nat) : List Nat := (table.filter (·.index != i)).flatMap Entry.cells

theorem cells_perm {table : List Entry} {i : Nat} {e : Entry} (indexes : (table.map (·.index)).Nodup)
    (he : table.find? (·.index == i) = some e) : (table.flatMap Entry.cells).Perm (e.cells ++ otherCells table i) := by
  unfold otherCells
  induction table with
  | nil => cases he
  | cons f rest ih =>
    rw [List.map_cons, List.nodup_cons] at indexes
    rw [List.find?_cons] at he
    by_cases here : f.index = i
    · rw [beq_iff_eq.2 here] at he
      cases he
      have others : rest.filter (·.index != i) = rest := List.filter_eq_self.2 fun g hg => by
        rw [bne_iff_ne, ← here]
        exact fun same => indexes.1 (same ▸ List.mem_map_of_mem hg)
      rw [List.filter_cons_of_neg (by simp [here]), others, List.flatMap_cons]
    · rw [beq_false_of_ne here] at he
      rw [List.filter_cons_of_pos (by simp [here]), List.flatMap_cons, List.flatMap_cons]
      exact ((ih indexes.2 he).append_left f.cells).trans (List.perm_append_comm_assoc _ _ _)

theorem otherCells_mapAt (table : List Entry) (i : Nat) (g : Entry → Entry) (index : ∀ e, (g e).index = e.index) :
    otherCells (table.map fun e => if e.index = i then g e else e) i = otherCells table i := by
  unfold otherCells
  induction table with
  | nil => rfl
  | cons e rest ih =>
    rw [List.map_cons]
    by_cases here : e.index = i
    · rw [if_pos here, List.filter_cons_of_neg (by simp [index, here]), List.filter_cons_of_neg (by simp [here]), ih]
    · rw [if_neg here, List.filter_cons_of_pos (by simp [here]), List.filter_cons_of_pos (by simp [here]),
        List.flatMap_cons, List.flatMap_cons, ih]

theorem indexes_mapAt (table : List Entry) (i : Nat) (g : Entry → Entry) (index : ∀ e, (g e).index = e.index) :
    (table.map fun e => if e.index = i then g e else e).map (·.index) = table.map (·.index) := by
  rw [List.map_map]
  exact List.map_congr_left fun e _ => by
    simp only [Function.comp]
    split
    · exact index e
    · rfl

/-- The cells stay each in one hand when those of the entry at an index, the free ones and the loose ones together do. -/
theorem held_mapAt {table : List Entry} {i : Nat} {e : Entry} {l l' free free' all : List Nat} (g : Entry → Entry)
    (index : ∀ e, (g e).index = e.index) (indexes : (table.map (·.index)).Nodup)
    (he : table.find? (·.index == i) = some e) (held : (l ++ (free ++ table.flatMap Entry.cells)).Perm all)
    (moved : (l' ++ (free' ++ (g e).cells)).Perm (l ++ (free ++ e.cells))) :
    (l' ++ (free' ++ (table.map fun e => if e.index = i then g e else e).flatMap Entry.cells)).Perm all := by
  have there : e.index = i := by simpa using List.find?_some he
  have found : (table.map fun e => if e.index = i then g e else e).find? (·.index == i) = some (g e) := by
    rw [find?_map_index _ _ _ fun f => by split <;> simp [index], he, Option.map_some, if_pos there]
  have after := cells_perm ((indexes_mapAt table i g index).symm ▸ indexes) found
  have before := cells_perm indexes he
  rw [otherCells_mapAt _ _ _ index] at after
  have regroup (a b c d : List Nat) : (a ++ (b ++ (c ++ d))).Perm ((a ++ (b ++ c)) ++ d) := by
    rw [List.append_assoc, List.append_assoc]
  calc (l' ++ (free' ++ (table.map fun e => if e.index = i then g e else e).flatMap Entry.cells))
      |>.Perm (l' ++ (free' ++ ((g e).cells ++ otherCells table i))) := (after.append_left _).append_left _
    _ |>.Perm (l' ++ (free' ++ (g e).cells) ++ otherCells table i) := regroup _ _ _ _
    _ |>.Perm (l ++ (free ++ e.cells) ++ otherCells table i) := moved.append_right _
    _ |>.Perm (l ++ (free ++ (e.cells ++ otherCells table i))) := (regroup _ _ _ _).symm
    _ |>.Perm (l ++ (free ++ table.flatMap Entry.cells)) := (before.symm.append_left _).append_left _
    _ |>.Perm all := held

/-- The publish fields at an index stand in the entry at that index. -/
theorem publishAt_entry {s : State} {i : Nat} {p : PublishEntry} (h : s.publishAt i = some p) :
    ∃ e, s.entryAt i = some e ∧ e.role = .publish p := by
  unfold State.publishAt at h
  obtain ⟨e, he, hp⟩ := Option.bind_eq_some_iff.1 h
  refine ⟨e, he, ?_⟩
  unfold Entry.publish? at hp
  split at hp
  · rename_i role
    cases hp
    exact role
  · cases hp

theorem subscribeAt_entry {s : State} {i : Nat} {u : SubscribeEntry} (h : s.subscribeAt i = some u) :
    ∃ e, s.entryAt i = some e ∧ e.role = .subscribe u := by
  unfold State.subscribeAt at h
  obtain ⟨e, he, hp⟩ := Option.bind_eq_some_iff.1 h
  refine ⟨e, he, ?_⟩
  unfold Entry.subscribe? at hp
  split at hp
  · cases hp
  · rename_i role
    cases hp
    exact role

theorem publishAt_of_entry {s : State} {i : Nat} {e : Entry} {p : PublishEntry} (he : s.entryAt i = some e)
    (role : e.role = .publish p) : s.publishAt i = some p := by
  unfold State.publishAt Entry.publish?
  rw [he, Option.bind_some, role]

theorem subscribeAt_of_entry {s : State} {i : Nat} {e : Entry} {u : SubscribeEntry} (he : s.entryAt i = some e)
    (role : e.role = .subscribe u) : s.subscribeAt i = some u := by
  unfold State.subscribeAt Entry.subscribe?
  rw [he, Option.bind_some, role]

theorem cells_publish {e : Entry} {p : PublishEntry} (role : e.role = .publish p) :
    e.cells = (p.replayQueue ++ p.sendQueue).map PublishCell.cell := by
  unfold Entry.cells
  rw [role]

theorem cells_subscribe {e : Entry} {u : SubscribeEntry} (role : e.role = .subscribe u) :
    e.cells = (u.written ++ u.waiting).map ReorderCell.cell := by
  unfold Entry.cells
  rw [role]

/-- An update of the publish fields at an index without any changes nothing. -/
theorem modifyPublish_of_none {s : State} {i : Nat} (f : PublishEntry → PublishEntry) (h : s.publishAt i = none)
    (indexes : (s.table.map (·.index)).Nodup) : s.modifyPublish i f = s := by
  have same : (s.table.map fun e => if e.index = i then { e with role := e.role.mapPublish f } else e) = s.table := by
    refine (List.map_congr_left fun e he => ?_).trans (List.map_id _)
    split
    · rename_i here
      have found := CellFrame.entryAt_of_mem indexes he
      rw [here] at found
      cases e with | mk n k x c r =>
      cases r with
      | subscribe u => rfl
      | publish p =>
        rw [publishAt_of_entry found rfl] at h
        cases h
    · rfl
  unfold State.modifyPublish
  rw [same]

theorem modifySubscribe_of_none {s : State} {i : Nat} (f : SubscribeEntry → SubscribeEntry)
    (h : s.subscribeAt i = none) (indexes : (s.table.map (·.index)).Nodup) : s.modifySubscribe i f = s := by
  have same : (s.table.map fun e => if e.index = i then { e with role := e.role.mapSubscribe f } else e) = s.table := by
    refine (List.map_congr_left fun e he => ?_).trans (List.map_id _)
    split
    · rename_i here
      have found := CellFrame.entryAt_of_mem indexes he
      rw [here] at found
      cases e with | mk n k x c r =>
      cases r with
      | publish p => rfl
      | subscribe u =>
        rw [subscribeAt_of_entry found rfl] at h
        cases h
    · rfl
  unfold State.modifySubscribe
  rw [same]

theorem modifyPublish_publishAt_ne (s : State) {i j : Nat} (f : PublishEntry → PublishEntry) (ne : j ≠ i) :
    (s.modifyPublish i f).publishAt j = s.publishAt j := by
  unfold State.publishAt
  rw [modifyPublish_entryAt]
  cases h : s.entryAt j with
  | none => rfl
  | some e => rw [Option.map_some, if_neg (by rw [entryAt_index h]; exact ne)]

theorem modifySubscribe_subscribeAt_ne (s : State) {i j : Nat} (f : SubscribeEntry → SubscribeEntry) (ne : j ≠ i) :
    (s.modifySubscribe i f).subscribeAt j = s.subscribeAt j := by
  unfold State.subscribeAt
  rw [modifySubscribe_entryAt]
  cases h : s.entryAt j with
  | none => rfl
  | some e => rw [Option.map_some, if_neg (by rw [entryAt_index h]; exact ne)]

/-- The publish entry at an index changes, and with it the pool and the payload reads of that entry. -/
theorem PoolOk.publish {s t : State} {l l' : List Nat} {i : Nat} {f : PublishEntry → PublishEntry} {p : PublishEntry}
    (ok : PoolOk s l) (hp : s.publishAt i = some p) (table : t.table = (s.modifyPublish i f).table)
    (held : (l' ++ (t.pool.free ++ ((f p).replayQueue ++ (f p).sendQueue).map PublishCell.cell)).Perm
      (l ++ (s.pool.free ++ (p.replayQueue ++ p.sendQueue).map PublishCell.cell)))
    (aged : (t.pool.aged.filter (·.index == i)).map AgedCell.cell = (f p).replayQueue.map PublishCell.cell)
    (others : ∀ j, j ≠ i → t.pool.aged.filter (·.index == j) = s.pool.aged.filter (·.index == j))
    (queues : (f p).sendQueue.length ≤ Config.sendLimit ∧ (f p).replayQueue.length ≤ Config.replayLimit)
    (once : t.pool.waiting.Nodup)
    (waits : ∀ j ∈ t.pool.waiting, (j ≠ i ∧ j ∈ s.pool.waiting) ∨
      (j = i ∧ (f p).segmenter = .waitCell ∧ (f p).sendQueue.length < Config.sendLimit))
    (reads : t.payloadReads i ≤ (f p).segmenter.reads)
    (otherReads : ∀ j, j ≠ i → t.payloadReads j ≤ s.payloadReads j) : PoolOk t l' := by
  obtain ⟨e, he, role⟩ := publishAt_entry hp
  have entry (j : Nat) : t.entryAt j = (s.modifyPublish i f).entryAt j := by unfold State.entryAt; rw [table]
  have here : t.publishAt i = some (f p) := by
    unfold State.publishAt
    rw [entry]
    change (s.modifyPublish i f).publishAt i = _
    rw [modifyPublish_publishAt, hp, Option.map_some]
  have there (j : Nat) (ne : j ≠ i) : t.publishAt j = s.publishAt j := by
    unfold State.publishAt
    rw [entry]
    exact modifyPublish_publishAt_ne s f ne
  have subscribe (j : Nat) : t.subscribeAt j = s.subscribeAt j := by
    unfold State.subscribeAt
    rw [entry]
    exact modifyPublish_subscribeAt s i j f
  have cells : Entry.cells { e with role := e.role.mapPublish f } =
      ((f p).replayQueue ++ (f p).sendQueue).map PublishCell.cell := cells_publish (by rw [role]; rfl)
  refine ⟨?_, ?_, fun j => ?_, fun j q hq => ?_, fun j u hu => ?_, once, fun j hj => ?_, fun j q hq => ?_, fun j hq => ?_⟩
  · rw [table, modifyPublish_indexes]
    exact ok.indexes
  · rw [table]
    refine held_mapAt (fun e => { e with role := e.role.mapPublish f }) (fun _ => rfl) ok.indexes he ok.held ?_
    rw [cells, cells_publish role]
    exact held
  · by_cases same : j = i
    · rw [same, replayCells_some here, aged]
    · unfold State.replayCells
      rw [others j same, there j same]
      exact ok.aged j
  · by_cases same : j = i
    · rw [same, here] at hq
      cases hq
      exact queues
    · exact ok.queues j q (there j same ▸ hq)
  · exact ok.reorder j u (subscribe j ▸ hu)
  · rcases waits j hj with ⟨ne, before⟩ | ⟨same, wait, room⟩
    · rw [there j ne]
      exact ok.waits j before
    · exact ⟨f p, same ▸ here, wait, room⟩
  · by_cases same : j = i
    · rw [same, here] at hq
      cases hq
      exact same ▸ reads
    · exact Nat.le_trans (otherReads j same) (ok.reads j q (there j same ▸ hq))
  · by_cases same : j = i
    · rw [same, here] at hq
      cases hq
    · exact Nat.le_zero.1 (ok.unread j (there j same ▸ hq) ▸ otherReads j same)

/-- The subscribe entry at an index changes, and with it the free list. -/
theorem PoolOk.subscribe {s t : State} {l l' : List Nat} {i : Nat} {f : SubscribeEntry → SubscribeEntry}
    {u : SubscribeEntry} (ok : PoolOk s l) (hu : s.subscribeAt i = some u)
    (table : t.table = (s.modifySubscribe i f).table) (pool : t.pool = s.pool)
    (held : (l' ++ ((f u).written ++ (f u).waiting).map ReorderCell.cell).Perm
      (l ++ (u.written ++ u.waiting).map ReorderCell.cell))
    (room : (f u).reorderCount ≤ Config.reorderLimit) (reads : ∀ j, t.payloadReads j ≤ s.payloadReads j) :
    PoolOk t l' := by
  obtain ⟨e, he, role⟩ := subscribeAt_entry hu
  have entry (j : Nat) : t.entryAt j = (s.modifySubscribe i f).entryAt j := by unfold State.entryAt; rw [table]
  have publish (j : Nat) : t.publishAt j = s.publishAt j := by
    unfold State.publishAt
    rw [entry]
    exact modifySubscribe_publishAt s i j f
  have cells : Entry.cells { e with role := e.role.mapSubscribe f } =
      ((f u).written ++ (f u).waiting).map ReorderCell.cell := cells_subscribe (by rw [role]; rfl)
  have regroup (a b c : List Nat) : (a ++ (b ++ c)).Perm (b ++ (a ++ c)) := List.perm_append_comm_assoc a b c
  refine ⟨?_, ?_, fun j => ?_, fun j q hq => ok.queues j q (publish j ▸ hq), fun j v hv => ?_, pool ▸ ok.once,
    fun j hj => publish j ▸ ok.waits j (pool ▸ hj), fun j q hq => Nat.le_trans (reads j) (ok.reads j q (publish j ▸ hq)),
    fun j hq => Nat.le_zero.1 (ok.unread j (publish j ▸ hq) ▸ reads j)⟩
  · rw [table, modifySubscribe_indexes]
    exact ok.indexes
  · rw [table, pool]
    refine held_mapAt (fun e => { e with role := e.role.mapSubscribe f }) (fun _ => rfl) ok.indexes he ok.held ?_
    rw [cells, cells_subscribe role]
    exact (regroup _ _ _).trans ((held.append_left s.pool.free).trans (regroup _ _ _))
  · unfold State.replayCells
    rw [pool, publish]
    exact ok.aged j
  · unfold State.subscribeAt at hv
    rw [entry] at hv
    change (s.modifySubscribe i f).subscribeAt j = some v at hv
    by_cases same : j = i
    · rw [same, modifySubscribe_subscribeAt, hu, Option.map_some] at hv
      cases hv
      exact room
    · rw [modifySubscribe_subscribeAt_ne s f same] at hv
      exact ok.reorder j v hv

/-- An entry that has no cell comes into the table or leaves it, or every entry is changed at once: seen from outside no
queue, no cell and no segmenter changes. -/
theorem PoolOk.tableLike {s t : State} {l : List Nat} (ok : PoolOk s l) (indexes : (t.table.map (·.index)).Nodup)
    (cells : (t.table.flatMap Entry.cells).Perm (s.table.flatMap Entry.cells)) (free : t.pool.free = s.pool.free)
    (waiting : t.pool.waiting = s.pool.waiting)
    (aged : ∀ i, (t.pool.aged.filter (·.index == i)).map AgedCell.cell =
      (s.pool.aged.filter (·.index == i)).map AgedCell.cell)
    (kept : ∀ i p, s.publishAt i = some p → ∃ q, t.publishAt i = some q)
    (publish : ∀ i q, t.publishAt i = some q → (s.publishAt i = none ∧ q.sendQueue = [] ∧ q.replayQueue = []) ∨
      ∃ p, s.publishAt i = some p ∧ q.sendQueue = p.sendQueue ∧ q.replayQueue = p.replayQueue ∧
        q.segmenter = p.segmenter)
    (reorder : ∀ i v, t.subscribeAt i = some v → v.reorderCount = 0 ∨
      ∃ u, s.subscribeAt i = some u ∧ v.reorderCount = u.reorderCount)
    (reads : ∀ i, t.payloadReads i ≤ s.payloadReads i) : PoolOk t l := by
  refine ⟨indexes, ?_, fun i => ?_, fun i q hq => ?_, fun i v hv => ?_, waiting ▸ ok.once, fun i hi => ?_,
    fun i q hq => ?_, fun i hq => ?_⟩
  · rw [free]
    exact ((cells.append_left _).append_left _).trans ok.held
  · rw [aged i, ok.aged i]
    cases hq : t.publishAt i with
    | none =>
      rw [replayCells_none hq]
      cases hp : s.publishAt i with
      | none => exact replayCells_none hp
      | some p =>
        obtain ⟨q, some⟩ := kept i p hp
        rw [hq] at some
        cases some
    | some q =>
      rw [replayCells_some hq]
      rcases publish i q hq with ⟨new, -, empty⟩ | ⟨p, hp, -, replay, -⟩
      · rw [replayCells_none new, empty]
        rfl
      · rw [replayCells_some hp, replay]
  · rcases publish i q hq with ⟨-, send, replay⟩ | ⟨p, hp, send, replay, -⟩
    · rw [send, replay]
      exact ⟨Nat.zero_le _, Nat.zero_le _⟩
    · rw [send, replay]
      exact ok.queues i p hp
  · rcases reorder i v hv with none | ⟨u, hu, same⟩
    · exact none ▸ Nat.zero_le _
    · exact same ▸ ok.reorder i u hu
  · obtain ⟨p, hp, wait, room⟩ := ok.waits i (waiting ▸ hi)
    obtain ⟨q, hq⟩ := kept i p hp
    rcases publish i q hq with ⟨new, -, -⟩ | ⟨p', hp', send, -, segmenter⟩
    · rw [hp] at new
      cases new
    · rw [hp] at hp'
      cases hp'
      exact ⟨q, hq, segmenter.trans wait, send ▸ room⟩
  · refine Nat.le_trans (reads i) ?_
    rcases publish i q hq with ⟨new, -, -⟩ | ⟨p, hp, -, -, segmenter⟩
    · rw [ok.unread i new]
      exact Nat.zero_le _
    · rw [segmenter]
      exact ok.reads i p hp
  · refine Nat.le_zero.1 (Nat.le_trans (reads i) (Nat.le_of_eq (ok.unread i ?_)))
    cases hp : s.publishAt i with
    | none => rfl
    | some p =>
      obtain ⟨q, some⟩ := kept i p hp
      rw [hq] at some
      cases some

end Machine
end Sys2Proof
end

section
/-! The pool's invariant under the shared operations of the pool, of the port and of the publish engine. -/

namespace Sys2Proof
namespace Machine

/-- An operation that keeps the pool's invariant, whatever cells are in hand beside it. -/
def PoolKeeps (s t : State) : Prop := ∀ l, PoolOk s l → PoolOk t l

theorem PoolKeeps.refl (s : State) : PoolKeeps s s := fun _ => id

theorem PoolKeeps.trans {s t u : State} (h : PoolKeeps s t) (k : PoolKeeps t u) : PoolKeeps s u :=
  fun l ok => k l (h l ok)

/-- No entry and no place of the pool changes, and no payload read joins. -/
theorem PoolKeeps.same {s t : State} (table : t.table = s.table) (pool : t.pool = s.pool)
    (reads : ∀ i, t.payloadReads i ≤ s.payloadReads i) : PoolKeeps s t :=
  fun _ ok => ok.same table pool reads

/-- Neither the entries nor the pool nor the port change. -/
theorem PoolKeeps.unmoved {s t : State} (table : t.table = s.table) (pool : t.pool = s.pool) (port : t.port = s.port) :
    PoolKeeps s t :=
  .same table pool fun i => Nat.le_of_eq (congrArg (fun p : HostPort => p.wanted.countP (Request.payloadReadOf i)) port)

/-! ### The port -/

theorem payloadReads_request (s : State) (c : PortClass) (r : Request) (i : Nat) :
    (s.request c r).payloadReads i = s.payloadReads i + if Request.payloadReadOf i r then 1 else 0 := by
  unfold State.payloadReads HostPort.wanted
  cases c <;> simp only [State.request, List.countP_append, List.countP_singleton] <;> omega

theorem wanted_withdraw (port : HostPort) (p : Request → Bool) :
    (port.withdraw p).wanted = port.wanted.filter (!p ·) := by
  unfold HostPort.wanted HostPort.withdraw
  rw [List.filter_append, List.filter_append, List.filter_append]
  congr 1
  cases port.granted with
  | none => rfl
  | some g =>
    rcases g with ⟨r, a, b, discarded⟩
    cases hp : p r <;> cases discarded <;> simp [hp, Option.filter]

theorem payloadReads_withdraw (s : State) (p : Request → Bool) (i : Nat) :
    State.payloadReads { s with port := s.port.withdraw p } i ≤ s.payloadReads i := by
  unfold State.payloadReads
  rw [wanted_withdraw]
  exact List.Sublist.countP_le List.filter_sublist

theorem payloadReads_withdrawOf (s : State) (i : Nat) : (s.withdrawOf i).payloadReads i = 0 := by
  unfold State.payloadReads
  change (s.port.withdraw _).wanted.countP _ = 0
  rw [wanted_withdraw, List.countP_eq_zero]
  intro r hr
  have other := (List.mem_filter.1 hr).2
  cases r <;> simp_all [Request.payloadReadOf, Request.index?]

theorem payloadReads_freePort (s : State) (i : Nat) : s.freePort.payloadReads i ≤ s.payloadReads i := by
  unfold State.payloadReads
  refine List.Sublist.countP_le ?_
  unfold HostPort.wanted State.freePort
  exact (List.Sublist.refl _).append (List.nil_sublist _)

theorem outstanding_wanted (port : HostPort) (p : Request → Bool) : port.outstanding p = port.wanted.any p := by
  unfold HostPort.outstanding HostPort.wanted
  rw [List.any_append, List.any_append, List.any_append]
  congr 1
  cases port.granted with
  | none => rfl
  | some g => cases hd : g.discarded <;> simp [hd, Option.filter]

theorem payloadReads_zero {s : State} {i : Nat} (h : s.port.outstanding (Request.payloadReadOf i) = false) :
    s.payloadReads i = 0 := by
  rw [outstanding_wanted, List.any_eq_false] at h
  exact List.countP_eq_zero.2 h

namespace PoolKeeps

theorem bump (s : State) (w : Counter) : PoolKeeps s (s.bump w) := .unmoved rfl rfl rfl

theorem setBuffer (s : State) (k : BufferId) (v : StagingBuffer) : PoolKeeps s (s.setBuffer k v) := .unmoved rfl rfl rfl

theorem discardHeldOf (s : State) (n : Nat) : PoolKeeps s (s.discardHeldOf n) := .unmoved rfl rfl rfl

theorem lists (s : State) (p : PublishLists) : PoolKeeps s { s with lists := p } := .unmoved rfl rfl rfl

theorem addGone (s : State) (stream : Nat) (q : Seq) : PoolKeeps s (s.addGone stream q) := .unmoved rfl rfl rfl

theorem withGone (s : State) (f : List GoneEntry → List GoneEntry) : PoolKeeps s (s.withGone f) := .unmoved rfl rfl rfl

theorem settleHoldOff (s : State) : PoolKeeps s s.settleHoldOff := .unmoved rfl rfl rfl

theorem request (s : State) (c : PortClass) (r : Request) (other : ∀ i, Request.payloadReadOf i r = false) :
    PoolKeeps s (s.request c r) :=
  .same (request_table s c r) (request_pool s c r) fun i => by
    rw [payloadReads_request, other]
    exact Nat.le_refl _

theorem withdraw (s : State) (p : Request → Bool) : PoolKeeps s { s with port := s.port.withdraw p } :=
  .same rfl rfl (payloadReads_withdraw s p)

theorem withdrawOf (s : State) (i : Nat) : PoolKeeps s (s.withdrawOf i) := .withdraw s _

theorem freePort (s : State) : PoolKeeps s s.freePort := .same rfl rfl (payloadReads_freePort s)

/-! ### Events -/

theorem latchHostFault (s : State) (place : Nat) : PoolKeeps s (s.latchHostFault place) := .unmoved rfl rfl rfl

theorem placeEvent (s : State) (ev : Event) : PoolKeeps s (s.placeEvent ev) := by
  unfold State.placeEvent
  dsimp only
  split
  · exact (PoolKeeps.unmoved rfl rfl rfl : PoolKeeps s
      { s with events := { s.events with writeIndex := (s.events.writeIndex + 1) % s.events.config.size } }).trans
      (.request _ _ _ fun _ => rfl)
  · exact .latchHostFault s _

theorem deliverEvent (s : State) (ev : Event) : PoolKeeps s (s.deliverEvent ev) := by
  unfold State.deliverEvent
  split
  · exact .placeEvent s ev
  · split <;> exact .unmoved rfl rfl rfl

theorem emit (s : State) (ev : Event) : PoolKeeps s (s.emit ev) := by
  unfold State.emit
  split
  · exact (PoolKeeps.unmoved rfl rfl rfl : PoolKeeps s { s with events := { s.events with number := s.events.number + 1 } }).trans
      (.deliverEvent _ _)
  · exact .refl s

theorem drainEvents (l : List Event) (s : State) : PoolKeeps s (drainEvents l s) := by
  induction l generalizing s with
  | nil => exact .unmoved rfl rfl rfl
  | cons ev rest ih =>
    unfold Machine.drainEvents
    split
    · exact .unmoved rfl rfl rfl
    · exact (PoolKeeps.placeEvent s ev).trans (ih _)

/-! ### Entries whose queues stay as they are -/

theorem modifyChain (s : State) (i : Nat) (f : Chain → Chain) : PoolKeeps s (s.modifyChain i f) := by
  have cells : (s.modifyChain i f).table.flatMap Entry.cells = s.table.flatMap Entry.cells := by
    unfold State.modifyChain
    rw [List.flatMap_map]
    congr 1
    funext e
    split <;> rfl
  exact fun l ok => ok.tableLike (by rw [modifyChain_indexes]; exact ok.indexes) (cells ▸ .refl _) rfl rfl
    (fun _ => rfl) (fun j p hp => ⟨p, by rw [modifyChain_publishAt]; exact hp⟩)
    (fun j q hq => .inr ⟨q, by rwa [modifyChain_publishAt] at hq, rfl, rfl, rfl⟩)
    (fun j v hv => .inr ⟨v, by rwa [modifyChain_subscribeAt] at hv, rfl⟩) fun _ => Nat.le_refl _

/-- A publish entry changes, its cells staying where they are; a change of the segmenter needs that the entry neither
waits for a cell nor has a payload read wanted. -/
theorem publishQueues {s : State} {i : Nat} {f : PublishEntry → PublishEntry}
    (keeps : ∀ p, s.publishAt i = some p →
      (f p).sendQueue.map PublishCell.cell = p.sendQueue.map PublishCell.cell ∧
      (f p).replayQueue.map PublishCell.cell = p.replayQueue.map PublishCell.cell ∧
      ((f p).segmenter = p.segmenter ∨ (i ∉ s.pool.waiting ∧ s.payloadReads i = 0))) :
    PoolKeeps s (s.modifyPublish i f) := fun l ok => by
  cases hp : s.publishAt i with
  | none => rwa [modifyPublish_of_none f hp ok.indexes]
  | some p =>
    obtain ⟨send, replay, segmenter⟩ := keeps p hp
    have sendLength : (f p).sendQueue.length = p.sendQueue.length := by simpa using congrArg List.length send
    have replayLength : (f p).replayQueue.length = p.replayQueue.length := by simpa using congrArg List.length replay
    refine ok.publish hp rfl ?_ ?_ (fun _ _ => rfl) (sendLength ▸ replayLength ▸ ok.queues i p hp) ok.once
      (fun j hj => ?_) ?_ fun _ _ => Nat.le_refl _
    · rw [List.map_append, List.map_append, send, replay]
      exact .refl _
    · rw [replay]
      exact (ok.aged i).trans (replayCells_some hp)
    · by_cases same : j = i
      · obtain ⟨p', hp', wait, room⟩ := ok.waits j hj
        subst same
        rw [hp] at hp'
        cases hp'
        refine .inr ⟨rfl, ?_, sendLength ▸ room⟩
        rcases segmenter with kept | ⟨waitsNot, -⟩
        · exact kept.trans wait
        · exact absurd hj waitsNot
      · exact .inl ⟨same, hj⟩
    · change s.payloadReads i ≤ _
      rcases segmenter with kept | ⟨-, none⟩
      · rw [kept]
        exact ok.reads i p hp
      · rw [none]
        exact Nat.zero_le _

/-- A publish entry changes in what is no queue, no cell and no segmenter. -/
theorem modifyPublish (s : State) (i : Nat) (f : PublishEntry → PublishEntry)
    (keeps : ∀ p, (f p).sendQueue = p.sendQueue ∧ (f p).replayQueue = p.replayQueue ∧
      (f p).segmenter = p.segmenter) : PoolKeeps s (s.modifyPublish i f) :=
  publishQueues fun p _ => by
    obtain ⟨send, replay, segmenter⟩ := keeps p
    exact ⟨by rw [send], by rw [replay], .inl segmenter⟩

theorem checkClosing (s : State) (i : Nat) : PoolKeeps s (s.checkClosing i) :=
  .modifyPublish s i _ fun p => by split <;> exact ⟨rfl, rfl, rfl⟩

theorem unlistResend (s : State) (i stream : Nat) (q : Seq) : PoolKeeps s (s.unlistResend i stream q) := by
  unfold State.unlistResend
  split
  · exact ((PoolKeeps.lists s _).trans (.addGone _ _ _)).trans (.checkClosing _ _)
  · exact .refl s

end PoolKeeps

/-! ### Cells in hand -/

theorem PoolOk.perm {s : State} {l l' : List Nat} (ok : PoolOk s l) (p : l'.Perm l) : PoolOk s l' :=
  { ok with held := (p.append_right _).trans ok.held }

/-- Cells move between the hand and the free list. -/
theorem PoolOk.free {s : State} {l l' free : List Nat} (ok : PoolOk s l) (p : (l' ++ free).Perm (l ++ s.pool.free)) :
    PoolOk { s with pool := { s.pool with free := free } } l' := by
  have moved := p.append_right (s.table.flatMap Entry.cells)
  rw [List.append_assoc, List.append_assoc] at moved
  exact { ok with held := moved.trans ok.held }

/-- Claims stop waiting. -/
theorem PoolOk.unwait {s : State} {l waiting : List Nat} (n : Nat) (ok : PoolOk s l)
    (sub : waiting.Sublist s.pool.waiting) :
    PoolOk { s with pool := { s.pool with waiting := waiting, waitingPointer := n } } l :=
  { ok with once := ok.once.sublist sub, waits := fun i hi => ok.waits i (sub.subset hi) }

theorem PoolOk.freeCell {s : State} {l : List Nat} {c : Nat} (ok : PoolOk s (c :: l)) : PoolOk (s.freeCell c) l :=
  ok.free (((List.append_assoc l s.pool.free [c]).symm ▸ List.perm_append_singleton c (l ++ s.pool.free)))

theorem payloadReads_le_one {s : State} {l : List Nat} (ok : PoolOk s l) (i : Nat) : s.payloadReads i ≤ 1 := by
  cases hp : s.publishAt i with
  | none => exact (ok.unread i hp).le.trans (Nat.zero_le 1)
  | some p =>
    refine Nat.le_trans (ok.reads i p hp) ?_
    unfold Segmenter.reads
    split
    · exact Nat.le_refl 1
    · exact Nat.zero_le 1

/-- A granted cell joins the send queue of an entry with room for it, or the free list. -/
theorem PoolOk.joinSend {s : State} {l : List Nat} {i c : Nat} (ok : PoolOk s (c :: l))
    (room : ∀ p, s.publishAt i = some p → p.sendQueue.length < Config.sendLimit) (waitsNot : i ∉ s.pool.waiting) :
    PoolOk (s.joinSend i c) l := by
  unfold State.joinSend
  split
  · exact ok.freeCell
  · rename_i e he
    split
    · rename_i p a d role current
      have hp := publishAt_of_entry he role
      have aged := (ok.aged i).trans (replayCells_some hp)
      refine ok.publish hp rfl ?_ ?_ (fun _ _ => rfl) ⟨?_, (ok.queues i p hp).2⟩ ok.once
        (fun j hj => .inl ⟨fun same => waitsNot (same ▸ hj), hj⟩) (payloadReads_le_one ok i) fun _ _ => Nat.le_refl _
      · have last : ((p.replayQueue ++ (p.sendQueue ++ [newSendCell p a d c])).map PublishCell.cell) =
            (p.replayQueue ++ p.sendQueue).map PublishCell.cell ++ [c] := by
          rw [← List.append_assoc, List.map_append]
          rfl
        rw [last, ← List.append_assoc, ← List.append_assoc]
        exact (List.perm_append_singleton _ _).trans (by rw [List.append_assoc]; exact .refl _)
      · exact aged
      · rw [List.length_append]
        exact room p hp
    · exact ok.freeCell

theorem PoolOk.releaseCell {s : State} {l : List Nat} {c : Nat} (ok : PoolOk s (c :: l)) :
    PoolOk (s.releaseCell c) l := by
  unfold State.releaseCell
  split
  · rename_i i next
    have waits : i ∈ s.pool.waiting := by simpa using List.find?_some next
    obtain ⟨p, hp, -, room⟩ := ok.waits i waits
    refine (ok.unwait i List.erase_sublist).joinSend (fun q hq => ?_) ok.once.not_mem_erase
    change s.publishAt i = some q at hq
    rw [hp] at hq
    cases hq
    exact room
  · exact ok.freeCell

theorem PoolOk.releaseCells {s : State} {l : List Nat} (cells : List Nat) (ok : PoolOk s (cells ++ l)) :
    PoolOk (s.releaseCells cells) l := by
  unfold State.releaseCells
  induction cells generalizing s with
  | nil => exact ok
  | cons c rest ih => exact ih (PoolOk.releaseCell ok)

/-- A cell has one holder: of two entries that hold it, both are the same. -/
theorem PoolOk.holder {s : State} {l : List Nat} (ok : PoolOk s l) {i j c : Nat} {e f : Entry}
    (he : s.entryAt i = some e) (hf : s.entryAt j = some f) (ce : c ∈ e.cells) (cf : c ∈ f.cells) : i = j := by
  by_contra ne
  have nodup : (l ++ (s.pool.free ++ s.table.flatMap Entry.cells)).Nodup := ok.held.nodup_iff.2 List.nodup_range
  have split := ((cells_perm ok.indexes he).nodup_iff.1 nodup.of_append_right.of_append_right)
  have other : c ∈ otherCells s.table i := by
    unfold otherCells
    refine List.mem_flatMap.2 ⟨f, List.mem_filter.2 ⟨List.mem_of_find?_eq_some hf, ?_⟩, cf⟩
    rw [bne_iff_ne, entryAt_index hf]
    exact fun same => ne same.symm
  exact (List.nodup_append.1 split).2.2 c ce c other rfl

theorem PoolOk.cells_nodup {s : State} {l : List Nat} (ok : PoolOk s l) {i : Nat} {e : Entry}
    (he : s.entryAt i = some e) : e.cells.Nodup := by
  have nodup : (l ++ (s.pool.free ++ s.table.flatMap Entry.cells)).Nodup := ok.held.nodup_iff.2 List.nodup_range
  exact ((cells_perm ok.indexes he).nodup_iff.1 nodup.of_append_right.of_append_right).of_append_left

/-- Taking out the one element with a given image leaves that image beside the rest. -/
theorem filter_image_perm {α : Type} (f : α → Nat) {l : List α} {c : Nat} (mem : c ∈ l.map f) (nodup : (l.map f).Nodup) :
    (c :: (l.filter (f · != c)).map f).Perm (l.map f) := by
  have erased : (l.filter (f · != c)).map f = (l.map f).erase c := by
    rw [nodup.erase_eq_filter, List.filter_map]
    rfl
  rw [erased]
  exact (List.perm_cons_erase mem).symm

/-- A replay cell leaves its queue and the age list, and is in hand. -/
theorem PoolOk.leaveReplay {s : State} {l : List Nat} {a : AgedCell} (ok : PoolOk s l)
    (mem : a.cell ∈ s.replayCells a.index) : PoolOk (s.leaveReplay a) (a.cell :: l) := by
  cases hp : s.publishAt a.index with
  | none =>
    rw [replayCells_none hp] at mem
    cases mem
  | some p =>
    rw [replayCells_some hp] at mem
    obtain ⟨e, he, role⟩ := publishAt_entry hp
    have own := ok.cells_nodup he
    rw [cells_publish role, List.map_append] at own
    have left := filter_image_perm PublishCell.cell mem own.of_append_left
    have base : PoolOk { s.modifyPublish a.index fun p =>
        { p with replayQueue := p.replayQueue.filter (·.cell != a.cell) } with
        pool := { s.pool with aged := s.pool.aged.filter (·.cell != a.cell) } } (a.cell :: l) := by
      refine ok.publish (f := fun p => { p with replayQueue := p.replayQueue.filter (·.cell != a.cell) }) hp rfl ?_ ?_
        (fun j ne => ?_) ⟨(ok.queues a.index p hp).1, ?_⟩ ok.once (fun j hj => ?_) (ok.reads a.index p hp)
        fun _ _ => Nat.le_refl _
      · rw [List.map_append, List.map_append, List.cons_append]
        have shift (x : Nat) (xs ys zs ws : List Nat) : (x :: (xs ++ (ys ++ (zs ++ ws)))).Perm
            (xs ++ (ys ++ ((x :: zs) ++ ws))) := by
          have := (List.perm_middle (a := x) (l₁ := xs ++ ys) (l₂ := zs ++ ws)).symm
          simpa only [List.append_assoc, List.cons_append] using this
        exact (shift _ _ _ _ _).trans (((left.append_right _).append_left _).append_left _)
      · have filtered := congrArg (List.filter (· != a.cell)) ((ok.aged a.index).trans (replayCells_some hp))
        rw [List.filter_map, List.filter_map, List.filter_filter] at filtered
        rw [List.filter_filter]
        refine Eq.trans (congrArg _ (List.filter_congr fun b _ => ?_)) filtered
        exact Bool.and_comm _ _
      · rw [List.filter_filter]
        refine List.filter_congr fun b hb => ?_
        by_cases there : b.index = j
        · have kept : b.cell ≠ a.cell := fun same => by
            have named : b.cell ∈ s.replayCells j := by
              rw [← ok.aged j]
              exact List.mem_map_of_mem (List.mem_filter.2 ⟨hb, beq_iff_eq.2 there⟩)
            cases hq : s.publishAt j with
            | none =>
              rw [replayCells_none hq] at named
              cases named
            | some q =>
              rw [replayCells_some hq] at named
              obtain ⟨f, hf, frole⟩ := publishAt_entry hq
              refine ne (ok.holder hf he (c := a.cell) ?_ ?_)
              · rw [cells_publish frole, List.map_append, ← same]
                exact List.mem_append_left _ named
              · rw [cells_publish role, List.map_append]
                exact List.mem_append_left _ mem
          rw [beq_iff_eq.2 there, bne_iff_ne.2 kept]
          rfl
        · rw [beq_false_of_ne there, Bool.false_and]
      · exact Nat.le_trans (List.length_filter_le _ _) (ok.queues a.index p hp).2
      · by_cases same : j = a.index
        · obtain ⟨q, hq, wait, room⟩ := ok.waits j hj
          rw [same, hp] at hq
          cases hq
          exact .inr ⟨same, wait, room⟩
        · exact .inl ⟨same, hj⟩
    unfold State.leaveReplay
    dsimp only
    split
    · exact PoolKeeps.unlistResend _ _ _ _ _ base
    · exact base

/-- From `s` to `t` every publish entry keeps its send queue and its segmenter, and the claims that wait stay. -/
structure SendKept (s t : State) : Prop where
  waiting : t.pool.waiting = s.pool.waiting
  publish : ∀ i q, t.publishAt i = some q →
    ∃ p, s.publishAt i = some p ∧ q.sendQueue = p.sendQueue ∧ q.segmenter = p.segmenter

theorem SendKept.refl (s : State) : SendKept s s := ⟨rfl, fun _ q hq => ⟨q, hq, rfl, rfl⟩⟩

theorem SendKept.trans {s t u : State} (h : SendKept s t) (k : SendKept t u) : SendKept s u where
  waiting := k.waiting.trans h.waiting
  publish i q hq := by
    obtain ⟨p, hp, send, segmenter⟩ := k.publish i q hq
    obtain ⟨o, ho, send', segmenter'⟩ := h.publish i p hp
    exact ⟨o, ho, send.trans send', segmenter.trans segmenter'⟩

theorem SendKept.modifyPublish (s : State) (i : Nat) (f : PublishEntry → PublishEntry)
    (keeps : ∀ p, (f p).sendQueue = p.sendQueue ∧ (f p).segmenter = p.segmenter) : SendKept s (s.modifyPublish i f) where
  waiting := rfl
  publish j q hq := by
    by_cases same : j = i
    · rw [same, modifyPublish_publishAt] at hq
      obtain ⟨p, hp, rfl⟩ := Option.map_eq_some_iff.1 hq
      exact ⟨p, same ▸ hp, keeps p⟩
    · rw [modifyPublish_publishAt_ne s f same] at hq
      exact ⟨q, hq, rfl, rfl⟩

theorem SendKept.checkClosing (s : State) (i : Nat) : SendKept s (s.checkClosing i) :=
  .modifyPublish s i _ fun p => by split <;> exact ⟨rfl, rfl⟩

theorem SendKept.unlistResend (s : State) (i stream : Nat) (q : Seq) : SendKept s (s.unlistResend i stream q) := by
  unfold State.unlistResend
  split
  · refine SendKept.trans (t := State.addGone { s with lists := { s.lists with
      resend := s.lists.resend.filter fun r => !(r.index == i && r.sequence == q) } } stream q) ?_ (.checkClosing _ i)
    exact ⟨rfl, (SendKept.refl s).publish⟩
  · exact .refl s

theorem SendKept.leaveReplay (s : State) (a : AgedCell) : SendKept s (s.leaveReplay a) := by
  have base : SendKept s { s.modifyPublish a.index fun p =>
      { p with replayQueue := p.replayQueue.filter (·.cell != a.cell) } with
      pool := { s.pool with aged := s.pool.aged.filter (·.cell != a.cell) } } :=
    ⟨rfl, (SendKept.modifyPublish s a.index
      (fun p => { p with replayQueue := p.replayQueue.filter (·.cell != a.cell) }) fun _ => ⟨rfl, rfl⟩).publish⟩
  unfold State.leaveReplay
  dsimp only
  split
  · exact base.trans (.unlistResend _ _ _ _)
  · exact base

/-- A claim that is given a cell has it in hand, and changes no send queue, no segmenter and no claim. -/
theorem PoolOk.claimCell {s t : State} {l : List Nat} {c : Nat} (ok : PoolOk s l) (h : s.claimCell = some (c, t)) :
    PoolOk t (c :: l) ∧ SendKept s t := by
  unfold State.claimCell at h
  split at h
  · rename_i rest hfree
    cases h
    refine ⟨ok.free ?_, ⟨rfl, (SendKept.refl s).publish⟩⟩
    rw [hfree, List.cons_append]
    exact List.perm_middle.symm
  · split at h
    · rename_i a rest haged
      cases h
      have mem : a.cell ∈ s.replayCells a.index := by
        rw [← ok.aged a.index, haged]
        exact List.mem_map_of_mem (List.mem_filter.2 ⟨List.mem_cons_self, beq_self_eq_true _⟩)
      exact ⟨PoolKeeps.bump _ _ _ (ok.leaveReplay mem), (SendKept.leaveReplay s a).trans ⟨rfl, (SendKept.refl _).publish⟩⟩
    · cases h

/-- An entry whose segmenter neither waits for a cell nor fills one has no claim waiting and no payload read wanted. -/
theorem PoolOk.idle {s : State} {l : List Nat} (ok : PoolOk s l) {i : Nat}
    (free : ∀ p, s.publishAt i = some p → p.segmenter ≠ .waitCell ∧ p.segmenter ≠ .filling) :
    i ∉ s.pool.waiting ∧ s.payloadReads i = 0 := by
  refine ⟨fun hi => ?_, ?_⟩
  · obtain ⟨p, hp, wait, -⟩ := ok.waits i hi
    exact (free p hp).1 wait
  · cases hp : s.publishAt i with
    | none => exact ok.unread i hp
    | some p =>
      have none := ok.reads i p hp
      unfold Segmenter.reads at none
      rw [beq_false_of_ne (free p hp).2] at none
      exact Nat.le_zero.1 none

theorem PoolKeeps.segmenterClaim {s : State} {i : Nat} {p : PublishEntry} (hp : s.publishAt i = some p)
    (ready : p.segmenter = .ready) (room : p.sendQueue.length < Config.sendLimit) :
    PoolKeeps s (s.segmenterClaim i) := fun l ok => by
  have free : ∀ q, s.publishAt i = some q → q.segmenter ≠ .waitCell ∧ q.segmenter ≠ .filling := fun q hq => by
    rw [hp] at hq
    cases hq
    rw [ready]
    exact ⟨nofun, nofun⟩
  obtain ⟨waitsNot, unread⟩ := ok.idle free
  unfold State.segmenterClaim
  split
  · rename_i c t h
    obtain ⟨given, kept⟩ := ok.claimCell h
    refine given.joinSend (fun q hq => ?_) (kept.waiting ▸ waitsNot)
    obtain ⟨p', hp', send, -⟩ := kept.publish i q hq
    rw [hp] at hp'
    cases hp'
    exact send ▸ room
  · have aged := (ok.aged i).trans (replayCells_some hp)
    refine ok.publish (f := fun p => { p with segmenter := .waitCell }) hp rfl (.refl _) aged (fun _ _ => rfl) (ok.queues i p hp) ?_ (fun j hj => ?_) ?_
      fun _ _ => Nat.le_refl _
    · exact List.nodup_append.2 ⟨ok.once, List.nodup_singleton i, fun a ha b hb =>
        List.mem_singleton.1 hb ▸ fun same => waitsNot (same ▸ ha)⟩
    · rcases List.mem_append.1 hj with before | new
      · exact .inl ⟨fun same => waitsNot (same ▸ before), before⟩
      · exact .inr ⟨List.mem_singleton.1 new, rfl, room⟩
    · exact unread ▸ Nat.zero_le _

/-! ### Entries that end -/

theorem aged_filter_ne (aged : List AgedCell) {i j : Nat} (ne : j ≠ i) :
    (aged.filter (·.index != i)).filter (·.index == j) = aged.filter (·.index == j) := by
  rw [List.filter_filter]
  refine List.filter_congr fun b _ => ?_
  by_cases there : b.index = j
  · rw [there, bne_iff_ne.2 ne, Bool.and_true]
  · rw [beq_false_of_ne there, Bool.false_and]

theorem aged_filter_self (aged : List AgedCell) (i : Nat) : (aged.filter (·.index != i)).filter (·.index == i) = [] := by
  rw [List.filter_filter, List.filter_eq_nil_iff]
  intro b _ both
  simp only [Bool.and_eq_true, beq_iff_eq, bne_iff_ne] at both
  exact both.2 both.1

/-- A publish entry ends: its cells are in hand. -/
theorem PoolOk.endPublish {s : State} {l : List Nat} {i : Nat} {p : PublishEntry} (ok : PoolOk s l)
    (hp : s.publishAt i = some p) (stream : Nat) (claim : PublishEntry → ClaimState) (yieldDue : PublishEntry → Bool) :
    PoolOk (((s.withdrawOf i).clearLists i stream).modifyPublish i fun p => p.ended (claim p) (yieldDue p))
      ((p.replayQueue ++ p.sendQueue).map PublishCell.cell ++ l) := by
  refine ok.publish (f := fun p => p.ended (claim p) (yieldDue p)) hp rfl ?_ ?_ (fun j ne => ?_)
    ⟨Nat.zero_le _, Nat.zero_le _⟩ (ok.once.filter _) (fun j hj => ?_) ?_ fun j _ => payloadReads_withdraw s _ j
  · change (_ ++ l ++ (s.pool.free ++ [])).Perm _
    rw [List.append_nil, List.append_assoc]
    exact List.perm_append_comm.trans (List.append_assoc _ _ _ ▸ .refl _)
  · change ((s.pool.aged.filter (·.index != i)).filter (·.index == i)).map _ = []
    rw [aged_filter_self]
    rfl
  · exact aged_filter_ne _ ne
  · obtain ⟨before, ne⟩ := List.mem_filter.1 hj
    exact .inl ⟨bne_iff_ne.1 ne, before⟩
  · exact (payloadReads_withdrawOf s i).le.trans (Nat.zero_le _)

/-- A subscribe entry gives its cells up: they are in hand. -/
theorem PoolOk.endSubscribe {s : State} {l : List Nat} {i : Nat} {u : SubscribeEntry} (ok : PoolOk s l)
    (hu : s.subscribeAt i = some u) :
    PoolOk (s.modifySubscribe i SubscribeEntry.faulted) ((u.written ++ u.waiting).map ReorderCell.cell ++ l) := by
  refine ok.subscribe hu rfl rfl ?_ (Nat.zero_le _) fun _ => Nat.le_refl _
  change (_ ++ l ++ []).Perm _
  rw [List.append_nil]
  exact List.perm_append_comm

/-- The state without the entry at an index, its cells in hand (R55). -/
def State.withoutEntry (s : State) (i stream : Nat) : State :=
  { ((s.withdrawOf i).clearLists i stream).discardHeldOf stream with table := s.table.filter (·.index != i) }

/-- An entry leaves the table: its cells are in hand. -/
theorem PoolOk.leaveTable {s : State} {l : List Nat} {i : Nat} {e : Entry} (ok : PoolOk s l) (he : s.entryAt i = some e)
    (stream : Nat) :
    PoolOk (s.withoutEntry i stream) (e.cells ++ l) := by
  have gone : (s.withoutEntry i stream).entryAt i = none := List.find?_eq_none.2 fun f hf here =>
    bne_iff_ne.1 (List.mem_filter.1 hf).2 (eq_of_beq here)
  have kept (j : Nat) (ne : j ≠ i) : (s.withoutEntry i stream).entryAt j = s.entryAt j := by
    change (s.table.filter (·.index != i)).find? (·.index == j) = s.entryAt j
    rw [List.find?_filter]
    unfold State.entryAt
    congr 1
    funext f
    by_cases there : f.index = j
    · simp [there, ne]
    · simp [there]
  have publishHere : (s.withoutEntry i stream).publishAt i = none := congrArg (·.bind Entry.publish?) gone
  have publish (j : Nat) (ne : j ≠ i) : (s.withoutEntry i stream).publishAt j = s.publishAt j :=
    congrArg (·.bind Entry.publish?) (kept j ne)
  refine ⟨ok.indexes.sublist (List.filter_sublist.map _), ?_, fun j => ?_, fun j q hq => ?_, fun j v hv => ?_,
    ok.once.filter _, fun j hj => ?_, fun j q hq => ?_, fun j hq => ?_⟩
  · have split := cells_perm ok.indexes he
    have regroup : (e.cells ++ l ++ (s.pool.free ++ otherCells s.table i)).Perm
        (l ++ (s.pool.free ++ (e.cells ++ otherCells s.table i))) := by
      rw [List.append_assoc]
      exact (List.perm_append_comm_assoc _ _ _).trans ((List.perm_append_comm_assoc _ _ _).append_left _)
    exact regroup.trans (((split.symm.append_left _).append_left _).trans ok.held)
  · by_cases same : j = i
    · rw [same, replayCells_none publishHere]
      exact congrArg _ (aged_filter_self _ i)
    · change ((s.pool.aged.filter (·.index != i)).filter (·.index == j)).map _ = _
      rw [aged_filter_ne _ same, ok.aged j]
      unfold State.replayCells
      rw [publish j same]
  · by_cases same : j = i
    · rw [same] at hq
      exact nomatch hq.symm.trans publishHere
    · exact ok.queues j q ((publish j same).symm.trans hq)
  · unfold State.subscribeAt at hv
    by_cases same : j = i
    · rw [same, gone] at hv
      cases hv
    · rw [kept j same] at hv
      exact ok.reorder j v hv
  · obtain ⟨before, ne⟩ := List.mem_filter.1 hj
    obtain ⟨p, hp, rest⟩ := ok.waits j before
    exact ⟨p, (publish j (bne_iff_ne.1 ne)).trans hp, rest⟩
  · by_cases same : j = i
    · rw [same] at hq
      exact nomatch hq.symm.trans publishHere
    · exact Nat.le_trans (payloadReads_withdraw s _ j) (ok.reads j q ((publish j same).symm.trans hq))
  · by_cases same : j = i
    · rw [same]
      exact payloadReads_withdrawOf s i
    · exact Nat.le_zero.1 (ok.unread j ((publish j same).symm.trans hq) ▸ payloadReads_withdraw s _ j)

namespace PoolKeeps

/-- Cells taken in hand are released, and an event is reported. -/
theorem release {s t : State} (cells : List Nat) (ev : Event) (h : ∀ l, PoolOk s l → PoolOk t (cells ++ l)) :
    PoolKeeps s ((t.releaseCells cells).emit ev) := fun l ok => PoolKeeps.emit _ ev l ((h l ok).releaseCells cells)

theorem loseClaim (s : State) (i w c : Nat) : PoolKeeps s (s.loseClaim i w c) := by
  unfold State.loseClaim
  split
  · exact .refl s
  · rename_i e he
    split
    · exact .refl s
    · rename_i p role
      rw [cells_publish role]
      exact .release _ _ fun l ok => ok.endPublish (publishAt_of_entry he role) _ (fun _ => .lost) fun _ => false

theorem faultEntry (s : State) (i : Nat) (k : FaultCause) (n : Nat) (d : Word) : PoolKeeps s (s.faultEntry i k n d) := by
  unfold State.faultEntry
  split
  · exact .refl s
  · rename_i e he
    split
    · rename_i p role
      rw [cells_publish role]
      exact .release _ _ fun l ok =>
        ok.endPublish (publishAt_of_entry he role) _ (fun _ => .fault) fun p => p.claim.owns
    · rename_i u role
      split
      · exact .refl s
      · rw [cells_subscribe role]
        exact .release _ _ fun l ok => PoolOk.endSubscribe
          ((((PoolKeeps.withdrawOf s i).trans (.discardHeldOf _ e.stream)) l) ok) (subscribeAt_of_entry (s :=
            (s.withdrawOf i).discardHeldOf e.stream) he role)

theorem freeEntry (s : State) (i : Nat) (how : CloseHow) : PoolKeeps s (s.freeEntry i how) := by
  unfold State.freeEntry
  split
  · exact .refl s
  · rename_i e he
    exact .release _ _ fun l ok => ok.leaveTable he e.stream

/-! ### The segmenters -/

/-- The payload read of a FILLING entry that has none wanted joins the third class. -/
theorem requestPayload {s : State} {e : Entry} {p : PublishEntry} (he : s.entryAt e.index = some e)
    (role : e.role = .publish p) (filling : p.segmenter = .filling) (unread : s.payloadReads e.index = 0) :
    PoolKeeps s (s.requestPayload e) := by
  unfold State.requestPayload
  split
  · split
    · dsimp only
      split
      · intro l ok
        have hp := publishAt_of_entry he role
        have only (j : Nat) (c : Nat) (a : Word) (n : Nat) (ne : j ≠ e.index) :
            Request.payloadReadOf j (.txPayload e.index c a n) = false := beq_false_of_ne fun same => ne same.symm
        have base : s.modifyPublish e.index id = s := by
          unfold State.modifyPublish
          rw [show (s.table.map fun f => if f.index = e.index then { f with role := f.role.mapPublish id } else f) =
            s.table from (List.map_congr_left fun f _ => by
              split
              · cases f with | mk n k x c r => cases r <;> rfl
              · rfl).trans (List.map_id _)]
        refine ok.publish (f := id) hp (by rw [base]; rfl) (.refl _) ((ok.aged _).trans (replayCells_some hp))
          (fun _ _ => rfl) (ok.queues _ p hp) ok.once (fun j hj => ?_) ?_ fun j ne => ?_
        · by_cases same : j = e.index
          · obtain ⟨q, hq, wait, room⟩ := ok.waits j hj
            rw [same, hp] at hq
            cases hq
            exact .inr ⟨same, wait, room⟩
          · exact .inl ⟨same, hj⟩
        · rw [payloadReads_request, unread, id, filling]
          split <;> decide
        · rw [payloadReads_request, only j _ _ _ ne]
          exact Nat.le_refl _
      · exact .faultEntry s _ _ _ _
    · exact .refl s
  · exact .refl s

end PoolKeeps

theorem wantsClaim_some {e : Entry} (h : e.wantsClaim = true) : ∃ p, e.role = .publish p ∧ p.segmenter = .ready ∧
    p.sendQueue.length < Config.sendLimit := by
  unfold Entry.wantsClaim at h
  split at h
  · rename_i p a d role current
    simp only [Bool.and_eq_true, beq_iff_eq, decide_eq_true_eq] at h
    obtain ⟨⟨⟨ready, -⟩, room⟩, -⟩ := h
    exact ⟨p, role, ready, room⟩
  · cases h

theorem wantsRead_some {s : State} {e : Entry} (h : s.wantsRead e = true) : ∃ p, e.role = .publish p ∧
    p.segmenter = .filling ∧ s.port.outstanding (Request.payloadReadOf e.index) = false := by
  unfold State.wantsRead at h
  split at h
  · rename_i p role
    simp only [Bool.and_eq_true, beq_iff_eq, Bool.not_eq_true'] at h
    exact ⟨p, role, h.1, h.2⟩
  · cases h

theorem PoolKeeps.settleRounds (n : Nat) (s : State) : PoolKeeps s (settleRounds n s) := by
  induction n generalizing s with
  | zero => exact .refl s
  | succ n ih =>
    unfold Machine.settleRounds
    split
    · exact .refl s
    · rename_i e found
      have wants := List.find?_some found
      have mem := List.mem_of_find?_eq_some found
      refine PoolKeeps.trans (fun l ok => ?_) (ih _)
      have he := CellFrame.entryAt_of_mem ok.indexes mem
      split
      · rename_i claims
        obtain ⟨p, role, ready, room⟩ := wantsClaim_some claims
        exact PoolKeeps.segmenterClaim (publishAt_of_entry he role) ready room l ok
      · rename_i claims
        obtain ⟨p, role, filling, unread⟩ := wantsRead_some ((Bool.or_eq_true_iff.1 wants).resolve_left claims)
        exact PoolKeeps.requestPayload he role filling (payloadReads_zero unread) l ok

theorem PoolKeeps.finish (s : State) : PoolKeeps s s.finish :=
  (PoolKeeps.settleRounds _ s).trans (.settleHoldOff _)

end Machine
end Sys2Proof
end

section
/-! The pool's invariant under the operations of chains and of the subscribe engine. -/

namespace Sys2Proof
namespace Machine

namespace PoolKeeps

/-! ### Chains -/

theorem takeHead (s : State) (i : Nat) (h : Word) : PoolKeeps s (s.takeHead i h) :=
  (PoolKeeps.modifyChain s i _).trans (.request _ _ _ fun _ => rfl)

theorem followLink (s : State) (i : Nat) (w : Word) : PoolKeeps s (s.followLink i w) := by
  unfold State.followLink
  split
  · exact .modifyChain s i _
  · split
    · exact .modifyChain s i _
    · exact (PoolKeeps.modifyChain s i _).trans (.request _ _ _ fun _ => rfl)

theorem makeCurrent (s : State) (i : Nat) (a : Word) (d : Descriptor) : PoolKeeps s (s.makeCurrent i a d) :=
  (PoolKeeps.modifyChain s i _).trans (.followLink _ _ _)

theorem lookAgain (s : State) (i : Nat) (a : Word) : PoolKeeps s (s.lookAgain i a) :=
  (PoolKeeps.modifyChain s i _).trans (.request _ _ _ fun _ => rfl)

theorem requestWriteBack (s : State) (i : Nat) : PoolKeeps s (s.requestWriteBack i) := by
  unfold State.requestWriteBack
  split
  · exact .refl s
  · split
    · exact .request s _ _ fun _ => rfl
    · exact .refl s

end PoolKeeps

/-- The publish entry at an index, if there is one, neither waits for a cell nor fills one. -/
def State.segmenterIdle (s : State) (i : Nat) : Prop :=
  ∀ p, s.publishAt i = some p → p.segmenter ≠ .waitCell ∧ p.segmenter ≠ .filling

theorem segmenterIdle_of {s : State} {i : Nat} {p : PublishEntry} (hp : s.publishAt i = some p)
    (h : p.segmenter = .ready ∨ p.segmenter = .noChain) : s.segmenterIdle i := fun q hq => by
  rw [hp] at hq
  cases hq
  rcases h with h | h <;> rw [h] <;> exact ⟨nofun, nofun⟩

namespace PoolKeeps

/-- The segmenter of an entry that neither waits for a cell nor fills one changes. -/
theorem setSegmenter {s : State} {i : Nat} (idle : s.segmenterIdle i) (f : PublishEntry → PublishEntry)
    (keeps : ∀ p, (f p).sendQueue = p.sendQueue ∧ (f p).replayQueue = p.replayQueue) :
    PoolKeeps s (s.modifyPublish i f) := fun l ok =>
  PoolKeeps.publishQueues (fun p _ => by
    obtain ⟨send, replay⟩ := keeps p
    exact ⟨by rw [send], by rw [replay], .inr (ok.idle idle)⟩) l ok

theorem chainEnds {s : State} {i : Nat} (idle : s.segmenterIdle i) : PoolKeeps s (s.chainEnds i) := by
  unfold State.chainEnds
  split
  · exact .refl s
  · split
    · exact .refl s
    · exact (PoolKeeps.setSegmenter idle (fun p => { p with segmenter := .noChain }) fun _ => ⟨rfl, rfl⟩).trans
        (.emit _ _)

theorem publishTake {s : State} {i : Nat} (idle : s.segmenterIdle i) : PoolKeeps s (s.publishTake i) := by
  unfold State.publishTake
  split
  · exact .refl s
  · split
    · exact (PoolKeeps.setSegmenter idle (fun p => { p with segmenter := .ready }) fun _ => ⟨rfl, rfl⟩).trans
        (.makeCurrent _ _ _ _)
    · exact .refl s
    · exact .refl s
    · exact .faultEntry s _ _ _ _
    · exact .lookAgain s _ _
    · exact .chainEnds idle

theorem publishAdvance (s : State) (i : Nat) : PoolKeeps s (s.publishAdvance i) := by
  unfold State.publishAdvance
  split
  · exact .refl s
  · rename_i e he
    split
    · rename_i p role _
      split
      · rename_i free
        exact .publishTake (segmenterIdle_of (publishAt_of_entry he role) free)
      · exact .refl s
    · exact .refl s

theorem publishStillEnded (s : State) (i : Nat) : PoolKeeps s (s.publishStillEnded i) := by
  unfold State.publishStillEnded
  split
  · exact .refl s
  · rename_i e he
    split
    · rename_i p role _
      split
      · rename_i ready
        exact .chainEnds (segmenterIdle_of (publishAt_of_entry he role) (.inl ready))
      · exact .refl s
    · exact .refl s

/-! ### Subscribe entries -/

/-- A subscribe entry changes, its cells staying in its reorder list. -/
theorem reordered (s : State) (i : Nat) (f : SubscribeEntry → SubscribeEntry)
    (keeps : ∀ u, (((f u).written ++ (f u).waiting).map ReorderCell.cell).Perm
      ((u.written ++ u.waiting).map ReorderCell.cell)) : PoolKeeps s (s.modifySubscribe i f) := fun l ok => by
  cases hu : s.subscribeAt i with
  | none => rwa [modifySubscribe_of_none f hu ok.indexes]
  | some u =>
    refine ok.subscribe hu rfl rfl ((keeps u).append_left l) ?_ fun _ => Nat.le_refl _
    have length := (keeps u).length_eq
    rw [List.length_map, List.length_map, List.length_append, List.length_append] at length
    exact Nat.le_trans (Nat.le_of_eq length) (ok.reorder i u hu)

/-- A subscribe entry changes outside its reorder list. -/
theorem modifySubscribe (s : State) (i : Nat) (f : SubscribeEntry → SubscribeEntry)
    (keeps : ∀ u, (f u).written = u.written ∧ (f u).waiting = u.waiting) : PoolKeeps s (s.modifySubscribe i f) :=
  .reordered s i f fun u => by
    obtain ⟨written, waiting⟩ := keeps u
    rw [written, waiting]

theorem freeBufferIfDone (s : State) (k : BufferId) : PoolKeeps s (s.freeBufferIfDone k) := by
  unfold State.freeBufferIfDone
  split
  · exact .refl s
  · exact .setBuffer s k _

theorem markWritten (s : State) (i c : Nat) : PoolKeeps s (s.modifySubscribe i (·.markWritten c)) :=
  .reordered s i _ fun u => by
    refine List.Perm.map _ ?_
    change ((u.written ++ u.waiting.filter (·.cell == c)) ++ u.waiting.filter (·.cell != c)).Perm _
    rw [List.append_assoc]
    exact (List.filter_append_perm _ _).append_left _

theorem releaseIfWritten (s : State) (i c : Nat) : PoolKeeps s (s.releaseIfWritten i c) := by
  unfold State.releaseIfWritten
  split
  · exact .refl s
  · rename_i u hu
    split
    · rename_i done
      intro l ok
      refine PoolOk.releaseCell (ok.subscribe (l' := c :: l)
        (f := fun u => { u with written := u.written.filter (·.cell != c) }) hu rfl rfl ?_ ?_ fun _ => Nat.le_refl _)
      · obtain ⟨e, he, role⟩ := subscribeAt_entry hu
        have own := ok.cells_nodup he
        rw [cells_subscribe role, List.map_append] at own
        obtain ⟨d, hd, named⟩ := List.any_eq_true.1 (Bool.and_eq_true_iff.1 done).1
        have mem : c ∈ u.written.map ReorderCell.cell := eq_of_beq named ▸ List.mem_map_of_mem hd
        have left := filter_image_perm ReorderCell.cell mem own.of_append_left
        rw [List.map_append, List.map_append, List.cons_append]
        exact List.perm_middle.symm.trans ((left.append_right _).append_left _)
      · exact Nat.le_trans (Nat.add_le_add_right (List.length_filter_le _ _) _) (ok.reorder i u hu)
    · exact .refl s

theorem giveUp (s : State) (i : Nat) : PoolKeeps s (s.giveUp i) := by
  unfold State.giveUp
  split
  · exact .refl s
  · rename_i pl _
    have none : PoolKeeps s (s.modifySubscribe i fun u => { u with placing := none }) :=
      .modifySubscribe s i _ fun _ => ⟨rfl, rfl⟩
    dsimp only
    split
    · exact none.trans (.freeBufferIfDone _ _)
    · exact (none.trans (.markWritten _ _ _)).trans (.releaseIfWritten _ _ _)

theorem finishDescriptor (s : State) (i : Nat) : PoolKeeps s (s.finishDescriptor i) := by
  have fresh : PoolKeeps s (s.modifySubscribe i SubscribeEntry.freshDescriptor) :=
    .modifySubscribe s i _ fun _ => ⟨rfl, rfl⟩
  unfold State.finishDescriptor
  dsimp only
  split
  · exact fresh.trans (.makeCurrent _ _ _ _)
  · exact fresh.trans (.modifyChain _ _ _)

theorem closeBlock (s : State) (i : Nat) (b : BlockStatus) : PoolKeeps s (s.closeBlock i b) := by
  unfold State.closeBlock
  split
  · exact .refl s
  · split
    · split
      · exact .refl s
      · exact ((PoolKeeps.request s _ _ fun _ => rfl).trans (.modifySubscribe _ i (fun u => { u with block := none })
          fun _ => ⟨rfl, rfl⟩)).trans (.finishDescriptor _ _)
    · exact .refl s

theorem takeHeld (s : State) (i : Nat) (a : Word) (d : Descriptor) : PoolKeeps s (s.takeHeld i a d) := by
  unfold State.takeHeld
  split
  · exact .refl s
  · split
    · exact .refl s
    · refine (PoolKeeps.trans ?_ (.modifySubscribe _ i SubscribeEntry.freshDescriptor fun _ => ⟨rfl, rfl⟩)).trans
        (.makeCurrent _ _ _ _)
      split
      · exact .request s _ _ fun _ => rfl
      · exact .refl s

theorem closeForFirst (s : State) (i : Nat) (first : Bool) : PoolKeeps s (s.closeForFirst i first) := by
  unfold State.closeForFirst
  split
  · exact .closeBlock s _ _
  · exact .refl s

theorem startPlacing (s : State) (i : Nat) (u : SubscribeEntry) (pl : Placing) :
    PoolKeeps s (s.startPlacing i u pl) :=
  (PoolKeeps.closeForFirst s i _).trans (.modifySubscribe _ _ _ fun _ => ⟨rfl, rfl⟩)

theorem sourceWritten (s : State) (i : Nat) (k : SegmentSource) : PoolKeeps s (s.sourceWritten i k) := by
  cases k with
  | staging k => exact .freeBufferIfDone s k
  | cell c => exact .releaseIfWritten s i c

end PoolKeeps

theorem repairIdle_lists (u : SubscribeEntry) :
    u.repairIdle.written = u.written ∧ u.repairIdle.waiting = u.waiting := ⟨rfl, rfl⟩

theorem settleRepair_lists (u : SubscribeEntry) :
    u.settleRepair.written = u.written ∧ u.settleRepair.waiting = u.waiting := by
  unfold SubscribeEntry.settleRepair
  split
  · exact repairIdle_lists u
  · split <;> exact ⟨rfl, rfl⟩

theorem advance_lists (u : SubscribeEntry) : u.advance.written = u.written ∧ u.advance.waiting = u.waiting := by
  unfold SubscribeEntry.advance
  split
  · exact settleRepair_lists _
  · exact ⟨rfl, rfl⟩

/-- The written cells and the waiting segments of the subscribe entry at an index. -/
def State.reorderAt (s : State) (i : Nat) : Option (List ReorderCell × List ReorderCell) :=
  (s.subscribeAt i).map fun u => (u.written, u.waiting)

theorem reorderAt_modifySubscribe (s : State) (i : Nat) (f : SubscribeEntry → SubscribeEntry)
    (keeps : ∀ u, (f u).written = u.written ∧ (f u).waiting = u.waiting) :
    (s.modifySubscribe i f).reorderAt i = s.reorderAt i := by
  unfold State.reorderAt
  rw [modifySubscribe_subscribeAt, Option.map_map]
  congr 1
  funext u
  obtain ⟨written, waiting⟩ := keeps u
  simp only [Function.comp, written, waiting]

theorem reorderAt_of_cellFrame {s t : State} (h : CellFrame s t) (i : Nat) : t.reorderAt i = s.reorderAt i := by
  unfold State.reorderAt
  rw [h.subscribeAt]

theorem reorderAt_of_table {s t : State} (table : t.table = s.table) (i : Nat) : t.reorderAt i = s.reorderAt i := by
  unfold State.reorderAt State.subscribeAt State.entryAt
  rw [table]

theorem reorderAt_modifyChain (s : State) (i : Nat) (f : Chain → Chain) :
    (s.modifyChain i f).reorderAt i = s.reorderAt i := by
  unfold State.reorderAt
  rw [modifyChain_subscribeAt]

theorem reorderAt_makeCurrent (s : State) (i : Nat) (a : Word) (d : Descriptor) :
    (s.makeCurrent i a d).reorderAt i = s.reorderAt i := by
  unfold State.makeCurrent State.followLink
  split
  · rw [reorderAt_modifyChain, reorderAt_modifyChain]
  · split
    · rw [reorderAt_modifyChain, reorderAt_modifyChain]
    · rw [reorderAt_of_table (request_table _ _ _), reorderAt_modifyChain, reorderAt_modifyChain]

theorem reorderAt_finishDescriptor (s : State) (i : Nat) : (s.finishDescriptor i).reorderAt i = s.reorderAt i := by
  have fresh : (s.modifySubscribe i SubscribeEntry.freshDescriptor).reorderAt i = s.reorderAt i :=
    reorderAt_modifySubscribe _ _ _ fun _ => ⟨rfl, rfl⟩
  unfold State.finishDescriptor
  dsimp only
  split
  · exact (reorderAt_makeCurrent _ _ _ _).trans fresh
  · exact (reorderAt_modifyChain _ _ _).trans fresh

theorem reorderAt_closeForFirst (s : State) (i : Nat) (first : Bool) :
    (s.closeForFirst i first).reorderAt i = s.reorderAt i := by
  unfold State.closeForFirst State.closeBlock
  split
  · split
    · rfl
    · split
      · split
        · rfl
        · refine (reorderAt_finishDescriptor _ i).trans ((reorderAt_modifySubscribe _ i _ ?_).trans ?_)
          · exact fun _ => ⟨rfl, rfl⟩
          · exact reorderAt_of_table (request_table _ _ _) i
      · rfl
  · rfl

/-- A cell in hand joins a reorder list with room for it. -/
theorem PoolOk.holdCell {s : State} {l : List Nat} {i c : Nat} {u : SubscribeEntry} (ok : PoolOk s (c :: l))
    (list : s.reorderAt i = some (u.written, u.waiting)) (room : u.reorderCount < Config.reorderLimit)
    (f : SubscribeEntry → SubscribeEntry) (joins : ∀ v, (((f v).written ++ (f v).waiting).map ReorderCell.cell).Perm
      (c :: (v.written ++ v.waiting).map ReorderCell.cell)) : PoolOk (s.modifySubscribe i f) l := by
  obtain ⟨v, hv, same⟩ := Option.map_eq_some_iff.1 list
  refine ok.subscribe hv rfl rfl (((joins v).append_left l).trans List.perm_middle) ?_ fun _ => Nat.le_refl _
  have length := (joins v).length_eq
  rw [List.length_cons, List.length_map, List.length_map, List.length_append, List.length_append] at length
  obtain ⟨written, waiting⟩ := Prod.mk.inj same
  unfold SubscribeEntry.reorderCount at room ⊢
  rw [length, written, waiting]
  exact room

theorem PoolOk.receiveClaim {s t : State} {l : List Nat} {u : SubscribeEntry} {c : Nat} (ok : PoolOk s l)
    (h : s.receiveClaim u = some (c, t)) :
    PoolOk t (c :: l) ∧ u.reorderCount < Config.reorderLimit ∧ CellFrame s t := by
  unfold State.receiveClaim at h
  split at h
  · rename_i room
    exact ⟨(ok.claimCell h).1, room, .claimCell h⟩
  · cases h

/-- Waiting segments leave a reorder list: their cells are in hand. -/
theorem PoolOk.giveWaiting {s : State} {l : List Nat} (ok : PoolOk s l) (i : Nat)
    (keep gone : List ReorderCell → List ReorderCell) (split : ∀ w, (gone w ++ keep w).Perm w) (empty : gone [] = []) :
    PoolOk (s.modifySubscribe i fun v => { v with waiting := keep v.waiting })
      ((gone (((s.subscribeAt i).map SubscribeEntry.waiting).getD [])).map ReorderCell.cell ++ l) := by
  cases hu : s.subscribeAt i with
  | none =>
    rw [modifySubscribe_of_none _ hu ok.indexes, Option.map_none, Option.getD_none, empty]
    exact ok
  | some u =>
    refine ok.subscribe (f := fun v => { v with waiting := keep v.waiting }) hu rfl rfl ?_ ?_ fun _ => Nat.le_refl _
    · rw [Option.map_some, Option.getD_some]
      have parts := (split u.waiting).map ReorderCell.cell
      rw [List.map_append] at parts
      change ((gone u.waiting).map _ ++ l ++ (u.written ++ keep u.waiting).map _).Perm _
      rw [List.map_append, List.map_append, List.append_assoc]
      refine (List.perm_append_comm_assoc _ _ _).trans (List.Perm.append_left l ?_)
      exact (List.perm_append_comm_assoc _ _ _).trans (parts.append_left _)
    · have length := (split u.waiting).length_eq
      rw [List.length_append] at length
      have before := ok.reorder i u hu
      unfold SubscribeEntry.reorderCount at before ⊢
      change u.written.length + (keep u.waiting).length ≤ _
      omega

namespace PoolKeeps

theorem orphanPlacing (s : State) (i : Nat) : PoolKeeps s (s.orphanPlacing i) := by
  refine ((PoolKeeps.giveUp s i).trans (.modifySubscribe _ i _ ?_)).trans (.bump _ _)
  exact fun _ => advance_lists _

theorem placePiece (s : State) (i : Nat) (a : Word) (d : Descriptor) (u : SubscribeEntry) (pl : Placing) :
    PoolKeeps s (s.placePiece i a d u pl) := by
  unfold State.placePiece
  dsimp only
  split
  · exact (PoolKeeps.request s _ _ fun _ => rfl).trans (.modifySubscribe _ _ _ fun _ => ⟨rfl, rfl⟩)
  · exact .faultEntry s _ _ _ _

theorem segmentEnded (s : State) (i : Nat) (source : SegmentSource) :
    PoolKeeps s (s.modifySubscribe i (·.segmentEnded source)) := by
  cases source with
  | staging k => exact .modifySubscribe s i _ fun _ => ⟨rfl, rfl⟩
  | cell c =>
    refine .reordered s i _ fun u => List.Perm.map _ ?_
    change ((u.written ++ u.waiting.filter (·.cell == c)) ++ u.waiting.filter (·.cell != c)).Perm _
    rw [List.append_assoc]
    exact (List.filter_append_perm _ _).append_left _

theorem endPlacing (s : State) (i : Nat) (pl : Placing) : PoolKeeps s (s.endPlacing i pl) := by
  rw [endPlacing_eq]
  refine PoolKeeps.trans (PoolKeeps.trans ?_ (.modifySubscribe _ _ _ advance_lists)) (.sourceWritten _ _ _)
  split
  · exact (PoolKeeps.segmentEnded s i _).trans (.closeBlock _ _ _)
  · exact .segmentEnded s i _

/-- What a starving entry does with its segment: it holds it in a cell it claims, or drops it. -/
theorem starveSegment {s t : State} {i : Nat} {u : SubscribeEntry} (ht : PoolKeeps s t)
    (list : t.reorderAt i = some (u.written, u.waiting)) (pl : Placing) (held : BufferId → Option StagedSegment) :
    PoolKeeps s (match pl.source with
      | .cell _ => t
      | .staging k =>
        match held k, t.receiveClaim u with
        | some g, some (c, t) =>
          (t.modifySubscribe i fun v =>
            { v with waiting := g.inCell c :: v.waiting, placing := some { pl with source := .cell c } }).freeBufferIfDone k
        | _, _ =>
          ((t.modifySubscribe i fun v => { v with placing := none }).bump .reorderDrops).freeBufferIfDone k) := by
  split
  · exact ht
  · split
    · rename_i claim
      refine PoolKeeps.trans (fun l ok => ?_) (.freeBufferIfDone _ _)
      obtain ⟨given, room, frame⟩ := (ht l ok).receiveClaim claim
      exact given.holdCell ((reorderAt_of_cellFrame frame i).trans list) room _ fun v => by
        rw [List.map_append, List.map_append, List.map_cons]
        exact List.perm_middle
    · refine ((ht.trans (.modifySubscribe _ i _ ?_)).trans (.bump _ _)).trans (.freeBufferIfDone _ _)
      exact fun _ => ⟨rfl, rfl⟩

theorem starve (s : State) (i : Nat) : PoolKeeps s (s.starve i) := by
  unfold State.starve
  split
  · exact .refl s
  · rename_i e he
    split
    · exact .refl s
    · rename_i u role
      split
      · exact .refl s
      · rename_i pl _
        have start : s.reorderAt i = some (u.written, u.waiting) := by
          unfold State.reorderAt
          rw [subscribeAt_of_entry he role]
          rfl
        refine .starveSegment ?_ ?_ pl s.heldSegment
        · split
          · exact .modifySubscribe s i _ fun _ => ⟨rfl, rfl⟩
          · refine (PoolKeeps.modifySubscribe s i _ ?_).trans (.emit _ _)
            exact fun _ => ⟨rfl, rfl⟩
        · split
          · refine (reorderAt_modifySubscribe _ i _ ?_).trans start
            exact fun _ => ⟨rfl, rfl⟩
          · refine (reorderAt_of_cellFrame (.emit _ _) i).trans ((reorderAt_modifySubscribe _ i _ ?_).trans start)
            exact fun _ => ⟨rfl, rfl⟩

/-- The first waiting segment is dropped and its cell released. -/
theorem dropFirst {s : State} {i : Nat} {u : SubscribeEntry} {c : ReorderCell} {rest : List ReorderCell}
    (hu : s.subscribeAt i = some u) (waiting : u.waiting = c :: rest) :
    PoolKeeps s (((s.modifySubscribe i fun v =>
      SubscribeEntry.advance { v with waiting := v.waiting.drop 1 }).bump .orphanSegments).releaseCell c.cell) := by
  intro l ok
  have given : PoolOk (s.modifySubscribe i fun v => SubscribeEntry.advance { v with waiting := v.waiting.drop 1 })
      (c.cell :: l) := by
    obtain ⟨written, waits⟩ := advance_lists { u with waiting := u.waiting.drop 1 }
    refine ok.subscribe (f := fun v => SubscribeEntry.advance { v with waiting := v.waiting.drop 1 }) hu rfl rfl ?_ ?_
      fun _ => Nat.le_refl _
    · rw [written, waits, waiting, List.drop_one, List.tail_cons, List.map_append, List.map_append, List.map_cons,
        List.cons_append]
      refine List.perm_middle.symm.trans (List.Perm.append_left l ?_)
      exact List.perm_middle.symm
    · have before := ok.reorder i u hu
      unfold SubscribeEntry.reorderCount at before ⊢
      rw [written, waits]
      rw [waiting] at before ⊢
      exact Nat.le_trans (Nat.add_le_add_left (Nat.le_succ _) _) before
  exact PoolOk.releaseCell (PoolKeeps.bump _ _ _ given)

theorem placeRounds (i n : Nat) (s : State) : PoolKeeps s (placeRounds i n s) := by
  induction n generalizing s with
  | zero => exact .refl s
  | succ n ih =>
    unfold Machine.placeRounds
    split
    · exact .refl s
    · rename_i e he
      split
      · exact .refl s
      · rename_i u role
        split
        · exact .refl s
        · split
          · split
            · exact (PoolKeeps.endPlacing s i _).trans (ih _)
            · split
              · exact .refl s
              · split
                · refine PoolKeeps.trans ?_ (ih _)
                  split
                  · exact .placePiece s i _ _ _ _
                  · exact .orphanPlacing s i
                · split
                  · exact (PoolKeeps.takeHeld s i _ _).trans (ih _)
                  · exact .refl s
                  · exact .refl s
                  · exact .faultEntry s _ _ _ _
                  · split
                    · exact .refl s
                    · split
                      · exact .starve s i
                      · exact .lookAgain s _ _
                  · exact .starve s i
          · split
            · exact .refl s
            · split
              · exact .refl s
              · rename_i c rest waiting
                split
                · split
                  · exact (PoolKeeps.startPlacing s i _ _).trans (ih _)
                  · exact (PoolKeeps.dropFirst (subscribeAt_of_entry he role) waiting).trans (ih _)
                · exact .refl s

theorem placeOn (s : State) (i : Nat) : PoolKeeps s (s.placeOn i) := .placeRounds i 64 s

/-- The waiting segments that are lost leave the reorder list, and their cells are released. -/
theorem loseWaiting (s : State) (i : Nat) (keep gone : List ReorderCell → List ReorderCell)
    (split : ∀ w, (gone w ++ keep w).Perm w) (empty : gone [] = []) :
    PoolKeeps s ((s.modifySubscribe i fun v => { v with waiting := keep v.waiting }).releaseCells
      ((match s.subscribeAt i with
        | some v => gone v.waiting
        | none => []).map ReorderCell.cell)) := fun l ok => by
  have given := ok.giveWaiting i keep gone split empty
  cases hu : s.subscribeAt i with
  | none =>
    rw [hu, Option.map_none, Option.getD_none, empty] at given
    exact given.releaseCells _
  | some u =>
    rw [hu] at given
    exact given.releaseCells _

theorem lose (s : State) (i n : Nat) (k : LossCause) : PoolKeeps s (s.lose i n k) := by
  unfold State.lose
  split
  · exact .refl s
  · split
    · exact .refl s
    · split
      · exact .refl s
      · rename_i x _
        split
        · exact .refl s
        · have start : PoolKeeps s ((s.giveUp i).closeBlock i .lost) := (PoolKeeps.giveUp s i).trans (.closeBlock _ _ _)
          refine (((PoolKeeps.trans ?_ (.modifySubscribe _ i _ ?_)).trans (.emit _ _)).trans
            (.modifySubscribe _ i _ settleRepair_lists)).trans (.placeOn _ i)
          · exact start.trans (.loseWaiting _ i
              (fun w => w.filter fun c => !decide (forwardDistance x c.sequence < n))
              (fun w => w.filter fun c => decide (forwardDistance x c.sequence < n))
              (fun w => List.filter_append_perm _ w) rfl)
          · exact fun _ => ⟨rfl, rfl⟩

theorem asksNothing (s : State) (i : Nat) : PoolKeeps s (s.modifySubscribe i SubscribeEntry.asksNothing) :=
  .modifySubscribe s i _ fun u => by
    unfold SubscribeEntry.asksNothing
    split <;> exact ⟨rfl, rfl⟩

theorem loseOrWait (s : State) (i n : Nat) (k : LossCause) : PoolKeeps s (s.loseOrWait i n k) := by
  unfold State.loseOrWait
  split
  · exact .asksNothing s i
  · exact .lose s i n k

theorem farJump (s : State) (i : Nat) (x f : Seq) : PoolKeeps s (s.farJump i x f) := by
  unfold State.farJump
  split
  · exact .refl s
  · split
    · exact .refl s
    · have start : PoolKeeps s ((s.closeBlock i .lost).giveUp i) := (PoolKeeps.closeBlock s i _).trans (.giveUp _ _)
      refine (PoolKeeps.trans ?_ (.modifySubscribe _ i _ ?_)).trans (.emit _ _)
      · exact start.trans (.loseWaiting _ i (fun _ => []) (fun w => w) (fun w => by rw [List.append_nil]) rfl)
      · exact fun _ => ⟨rfl, rfl⟩

theorem takeInOrder (s : State) (i : Nat) (k : BufferId) (g : StagedSegment) : PoolKeeps s (s.takeInOrder i k g) := by
  unfold State.takeInOrder
  split
  · exact .refl s
  · rename_i u hu
    split
    · split
      · rename_i c t claim
        refine PoolKeeps.trans (fun l ok => ?_) (.setBuffer _ k _)
        obtain ⟨given, room, frame⟩ := ok.receiveClaim claim
        refine PoolOk.holdCell (PoolKeeps.closeForFirst t i g.first _ given) (u := u) ?_ room _ fun v => ?_
        · rw [reorderAt_closeForFirst, reorderAt_of_cellFrame frame]
          unfold State.reorderAt
          rw [hu]
          rfl
        · rw [List.map_append, List.map_append, List.map_cons]
          exact List.perm_middle
      · exact (PoolKeeps.bump s _).trans (.setBuffer _ _ _)
    · split
      · exact (PoolKeeps.startPlacing s i _ _).trans (.placeOn _ _)
      · exact (((PoolKeeps.setBuffer s k _).trans (.bump _ _)).trans (.modifySubscribe _ _ _ advance_lists)).trans
          (.placeOn _ _)

end PoolKeeps

theorem insertWaiting_perm (x : Seq) (new : ReorderCell) (w : List ReorderCell) :
    (insertWaiting x new w).Perm (new :: w) := by
  induction w with
  | nil => exact .refl _
  | cons c rest ih =>
    unfold insertWaiting
    split
    · exact .refl _
    · exact (ih.cons c).trans (.swap new c rest)

namespace PoolKeeps

theorem noticeGap (s : State) (i : Nat) : PoolKeeps s (s.modifySubscribe i SubscribeEntry.noticeGap) :=
  .modifySubscribe s i _ fun u => by
    unfold SubscribeEntry.noticeGap
    split <;> exact ⟨rfl, rfl⟩

theorem takeAhead (s : State) (i : Nat) (k : BufferId) (g : StagedSegment) (x : Seq) :
    PoolKeeps s (s.takeAhead i k g x) := by
  unfold State.takeAhead
  split
  · exact .refl s
  · rename_i u hu
    have seen : PoolKeeps s (s.modifySubscribe i (·.see x g.sequence)) := .modifySubscribe s i _ fun _ => ⟨rfl, rfl⟩
    dsimp only
    refine PoolKeeps.trans (PoolKeeps.trans ?_ (.setBuffer _ k _)) (.noticeGap _ i)
    split
    · rename_i c t claim
      intro l ok
      obtain ⟨given, room, frame⟩ := (seen l ok).receiveClaim claim
      refine given.holdCell (u := u) ?_ room _ fun v => ?_
      · rw [reorderAt_of_cellFrame frame, reorderAt_modifySubscribe s i (·.see x g.sequence) fun _ => ⟨rfl, rfl⟩]
        unfold State.reorderAt
        rw [hu]
        rfl
      · have joined := ((insertWaiting_perm x (g.inCell c) v.waiting).append_left v.written).trans List.perm_middle
        exact joined.map ReorderCell.cell
    · exact seen.trans (.bump _ _)

theorem dropSegment (s : State) (k : BufferId) (w : Counter) : PoolKeeps s (s.dropSegment k w) :=
  (PoolKeeps.setBuffer s k _).trans (.bump _ _)

theorem takeSegment (s : State) (i : Nat) (k : BufferId) (g : StagedSegment) : PoolKeeps s (s.takeSegment i k g) := by
  have expects (t : State) (x : Option Seq) : PoolKeeps t (t.modifySubscribe i fun v => { v with expected := x }) :=
    .modifySubscribe t i _ fun _ => ⟨rfl, rfl⟩
  unfold State.takeSegment
  split
  · exact .refl s
  · split
    · split
      · exact (expects s _).trans (.takeInOrder _ _ _ _)
      · exact .dropSegment s _ _
    · dsimp only
      split
      · split
        · exact .dropSegment s _ _
        · exact .takeInOrder s _ _ _
      · split
        · split
          · exact .dropSegment s _ _
          · exact .takeAhead s _ _ _ _
        · split
          · split
            · exact ((PoolKeeps.farJump s _ _ _).trans (expects _ _)).trans (.takeInOrder _ _ _ _)
            · exact ((PoolKeeps.farJump s _ _ _).trans (expects _ _)).trans (.setBuffer _ _ _)
          · split
            · exact .setBuffer s _ _
            · exact .dropSegment s _ _

theorem endEmptyStarvation (s : State) (i : Nat) (e : Entry) (u : SubscribeEntry) :
    PoolKeeps s (s.endEmptyStarvation i e u) := by
  have clear (t : State) : PoolKeeps t (t.modifySubscribe i fun v => { v with starved := false }) :=
    .modifySubscribe t i _ fun _ => ⟨rfl, rfl⟩
  unfold State.endEmptyStarvation
  dsimp only
  split
  · split
    · exact clear s
    · split
      · exact (PoolKeeps.takeHeld s _ _ _).trans (clear _)
      · exact .faultEntry s _ _ _ _
      · exact .refl s
  · exact (PoolKeeps.takeHeld s _ _ _).trans (clear _)
  · exact .faultEntry s _ _ _ _
  · exact .refl s

theorem receiveAdvance (s : State) (i : Nat) : PoolKeeps s (s.receiveAdvance i) := by
  unfold State.receiveAdvance
  split
  · exact .refl s
  · split
    · exact .refl s
    · split
      · exact .refl s
      · split
        · exact .placeOn s _
        · split
          · exact .endEmptyStarvation s _ _ _
          · exact .refl s

theorem receiveStillEnded (s : State) (i : Nat) : PoolKeeps s (s.receiveStillEnded i) := by
  unfold State.receiveStillEnded
  split
  · exact .refl s
  · split
    · exact .refl s
    · split
      · exact .modifySubscribe s _ _ fun _ => ⟨rfl, rfl⟩
      · split
        · exact .starve s _
        · exact .refl s

theorem closeProgress (s : State) (i : Nat) : PoolKeeps s (s.closeProgress i) := by
  unfold State.closeProgress
  split
  · exact .refl s
  · split
    · exact .freeEntry s _ _
    · exact .refl s

theorem closeSubscribe (s : State) (i : Nat) : PoolKeeps s (s.closeSubscribe i) := by
  refine (((PoolKeeps.modifySubscribe s i SubscribeEntry.beginClosing ?_).trans (.giveUp _ i)).trans
    (.closeBlock _ i _)).trans (.closeProgress _ i)
  exact fun _ => ⟨rfl, rfl⟩

end PoolKeeps

end Machine
end Sys2Proof
end

section
/-! The pool's invariant under outcomes, clean frames, timers, transfers and the register window; with it, that every
step keeps it. -/

namespace Sys2Proof
namespace Machine

/-- An operation after a change of no entry, no place of the pool and no payload read. -/
theorem PoolKeeps.beyond {s t u : State} (h : PoolKeeps t u) (table : t.table = s.table) (pool : t.pool = s.pool)
    (port : t.port = s.port) : PoolKeeps s u :=
  (PoolKeeps.unmoved table pool port).trans h

/-! ### Outcomes -/

/-- From `s` to `t` each publish entry keeps its replay queue, and its send queue only grows. -/
def QueuesGrow (s t : State) : Prop := ∀ i q, t.publishAt i = some q →
  ∃ p, s.publishAt i = some p ∧ q.replayQueue = p.replayQueue ∧ p.sendQueue.Sublist q.sendQueue

theorem QueuesGrow.refl (s : State) : QueuesGrow s s := fun _ q hq => ⟨q, hq, rfl, .refl _⟩

theorem QueuesGrow.trans {s t u : State} (h : QueuesGrow s t) (k : QueuesGrow t u) : QueuesGrow s u := fun i q hq => by
  obtain ⟨p, hp, replay, send⟩ := k i q hq
  obtain ⟨o, ho, replay', send'⟩ := h i p hp
  exact ⟨o, ho, replay.trans replay', send'.trans send⟩

theorem QueuesGrow.modifyPublish (s : State) (i : Nat) (f : PublishEntry → PublishEntry)
    (keeps : ∀ p, (f p).replayQueue = p.replayQueue ∧ p.sendQueue.Sublist (f p).sendQueue) :
    QueuesGrow s (s.modifyPublish i f) := fun j q hq => by
  by_cases same : j = i
  · rw [same, modifyPublish_publishAt] at hq
    obtain ⟨p, hp, rfl⟩ := Option.map_eq_some_iff.1 hq
    exact ⟨p, same ▸ hp, keeps p⟩
  · rw [modifyPublish_publishAt_ne s f same] at hq
    exact ⟨q, hq, rfl, .refl _⟩

theorem QueuesGrow.releaseCell (s : State) (c : Nat) : QueuesGrow s (s.releaseCell c) := by
  have join (t : State) (i : Nat) : QueuesGrow t (t.joinSend i c) := by
    unfold State.joinSend
    split
    · exact .refl t
    · split
      · exact .modifyPublish t i _ fun _ => ⟨rfl, List.sublist_append_left _ _⟩
      · exact .refl t
  unfold State.releaseCell
  split
  · rename_i i _
    exact QueuesGrow.trans (t := { s with pool :=
      { s.pool with waiting := s.pool.waiting.erase i, waitingPointer := i } }) (.refl s) (join _ i)
  · exact .refl s

theorem QueuesGrow.unlistResend (s : State) (i stream : Nat) (q : Seq) : QueuesGrow s (s.unlistResend i stream q) := by
  unfold State.unlistResend
  split
  · exact QueuesGrow.trans (t := State.addGone { s with lists := { s.lists with
      resend := s.lists.resend.filter fun r => !(r.index == i && r.sequence == q) } } stream q) (.refl s)
      (.modifyPublish _ i _ fun p => by split <;> exact ⟨rfl, .refl _⟩)
  · exact .refl s

/-- A publish entry stays one. -/
theorem publishAt_some_of_entries {s t : State} (h : t.table.map Entry.still = s.table.map Entry.still) {i : Nat} {p : PublishEntry}
    (hp : s.publishAt i = some p) : ∃ q, t.publishAt i = some q := by
  obtain ⟨e, he, role⟩ := publishAt_entry hp
  have still : (t.entryAt i).map Entry.still = (s.entryAt i).map Entry.still := by
    rw [entryAt_still, entryAt_still, h]
  rw [he] at still
  obtain ⟨f, hf, same⟩ := Option.map_eq_some_iff.1 still
  have kind : f.publish?.isSome = e.publish?.isSome := congrArg (fun v => v.1.2.2.2) same
  have publish : e.publish? = some p := by
    unfold Entry.publish?
    rw [role]
  rw [publish] at kind
  obtain ⟨q, hq⟩ := Option.isSome_iff_exists.1 kind
  exact ⟨q, by unfold State.publishAt; rw [hf]; exact hq⟩

theorem makeReplayRoom_entries (s : State) (i : Nat) (p : PublishEntry) :
    (s.makeReplayRoom i p).table.map Entry.still = s.table.map Entry.still := by
  unfold State.makeReplayRoom
  split
  · split
    · exact (CellFrame.releaseCell _ _).entries.trans (CellFrame.leaveReplay s _).entries
    · rfl
  · rfl

/-- After a full replay queue has released its head there is room for one cell more; the send queue keeps its cells. -/
theorem PoolOk.makeReplayRoom {s : State} {l : List Nat} {i : Nat} {p : PublishEntry} (ok : PoolOk s l)
    (hp : s.publishAt i = some p) : PoolOk (s.makeReplayRoom i p) l ∧ ∃ v, (s.makeReplayRoom i p).publishAt i = some v ∧
      v.replayQueue.length < Config.replayLimit ∧ p.sendQueue.Sublist v.sendQueue := by
  obtain ⟨v, hv⟩ := publishAt_some_of_entries (makeReplayRoom_entries s i p) hp
  revert hv
  unfold State.makeReplayRoom
  split
  case h_1 r more replay =>
    split
    case isTrue full =>
      intro hv
      have mem : r.cell ∈ s.replayCells i := by
        rw [replayCells_some hp, replay]
        exact List.mem_map_of_mem List.mem_cons_self
      have given := ok.leaveReplay (a := ⟨r.cell, i, 0⟩) mem
      refine ⟨PoolOk.releaseCell (PoolKeeps.bump _ _ _ given), v, hv, ?_⟩
      obtain ⟨w, hw, sameReplay, grows⟩ := QueuesGrow.releaseCell _ _ i v hv
      have left : QueuesGrow { s.modifyPublish i fun p =>
          { p with replayQueue := p.replayQueue.filter (·.cell != r.cell) } with
          pool := { s.pool with aged := s.pool.aged.filter (·.cell != r.cell) } }
          (s.leaveReplay ⟨r.cell, i, 0⟩) := by
        unfold State.leaveReplay
        dsimp only
        split
        · exact .unlistResend _ _ _ _
        · exact .refl _
      obtain ⟨x, hx, sameReplay', grows'⟩ := left i w hw
      change (s.modifyPublish i fun p => { p with
        replayQueue := p.replayQueue.filter (·.cell != r.cell) }).publishAt i = some x at hx
      rw [modifyPublish_publishAt, hp, Option.map_some] at hx
      cases hx
      refine ⟨?_, grows'.trans grows⟩
      rw [sameReplay, sameReplay']
      refine Nat.lt_of_lt_of_le ?_ (ok.queues i p hp).2
      rw [List.length_filter_lt_length_iff_exists]
      exact ⟨r, replay ▸ List.mem_cons_self, by simp⟩
    case isFalse room =>
      intro hv
      rw [hp] at hv
      cases hv
      exact ⟨ok, p, hp, Nat.lt_of_not_le room, .refl _⟩
  case h_2 empty =>
    intro hv
    rw [hp] at hv
    cases hv
    exact ⟨ok, p, hp, empty ▸ (by decide : 0 < Config.replayLimit), .refl _⟩

/-- A delivered send-queue cell goes to the replay queue and to the age list. -/
theorem PoolOk.toReplay {s : State} {l : List Nat} {i : Nat} {v : PublishEntry} {c : PublishCell} (ok : PoolOk s l)
    (hv : s.publishAt i = some v) (room : v.replayQueue.length < Config.replayLimit) (mem : c ∈ v.sendQueue) :
    PoolOk { s.modifyPublish i fun v =>
      { v with sendQueue := v.sendQueue.filter (·.cell != c.cell), replayQueue := v.replayQueue ++ [c],
               segmentsSent := v.segmentsSent + 1, writeBacks := v.writeBacks ++ c.writeBack?.toList } with
      pool := { s.pool with aged := s.pool.aged ++ [(⟨c.cell, i, 0⟩ : AgedCell)] } } l := by
  have aged := (ok.aged i).trans (replayCells_some hv)
  have shorter : (v.sendQueue.filter (·.cell != c.cell)).length ≤ v.sendQueue.length := List.length_filter_le _ _
  refine ok.publish (f := fun v =>
      { v with sendQueue := v.sendQueue.filter (·.cell != c.cell), replayQueue := v.replayQueue ++ [c],
               segmentsSent := v.segmentsSent + 1, writeBacks := v.writeBacks ++ c.writeBack?.toList }) hv rfl ?_ ?_
    (fun j ne => ?_) ⟨Nat.le_trans shorter (ok.queues i v hv).1, ?_⟩ ok.once (fun j hj => ?_) (ok.reads i v hv)
    fun _ _ => Nat.le_refl _
  · obtain ⟨e, he, role⟩ := publishAt_entry hv
    have own := ok.cells_nodup he
    rw [cells_publish role, List.map_append] at own
    have left := filter_image_perm PublishCell.cell (List.mem_map_of_mem mem) own.of_append_right
    refine List.Perm.append_left _ (List.Perm.append_left _ ?_)
    rw [List.map_append, List.map_append, List.map_append, List.append_assoc]
    exact left.append_left _
  · rw [List.filter_append, List.map_append, List.map_append, aged]
    simp
  · simp [List.filter_append, ne.symm]
  · rw [List.length_append]
    exact room
  · by_cases same : j = i
    · obtain ⟨q, hq, wait, short⟩ := ok.waits j hj
      rw [same, hv] at hq
      cases hq
      exact .inr ⟨same, wait, Nat.lt_of_le_of_lt shorter short⟩
    · exact .inl ⟨same, hj⟩

namespace PoolKeeps

theorem deliverSegment {s : State} {i : Nat} {p : PublishEntry} {c : PublishCell} (hp : s.publishAt i = some p)
    (mem : c ∈ p.sendQueue) : PoolKeeps s (s.deliverSegment i p c) := fun l ok => by
  obtain ⟨made, v, hv, room, grows⟩ := ok.makeReplayRoom hp
  have moved := made.toReplay hv room (grows.subset mem)
  unfold State.deliverSegment
  dsimp only
  refine PoolKeeps.checkClosing _ _ l ?_
  split
  · exact PoolKeeps.requestWriteBack _ _ l moved
  · exact moved

theorem bySerial (s : State) (n : Nat) (f : PublishEntry → PublishEntry)
    (keeps : ∀ p, (f p).sendQueue = p.sendQueue ∧ (f p).replayQueue = p.replayQueue ∧
      (f p).segmenter = p.segmenter) : PoolKeeps s (s.modifyPublishBySerial n f) := by
  unfold State.modifyPublishBySerial
  split
  · exact .refl s
  · exact .modifyPublish s _ f keeps

theorem disputeOutcome (s : State) (n : Nat) (a : Attempt) (o : AttemptOutcome) :
    PoolKeeps s (s.disputeOutcome n a o) :=
  .bySerial s n _ fun p => by split <;> exact ⟨rfl, rfl, rfl⟩

theorem claimOutcome (s : State) (n : Nat) (o : AttemptOutcome) : PoolKeeps s (s.claimOutcome n o) :=
  .bySerial s n _ fun p => by split <;> exact ⟨rfl, rfl, rfl⟩

theorem yieldOutcome (s : State) (n : Nat) (o : AttemptOutcome) : PoolKeeps s (s.yieldOutcome n o) := by
  unfold State.yieldOutcome
  split
  · split
    · exact .refl s
    · split
      · exact .freeEntry s _ _
      · split
        · exact .freeEntry s _ _
        · exact .modifyPublish s _ _ fun _ => ⟨rfl, rfl, rfl⟩
      · exact .refl s
      · exact .refl s
      · exact .refl s
  · exact .refl s

theorem goneOutcome (s : State) (n : Nat) (q : Seq) (c : Nat) (a : Attempt) (o : AttemptOutcome) :
    PoolKeeps s (s.goneOutcome n q c a o) := by
  unfold State.goneOutcome
  dsimp only
  split
  · exact (PoolKeeps.bump s _).trans (.withGone _ _)
  · exact .withGone s _

theorem repairOutcome (s : State) (n : Nat) (a : Attempt) (o : AttemptOutcome) :
    PoolKeeps s (s.repairOutcome n a o) := by
  have counted : PoolKeeps s (if o = .delivered then s.bump .repairsSent else s) := by
    split
    · exact .bump s _
    · exact .refl s
  unfold State.repairOutcome
  dsimp only
  split
  · exact counted
  · refine counted.trans (.modifySubscribe _ _ _ fun u => ?_)
    split
    · split
      · unfold SubscribeEntry.repairDelivered
        split <;> exact ⟨rfl, rfl⟩
      · exact ⟨rfl, rfl⟩
    · exact ⟨rfl, rfl⟩

theorem resendOutcome (s : State) (n : Nat) (q : Seq) (o : AttemptOutcome) : PoolKeeps s (s.resendOutcome n q o) := by
  unfold State.resendOutcome
  split
  · split
    · refine ((PoolKeeps.lists s _).trans (.modifyPublish _ _ _ ?_)).trans (.checkClosing _ _)
      exact fun _ => ⟨rfl, rfl, rfl⟩
    · exact .refl s
  · exact .refl s

theorem newDataOutcome (s : State) (n i c : Nat) (o : AttemptOutcome) : PoolKeeps s (s.newDataOutcome n i c o) := by
  have pointed : PoolKeeps s { s with turn := { s.turn with pointer := i } } := .unmoved rfl rfl rfl
  unfold State.newDataOutcome
  split
  · dsimp only
    split
    · exact pointed
    · rename_i e he
      split
      · exact pointed
      · rename_i p role
        split
        · rename_i d rest send
          split
          · refine pointed.trans fun l ok => ?_
            have there := CellFrame.entryAt_of_mem ok.indexes (List.mem_of_find?_eq_some he)
            exact PoolKeeps.deliverSegment (publishAt_of_entry there role) (send ▸ List.mem_cons_self) l ok
          · exact pointed
        · exact pointed
  · exact .refl s

theorem ownerOutcome (s : State) (a : Attempt) (o : AttemptOutcome) : PoolKeeps s (s.ownerOutcome a o) := by
  unfold State.ownerOutcome
  split
  · exact .disputeOutcome s _ _ _
  · exact .goneOutcome s _ _ _ _ _
  · exact .repairOutcome s _ _ _
  · exact .claimOutcome s _ _
  · exact .yieldOutcome s _ _
  · exact .resendOutcome s _ _ _
  · exact .newDataOutcome s _ _ _ _

/-! ### Station control, line and turn -/

theorem reportState (s : State) (new : StationState) (cause : StateCause) (n : Nat) :
    PoolKeeps s (s.reportState new cause n) :=
  PoolKeeps.beyond (.emit { s with station := { s.station with state := new, stateChanged := true } } _) rfl rfl rfl

/-- Every entry is changed at once, its queues, its cells and its segmenter left as they are. -/
theorem mapTable {s t : State} (g : Entry → Entry) (table : t.table = s.table.map g) (free : t.pool.free = s.pool.free)
    (waiting : t.pool.waiting = s.pool.waiting)
    (aged : ∀ i, (t.pool.aged.filter (·.index == i)).map AgedCell.cell =
      (s.pool.aged.filter (·.index == i)).map AgedCell.cell)
    (port : t.port = s.port) (index : ∀ e, (g e).index = e.index)
    (publish : ∀ e p, e.role = .publish p → ∃ q, (g e).role = .publish q ∧ q.sendQueue = p.sendQueue ∧
      q.replayQueue = p.replayQueue ∧ q.segmenter = p.segmenter)
    (subscribe : ∀ e u, e.role = .subscribe u → ∃ v, (g e).role = .subscribe v ∧ v.written = u.written ∧
      v.waiting = u.waiting) : PoolKeeps s t := fun l ok => by
  have entry (i : Nat) : t.entryAt i = (s.entryAt i).map g := by
    unfold State.entryAt
    rw [table, find?_map_index _ _ _ index]
  have cells (e : Entry) : (g e).cells = e.cells := by
    cases role : e.role with
    | publish p =>
      obtain ⟨q, hq, send, replay, -⟩ := publish e p role
      rw [cells_publish hq, cells_publish role, send, replay]
    | subscribe u =>
      obtain ⟨v, hv, written, waits⟩ := subscribe e u role
      rw [cells_subscribe hv, cells_subscribe role, written, waits]
  refine ok.tableLike ?_ ?_ free waiting aged (fun i p hp => ?_) (fun i q hq => ?_) (fun i v hv => ?_) fun i => ?_
  · rw [table, List.map_map, show (·.index) ∘ g = Entry.index from funext index]
    exact ok.indexes
  · rw [table, List.flatMap_map, show (fun e => (g e).cells) = Entry.cells from funext cells]
  · obtain ⟨e, he, role⟩ := publishAt_entry hp
    obtain ⟨q, hq, -⟩ := publish e p role
    exact ⟨q, publishAt_of_entry (by rw [entry, he]; rfl) hq⟩
  · obtain ⟨f, hf, role⟩ := publishAt_entry hq
    rw [entry] at hf
    obtain ⟨e, he, rfl⟩ := Option.map_eq_some_iff.1 hf
    cases before : e.role with
    | publish p =>
      obtain ⟨q', hq', same⟩ := publish e p before
      rw [role] at hq'
      cases hq'
      exact .inr ⟨p, publishAt_of_entry he before, same⟩
    | subscribe u =>
      obtain ⟨v, hv, -⟩ := subscribe e u before
      rw [role] at hv
      cases hv
  · obtain ⟨f, hf, role⟩ := subscribeAt_entry hv
    rw [entry] at hf
    obtain ⟨e, he, rfl⟩ := Option.map_eq_some_iff.1 hf
    cases before : e.role with
    | publish p =>
      obtain ⟨q, hq, -⟩ := publish e p before
      rw [role] at hq
      cases hq
    | subscribe u =>
      obtain ⟨v', hv', written, waits⟩ := subscribe e u before
      rw [role] at hv'
      cases hv'
      refine .inr ⟨u, subscribeAt_of_entry he before, ?_⟩
      unfold SubscribeEntry.reorderCount
      rw [written, waits]
  · unfold State.payloadReads
    rw [port]

theorem quieted_lists (u : SubscribeEntry) : u.quieted.written = u.written ∧ u.quieted.waiting = u.waiting := by
  unfold SubscribeEntry.quieted
  split <;> exact ⟨rfl, rfl⟩

theorem enterQuiet (s : State) : PoolKeeps s s.enterQuiet := by
  unfold State.enterQuiet
  refine PoolKeeps.trans ?_ (.reportState _ _ _ _)
  refine .mapTable (fun e => { e with role := e.role.mapSubscribe SubscribeEntry.quieted }) rfl rfl rfl (fun _ => rfl) rfl
    (fun _ => rfl) (fun e p role => ⟨p, ?_, rfl, rfl, rfl⟩) fun e u role => ⟨u.quieted, ?_, quieted_lists u⟩
  · exact congrArg (Role.mapSubscribe _) role
  · exact congrArg (Role.mapSubscribe _) role

theorem recordOutcome (s : State) (o : AttemptOutcome) : PoolKeeps s (s.recordOutcome o) := by
  unfold State.recordOutcome
  dsimp only
  split
  · exact PoolKeeps.beyond (.enterQuiet _) rfl rfl rfl
  · exact .unmoved rfl rfl rfl

theorem endAttempt (s : State) (a : Attempt) (o : AttemptOutcome) : PoolKeeps s (s.endAttempt a o) :=
  have emptied : PoolKeeps s { s with turn := { s.turn with attempt := none } } := .unmoved rfl rfl rfl
  (emptied.trans (.ownerOutcome _ a o)).trans (.recordOutcome _ o)

theorem becomeStuck (s : State) : PoolKeeps s s.becomeStuck := by
  unfold State.becomeStuck
  dsimp only
  split
  · exact PoolKeeps.beyond (.reportState _ _ _ _) rfl rfl rfl
  · exact .unmoved rfl rfl rfl

theorem unlessStuck {s other : State} (heard : List LineReading) (h : PoolKeeps s other) :
    PoolKeeps s (s.unlessStuck heard other) := by
  unfold State.unlessStuck
  split
  · exact .becomeStuck s
  · exact h

theorem activityBegins (s : State) (heard : List LineReading) : PoolKeeps s (s.activityBegins heard) := by
  unfold State.activityBegins
  split
  · split
    · exact .unlessStuck heard (.unmoved rfl rfl rfl)
    · split
      · exact .unlessStuck heard (.unmoved rfl rfl rfl)
      · exact .refl s
    · exact .refl s
  · exact .refl s

theorem start (s : State) (selected : Option Candidate) (urgent : Bool) (first : FirstCell) :
    PoolKeeps s (s.start selected urgent first) := by
  unfold State.start
  split
  · exact .refl s
  · split
    · exact .activityBegins s _
    · exact .unmoved rfl rfl rfl

theorem attemptCollided (heard : List LineReading) (s : State) : PoolKeeps s (attemptCollided heard s) := by
  unfold Machine.attemptCollided
  split
  · exact .refl s
  · rename_i a _
    split
    · have ended : PoolKeeps s (((({ s with line := { s.line.hear heard with
          phase := .broken, brokenWait := .activity } } : State).bump .ownCollisions).endAttempt a .collided).finish) :=
        PoolKeeps.beyond (.trans (.endAttempt _ a .collided) (.finish _)) rfl rfl rfl
      dsimp only
      split
      · exact ended.trans (.becomeStuck _)
      · exact ended
    · exact .refl s

theorem attemptVerdict (heard : List LineReading) (s : State) : PoolKeeps s (attemptVerdict heard s) := by
  have ends (t : State) (n : Nat) (w : Counter) (a : Attempt) (o : AttemptOutcome) (h : PoolKeeps s t) :
      PoolKeeps s (((t.anchorNow n).bump w).endAttempt a o).finish :=
    h.trans (.beyond (.trans (.endAttempt ((t.anchorNow n).bump w) a o) (.finish _)) rfl rfl rfl)
  unfold Machine.attemptVerdict
  split
  · exact .refl s
  · split
    · dsimp only
      split
      · exact .unlessStuck heard (ends _ _ _ _ _ (.unmoved rfl rfl rfl))
      · exact ends _ _ _ _ _ (.unmoved rfl rfl rfl)
    · exact .refl s

theorem stagingClaim (n : BitVec 11) (s : State) : PoolKeeps s (stagingClaim n s) := by
  unfold Machine.stagingClaim
  split
  · split
    · exact .refl s
    · split
      · exact .setBuffer s _ _
      · exact .bump s _
  · exact .refl s

theorem frameHeard (s : State) (heard : List LineReading) : PoolKeeps s (s.frameHeard heard) := by
  unfold State.frameHeard State.judgeFrame
  dsimp only
  split
  · refine .unlessStuck heard ?_
    split
    · exact .unmoved rfl rfl rfl
    · exact .unmoved rfl rfl rfl
  · exact .unlessStuck heard (.unmoved rfl rfl rfl)
  · exact .refl s

theorem frameEnd (heard : List LineReading) (s : State) : PoolKeeps s (frameEnd heard s) := by
  unfold Machine.frameEnd
  split
  · split
    · split
      · exact .unmoved rfl rfl rfl
      · exact .attemptCollided heard s
    · exact .frameHeard s heard
  · exact .refl s

theorem frameBecomesBroken (heard : List LineReading) (s : State) : PoolKeeps s (frameBecomesBroken heard s) := by
  unfold Machine.frameBecomesBroken
  split
  · exact .frameHeard s heard
  · exact .refl s

theorem spoiledVerdict (heard : List LineReading) (s : State) : PoolKeeps s (spoiledVerdict heard s) := by
  unfold Machine.spoiledVerdict
  split
  · exact .unlessStuck heard (.unmoved rfl rfl rfl)
  · exact .refl s

theorem joinIfOpen (s : State) : PoolKeeps s s.joinIfOpen := by
  unfold State.joinIfOpen
  split
  · exact .reportState s _ _ _
  · exact .refl s

theorem recover (s : State) : PoolKeeps s s.recover := by
  unfold State.recover
  split
  · exact .reportState s _ _ _
  · exact .refl s

theorem windowPassesEmpty (s : State) : PoolKeeps s (windowPassesEmpty s) := by
  unfold Machine.windowPassesEmpty
  split
  · dsimp only
    split
    · exact .unmoved rfl rfl rfl
    · exact PoolKeeps.beyond
        (((PoolKeeps.recover s.lineWasReleased.lineOpens).trans (.joinIfOpen _)).trans (.finish _)) rfl rfl rfl
  · exact .refl s

/-- A command that changes the line, the turn unit, the counters or the clock's marks where its event occurs. -/
theorem plainIf {s t : State} {c : Prop} [Decidable c] (h : PoolKeeps s t) : PoolKeeps s (if c then t else s) := by
  split
  · exact h
  · exact .refl s

/-! ### Clean frames -/

theorem defend (s : State) (i : Nat) : PoolKeeps s (s.modifyPublish i PublishEntry.defend) :=
  .modifyPublish s i _ fun p => by
    unfold PublishEntry.defend
    split <;> exact ⟨rfl, rfl, rfl⟩

theorem setPublisher (s : State) (e : Entry) (u : SubscribeEntry) (n : Option Nat) (k : Nat) :
    PoolKeeps s (s.setPublisher e u n k) := by
  unfold State.setPublisher
  split
  · exact .refl s
  · refine (PoolKeeps.modifySubscribe s _ (fun v => { v with publisher := n }) ?_).trans (.emit _ _)
    exact fun _ => ⟨rfl, rfl⟩

theorem claimHeard (s : State) (a b : Nat) : PoolKeeps s (claimHeard s a b) := by
  unfold Machine.claimHeard
  split
  · exact .refl s
  · split
    · split
      · exact .refl s
      · split
        · split
          · exact .loseClaim s _ _ _
          · exact .refl s
        · exact .defend s _
    · split
      · exact .setPublisher s _ _ _ _
      · exact .refl s

theorem disputeHeard (s : State) (a b c : Nat) : PoolKeeps s (disputeHeard s a b c) := by
  unfold Machine.disputeHeard
  split
  · exact .refl s
  · split
    · split
      · exact .refl s
      · split
        · exact .loseClaim s _ _ _
        · exact .defend s _
    · split
      · exact .setPublisher s _ _ _ _
      · exact .refl s

theorem yieldHeard (s : State) (a b : Nat) : PoolKeeps s (yieldHeard s a b) := by
  unfold Machine.yieldHeard
  split
  · exact .refl s
  · split
    · exact .refl s
    · split
      · dsimp only
        split
        · exact (PoolKeeps.setPublisher s _ _ _ _).trans (.loseOrWait _ _ _ _)
        · exact .setPublisher s _ _ _ _
      · exact .refl s

theorem serveSequence (s : State) (i stream : Nat) (q : Seq) : PoolKeeps s (s.serveSequence i stream q) := by
  unfold State.serveSequence
  split
  · exact .refl s
  · split
    · exact .addGone s _ _
    · split
      · exact .refl s
      · split
        · exact .lists s _
        · exact .refl s
    · exact .refl s
    · exact .refl s

theorem serveRepair (s : State) (i stream : Nat) (q : Seq) (n : Nat) : PoolKeeps s (s.serveRepair i stream q n) := by
  have each (l : List Nat) (t : State) :
      PoolKeeps t (l.foldl (fun t k => t.serveSequence i stream (seqAfter q k)) t) := by
    induction l generalizing t with
    | nil => exact .refl t
    | cons k rest ih => exact (PoolKeeps.serveSequence t i stream _).trans (ih _)
  exact (each _ s).trans (.checkClosing _ _)

theorem suppress (s : State) (e : Entry) (u : SubscribeEntry) (a b : Nat) (q : Seq) (n : Nat) :
    PoolKeeps s (s.suppress e u a b q n) := by
  have quiet : PoolKeeps s (s.modifySubscribe e.index SubscribeEntry.suppressed) := .modifySubscribe s _ _ fun u => by
    unfold SubscribeEntry.suppressed
    split <;> exact ⟨rfl, rfl⟩
  unfold State.suppress
  split
  · exact .refl s
  · split
    · dsimp only
      split
      · exact quiet.trans (.bump _ _)
      · exact quiet
    · exact .refl s

theorem repairHeard (s : State) (a b c : Nat) (q : Seq) (n : Nat) : PoolKeeps s (repairHeard s a b c q n) := by
  unfold Machine.repairHeard
  split
  · exact .refl s
  · split
    · split
      · exact .refl s
      · split
        · exact .serveRepair s _ _ _ _
        · split
          · exact .refl s
          · exact .defend s _
    · exact .suppress s _ _ _ _ _ _

theorem goneHeard (s : State) (a b : Nat) (q : Seq) (n : Nat) : PoolKeeps s (goneHeard s a b q n) := by
  unfold Machine.goneHeard
  split
  · split
    · exact .refl s
    · split
      · exact .lose s _ _ _
      · exact .refl s
  · exact .refl s

theorem takeStaged (s : State) (i : Nat) (k : Option BufferId) (g : StagedSegment) :
    PoolKeeps s (s.takeStaged i k g) := by
  unfold State.takeStaged
  split
  · exact .refl s
  · exact (PoolKeeps.setBuffer s _ _).trans (.takeSegment _ _ _ _)

theorem dataHeard (s : State) (k : Option BufferId) (g : StagedSegment) : PoolKeeps s (dataHeard s k g) := by
  unfold Machine.dataHeard
  split
  · exact .refl s
  · split
    · split
      · exact .refl s
      · exact .defend s _
    · split
      · exact .refl s
      · split
        · exact (PoolKeeps.setPublisher s _ _ _ _).trans (.takeStaged _ _ _ _)
        · split
          · exact .takeStaged s _ _ _
          · exact .bump s _

theorem cleanVerdict (s : State) (sender : Nat) : PoolKeeps s (s.cleanVerdict sender) := by
  unfold State.cleanVerdict
  dsimp only
  refine PoolKeeps.trans ?_ (.finish _)
  split
  · exact PoolKeeps.beyond (.reportState _ _ _ _) rfl rfl rfl
  · exact .unmoved rfl rfl rfl

/-- A clean frame at the table, then its verdict. -/
theorem cleanFrame {s t : State} (l : LineInterface) (sender : Nat) (h : PoolKeeps { s with line := l } t) :
    PoolKeeps s (t.cleanVerdict sender) := PoolKeeps.beyond (h.trans (.cleanVerdict t sender)) rfl rfl rfl

/-! ### Timers -/

theorem fallDue (s : State) (i : Nat) (u : SubscribeEntry) : PoolKeeps s (s.fallDue i u) := by
  have stops : PoolKeeps s (s.modifySubscribe i fun v => { v with repairTimer := none }) :=
    .modifySubscribe s i _ fun _ => ⟨rfl, rfl⟩
  unfold State.fallDue
  dsimp only
  split
  · refine stops.trans (.modifySubscribe _ i _ ?_)
    exact fun _ => ⟨rfl, rfl⟩
  · exact stops.trans (.loseOrWait _ _ _ _)
  · exact stops

theorem loseRequested (s : State) (i : Nat) (u : SubscribeEntry) : PoolKeeps s (s.loseRequested i u) := by
  have stops : PoolKeeps s (s.modifySubscribe i fun v => { v with repairTimer := none }) :=
    .modifySubscribe s i _ fun _ => ⟨rfl, rfl⟩
  unfold State.loseRequested
  dsimp only
  split
  · exact stops.trans (.lose _ _ _ _)
  · exact stops

theorem claimSettleExpiry (i : Nat) (s : State) : PoolKeeps s (claimSettleExpiry i s) := by
  unfold Machine.claimSettleExpiry
  split
  · exact .refl s
  · split
    · exact .refl s
    · split
      · refine ((PoolKeeps.modifyPublish s i _ ?_).trans (.emit _ _)).trans (.finish _)
        exact fun _ => ⟨rfl, rfl, rfl⟩
      · exact .refl s

theorem repairDelayExpiry (i : Nat) (s : State) : PoolKeeps s (repairDelayExpiry i s) := by
  unfold Machine.repairDelayExpiry
  split
  · exact .refl s
  · exact .plainIf ((PoolKeeps.fallDue s i _).trans (.finish _))

theorem repairWaitExpiry (i : Nat) (s : State) : PoolKeeps s (repairWaitExpiry i s) := by
  unfold Machine.repairWaitExpiry
  split
  · exact .refl s
  · refine .plainIf (PoolKeeps.trans ?_ (.finish _))
    split
    · exact .fallDue s i _
    · exact .loseRequested s i _

theorem replayAgeLimit (s : State) : PoolKeeps s (replayAgeLimit s) := by
  unfold Machine.replayAgeLimit
  split
  · exact .refl s
  · rename_i a rest aged
    refine .plainIf (PoolKeeps.trans (fun l ok => ?_) (.finish _))
    have mem : a.cell ∈ s.replayCells a.index := by
      rw [← ok.aged a.index, aged]
      exact List.mem_map_of_mem (List.mem_filter.2 ⟨List.mem_cons_self, beq_self_eq_true _⟩)
    exact PoolOk.releaseCell (PoolKeeps.bump _ _ _ (ok.leaveReplay mem))

theorem coalescingTimerExpiry (s : State) : PoolKeeps s (coalescingTimerExpiry s) := by
  unfold Machine.coalescingTimerExpiry
  split
  · exact .unmoved rfl rfl rfl
  · exact .refl s
  · exact .refl s

/-! ### Transfers -/

/-- Granting a request moves it from its queue to the port. -/
theorem transferGrant (s : State) : PoolKeeps s (transferGrant s) := by
  have moves (t : State) (table : t.table = s.table) (pool : t.pool = s.pool)
      (wanted : t.port.wanted.Perm s.port.wanted) : PoolKeeps s t :=
    .same table pool fun i => by
      unfold State.payloadReads
      rw [wanted.countP_eq]
  unfold Machine.transferGrant
  split
  case isFalse => exact .refl s
  case isTrue idle =>
    rw [Option.isNone_iff_eq_none] at idle
    unfold State.grant
    dsimp only
    split
    · rename_i r rest first
      refine moves _ rfl rfl ?_
      unfold HostPort.wanted
      rw [idle, first]
      exact List.perm_append_singleton r _ |>.trans (by simp [Option.filter])
    · rename_i r rest first second
      refine moves _ rfl rfl ?_
      unfold HostPort.wanted
      rw [idle, first, second]
      exact List.perm_append_singleton r _ |>.trans (by simp [Option.filter])
    · rename_i r rest first second third
      refine moves _ rfl rfl ?_
      unfold HostPort.wanted
      rw [idle, first, second, third]
      exact List.perm_append_singleton r _ |>.trans (by simp [Option.filter])
    · exact .refl s

theorem endTransfer {s : State} (g : Granted) {f : State → State} (h : g.discarded = false → PoolKeeps s (f s.freePort)) :
    PoolKeeps s (s.endTransfer g f) := by
  unfold State.endTransfer
  split
  · exact .freePort s
  · rename_i wanted
    exact (h (Bool.not_eq_true _ ▸ wanted)).trans (.finish _)

/-- The effect of a transfer that is no payload read: it finds the port free. -/
theorem effect {s : State} (g : Granted) {f : State → State} (h : PoolKeeps s.freePort (f s.freePort)) :
    PoolKeeps s (s.endTransfer g f) :=
  .endTransfer g fun _ => (PoolKeeps.freePort s).trans h

theorem headHeld (s : State) (i : Nat) : PoolKeeps s (s.modifyPublish i PublishEntry.headHeld) := fun l ok =>
  PoolKeeps.publishQueues (fun p hp => by
    unfold PublishEntry.headHeld
    split
    · rename_i noChain
      exact ⟨rfl, rfl, .inr (ok.idle (segmenterIdle_of hp (.inr noChain)))⟩
    · exact ⟨rfl, rfl, .inl rfl⟩) l ok

theorem headRead (i : Nat) (a : Word) (c : ReadCompletion) (s : State) : PoolKeeps s (headRead i a c s) := by
  unfold Machine.headRead
  split
  · exact .faultEntry s _ _ _ _
  · dsimp only
    split
    · exact .faultEntry s _ _ _ _
    · refine ((((PoolKeeps.modifyChain s i _).trans (.headHeld _ i)).trans
        (.modifySubscribe _ i SubscribeEntry.freshDescriptor ?_)).trans (.makeCurrent _ _ _ _)).trans (.receiveAdvance _ i)
      exact fun _ => ⟨rfl, rfl⟩

theorem chainAdvanced (s : State) (i : Nat) : PoolKeeps s (s.chainAdvanced i) := by
  unfold State.chainAdvanced
  split
  · exact .publishAdvance s i
  · exact .receiveAdvance s i
  · exact .refl s

theorem stillEnded (s : State) (i : Nat) : PoolKeeps s (s.stillEnded i) := by
  unfold State.stillEnded
  split
  · exact .publishStillEnded s i
  · exact .receiveStillEnded s i
  · exact .refl s

theorem lastLook (i : Nat) (a : Word) (c : ReadCompletion) (s : State) : PoolKeeps s (lastLook i a c s) := by
  unfold Machine.lastLook
  split
  · exact (PoolKeeps.modifyChain s i _).trans (.chainAdvanced _ i)
  · dsimp only
    split
    · exact (PoolKeeps.followLink s i _).trans (.stillEnded _ i)
    · exact (PoolKeeps.followLink s i _).trans (.chainAdvanced _ i)

theorem headDescriptorReadEnd (c : ReadCompletion) (s : State) : PoolKeeps s (headDescriptorReadEnd c s) := by
  unfold Machine.headDescriptorReadEnd
  split
  · split
    · exact .plainIf (.effect _ (.headRead _ _ _ _))
    · exact .refl s
  · exact .refl s

theorem lookAheadReadEnd (c : ReadCompletion) (s : State) : PoolKeeps s (lookAheadReadEnd c s) := by
  unfold Machine.lookAheadReadEnd
  split
  · split
    · exact .plainIf (.effect _ ((PoolKeeps.modifyChain _ _ _).trans (.chainAdvanced _ _)))
    · exact .refl s
  · exact .refl s

theorem lastLookEnd (c : ReadCompletion) (s : State) : PoolKeeps s (lastLookEnd c s) := by
  unfold Machine.lastLookEnd
  split
  · split
    · exact .plainIf (.effect _ (.lastLook _ _ _ _))
    · exact .refl s
  · exact .refl s

end PoolKeeps

theorem codeCell_cells (cell : Nat) (bytes : List Byte) (queue : List PublishCell) :
    (codeCell cell bytes queue).map PublishCell.cell = queue.map PublishCell.cell := by
  unfold codeCell
  rw [List.map_map]
  exact List.map_congr_left fun c _ => by
    simp only [Function.comp]
    split <;> rfl

/-- The payload read in flight is its entry's only one: the entry is FILLING, waits for no cell, and once the read ends
has none wanted. -/
theorem PoolOk.readEnds {s : State} {l : List Nat} {g : Granted} {i : Nat} (ok : PoolOk s l)
    (granted : s.port.granted = some g) (wanted : g.discarded = false)
    (read : Request.payloadReadOf i g.request = true) : s.freePort.payloadReads i = 0 ∧ i ∉ s.pool.waiting := by
  have one : s.payloadReads i = s.freePort.payloadReads i + 1 := by
    unfold State.payloadReads HostPort.wanted State.freePort
    rw [granted, List.countP_append, List.countP_append]
    simp [Option.filter, wanted, read, Nat.add_assoc]
  cases hp : s.publishAt i with
  | none =>
    have := ok.unread i hp
    omega
  | some p =>
    have limit := ok.reads i p hp
    unfold Segmenter.reads at limit
    split at limit
    · rename_i filling
      refine ⟨by omega, fun waits => ?_⟩
      obtain ⟨q, hq, wait, -⟩ := ok.waits i waits
      rw [hp] at hq
      cases hq
      rw [wait] at filling
      cases filling
    · omega

namespace PoolKeeps

theorem payloadRead {s : State} {i : Nat} (unread : s.payloadReads i = 0) (waitsNot : i ∉ s.pool.waiting) (c : Nat)
    (b : List Byte) : PoolKeeps s (payloadRead i c b s) := by
  unfold Machine.payloadRead
  split
  · exact .refl s
  · rename_i p hp
    have segmented : PoolKeeps s (s.modifyPublish i (·.blockSegmented c b)) :=
      .publishQueues fun _ _ => ⟨codeCell_cells _ _ _, rfl, .inr ⟨waitsNot, unread⟩⟩
    split
    · dsimp only
      split
      · exact segmented.trans (.checkClosing _ _)
      · rename_i open_
        refine (segmented.trans (.modifyChain _ i _)).trans (.publishTake fun q hq => ?_)
        rw [modifyChain_publishAt, modifyPublish_publishAt, hp, Option.map_some] at hq
        cases hq
        change (if p.claim = .closing then Segmenter.stopped else .ready) ≠ _ ∧
          (if p.claim = .closing then Segmenter.stopped else .ready) ≠ _
        rw [if_neg open_]
        exact ⟨nofun, nofun⟩
    · exact .publishQueues fun _ _ => ⟨codeCell_cells _ _ _, rfl, .inr ⟨waitsNot, unread⟩⟩

theorem txPayloadReadEnd (c : ReadCompletion) (s : State) : PoolKeeps s (txPayloadReadEnd c s) := by
  unfold Machine.txPayloadReadEnd
  split
  · rename_i g granted
    split
    · rename_i i cell a n bytes request
      refine .plainIf (.endTransfer g fun wanted l ok => ?_)
      obtain ⟨unread, waitsNot⟩ := ok.readEnds (i := i) granted wanted (by rw [request]; exact beq_self_eq_true i)
      exact PoolKeeps.payloadRead unread waitsNot cell bytes l (PoolKeeps.freePort s l ok)
    · exact .effect g (.faultEntry _ _ _ _ _)
    · exact .refl s
  · exact .refl s

theorem writeBackDone (i : Nat) (r : WriteBack) (s : State) : PoolKeeps s (writeBackDone i r s) := by
  unfold Machine.writeBackDone
  split
  · exact .refl s
  · have dropped : PoolKeeps s (s.modifyPublish i fun p => { p with writeBacks := p.writeBacks.drop 1 }) :=
      .modifyPublish s i _ fun _ => ⟨rfl, rfl, rfl⟩
    dsimp only
    refine PoolKeeps.trans (PoolKeeps.trans ?_ (.requestWriteBack _ _)) (.checkClosing _ _)
    split
    · exact dropped.trans (.emit _ _)
    · exact dropped

theorem txWriteBackEnd (c : Completion) (s : State) : PoolKeeps s (txWriteBackEnd c s) := by
  unfold Machine.txWriteBackEnd
  split
  · split
    · exact .effect _ (.writeBackDone _ _ _)
    · exact .effect _ (.faultEntry _ _ _ _ _)
    · exact .refl s
  · exact .refl s

theorem rxPayloadWriteEnd (c : Completion) (s : State) : PoolKeeps s (rxPayloadWriteEnd c s) := by
  unfold Machine.rxPayloadWriteEnd
  split
  · split
    · refine .effect _ ?_
      split
      · exact .faultEntry _ _ _ _ _
      · exact (PoolKeeps.sourceWritten _ _ _).trans (.closeProgress _ _)
    · exact .refl s
  · exact .refl s

theorem blockReceived (s : State) (i : Nat) (r : RxWriteBack) : PoolKeeps s (s.blockReceived i r) := by
  unfold State.blockReceived
  split
  · split
    · exact .refl s
    · exact .emit s _
  · exact .refl s

theorem rxWriteBackEnd (c : Completion) (s : State) : PoolKeeps s (rxWriteBackEnd c s) := by
  unfold Machine.rxWriteBackEnd
  split
  · split
    · refine .effect _ ?_
      split
      · exact (PoolKeeps.blockReceived _ _ _).trans (.closeProgress _ _)
      · split
        · exact .closeProgress _ _
        · exact .faultEntry _ _ _ _ _
    · exact .refl s
  · exact .refl s

theorem eventWriteEnd (c : Completion) (s : State) : PoolKeeps s (eventWriteEnd c s) := by
  unfold Machine.eventWriteEnd
  split
  · split
    · refine .effect _ ?_
      split
      · exact .unmoved rfl rfl rfl
      · unfold State.recordFailed
        exact (PoolKeeps.withdraw _ Request.isEventWrite).trans (.unmoved rfl rfl rfl)
    · exact .refl s
  · exact .refl s

/-! ### The register window -/

theorem answer (s : State) (r : Result) : PoolKeeps s (s.answer r) := .unmoved rfl rfl rfl

theorem attach (d : Bool) (s : State) : PoolKeeps s (attach d s) := by
  unfold Machine.attach
  split
  · exact .answer s _
  · split
    · exact .answer s _
    · exact PoolKeeps.beyond (.trans (.reportState _ _ _ _) (.answer _ _)) rfl rfl rfl

theorem detach (s : State) : PoolKeeps s (detach s) := by
  unfold Machine.detach
  split
  · exact .answer s _
  · split
    · exact .answer s _
    · exact PoolKeeps.beyond (.trans (.reportState _ _ _ _) (.answer _ _)) rfl rfl rfl

theorem rejoin (s : State) : PoolKeeps s (rejoin s) := by
  unfold Machine.rejoin
  split
  · exact .answer s _
  · exact PoolKeeps.beyond (.trans (.trans (.trans (.reportState _ _ _ _) (.joinIfOpen _)) (.answer _ _)) (.finish _)) rfl rfl rfl

end PoolKeeps

theorem PoolOk.powerOnPool {s : State} (table : s.table = []) (pool : s.pool = .powerOn)
    (unread : ∀ i, s.payloadReads i = 0) : PoolOk s [] := by
  have noPublish (i : Nat) : s.publishAt i = none := by
    unfold State.publishAt State.entryAt
    rw [table]
    rfl
  have noSubscribe (i : Nat) : s.subscribeAt i = none := by
    unfold State.subscribeAt State.entryAt
    rw [table]
    rfl
  refine ⟨table ▸ List.nodup_nil, ?_, fun i => ?_, fun i p hp => ?_, fun i u hu => ?_, pool ▸ List.nodup_nil,
    fun i hi => ?_, fun i p hp => ?_, fun i _ => unread i⟩
  · rw [table, pool]
    change (List.range Config.poolCells ++ []).Perm _
    rw [List.append_nil]
  · rw [replayCells_none (noPublish i), pool]
    rfl
  · rw [noPublish] at hp
    cases hp
  · rw [noSubscribe] at hu
    cases hu
  · rw [pool] at hi
    exact absurd hi List.not_mem_nil
  · rw [noPublish] at hp
    cases hp

theorem resetStation_poolOk {s : State} (ok : PoolOk s []) : PoolOk (resetStation s) [] := by
  unfold resetStation
  split
  · exact PoolKeeps.answer s _ _ ok
  · refine PoolKeeps.answer _ _ _ (PoolKeeps.reportState _ _ _ _ _ (.powerOnPool rfl rfl fun i => ?_))
    unfold State.payloadReads HostPort.wanted HostPort.softReset
    cases s.port.granted <;> rfl

/-- A new entry holds no cell and waits for none. -/
theorem PoolOk.withEntry {s : State} {l : List Nat} {i : Nat} (ok : PoolOk s l) (free : i ∉ s.table.map (·.index))
    (stream : Nat) (role : Role) (empty : ∀ p, role = .publish p → p.sendQueue = [] ∧ p.replayQueue = [])
    (blank : ∀ u, role = .subscribe u → u.written = [] ∧ u.waiting = []) : PoolOk (s.withEntry i stream role) l := by
  let new : Entry := ⟨i, s.nextSerial, stream, .ofHead 0, role⟩
  have perm : (s.withEntry i stream role).table.Perm (new :: s.table) := insertEntry_perm new s.table
  have indexes : ((s.withEntry i stream role).table.map (·.index)).Nodup :=
    (perm.map (·.index)).nodup_iff.2 (List.nodup_cons.2 ⟨free, ok.indexes⟩)
  have noCells : new.cells = [] := by
    cases h : role with
    | publish p =>
      rw [cells_publish (e := new) h, (empty p h).1, (empty p h).2]
      rfl
    | subscribe u =>
      rw [cells_subscribe (e := new) h, (blank u h).1, (blank u h).2]
      rfl
  have notHere : s.entryAt i = none := List.find?_eq_none.2 fun e he here =>
    free (eq_of_beq here ▸ List.mem_map_of_mem he)
  have entry (j : Nat) (e : Entry) (he : (s.withEntry i stream role).entryAt j = some e) :
      (j = i ∧ e = new) ∨ s.entryAt j = some e := by
    have index := entryAt_index he
    rcases List.mem_cons.1 (perm.subset (List.mem_of_find?_eq_some he)) with rfl | old
    · exact .inl ⟨index.symm, rfl⟩
    · exact .inr (index ▸ CellFrame.entryAt_of_mem ok.indexes old)
  refine ok.tableLike indexes ?_ rfl rfl (fun _ => rfl) (fun j p hp => ?_) (fun j q hq => ?_) (fun j v hv => ?_)
    fun _ => Nat.le_refl _
  · have cells := perm.flatMap_right Entry.cells
    rw [List.flatMap_cons, noCells, List.nil_append] at cells
    exact cells
  · obtain ⟨e, he, published⟩ := publishAt_entry hp
    have mem := perm.symm.subset (List.mem_cons_of_mem new (List.mem_of_find?_eq_some he))
    exact ⟨p, publishAt_of_entry (entryAt_index he ▸ CellFrame.entryAt_of_mem indexes mem) published⟩
  · obtain ⟨e, he, published⟩ := publishAt_entry hq
    rcases entry j e he with ⟨rfl, rfl⟩ | old
    · refine .inl ⟨?_, empty q published⟩
      unfold State.publishAt
      rw [notHere]
      rfl
    · exact .inr ⟨q, publishAt_of_entry old published, rfl, rfl, rfl⟩
  · obtain ⟨e, he, subscribed⟩ := subscribeAt_entry hv
    rcases entry j e he with ⟨rfl, rfl⟩ | old
    · obtain ⟨written, waiting⟩ := blank v subscribed
      refine .inl ?_
      unfold SubscribeEntry.reorderCount
      rw [written, waiting]
      rfl
    · exact .inr ⟨v, subscribeAt_of_entry old subscribed, rfl⟩

namespace PoolKeeps

theorem openEntry (n : BitVec 16) (role : Role) (s : State)
    (empty : ∀ p, role = .publish p → p.sendQueue = [] ∧ p.replayQueue = [])
    (blank : ∀ u, role = .subscribe u → u.written = [] ∧ u.waiting = []) : PoolKeeps s (openEntry n role s) := by
  unfold Machine.openEntry
  split
  · exact .answer s _
  · split
    · exact .answer s _
    · split
      · exact .answer s _
      · split
        · exact .answer s _
        · rename_i i lowest
          split
          · exact .answer s _
          · refine (PoolKeeps.trans (fun l ok => ?_) (.answer _ _)).trans (.finish _)
            have made := ok.withEntry (lowestFree_free lowest).2 n.toNat role empty blank
            rw [createEntry_eq]
            split
            · exact made
            · exact PoolKeeps.takeHead _ _ _ l made

theorem onEntry (n : BitVec 16) (effect : Entry → State → State) (s : State) (h : ∀ e ∈ s.table, PoolKeeps s (effect e s)) :
    PoolKeeps s (onEntry n effect s) := by
  unfold Machine.onEntry
  split
  · exact .answer s _
  · split
    · exact .answer s _
    · split
      · exact .answer s _
      · rename_i e found
        exact h e (List.mem_of_find?_eq_some found)

theorem resumeEntry (e : Entry) (s : State) : PoolKeeps s (resumeEntry e s) := by
  unfold Machine.resumeEntry
  split
  · exact .answer s _
  · split
    · split
      · exact .answer s _
      · split
        · exact .answer s _
        · exact (PoolKeeps.takeHead s _ _).trans (.answer _ _)
    · split
      · refine ((PoolKeeps.modifySubscribe s _ (fun u => { u with chainEnded := false }) ?_).trans
          (.lookAgain _ _ _)).trans (.answer _ _)
        exact fun _ => ⟨rfl, rfl⟩
      · exact .answer s _

/-- CLOSE of an OWNED entry: without a block partly segmented its claim, if it waits, is given up. -/
theorem beginClosing {s : State} {i : Nat} {p : PublishEntry} (hp : s.publishAt i = some p) :
    PoolKeeps s (s.beginClosing i p) := by
  unfold State.beginClosing
  dsimp only
  refine PoolKeeps.trans ?_ (.checkClosing _ _)
  split
  case isTrue partly => exact .modifyPublish s i _ fun _ => ⟨rfl, rfl, rfl⟩
  case isFalse whole =>
    intro l ok
    have filling : p.segmenter ≠ .filling := fun h => whole (by unfold PublishEntry.partlySegmented; rw [h]; rfl)
    have aged := (ok.aged i).trans (replayCells_some hp)
    refine ok.publish (f := fun v => { v with claim := .closing, segmenter := .stopped }) hp rfl (.refl _) aged
      (fun _ _ => rfl) (ok.queues i p hp) (ok.once.filter _) (fun j hj => ?_) ?_ fun _ _ => Nat.le_refl _
    · obtain ⟨before, ne⟩ := List.mem_filter.1 hj
      exact .inl ⟨bne_iff_ne.1 ne, before⟩
    · have none := ok.reads i p hp
      unfold Segmenter.reads at none
      rw [beq_false_of_ne filling] at none
      exact Nat.le_trans none (Nat.zero_le _)

theorem closeEffect {e : Entry} {s : State} (he : s.entryAt e.index = some e) : PoolKeeps s (closeEffect e s) := by
  unfold Machine.closeEffect
  split
  · rename_i p role
    split
    · exact .freeEntry s _ _
    · exact .freeEntry s _ _
    · exact .beginClosing (publishAt_of_entry he role)
    · exact .refl s
    · split
      · exact .modifyPublish s _ _ fun _ => ⟨rfl, rfl, rfl⟩
      · exact .freeEntry s _ _
  · split
    · exact .freeEntry s _ _
    · split
      · exact .refl s
      · exact .closeSubscribe s _

theorem close (n : BitVec 16) (s : State) : PoolKeeps s (close n s) :=
  .onEntry n _ s fun e mem => by
    rw [closeEntry_eq]
    refine (PoolKeeps.trans (fun l ok => ?_) (.answer _ _)).trans (.finish _)
    exact PoolKeeps.closeEffect (CellFrame.entryAt_of_mem ok.indexes mem) l ok

theorem abort (n : BitVec 16) (s : State) : PoolKeeps s (abort n s) :=
  .onEntry n _ s fun _ _ => ((PoolKeeps.freeEntry s _ _).trans (.answer _ _)).trans (.finish _)

theorem info (n : BitVec 16) (s : State) : PoolKeeps s (info n s) := .onEntry n _ s fun _ _ => .unmoved rfl rfl rfl

theorem openPublish (n : BitVec 16) (s : State) : PoolKeeps s (openPublish n s) :=
  .openEntry n _ s (fun _ h => by cases h; exact ⟨rfl, rfl⟩) fun _ h => by cases h

theorem openSubscribe (n : BitVec 16) (s : State) : PoolKeeps s (openSubscribe n s) :=
  .openEntry n _ s (fun _ h => by cases h) fun _ h => by cases h; exact ⟨rfl, rfl⟩

theorem unknownCommand (code : BitVec 16) (s : State) : PoolKeeps s (unknownCommand code s) := .plainIf (.answer s _)

theorem consumerWrite (v : Word) (s : State) : PoolKeeps s (consumerWrite v s) := by
  unfold Machine.consumerWrite
  dsimp only
  split
  · exact PoolKeeps.beyond (.drainEvents _ _) rfl rfl rfl
  · exact .unmoved rfl rfl rfl

theorem ringConfigWrite (reg : RingRegister) (v : Word) (s : State) : PoolKeeps s (ringConfigWrite reg v s) :=
  .plainIf ((PoolKeeps.withdraw s Request.isEventWrite).trans (.unmoved rfl rfl rfl))

theorem fenceWrite (f : Fence → Fence) (s : State) : PoolKeeps s (fenceWrite f s) := .plainIf (.unmoved rfl rfl rfl)

theorem passBitTime (s : State) : PoolKeeps s s.passBitTime := by
  unfold State.passBitTime
  dsimp only
  split
  · refine .mapTable Entry.count rfl rfl rfl (fun i => ?_) rfl (fun e => congrArg Prod.fst (count_key e))
      (fun e p role => ⟨{ p with settleTimer := countDown p.settleTimer }, ?_, rfl, rfl, rfl⟩)
      fun e u role => ⟨{ u with repairTimer := if u.starved then u.repairTimer else countDown u.repairTimer }, ?_, rfl, rfl⟩
    · rw [List.filter_map, List.map_map]
      rfl
    · unfold Entry.count
      rw [role]
    · unfold Entry.count
      rw [role]
  · exact .unmoved rfl rfl rfl

end PoolKeeps

theorem commandWord_poolOk {s : State} (ok : PoolOk s []) (code stream : BitVec 16) (d : Bool) :
    PoolOk (commandWord code stream d s) [] := by
  unfold commandWord
  split
  · exact PoolKeeps.attach d s _ ok
  · exact PoolKeeps.detach s _ ok
  · exact PoolKeeps.rejoin s _ ok
  · exact resetStation_poolOk ok
  · exact PoolKeeps.openPublish stream s _ ok
  · exact PoolKeeps.openSubscribe stream s _ ok
  · exact PoolKeeps.onEntry stream _ s (fun e _ => .resumeEntry e s) _ ok
  · exact PoolKeeps.close stream s _ ok
  · exact PoolKeeps.abort stream s _ ok
  · exact PoolKeeps.info stream s _ ok
  · exact PoolKeeps.unknownCommand code s _ ok

theorem registerWrite_poolOk {s : State} (ok : PoolOk s []) (o : BitVec 7) (w : Nat) (v : Word) (d : Bool) :
    PoolOk (registerWrite o w v d s) [] :=
  have unmoved (t : State) (table : t.table = s.table) (pool : t.pool = s.pool) (port : t.port = s.port) : PoolOk t [] :=
    PoolKeeps.unmoved table pool port [] ok
  registerWrite_elim (P := fun t => PoolOk t []) o w v d s (same := ok)
    (command := fun code stream => commandWord_poolOk ok code stream d) (argument := unmoved _ rfl rfl rfl)
    (base := PoolKeeps.fenceWrite _ s _ ok) (limit := PoolKeeps.fenceWrite _ s _ ok)
    (ring := fun reg => PoolKeeps.ringConfigWrite reg v s _ ok) (consumer := PoolKeeps.consumerWrite v s _ ok)
    (status := unmoved _ rfl rfl rfl) (enable := unmoved _ rfl rfl rfl) (index := unmoved _ rfl rfl rfl)

end Machine
end Sys2Proof
end

section
/-! Every command and every step keeps the pool's invariant. -/

namespace Sys2Proof
namespace Machine

namespace PoolKeeps

theorem cleanData (s : State) : PoolKeeps s (cleanData s) := by
  unfold Machine.cleanData
  split
  · exact .cleanFrame _ _ (.dataHeard _ _ _)
  · exact .refl s

theorem cleanRepair (s : State) : PoolKeeps s (cleanRepair s) := by
  unfold Machine.cleanRepair
  split
  · exact .cleanFrame _ _ (.repairHeard _ _ _ _ _ _)
  · exact .refl s

theorem cleanGone (s : State) : PoolKeeps s (cleanGone s) := by
  unfold Machine.cleanGone
  split
  · exact .cleanFrame _ _ (.goneHeard _ _ _ _ _)
  · exact .refl s

theorem cleanClaim (s : State) : PoolKeeps s (cleanClaim s) := by
  unfold Machine.cleanClaim
  split
  · exact .cleanFrame _ _ (.claimHeard _ _ _)
  · exact .refl s

theorem cleanDispute (s : State) : PoolKeeps s (cleanDispute s) := by
  unfold Machine.cleanDispute
  split
  · exact .cleanFrame _ _ (.disputeHeard _ _ _ _)
  · exact .refl s

theorem cleanYield (s : State) : PoolKeeps s (cleanYield s) := by
  unfold Machine.cleanYield
  split
  · exact .cleanFrame _ _ (.yieldHeard _ _ _)
  · exact .refl s

end PoolKeeps

theorem exec_poolOk (c : Instr) {s : State} (ok : PoolOk s []) : ∃ t, exec c s = .next t ∧ PoolOk t [] := by
  have keeps {t : State} (k : PoolKeeps s t) : PoolOk t [] := k [] ok
  cases c with
  | powerOnReset n k r => exact ⟨_, rfl, .powerOnPool rfl rfl fun _ => rfl⟩
  | eventRingConfigWrite reg v => exact ⟨_, rfl, keeps (.ringConfigWrite reg v s)⟩
  | registerWrite o w v d => exact ⟨_, rfl, registerWrite_poolOk ok o w v d⟩
  | attach d => exact ⟨_, rfl, keeps (.attach d s)⟩
  | detach => exact ⟨_, rfl, keeps (.detach s)⟩
  | rejoin => exact ⟨_, rfl, keeps (.rejoin s)⟩
  | resetStation => exact ⟨_, rfl, resetStation_poolOk ok⟩
  | openPublish n => exact ⟨_, rfl, keeps (.openPublish n s)⟩
  | openSubscribe n => exact ⟨_, rfl, keeps (.openSubscribe n s)⟩
  | resume n => exact ⟨_, rfl, keeps (.onEntry n _ s fun e _ => .resumeEntry e s)⟩
  | close n => exact ⟨_, rfl, keeps (.close n s)⟩
  | abort n => exact ⟨_, rfl, keeps (.abort n s)⟩
  | info n => exact ⟨_, rfl, keeps (.info n s)⟩
  | unknownCommand code n => exact ⟨_, rfl, keeps (.unknownCommand code s)⟩
  | stationRead lane w => exact ⟨_, rfl, keeps (.unmoved rfl rfl rfl)⟩
  | eventConsumerWrite v => exact ⟨_, rfl, keeps (.consumerWrite v s)⟩
  | intStatusWrite v => exact ⟨_, rfl, keeps (.unmoved rfl rfl rfl)⟩
  | activityBegins heard => exact ⟨_, rfl, keeps (.activityBegins s heard)⟩
  | stagingClaim n => exact ⟨_, rfl, keeps (.stagingClaim n s)⟩
  | frameEnd heard => exact ⟨_, rfl, keeps (.frameEnd heard s)⟩
  | spoiledVerdict heard => exact ⟨_, rfl, keeps (.spoiledVerdict heard s)⟩
  | cleanFaultyFrame => exact ⟨_, rfl, keeps (.plainIf (.unmoved rfl rfl rfl))⟩
  | cleanData => exact ⟨_, rfl, keeps (.cleanData s)⟩
  | cleanRepair => exact ⟨_, rfl, keeps (.cleanRepair s)⟩
  | cleanGone => exact ⟨_, rfl, keeps (.cleanGone s)⟩
  | cleanClaim => exact ⟨_, rfl, keeps (.cleanClaim s)⟩
  | cleanDispute => exact ⟨_, rfl, keeps (.cleanDispute s)⟩
  | cleanYield => exact ⟨_, rfl, keeps (.cleanYield s)⟩
  | brokenFrameEnd => exact ⟨_, rfl, keeps (.plainIf (.unmoved rfl rfl rfl))⟩
  | holdActivityEnd => exact ⟨_, rfl, keeps (.plainIf (.unmoved rfl rfl rfl))⟩
  | stuckCondition heard => exact ⟨_, rfl, keeps (.plainIf (.becomeStuck s))⟩
  | stuckEnd v => exact ⟨_, rfl, keeps (.plainIf (.unmoved rfl rfl rfl))⟩
  | stuckWaitEnd => exact ⟨_, rfl, keeps (.plainIf (.unmoved rfl rfl rfl))⟩
  | windowPassesEmpty => exact ⟨_, rfl, keeps (.windowPassesEmpty s)⟩
  | urgentSlotStart first => exact ⟨_, rfl, keeps (.plainIf (.start s _ _ _))⟩
  | rotationSlotStart first => exact ⟨_, rfl, keeps (.plainIf (PoolKeeps.beyond (.start s.lineWasReleased _ _ _) rfl rfl rfl))⟩
  | holdOffExpiry first => exact ⟨_, rfl, keeps (.plainIf (PoolKeeps.beyond (.start s.lineWasReleased _ _ _) rfl rfl rfl))⟩
  | attemptCollided heard => exact ⟨_, rfl, keeps (.attemptCollided heard s)⟩
  | attemptVerdict heard => exact ⟨_, rfl, keeps (.attemptVerdict heard s)⟩
  | claimSettleExpiry i => exact ⟨_, rfl, keeps (.claimSettleExpiry i s)⟩
  | repairDelayExpiry i => exact ⟨_, rfl, keeps (.repairDelayExpiry i s)⟩
  | repairWaitExpiry i => exact ⟨_, rfl, keeps (.repairWaitExpiry i s)⟩
  | replayAgeLimit => exact ⟨_, rfl, keeps (.replayAgeLimit s)⟩
  | coalescingTimerExpiry => exact ⟨_, rfl, keeps (.coalescingTimerExpiry s)⟩
  | transferGrant => exact ⟨_, rfl, keeps (.transferGrant s)⟩
  | headDescriptorReadEnd c => exact ⟨_, rfl, keeps (.headDescriptorReadEnd c s)⟩
  | lookAheadReadEnd c => exact ⟨_, rfl, keeps (.lookAheadReadEnd c s)⟩
  | lastLookEnd c => exact ⟨_, rfl, keeps (.lastLookEnd c s)⟩
  | txPayloadReadEnd c => exact ⟨_, rfl, keeps (.txPayloadReadEnd c s)⟩
  | txWriteBackEnd c => exact ⟨_, rfl, keeps (.txWriteBackEnd c s)⟩
  | rxPayloadWriteEnd c => exact ⟨_, rfl, keeps (.rxPayloadWriteEnd c s)⟩
  | rxWriteBackEnd c => exact ⟨_, rfl, keeps (.rxWriteBackEnd c s)⟩
  | eventWriteEnd c => exact ⟨_, rfl, keeps (.eventWriteEnd c s)⟩
  | frameBecomesBroken heard => exact ⟨_, rfl, keeps (.frameBecomesBroken heard s)⟩

theorem step_cellsOk {s t : State} (table : s.tableOk) (ok : s.cellsOk) (h : step s = .next t) : t.cellsOk := by
  have pool := poolOk_of_cellsOk table ok
  rcases step_cases h with ⟨c, rest, -, ends⟩ | rfl | rfl
  · obtain ⟨u, ends', kept⟩ := exec_poolOk c (s := { s with pending := rest }) (PoolKeeps.unmoved (s := s) (t := { s with pending := rest }) rfl rfl rfl [] pool)
    obtain rfl := Host.Outcome.next.inj (ends.symm.trans ends')
    exact kept.cellsOk
  · exact ok
  · exact (PoolKeeps.passBitTime s _ pool).cellsOk

/-- Settles O59: the lists by `step_sound`, the cell pool by `PoolOk`, which follows the cells an operation has in hand. -/
theorem everyStepKeepsTheListsWithinTheirLimits : Obligations.EveryStepKeepsTheListsWithinTheirLimits := by
  refine ⟨fun s t ok h => ?_, fun s t => step_cellsOk⟩
  obtain ⟨_, sound⟩ := step_sound h
  exact sound.lists ok

end Machine
end Sys2Proof
end

section
/-! Words of fields: what a field of a packed word reads as; with it the registers' words and the INFO snapshot. -/

namespace Sys2Proof
namespace Machine

/-! ### Fields of a packed word -/

/-- The number that fields at bit positions spell. -/
def fieldsValue : List (Nat × Nat) → Nat
  | [] => 0
  | f :: rest => f.2 * 2 ^ f.1 + fieldsValue rest

/-- Each field ends where the next one begins, or below it. -/
def stacked (l : List (Nat × Nat)) : Prop := l.IsChain fun f g => f.1 ≤ g.1 ∧ f.2 < 2 ^ (g.1 - f.1)

theorem packFields_eq (l : List (Nat × Nat)) : packFields l = BitVec.ofNat 32 (fieldsValue l) := by
  have sum (l : List (Nat × Nat)) (w : Nat) : l.foldl (fun w f => w + f.2 * 2 ^ f.1) w = w + fieldsValue l := by
    induction l generalizing w with
    | nil => rfl
    | cons f rest ih => rw [List.foldl_cons, ih, fieldsValue, Nat.add_assoc]
  unfold packFields
  rw [sum, Nat.zero_add]

theorem fieldsValue_append (l m : List (Nat × Nat)) : fieldsValue (l ++ m) = fieldsValue l + fieldsValue m := by
  induction l with
  | nil => exact (Nat.zero_add _).symm
  | cons f rest ih => rw [List.cons_append, fieldsValue, fieldsValue, ih, Nat.add_assoc]

/-- Fields from a position up are a multiple of its weight. -/
theorem fieldsValue_dvd {l : List (Nat × Nat)} {m : Nat} (h : ∀ f ∈ l, m ≤ f.1) : 2 ^ m ∣ fieldsValue l := by
  induction l with
  | nil => exact Nat.dvd_zero _
  | cons f rest ih =>
    exact Nat.dvd_add ((Nat.pow_dvd_pow 2 (h f List.mem_cons_self)).mul_left _)
      (ih fun g hg => h g (List.mem_cons_of_mem f hg))

/-- Stacked fields below a field stay below its position. -/
theorem fieldsValue_below {l : List (Nat × Nat)} {f : Nat × Nat} (h : stacked (l ++ [f])) : fieldsValue l < 2 ^ f.1 := by
  induction l using List.reverseRecOn generalizing f with
  | nil => exact Nat.two_pow_pos _
  | append_singleton l g ih =>
    unfold stacked at h
    rw [List.append_assoc, List.singleton_append] at h
    obtain ⟨order, room⟩ := (List.isChain_cons_cons.1 h.right_of_append).1
    have below := ih (f := g) (show stacked (l ++ [g]) from by
      have : (l ++ [g]) ++ [f] = l ++ (g :: [f]) := by rw [List.append_assoc]; rfl
      exact (this ▸ h).left_of_append)
    rw [fieldsValue_append, fieldsValue, fieldsValue, Nat.add_zero]
    calc fieldsValue l + g.2 * 2 ^ g.1
        < 2 ^ g.1 + g.2 * 2 ^ g.1 := Nat.add_lt_add_right below _
      _ = (g.2 + 1) * 2 ^ g.1 := by ring
      _ ≤ 2 ^ (f.1 - g.1) * 2 ^ g.1 := Nat.mul_le_mul_right _ room
      _ = 2 ^ f.1 := by rw [← Nat.pow_add, Nat.sub_add_cancel order]

/-- A field of a packed word reads as its value: it and the fields below it are stacked, and the next one begins above
it. -/
theorem fieldOf_lowFields {l : List (Nat × Nat)} (k n : Nat) (h : stacked (l.take (k + 1))) {p v : Nat}
    (field : l[k]? = some (p, v))
    (value : v < 2 ^ n) (above : ∀ f ∈ l.drop (k + 1), p + n ≤ f.1) (inWord : p + n ≤ 32) :
    fieldOf (packFields l) p n = v := by
  obtain ⟨inside, isField⟩ := List.getElem?_eq_some_iff.1 field
  have split : l = l.take k ++ (p, v) :: l.drop (k + 1) := by
    rw [← isField, List.getElem_cons_drop, List.take_append_drop]
  have below : fieldsValue (l.take k) < 2 ^ p := by
    rw [List.take_add_one, field, Option.toList_some] at h
    exact fieldsValue_below h
  obtain ⟨rest, hrest⟩ := fieldsValue_dvd above
  have whole : fieldsValue l = fieldsValue (l.take k) + 2 ^ p * (v + 2 ^ n * rest) := by
    conv_lhs => rw [split]
    rw [fieldsValue_append, fieldsValue, hrest, Nat.pow_add]
    ring
  have word : 2 ^ (p + n) ∣ 2 ^ 32 := Nat.pow_dvd_pow 2 inWord
  unfold fieldOf
  rw [packFields_eq, BitVec.toNat_ofNat, ← Nat.mod_mul_right_div_self, ← Nat.pow_add, Nat.mod_mod_of_dvd _ word, whole,
    Nat.pow_add, Nat.mod_mul_right_div_self, Nat.add_mul_div_left _ _ (Nat.two_pow_pos p), Nat.div_eq_of_lt below,
    Nat.zero_add, Nat.add_mul_mod_self_left, Nat.mod_eq_of_lt value]

/-- A field of a word of stacked fields reads as its value. -/
theorem fieldOf_packFields {l : List (Nat × Nat)} (h : stacked l) (k n : Nat) {p v : Nat} (field : l[k]? = some (p, v))
    (value : v < 2 ^ n) (above : ∀ f ∈ l.drop (k + 1), p + n ≤ f.1) (inWord : p + n ≤ 32) :
    fieldOf (packFields l) p n = v := by
  refine fieldOf_lowFields k n ?_ field value above inWord
  unfold stacked at h ⊢
  exact h.take (k + 1)

theorem flagBit_lt (b : Bool) : flagBit b < 2 := by cases b <;> decide

theorem StationState.code_lt (c : StationState) : c.code < 8 := by cases c <;> decide
theorem ResumeTo.code_lt (c : ResumeTo) : c.code < 2 := by cases c <;> decide
theorem LineCondition.code_lt (c : LineCondition) : c.code < 8 := by cases c <;> decide
theorem ClaimState.code_lt (c : ClaimState) : c.code < 8 := by cases c <;> decide
theorem Segmenter.code_lt (c : Segmenter) : c.code < 8 := by cases c <;> decide
theorem RepairState.code_lt (c : RepairState) : c.code < 4 := by cases c <;> decide
theorem CurrentDescriptor.code_lt (c : CurrentDescriptor) : c.code < 4 := by
  cases c <;> simp [CurrentDescriptor.code]
theorem LookAhead.code_lt (c : LookAhead) : c.code < 8 := by
  cases c <;> simp [LookAhead.code]

/-! ### STATION -/

theorem stationWord_stacked (s : State) (sender : s.turn.lastSender ≤ 32) (failures : failureCount s.station.history ≤ 8) :
    stacked [(0, s.station.state.code), (3, s.station.resumeTo.code), (4, s.turn.condition.code),
      (8, s.turn.lastSender), (16, failureCount s.station.history), (24, flagBit s.station.stateChanged),
      (25, flagBit s.station.stuckSeen)] := by
  have state := s.station.state.code_lt
  have resume := s.station.resumeTo.code_lt
  have condition := s.turn.condition.code_lt
  have changed := flagBit_lt s.station.stateChanged
  simp [stacked, List.isChain_cons_cons]
  omega

/-- Settles O40: the word is STATION's, whose fields are stacked. -/
theorem aReadOfStationClearsTheChangeFlags : Obligations.AReadOfStationClearsTheChangeFlags := by
  intro lane width s sender failures
  have fields := stationWord_stacked s sender failures
  refine ⟨_, rfl, rfl, ?_, ?_, ?_, ?_, ?_, ?_, ?_⟩
  · exact fieldOf_packFields fields 0 3 rfl s.station.state.code_lt (by simp) (by decide)
  · exact fieldOf_packFields fields 1 1 rfl s.station.resumeTo.code_lt (by simp) (by decide)
  · exact fieldOf_packFields fields 2 3 rfl s.turn.condition.code_lt (by simp) (by decide)
  · exact fieldOf_packFields fields 3 6 rfl (by omega) (by simp) (by decide)
  · exact fieldOf_packFields fields 4 4 rfl (by omega) (by simp) (by decide)
  · exact fieldOf_packFields fields 5 1 rfl (flagBit_lt _) (by simp) (by decide)
  · exact fieldOf_packFields fields 6 1 rfl (flagBit_lt _) (by simp) (by decide)

/-! ### INT_STATUS -/

theorem statusWord_getLsbD (e : EventUnit) : e.statusWord.getLsbD 0 = e.eventsCause ∧
    e.statusWord.getLsbD 1 = e.overflow ∧ e.statusWord.getLsbD 2 = e.hostFault := by
  unfold EventUnit.statusWord
  cases e.eventsCause <;> cases e.overflow <;> cases e.hostFault <;> decide

/-- Settles O43: INT_STATUS shows the three causes, and INT joins them with their enables. -/
theorem interruptCausesAreLatchedShownAndCleared : Obligations.InterruptCausesAreLatchedShownAndCleared := by
  intro value s size events
  obtain ⟨shown, overflow, hostFault⟩ := statusWord_getLsbD s.events
  have cause : s.events.eventsCause = true ↔ events := by
    unfold EventUnit.eventsCause
    rw [Bool.and_eq_true, Bool.or_eq_true, decide_eq_true_iff, beq_iff_eq]
    exact Iff.rfl
  refine ⟨rfl, ?_, overflow, hostFault, ?_⟩
  · rw [← cause, ← shown]
    rfl
  · unfold State.intPin
    rw [Bool.or_eq_true, Bool.or_eq_true, Bool.and_eq_true, Bool.and_eq_true, Bool.and_eq_true, cause, or_assoc]

/-! ### INFO -/

/-- A station on the line finds the entry of a command's stream, and the command acts on it. -/
theorem onEntry_found {s : State} {n : BitVec 16} {e : Entry} (effect : Entry → State → State) (table : s.tableOk)
    (attached : s.station.state.attached = true) (stream : n.toNat < 1024) (mem : e ∈ s.table)
    (named : e.stream = n.toNat) : onEntry n effect s = effect e s := by
  unfold onEntry
  rw [attached, ← named, table.entryOf mem, named, if_neg (by decide)]
  exact if_neg (Nat.not_le.2 stream)

theorem infoEntry_found {s : State} {n : BitVec 16} {e : Entry} (table : s.tableOk)
    (attached : s.station.state.attached = true) (stream : n.toNat < 1024) (mem : e ∈ s.table)
    (named : e.stream = n.toNat) : exec (.info n) s = .next (infoEntry e s) :=
  congrArg Host.Outcome.next (onEntry_found infoEntry table attached stream mem named)

/-- The stacked words of a publish entry's snapshot. -/
theorem publishInfo_stacked (e : Entry) (p : PublishEntry) (index : e.index < 32) (stream : e.stream < 1024) :
    stacked [(0, e.stream), (10, e.index), (15, 0), (16, p.claim.code), (19, p.segmenter.code),
      (22, flagBit p.claimDue), (23, flagBit p.disputeDue), (24, flagBit p.yieldDue), (25, flagBit p.claimSent),
      (26, flagBit p.closeRequested), (27, e.chain.current.code), (29, e.chain.lookAhead.code)] := by
  have claim := p.claim.code_lt
  have segmenter := p.segmenter.code_lt
  have claimDue := flagBit_lt p.claimDue
  have disputeDue := flagBit_lt p.disputeDue
  have yieldDue := flagBit_lt p.yieldDue
  have claimSent := flagBit_lt p.claimSent
  have closeRequested := flagBit_lt p.closeRequested
  have current := e.chain.current.code_lt
  simp [stacked, List.isChain_cons_cons]
  omega

/-- The stacked words of a subscribe entry's snapshot. -/
theorem subscribeInfo_stacked (e : Entry) (u : SubscribeEntry) (index : e.index < 32) (stream : e.stream < 1024)
    (attempts : u.attempts ≤ 3) :
    stacked [(0, e.stream), (10, e.index), (15, 1), (16, flagBit (u.state == .fault)), (17, flagBit u.closing),
      (18, flagBit u.expected.isSome), (19, flagBit u.starved), (20, flagBit u.block.isSome),
      (21, u.repair.code), (23, u.attempts), (27, e.chain.current.code), (29, e.chain.lookAhead.code)] := by
  have fault := flagBit_lt (u.state == .fault)
  have closing := flagBit_lt u.closing
  have synced := flagBit_lt u.expected.isSome
  have starved := flagBit_lt u.starved
  have block := flagBit_lt u.block.isSome
  have repair := u.repair.code_lt
  have current := e.chain.current.code_lt
  simp [stacked, List.isChain_cons_cons]
  omega

/-- Stream and index stand at the bottom of the first word, whatever stands above them. -/
theorem fieldOf_streamIndex {stream index : Nat} (rest : List (Nat × Nat)) (hi : index < 32) (hs : stream < 1024)
    (above : ∀ f ∈ rest, 15 ≤ f.1) : fieldOf (packFields ((0, stream) :: (10, index) :: rest)) 0 10 = stream ∧
      fieldOf (packFields ((0, stream) :: (10, index) :: rest)) 10 5 = index := by
  have low : stacked [(0, stream), (10, index)] := List.isChain_pair.2 ⟨Nat.zero_le _, hs⟩
  have low : stacked [(0, stream), (10, index)] := List.isChain_pair.2 ⟨Nat.zero_le _, hs⟩
  have first := fieldOf_lowFields (l := (0, stream) :: (10, index) :: rest) 0 10 (List.isChain_singleton (0, stream)) rfl
    hs
  have second := fieldOf_lowFields (l := (0, stream) :: (10, index) :: rest) 1 5 low rfl hi above (by decide)
  refine ⟨first (fun f hf => ?_) (by decide), second⟩
  rcases List.mem_cons.1 hf with rfl | later
  · exact Nat.le_refl 10
  · exact Nat.le_trans (by decide) (above f later)

theorem info_entry (e : Entry) (hi : e.index < 32) (hs : e.stream < 1024) : fieldOf e.info.1 0 10 = e.stream ∧
    fieldOf e.info.1 10 5 = e.index ∧ e.info.2.2.1 = e.chain.current.address := by
  unfold Entry.info
  split
  · exact ⟨(fieldOf_streamIndex _ hi hs (by simp)).1, (fieldOf_streamIndex _ hi hs (by simp)).2, rfl⟩
  · exact ⟨(fieldOf_streamIndex _ hi hs (by simp)).1, (fieldOf_streamIndex _ hi hs (by simp)).2, rfl⟩

theorem info_chain (e : Entry) (hi : e.index < 32) (hs : e.stream < 1024)
    (attempts : ∀ u, e.role = .subscribe u → u.attempts ≤ 3) : fieldOf e.info.1 27 2 = e.chain.current.code ∧
      fieldOf e.info.1 29 3 = e.chain.lookAhead.code := by
  unfold Entry.info
  split
  · rename_i p _
    have fields := publishInfo_stacked e p hi hs
    exact ⟨fieldOf_packFields fields 10 2 rfl (CurrentDescriptor.code_lt _) (by simp) (by decide),
      fieldOf_packFields fields 11 3 rfl (LookAhead.code_lt _) (by simp) (by decide)⟩
  · rename_i u role
    have fields := subscribeInfo_stacked e u hi hs (attempts u role)
    exact ⟨fieldOf_packFields fields 10 2 rfl (CurrentDescriptor.code_lt _) (by simp) (by decide),
      fieldOf_packFields fields 11 3 rfl (LookAhead.code_lt _) (by simp) (by decide)⟩

/-- Settles O39: the words are packed of stacked fields, under the bounds that their fields have. -/
theorem infoLatchesTheEntrysSnapshot : Obligations.InfoLatchesTheEntrysSnapshot := by
  intro n s e table attached stream mem named
  obtain ⟨hi, hs, -⟩ := table.2.2.2 e mem
  obtain ⟨inStream, inIndex, address⟩ := info_entry e hi hs
  refine ⟨infoEntry e s, infoEntry_found table attached stream mem named, rfl, inStream, inIndex, address,
    info_chain e hi hs, fun p role send writeBacks => ?_, fun u role attempts publisher reorder highest offset part range => ?_⟩
  · have fields := publishInfo_stacked e p hi hs
    have words : e.info = publishInfo e p := by
      unfold Entry.info
      rw [role]
    have queue := p.nextSequence.isLt
    have oldest := p.oldestHeld.isLt
    have second : stacked [(0, p.nextSequence.toNat), (12, p.oldestHeld.toNat), (24, p.sendQueue.length),
        (28, p.writeBacks.length)] := by
      simp [stacked, List.isChain_cons_cons]
      omega
    have fourth : stacked [(0, p.segmentsSent.toNat % 65536), (16, p.resendsSent.toNat % 65536)] :=
      List.isChain_pair.2 ⟨Nat.zero_le _, Nat.mod_lt _ (by decide)⟩
    simp only [infoEntry, words, publishInfo]
    refine ⟨?_, ?_, ?_, ?_, ?_, ?_, ?_, ?_, ?_, ?_, ?_, ?_, ?_, ?_⟩
    · exact fieldOf_packFields fields 2 1 rfl (by decide) (by simp) (by decide)
    · exact fieldOf_packFields fields 3 3 rfl p.claim.code_lt (by simp) (by decide)
    · exact fieldOf_packFields fields 4 3 rfl p.segmenter.code_lt (by simp) (by decide)
    · exact fieldOf_packFields fields 5 1 rfl (flagBit_lt _) (by simp) (by decide)
    · exact fieldOf_packFields fields 6 1 rfl (flagBit_lt _) (by simp) (by decide)
    · exact fieldOf_packFields fields 7 1 rfl (flagBit_lt _) (by simp) (by decide)
    · exact fieldOf_packFields fields 8 1 rfl (flagBit_lt _) (by simp) (by decide)
    · exact fieldOf_packFields fields 9 1 rfl (flagBit_lt _) (by simp) (by decide)
    · exact fieldOf_packFields second 0 12 rfl queue (by simp) (by decide)
    · exact fieldOf_packFields second 1 12 rfl oldest (by simp) (by decide)
    · exact fieldOf_packFields second 2 4 rfl (by omega) (by simp) (by decide)
    · exact fieldOf_packFields second 3 4 rfl (by omega) (by simp) (by decide)
    · exact fieldOf_packFields fourth 0 16 rfl (Nat.mod_lt _ (by decide)) (by simp) (by decide)
    · exact fieldOf_packFields fourth 1 16 rfl (Nat.mod_lt _ (by decide)) (by simp) (by decide)
  · have fields := subscribeInfo_stacked e u hi hs attempts
    have words : e.info = subscribeInfo e u := by
      unfold Entry.info
      rw [role]
    have expected : (u.expected.map BitVec.toNat).getD 0 < 4096 := by
      cases u.expected with
      | none => decide
      | some x => exact x.isLt
    have second : stacked [(0, (u.expected.map BitVec.toNat).getD 0), (12, u.highestDistance),
        (19, u.publisher.getD 0), (25, u.reorderCount)] := by
      simp [stacked, List.isChain_cons_cons]
      omega
    have fourth : stacked [(0, u.writeOffset), (16, u.partPlaced), (24, (u.requested.map Prod.snd).getD 0)] := by
      simp [stacked, List.isChain_cons_cons]
      omega
    simp only [infoEntry, words, subscribeInfo]
    refine ⟨?_, ?_, ?_, ?_, ?_, ?_, ?_, ?_, ?_, ?_, ?_, ?_, ?_, ?_, ?_⟩
    · exact fieldOf_packFields fields 2 1 rfl (by decide) (by simp) (by decide)
    · exact fieldOf_packFields fields 3 1 rfl (flagBit_lt _) (by simp) (by decide)
    · exact fieldOf_packFields fields 4 1 rfl (flagBit_lt _) (by simp) (by decide)
    · exact fieldOf_packFields fields 5 1 rfl (flagBit_lt _) (by simp) (by decide)
    · exact fieldOf_packFields fields 6 1 rfl (flagBit_lt _) (by simp) (by decide)
    · exact fieldOf_packFields fields 7 1 rfl (flagBit_lt _) (by simp) (by decide)
    · exact fieldOf_packFields fields 8 2 rfl u.repair.code_lt (by simp) (by decide)
    · exact fieldOf_packFields fields 9 2 rfl (by omega) (by simp) (by decide)
    · exact fieldOf_packFields second 0 12 rfl expected (by simp) (by decide)
    · exact fieldOf_packFields second 1 7 rfl (by omega) (by simp) (by decide)
    · exact fieldOf_packFields second 2 6 rfl (by omega) (by simp) (by decide)
    · exact fieldOf_packFields second 3 4 rfl (by omega) (by simp) (by decide)
    · exact fieldOf_packFields fourth 0 16 rfl (by omega) (by simp) (by decide)
    · exact fieldOf_packFields fourth 1 8 rfl (by omega) (by simp) (by decide)
    · exact fieldOf_packFields fourth 2 5 rfl (by omega) (by simp) (by decide)

end Machine
end Sys2Proof
end

section
/-! The registers: what each reads, after power-on reset and in every state, and what a write of each does. -/

namespace Sys2Proof
namespace Machine

theorem packFields_one (v : Nat) : packFields [(0, v)] = BitVec.ofNat 32 v := by
  rw [packFields_eq, fieldsValue, fieldsValue, Nat.pow_zero, Nat.mul_one, Nat.add_zero]

theorem fieldOf_lt (w : Word) (low count : Nat) : fieldOf w low count < 2 ^ count := Nat.mod_lt _ (Nat.two_pow_pos count)

/-- A field of a word as bits of its own. -/
theorem ofNat_fieldOf (w : Word) (low count : Nat) : BitVec.ofNat count (fieldOf w low count) = w.extractLsb' low count := by
  apply BitVec.eq_of_toNat_eq
  rw [BitVec.toNat_ofNat, fieldOf, Nat.mod_mod, BitVec.extractLsb'_toNat, Nat.shiftRight_eq_div_pow]

/-! ### After power-on reset -/

theorem select_zero (i : BitVec 4) : Counters.zero.select i = 0#32 := by
  unfold Counters.select
  split <;> rfl

theorem straps_word (p : Straps) :
    p.word = BitVec.ofNat 32 (p.station.toNat + 256 * p.ring.toNat + 65536 * p.rate.toNat) := by
  unfold Straps.word
  rw [packFields_eq]
  congr 1
  simp only [fieldsValue]
  ring

theorem readRegister_powerOn {p : Straps} {queue : List Instr} {o : BitVec 7} (h : o.toNat / 4 ∉ [0, 1, 2, 8, 19]) :
    ({ State.powerOn p with pending := queue } : State).readRegister o = 0#32 := by
  unfold State.readRegister
  split
  case h_1 | h_2 | h_3 | h_9 | h_20 =>
    rename_i number
    exact absurd (by rw [number]; decide) h
  case h_15 => exact select_zero _
  all_goals rfl

theorem word_powerOn : Pool.powerOn.word = 0xA0#32 := by
  have free : Pool.powerOn.free.length = 160 := List.length_range
  unfold Pool.word
  rw [free]
  rfl

theorem ctrlWord_powerOn : EventUnit.powerOn.config.ctrlWord = 0x104#32 := by decide

theorem stationWord_powerOn {p : Straps} (valid : p.valid = true) (queue : List Instr) :
    ({ State.powerOn p with pending := queue } : State).stationWord = 1#32 := by
  have state : (StationControl.powerOn p).state = .detached := if_pos valid
  show packFields [(0, (StationControl.powerOn p).state.code), (3, 0), (4, 0), (8, 0), (16, 0), (24, 0), (25, 0)] = 1#32
  rw [state]
  rfl

/-- Settles O6: valid straps make the station DETACHED, and the registers read its power-on values. -/
theorem theRegisterMapAfterPowerOnReset : Obligations.TheRegisterMapAfterPowerOnReset := by
  intro n k r s ring ring' number number'
  have valid : Straps.valid ⟨n, k, r⟩ = true := by
    unfold Straps.valid
    simp [ring, ring', number, number']
  exact ⟨_, rfl, rfl, straps_word ⟨n, k, r⟩, stationWord_powerOn valid s.pending, ctrlWord_powerOn, word_powerOn,
    fun o h => readRegister_powerOn h, select_zero, rfl, rfl, rfl, rfl, rfl, rfl, rfl⟩

/-! ### Register writes -/

theorem toNat_lowHalf (value : Word) : (value.extractLsb' 0 16).toNat = value.toNat % 65536 := by
  rw [BitVec.extractLsb'_toNat, Nat.shiftRight_zero]

/-- A write of the COMMAND word takes the command it carries. -/
theorem exec_commandWord (value : Word) (driven : Bool) (s : State) : exec (.registerWrite 0x0C 4 value driven) s =
    .next (commandWord (value.extractLsb' 0 16) (value.extractLsb' 16 16) driven s) := by
  rw [← ofNat_fieldOf, ← ofNat_fieldOf]
  rfl

/-- A code that names none of the ten commands is UNKNOWN_COMMAND's. -/
theorem commandWord_unknown {code : BitVec 16} (h : code.toNat = 0 ∨ 11 ≤ code.toNat) (stream : BitVec 16) (driven : Bool)
    (s : State) : commandWord code stream driven s = unknownCommand code s := by
  unfold commandWord
  split
  case h_11 => rfl
  all_goals omega

/-- Only the words of 0x0C to 0x20 and 0x28 to 0x34 take writes. -/
theorem exec_registerWrite_readOnly {o : BitVec 7}
    (h : o.toNat ∈ [0x00, 0x04, 0x08, 0x24, 0x38, 0x3C, 0x40, 0x44, 0x48, 0x4C] ∨ 0x50 ≤ o.toNat) (value : Word)
    (driven : Bool) (s : State) : exec (.registerWrite o 4 value driven) s = .next s := by
  refine congrArg Host.Outcome.next ?_
  simp only [List.mem_cons, List.not_mem_nil, or_false] at h
  unfold registerWrite
  split
  · rfl
  · split
    case h_11 => rfl
    all_goals omega

theorem readRegister_above {o : BitVec 7} (h : 0x50 ≤ o.toNat) (s : State) : s.readRegister o = 0#32 := by
  unfold State.readRegister
  split
  case h_21 => rfl
  all_goals omega

theorem configurable_iff (c : StationState) : c.configurable = true ↔ c = .disabled ∨ c = .detached := by
  cases c <;> decide

theorem fenceWrite_taken {s : State} (h : s.station.state = .disabled ∨ s.station.state = .detached)
    (f : Fence → Fence) : fenceWrite f s = { s with fence := f s.fence } :=
  if_pos ((configurable_iff _).2 h)

theorem fenceWrite_ignored {s : State} (h : ¬(s.station.state = .disabled ∨ s.station.state = .detached))
    (f : Fence → Fence) : fenceWrite f s = s :=
  if_neg fun ok => h ((configurable_iff _).1 ok)

theorem exec_fenceRegisters (value : Word) (driven : Bool) (s : State) :
    exec (.registerWrite 0x14 4 value driven) s =
        .next (fenceWrite (fun f => { f with base := value &&& 0xFFFFFFF0#32 }) s) ∧
      exec (.registerWrite 0x18 4 value driven) s =
        .next (fenceWrite (fun f => { f with limit := value ||| 0x0000000F#32 }) s) := ⟨rfl, rfl⟩

theorem ctrlWord_stacked (r : RingConfig) :
    stacked [(0, r.sizeCode.toNat), (8, r.threshold.toNat), (24, r.coalescing.toNat)] := by
  have size := r.sizeCode.isLt
  have threshold := r.threshold.isLt
  simp [stacked, List.isChain_cons_cons]
  omega

theorem poolWord_stacked (p : Pool) (free : p.free.length ≤ 160) (aged : p.aged.length ≤ 160) :
    stacked [(0, p.free.length), (8, p.aged.length), (16, p.waiting.length)] := by
  simp [stacked, List.isChain_cons_cons]
  omega

/-- Settles O44: a write is taken by the word it addresses, COMMAND's by the code it carries; a read shows the fields
of its word. -/
theorem aRegisterWriteActsOnItsRegister : Obligations.ARegisterWriteActsOnItsRegister := by
  intro value driven s write stream code free count
  have command {k : Nat} (h : code = k) :
      exec (write 0x0C) s = .next (commandWord (BitVec.ofNat 16 k) stream driven s) := by
    have word : BitVec.ofNat 16 k = value.extractLsb' 0 16 := by
      rw [← h, ← BitVec.setWidth_eq (value.extractLsb' 0 16), ← BitVec.ofNat_toNat, toNat_lowHalf]
    rw [exec_commandWord, word]
  obtain ⟨base, limit⟩ := exec_fenceRegisters value driven s
  have ctrl := ctrlWord_stacked s.events.config
  have result : s.window.result.code < 2 ^ 32 := by cases s.window.result <;> decide
  refine ⟨fun o w h => congrArg Host.Outcome.next (if_pos h), fun o h => exec_registerWrite_readOnly h value driven s,
    rfl, ?_, ?_, fun h => by rw [base, limit, fenceWrite_taken h, fenceWrite_taken h]; exact ⟨rfl, rfl⟩,
    fun h => by rw [base, limit, fenceWrite_ignored h, fenceWrite_ignored h]; exact ⟨rfl, rfl⟩,
    rfl, rfl, rfl, rfl, fun h => command h, fun h => command h, fun h => command h, fun h => command h,
    fun h => command h, fun h => command h, fun h => command h, fun h => command h, fun h => command h,
    fun h => command h, fun h => ?_, ?_, fun o h => readRegister_above h s, ?_, rfl, rfl, rfl, rfl, rfl, ?_, ?_, ?_, ?_,
    ?_, ?_, ?_, rfl, rfl, rfl, rfl, rfl, rfl, ?_⟩
  · rw [← ofNat_fieldOf]
    rfl
  · rw [← ofNat_fieldOf]
    rfl
  · rw [exec_commandWord, commandWord_unknown (by rw [toNat_lowHalf]; exact h)]
    rfl
  · intro o o' same
    unfold State.readRegister
    rw [same]
  · show (packFields [(0, s.window.result.code)]).toNat = _
    rw [packFields_one, BitVec.toNat_ofNat, Nat.mod_eq_of_lt result]
  · exact fieldOf_packFields ctrl 0 4 rfl s.events.config.sizeCode.isLt (by simp) (by decide)
  · exact fieldOf_packFields ctrl 1 10 rfl s.events.config.threshold.isLt (by simp) (by decide)
  · exact fieldOf_packFields ctrl 2 8 rfl s.events.config.coalescing.isLt (by simp) (by decide)
  · exact packFields_one _
  · exact packFields_one _
  · exact (packFields_one _).trans (BitVec.ofNat_toNat 32 s.events.enable)
  · exact (packFields_one _).trans (BitVec.ofNat_toNat 32 s.window.counterIndex)
  · intro free aged waiting
    have pool := poolWord_stacked s.pool free aged
    exact ⟨fieldOf_packFields pool 0 8 rfl (by omega) (by simp) (by decide),
      fieldOf_packFields pool 1 8 rfl (by omega) (by simp) (by decide),
      fieldOf_packFields pool 2 6 rfl (by omega) (by simp) (by decide)⟩

end Machine
end Sys2Proof
end

section
/-! The event unit: where an event goes, what a drained backlog leaves, and a write of the ring registers. -/

namespace Sys2Proof
namespace Machine

/-! ### An event that a rule asks for -/

/-- The event unit once an event has its number. -/
def EventUnit.numbered (e : EventUnit) : EventUnit := { e with number := e.number + 1 }

/-- The station once an event has its number. -/
def State.numbered (s : State) : State := { s with events := s.events.numbered }

theorem emit_unset {s : State} (h : s.events.ready = false) (ev : Event) : s.emit ev = s := by
  unfold State.emit
  rw [h]
  rfl

theorem emit_ready {s : State} (h : s.events.ready = true) (ev : Event) :
    s.emit ev = s.numbered.deliverEvent { ev with number := s.events.number } := by
  unfold State.emit
  exact if_pos h

/-- Numbering an event does not touch what decides where it goes. -/
theorem deliverEvent_toRing {s : State} (empty : s.events.backlog = []) (running : s.events.writesStopped = false)
    (room : s.events.hasRoom = true) (ev : Event) : s.deliverEvent ev = s.placeEvent ev := by
  unfold State.deliverEvent
  simp [empty, running, room]

theorem deliverEvent_held {s : State}
    (h : ¬(s.events.backlog = [] ∧ s.events.writesStopped = false ∧ s.events.hasRoom = true)) (ev : Event) :
    s.deliverEvent ev =
      if s.events.backlog.length < 4 then { s with events := { s.events with backlog := s.events.backlog ++ [ev] } }
      else { s.bump .eventsLost with events := { s.events with overflow := true } } := by
  unfold State.deliverEvent
  refine if_neg fun all => h ?_
  simpa [and_assoc] using all

theorem placeEvent_inside {s : State}
    (h : s.fence.contains (s.events.config.recordAddress s.events.writeIndex) 32 = true) (ev : Event) :
    s.placeEvent ev = { s with
      events := { s.events with writeIndex := (s.events.writeIndex + 1) % s.events.config.size }
      port := { s.port with secondClass := s.port.secondClass ++ [.eventWrite s.events.writeIndex ev] } } := by
  unfold State.placeEvent
  exact if_pos h

theorem placeEvent_outside {s : State}
    (h : ¬s.fence.contains (s.events.config.recordAddress s.events.writeIndex) 32 = true) (ev : Event) :
    s.placeEvent ev = { s with
      events := { s.events with hostFault := true, writesStopped := true }
      counters := { s.counters with eventsLost := s.counters.eventsLost + 1 } } := by
  unfold State.placeEvent
  exact if_neg h

theorem hasRoom_iff (e : EventUnit) : e.hasRoom = true ↔ (e.writeIndex + 1) % e.config.size ≠ e.consumer := bne_iff_ne

/-! ### Draining the backlog -/

/-- The ring place that the `j`th record from now takes. -/
def EventUnit.placeAfter (e : EventUnit) (j : Nat) : Nat :=
  if j = 0 then e.writeIndex else (e.writeIndex + j) % e.config.size

/-- The ring has room for the `j`th record from now. -/
def EventUnit.roomAfter (e : EventUnit) (j : Nat) : Prop := (e.writeIndex + j + 1) % e.config.size ≠ e.consumer

/-- The `j`th record from now lies inside the fence. -/
def State.recordInside (s : State) (j : Nat) : Prop :=
  s.fence.contains (s.events.config.base.toNat + 32 * s.events.placeAfter j) 32 = true

/-- The station once the first `j` of a backlog have their records. -/
def State.drained (s : State) (backlog : List Event) (j : Nat) : State := { s with
  port := { s.port with
    secondClass := s.port.secondClass ++
      (backlog.take j).zipIdx.map fun p => .eventWrite (s.events.placeAfter p.2) p.1 }
  events := { s.events with writeIndex := s.events.placeAfter j, backlog := backlog.drop j } }

/-- The station once the first `j` of a backlog have their records and the next one found its record outside the
fence. -/
def State.drainFailed (s : State) (backlog : List Event) (j : Nat) : State := { s.drained backlog j with
  events := { s.events with
    writeIndex := s.events.placeAfter j, backlog := backlog.drop (j + 1), hostFault := true, writesStopped := true }
  counters := { s.counters with eventsLost := s.counters.eventsLost + 1 } }

/-- The event unit with its write index one on. -/
def EventUnit.moved (e : EventUnit) : EventUnit := { e with writeIndex := (e.writeIndex + 1) % e.config.size }

theorem placeAfter_moved (e : EventUnit) (j : Nat) : e.moved.placeAfter j = e.placeAfter (j + 1) := by
  unfold EventUnit.placeAfter EventUnit.moved
  rw [if_neg (Nat.succ_ne_zero j)]
  by_cases first : j = 0
  · rw [if_pos first, first]
  · rw [if_neg first, Nat.mod_add_mod, Nat.add_assoc, Nat.add_comm 1 j]

theorem roomAfter_moved (e : EventUnit) (j : Nat) : e.moved.roomAfter j ↔ e.roomAfter (j + 1) := by
  unfold EventUnit.roomAfter EventUnit.moved
  rw [Nat.add_assoc, Nat.mod_add_mod]
  have same : e.writeIndex + 1 + (j + 1) = e.writeIndex + (j + 1) + 1 := by omega
  rw [same]

/-- A stopped backlog stays, but for the event that stopped it. -/
theorem drainEvents_stopped {s : State} (h : s.events.writesStopped = true) (l : List Event) :
    drainEvents l s = { s with events := { s.events with backlog := l } } := by
  cases l with
  | nil => rfl
  | cons ev rest =>
    unfold drainEvents
    exact if_pos (by rw [h]; rfl)

/-- The backlog drains until it is empty, or the ring has no room, or a record lies outside the fence. -/
theorem drainEvents_places (l : List Event) (s : State) (running : s.events.writesStopped = false) :
    ∃ j, j ≤ l.length ∧ (∀ i, i < j → s.events.roomAfter i ∧ s.recordInside i) ∧
      ((j = l.length ∨ ¬s.events.roomAfter j) ∧ drainEvents l s = s.drained l j ∨
        j < l.length ∧ s.events.roomAfter j ∧ ¬s.recordInside j ∧ drainEvents l s = s.drainFailed l j) := by
  induction l generalizing s with
  | nil => exact ⟨0, Nat.le_refl 0, fun i h => absurd h (Nat.not_lt_zero i), .inl ⟨.inl rfl, by
      simp [drainEvents, State.drained, EventUnit.placeAfter]⟩⟩
  | cons ev rest ih =>
    by_cases room : s.events.hasRoom = true
    case neg =>
      refine ⟨0, Nat.zero_le _, fun i h => absurd h (Nat.not_lt_zero i), .inl ⟨.inr fun h => room ((hasRoom_iff _).2 h), ?_⟩⟩
      unfold drainEvents
      simp [room, State.drained, EventUnit.placeAfter]
    have drains : drainEvents (ev :: rest) s = drainEvents rest (s.placeEvent ev) := by
      conv_lhs => unfold drainEvents
      simp [room, running]
    rw [drains]
    by_cases inside : s.fence.contains (s.events.config.recordAddress s.events.writeIndex) 32 = true
    case neg =>
      refine ⟨0, Nat.zero_le _, fun i h => absurd h (Nat.not_lt_zero i), .inr ⟨Nat.zero_lt_succ _, (hasRoom_iff _).1 room,
        inside, ?_⟩⟩
      rw [placeEvent_outside inside, drainEvents_stopped rfl]
      simp [State.drainFailed, State.drained, EventUnit.placeAfter]
    obtain ⟨j, within, passed, ends⟩ := ih (s.placeEvent ev) (by rw [placeEvent_inside inside]; exact running)
    have unit : (s.placeEvent ev).events = s.events.moved := by rw [placeEvent_inside inside]; rfl
    have fence : (s.placeEvent ev).fence = s.fence := by rw [placeEvent_inside inside]
    have insideAfter (i : Nat) : (s.placeEvent ev).recordInside i ↔ s.recordInside (i + 1) := by
      unfold State.recordInside
      rw [unit, fence, placeAfter_moved]
      exact Iff.rfl
    have whole : (s.placeEvent ev).drained rest j = s.drained (ev :: rest) (j + 1) := by
      unfold State.drained
      rw [unit]
      simp only [placeAfter_moved, placeEvent_inside inside, List.take_succ_cons, List.zipIdx_cons, List.map_cons,
        List.drop_succ_cons, List.zipIdx_succ, List.map_map, Nat.zero_add, List.append_assoc, List.singleton_append]
      rfl
    refine ⟨j + 1, Nat.succ_le_succ within, fun i h => ?_, ?_⟩
    · cases i with
      | zero => exact ⟨(hasRoom_iff _).1 room, inside⟩
      | succ i =>
        obtain ⟨roomThere, insideThere⟩ := passed i (Nat.lt_of_succ_lt_succ h)
        rw [unit, roomAfter_moved] at roomThere
        exact ⟨roomThere, (insideAfter i).1 insideThere⟩
    · rw [unit, roomAfter_moved, insideAfter] at ends
      refine ends.imp (fun ⟨stops, eq⟩ => ⟨stops.imp (congrArg Nat.succ) id, eq.trans whole⟩)
        fun ⟨more, roomThere, outside, eq⟩ => ⟨Nat.succ_lt_succ more, roomThere, outside, eq.trans ?_⟩
      unfold State.drainFailed
      rw [whole, unit, placeAfter_moved, placeEvent_inside inside]
      rfl

/-! ### EVENT_CONSUMER -/

/-- The station once the consumer is taken, before the backlog drains. -/
def State.consumed (s : State) (value : Word) : State :=
  { s with events := s.events.consume (value.toNat % 1024 % 2 ^ s.events.config.sizeCode.toNat) }

theorem consumerWrite_eq (value : Word) (s : State) : consumerWrite value s =
    if s.events.ready && !s.events.writesStopped then drainEvents s.events.backlog (s.consumed value)
    else s.consumed value := by
  have field : fieldOf value 0 10 = value.toNat % 1024 := congrArg (· % 1024) (Nat.div_one value.toNat)
  unfold consumerWrite
  rw [field]
  rfl

/-- Settles O42: an event goes to the ring, to the backlog or is lost; a backlog drains place after place. -/
theorem aWriteOfTheConsumerDrainsTheBacklog : Obligations.AWriteOfTheConsumerDrainsTheBacklog := by
  refine ⟨fun ev s => ?_, fun _ _ _ _ _ _ _ => rfl, fun value s => ⟨consumerWrite value s, rfl, ?_, ?_⟩⟩
  · refine ⟨fun unset => emit_unset unset ev, fun ready => ?_⟩
    rw [emit_ready ready]
    refine ⟨fun ⟨empty, running, room⟩ inside => ?_, fun ⟨empty, running, room⟩ outside => ?_, fun held short => ?_,
      fun held full => ?_⟩
    · exact (deliverEvent_toRing (s := s.numbered) empty running ((hasRoom_iff s.events.numbered).2 room) _).trans
        (placeEvent_inside (s := s.numbered) inside _)
    · exact (deliverEvent_toRing (s := s.numbered) empty running ((hasRoom_iff s.events.numbered).2 room) _).trans
        (placeEvent_outside (s := s.numbered) outside _)
    · exact (deliverEvent_held (s := s.numbered) (fun ⟨empty, running, room⟩ =>
        held ⟨empty, running, (hasRoom_iff s.events.numbered).1 room⟩) _).trans (if_pos short)
    · exact (deliverEvent_held (s := s.numbered) (fun ⟨empty, running, room⟩ =>
        held ⟨empty, running, (hasRoom_iff s.events.numbered).1 room⟩) _).trans (if_neg (Nat.not_lt.2 full))
  · intro stays
    rw [consumerWrite_eq]
    refine if_neg fun drains => ?_
    rw [Bool.and_eq_true, Bool.not_eq_true'] at drains
    rcases stays with unset | stopped
    · exact Bool.false_ne_true (unset.symm.trans drains.1)
    · exact Bool.false_ne_true (drains.2.symm.trans stopped)
  · intro ready running
    have drains : consumerWrite value s = drainEvents s.events.backlog (s.consumed value) := by
      rw [consumerWrite_eq]
      exact if_pos (by rw [ready, running]; rfl)
    rw [drains]
    exact drainEvents_places s.events.backlog (s.consumed value) running

/-! ### EVENT_BASE and EVENT_CTRL -/

theorem withdraw_granted {port : HostPort} {g : Granted} (h : port.granted = some g) (p : Request → Bool) :
    (port.withdraw p).granted = some { g with discarded := g.discarded || p g.request } := by
  unfold HostPort.withdraw
  rw [h]
  refine congrArg some (show (if p g.request = true then { g with discarded := true } else g) = _ from ?_)
  by_cases wanted : p g.request = true
  · rw [if_pos wanted, wanted, Bool.or_true]
  · rw [if_neg wanted, Bool.eq_false_iff.2 wanted, Bool.or_false]

theorem ringConfigWrite_ignored {s : State} (h : ¬(s.station.state = .disabled ∨ s.station.state = .detached))
    (reg : RingRegister) (value : Word) : ringConfigWrite reg value s = s :=
  if_neg fun ok => h ((configurable_iff _).1 ok)

theorem ringConfigWrite_taken {s : State} (h : s.station.state = .disabled ∨ s.station.state = .detached)
    (reg : RingRegister) (value : Word) : ringConfigWrite reg value s = { s with
      counters := { s.counters with eventsLost := s.counters.eventsLost + BitVec.ofNat 32 s.discardedEvents }
      port := s.port.withdraw Request.isEventWrite
      events := { s.events with
        ready := false, config := s.events.config.write reg value, writeIndex := 0, producer := 0, consumer := 0,
        backlog := [], timer := .stopped } } :=
  if_pos ((configurable_iff _).2 h)

theorem discardedEvents_eq (s : State) : BitVec.ofNat 32 s.discardedEvents =
    BitVec.ofNat 32 (s.events.backlog.length + s.port.secondClass.countP Request.isEventWrite)
      + if s.port.granted.any (fun g => !g.discarded && g.request.isEventWrite) then 1 else 0 := by
  unfold State.discardedEvents
  rw [BitVec.ofNat_add]
  congr 1
  cases s.port.granted with
  | none => rfl
  | some g =>
    show BitVec.ofNat 32 (flagBit _) = if (!g.discarded && g.request.isEventWrite) = true then 1 else 0
    cases !g.discarded && g.request.isEventWrite <;> rfl

/-- Settles O41: off the line the ring is unset and what it held is counted; on it the write is ignored. -/
theorem aWriteOfTheRingRegistersUnsetsTheRing : Obligations.AWriteOfTheRingRegistersUnsetsTheRing := by
  intro reg value s
  refine ⟨fun disabled detached => congrArg Host.Outcome.next (ringConfigWrite_ignored (not_or.2 ⟨disabled, detached⟩) _ _),
    fun free => ⟨_, congrArg Host.Outcome.next (ringConfigWrite_taken free reg value), rfl, ?_, ?_, rfl, rfl, rfl,
      fun g h => withdraw_granted h _, rfl, ?_, fun h => ?_, rfl, rfl, rfl, rfl, rfl, rfl⟩⟩
  · rintro rfl
    rfl
  · rintro rfl
    show RingConfig.write _ .eventCtrl value = _
    unfold RingConfig.write
    rw [ofNat_fieldOf, ofNat_fieldOf, ofNat_fieldOf]
  · rw [BitVec.add_assoc, ← discardedEvents_eq]
  · show Option.map _ s.port.granted = none
    rw [h]
    rfl

end Machine
end Sys2Proof
end

section
/-! The station commands: ATTACH, DETACH and REJOIN. -/

namespace Sys2Proof
namespace Machine

/-! ### Reports of a change of state -/

theorem emit_number {s : State} (h : s.events.ready = true) (ev : Event) :
    (s.emit ev).events.number = s.events.number + 1 := by
  rw [emit_ready h]
  unfold State.deliverEvent State.placeEvent
  dsimp only
  split_ifs <;> rfl

/-- The station once its state has changed, before the change is told. -/
def State.stated (s : State) (new : StationState) : State :=
  { s with station := { s.station with state := new, stateChanged := true } }

theorem reportState_eq (s : State) (new : StationState) (cause : StateCause) (station : Nat) :
    s.reportState new cause station =
      (s.stated new).emit (stateRecord cause.code new s.station.state station (failureCount s.station.history)) := rfl

theorem reportState_reports (s : State) (new : StationState) (cause : StateCause) (station : Nat) :
    s.reports (s.reportState new cause station)
      [stateRecord cause.code new s.station.state station (failureCount s.station.history)] :=
  State.reports_congr (s := s.stated new) rfl rfl rfl (State.reports_emit _ _)

theorem reportState_frame (s : State) (new : StationState) (cause : StateCause) (station : Nat) :
    EngineFrame (s.stated new) (s.reportState new cause station) := EngineFrame.emit _ _

/-- A change of state changes the station's part, and what tells an event changes. -/
theorem reportState_rest (s : State) (new : StationState) (cause : StateCause) (station : Nat) :
    (s.reportState new cause station).station = { s.station with state := new, stateChanged := true } ∧
      (s.reportState new cause station).line = s.line ∧ (s.reportState new cause station).turn = s.turn ∧
      (s.reportState new cause station).table = s.table ∧ (s.reportState new cause station).pool = s.pool ∧
      (s.reportState new cause station).lists = s.lists := emit_rest _ _

theorem State.answer_rest (s : State) (r : Result) : (s.answer r).window = { s.window with result := r } ∧
    (s.answer r).eventState = s.eventState := ⟨rfl, rfl⟩

/-! ### ATTACH -/

theorem configured_iff (s : State) : s.configured = true ↔ s.fence.base.toNat < s.fence.limit.toNat ∧
    4 ≤ s.events.config.sizeCode.toNat ∧ s.events.config.sizeCode.toNat ≤ 10 ∧
    1 ≤ s.events.config.threshold.toNat ∧
    s.events.config.threshold.toNat ≤ 2 ^ s.events.config.sizeCode.toNat - 1 ∧
    s.fence.base.toNat ≤ s.events.config.base.toNat ∧
    s.events.config.base.toNat + 32 * 2 ^ s.events.config.sizeCode.toNat - 1 ≤ s.fence.limit.toNat := by
  have positive : 0 < 2 ^ s.events.config.sizeCode.toNat := Nat.two_pow_pos _
  unfold State.configured Fence.valid RingConfig.valid RingConfig.inside Fence.contains RingConfig.size
  simp only [Bool.and_eq_true, decide_eq_true_eq]
  omega

/-- The station as ATTACH takes it onto the line, before the change is told. -/
def State.onLine (s : State) (driven : Bool) : State := { s with
  events := s.events.start
  station := { s.station with history := [] }
  line := s.line.leaveOff driven
  turn := s.turn.start driven s.clock }

theorem attach_taken {s : State} (state : s.station.state = .detached) (ok : s.configured = true) (driven : Bool) :
    attach driven s = ((s.onLine driven).reportState .joining .attach 0).answer .done := by
  unfold attach
  rw [if_neg (not_not.2 state), ok]
  rfl

theorem start_ready (e : EventUnit) : e.start.ready = true ∧ e.start.number = e.number ∧ e.start.config = e.config ∧
    (e.ready = true → e.start.producer = e.producer ∧ e.start.consumer = e.consumer) ∧
    (e.ready = false → e.start.producer = 0 ∧ e.start.consumer = 0) := by
  unfold EventUnit.start
  cases h : e.ready
  · exact ⟨rfl, rfl, rfl, nofun, fun _ => ⟨rfl, rfl⟩⟩
  · exact ⟨h, rfl, rfl, fun _ => ⟨rfl, rfl⟩, nofun⟩

/-- Settles O31: a configured DETACHED station is taken onto the line, and tells it. -/
theorem attachTakesAConfiguredStationOntoTheLine : Obligations.AttachTakesAConfiguredStationOntoTheLine := by
  intro driven s size valid started
  refine ⟨fun other => congrArg Host.Outcome.next (if_pos other), fun state bad => ?_, fun state good => ?_⟩
  · refine congrArg Host.Outcome.next ?_
    unfold attach
    rw [if_neg (not_not.2 state), Bool.eq_false_iff.2 (mt (configured_iff s).1 bad)]
    rfl
  have eq := attach_taken state ((configured_iff s).2 good) driven
  let on : State := s.onLine driven
  have frame := reportState_frame on .joining .attach 0
  obtain ⟨station, line, turn, table, pool, lists⟩ := reportState_rest on .joining .attach 0
  obtain ⟨ready, number, config, keeps, zero⟩ := start_ready s.events
  refine ⟨_, congrArg Host.Outcome.next eq, ?_, station, ?_, frame.ready.trans ready, ?_, frame.config.trans config,
    fun h => ?_, fun h => ?_, fun h => ?_, fun h => ?_, ?_, table, pool, lists, frame.fence⟩
  · show { (on.reportState .joining .attach 0).window with result := .done } = _
    rw [frame.window]
    rfl
  · refine State.reports_congr (s := on) (t := on.reportState .joining .attach 0) rfl rfl rfl ?_
    have told := reportState_reports on .joining .attach 0
    rw [show on.station.state = .detached from state] at told
    exact told
  · exact (emit_number (s := on.stated .joining) ready _).trans (congrArg (· + 1) number)
  · exact ⟨frame.producer.trans (keeps h).1, frame.consumer.trans (keeps h).2⟩
  · exact ⟨frame.producer.trans (zero h).1, frame.consumer.trans (zero h).2⟩
  · subst h
    exact ⟨congrArg LineInterface.phase line, turn⟩
  · subst h
    exact ⟨congrArg LineInterface.phase line, turn⟩
  · exact congrArg LineInterface.stuckCount line

/-! ### DETACH -/

theorem attached_iff (c : StationState) : c.attached = true ↔ c ≠ .disabled ∧ c ≠ .detached := by cases c <;> decide

/-- The station as DETACH takes it off the line, before the change is told. -/
def State.offLine (s : State) : State := { s with line := s.line.enterOff, turn := s.turn.stop }

theorem detach_taken {s : State} (attached : s.station.state.attached = true) (empty : s.table = []) :
    detach s = (s.offLine.reportState .detached .detach 0).answer .done := by
  unfold detach
  rw [attached, if_neg (by decide), if_neg (by rw [empty]; decide)]
  rfl

/-! ### REJOIN -/

/-- The station as REJOIN finds it, its history emptied. -/
def State.forgiven (s : State) : State := { s with station := { s.station with history := [] } }

theorem rejoin_taken {s : State} (quiet : s.station.state = .quiet) : rejoin s =
    ((s.forgiven.reportState .joining .rejoin 0).joinIfOpen.answer .done).finish := by
  unfold rejoin
  exact if_neg (not_not.2 quiet)

/-- REJOIN's changes of state: JOINING, and ACTIVE at once on an OPEN line. -/
theorem rejoin_reports {s : State} (quiet : s.station.state = .quiet) :
    let u := (s.forgiven.reportState .joining .rejoin 0).joinIfOpen
    u.window = s.window ∧ u.station = { s.station with
        state := if s.turn.condition = .opened then .active else .joining, history := [], stateChanged := true } ∧
      u.turn = s.turn ∧ u.line = s.line ∧ u.table = s.table ∧ u.pool = s.pool ∧ u.lists = s.lists ∧
      s.reports u (stateRecord 7 .joining .quiet 0 0 ::
        if s.turn.condition = .opened then [stateRecord 3 .active .joining 0 0] else []) := by
  intro u
  have frame := reportState_frame s.forgiven .joining .rejoin 0
  obtain ⟨station, line, turn, table, pool, lists⟩ := reportState_rest s.forgiven .joining .rejoin 0
  have told : s.reports (s.forgiven.reportState .joining .rejoin 0) [stateRecord 7 .joining .quiet 0 0] := by
    rw [← quiet]
    exact State.reports_congr (s := s.forgiven) rfl rfl rfl (reportState_reports s.forgiven .joining .rejoin 0)
  have fence : (s.forgiven.reportState .joining .rejoin 0).fence = s.fence := frame.fence
  have joining : u = if s.turn.condition = .opened then
      (s.forgiven.reportState .joining .rejoin 0).reportState .active .joinedByOpen 0
      else s.forgiven.reportState .joining .rejoin 0 := by
    show State.joinIfOpen _ = _
    unfold State.joinIfOpen
    rw [station, turn]
    simp only [true_and]
    rfl
  by_cases opened : s.turn.condition = .opened
  · rw [if_pos opened] at joining ⊢
    rw [if_pos opened, joining]
    generalize s.forgiven.reportState .joining .rejoin 0 = v at *
    have frame' := reportState_frame v .active .joinedByOpen 0
    obtain ⟨station', line', turn', table', pool', lists'⟩ := reportState_rest v .active .joinedByOpen 0
    have told' := reportState_reports v .active .joinedByOpen 0
    rw [station] at station' told'
    exact ⟨frame'.window.trans frame.window, station', turn'.trans turn, line'.trans line, table'.trans table,
      pool'.trans pool, lists'.trans lists, State.reports_append fence told told'⟩
  · rw [if_neg opened] at joining ⊢
    rw [if_neg opened, joining]
    exact ⟨frame.window, station, turn, line, table, pool, lists, told⟩

/-- Settles O32: each command refuses or moves the station, and tells each change. -/
theorem detachAndRejoinMoveTheStation : Obligations.DetachAndRejoinMoveTheStation := by
  refine ⟨fun s => ⟨fun off => ?_, fun detached disabled => ⟨fun some => ?_, fun empty => ?_⟩⟩, fun s =>
    ⟨fun other => congrArg Host.Outcome.next (if_pos other), fun quiet => ?_⟩⟩
  · have away : s.station.state.attached = false := by rcases off with h | h <;> rw [h] <;> rfl
    refine congrArg Host.Outcome.next ?_
    unfold detach
    rw [away]
    rfl
  · refine congrArg Host.Outcome.next ?_
    unfold detach
    rw [(attached_iff _).2 ⟨disabled, detached⟩, if_neg (by decide), List.isEmpty_eq_false_iff.2 some]
    rfl
  · have frame := reportState_frame s.offLine .detached .detach 0
    obtain ⟨station, line, turn, -, pool, -⟩ := reportState_rest s.offLine .detached .detach 0
    refine ⟨_, congrArg Host.Outcome.next (detach_taken ((attached_iff _).2 ⟨disabled, detached⟩) empty), ?_, station,
      line, turn, frame.fence, frame.config, frame.ready, frame.producer, frame.consumer,
      State.reports_congr (s := s.offLine) rfl rfl rfl (reportState_reports s.offLine .detached .detach 0), pool,
      frame.lineCounters⟩
    show { (s.offLine.reportState .detached .detach 0).window with result := .done } = _
    rw [frame.window]
    rfl
  · obtain ⟨window, station, turn, line, table, pool, lists, told⟩ := rejoin_reports quiet
    refine ⟨_, congrArg Host.Outcome.next (rejoin_taken quiet), ?_, station, turn, line, table, pool, lists, told⟩
    rw [(State.answer_rest _ _).1, window]

end Machine
end Sys2Proof
end

section
/-! The entry commands: what refuses them, what an OPEN creates, and what RESUME takes up. -/

namespace Sys2Proof
namespace Machine

/-! ### The checks of an entry command -/

theorem onEntry_offLine {s : State} (h : s.station.state.attached = false) (n : BitVec 16)
    (effect : Entry → State → State) : onEntry n effect s = s.answer .badState := by
  unfold onEntry
  rw [h]
  rfl

theorem onEntry_badStream {s : State} (h : s.station.state.attached = true) {n : BitVec 16} (stream : 1024 ≤ n.toNat)
    (effect : Entry → State → State) : onEntry n effect s = s.answer .badStream := by
  unfold onEntry
  rw [h, if_neg (by decide), if_pos (show Config.streamCount ≤ n.toNat from stream)]

theorem entryOf_isNone {s : State} {stream : Nat} (h : stream ∉ s.table.map (·.stream)) : s.entryOf stream = none :=
  List.find?_eq_none.2 fun e he same => h (List.mem_map.2 ⟨e, he, beq_iff_eq.1 same⟩)

theorem entryOf_isSome {s : State} {stream : Nat} (h : stream ∈ s.table.map (·.stream)) :
    (s.entryOf stream).isSome = true := by
  obtain ⟨e, he, same⟩ := List.mem_map.1 h
  exact List.find?_isSome.2 ⟨e, he, beq_iff_eq.2 same⟩

theorem onEntry_noEntry {s : State} (h : s.station.state.attached = true) {n : BitVec 16} (stream : n.toNat < 1024)
    (none : n.toNat ∉ s.table.map (·.stream)) (effect : Entry → State → State) :
    onEntry n effect s = s.answer .noEntry := by
  unfold onEntry
  rw [h, if_neg (by decide), if_neg (show ¬Config.streamCount ≤ n.toNat from Nat.not_le.2 stream), entryOf_isNone none]

theorem openEntry_offLine {s : State} (h : s.station.state.attached = false) (n : BitVec 16) (role : Role) :
    openEntry n role s = s.answer .badState := by
  unfold openEntry
  rw [h]
  rfl

theorem openEntry_badStream {s : State} (h : s.station.state.attached = true) {n : BitVec 16} (stream : 1024 ≤ n.toNat)
    (role : Role) : openEntry n role s = s.answer .badStream := by
  unfold openEntry
  rw [h, if_neg (by decide), if_pos (show Config.streamCount ≤ n.toNat from stream)]

theorem openEntry_inUse {s : State} (h : s.station.state.attached = true) {n : BitVec 16} (stream : n.toNat < 1024)
    (used : n.toNat ∈ s.table.map (·.stream)) (role : Role) : openEntry n role s = s.answer .inUse := by
  unfold openEntry
  rw [h, if_neg (by decide), if_neg (show ¬Config.streamCount ≤ n.toNat from Nat.not_le.2 stream),
    if_pos (entryOf_isSome used)]

/-- An OPEN of an unused stream looks for an index. -/
theorem openEntry_unused {s : State} (h : s.station.state.attached = true) {n : BitVec 16} (stream : n.toNat < 1024)
    (unused : n.toNat ∉ s.table.map (·.stream)) (role : Role) : openEntry n role s =
      s.lowestFree.elim (s.answer .tableFull) fun index =>
        if s.badHead then s.answer .badAddress
        else ((s.createEntry index n.toNat role).answer .done).finish := by
  unfold openEntry
  rw [h, if_neg (by decide), if_neg (show ¬Config.streamCount ≤ n.toNat from Nat.not_le.2 stream),
    if_neg (by rw [entryOf_isNone unused]; decide)]
  cases s.lowestFree <;> rfl

theorem lowestFree_none_iff {s : State} (table : s.tableOk) : s.lowestFree = none ↔ 32 ≤ s.table.length := by
  obtain ⟨sorted, -, -, bounds⟩ := table
  have distinct : (s.table.map (·.index)).Nodup := sorted.imp fun h => Nat.ne_of_lt h
  have inRange : s.table.map (·.index) ⊆ List.range 32 := by
    intro i hi
    obtain ⟨e, he, rfl⟩ := List.mem_map.1 hi
    exact List.mem_range.2 (bounds e he).1
  have all : s.lowestFree = none ↔ List.range 32 ⊆ s.table.map (·.index) := by
    unfold State.lowestFree
    rw [List.find?_eq_none]
    refine forall₂_congr fun i _ => ?_
    rw [Bool.not_eq_true', Bool.not_eq_false, List.any_eq_true, List.mem_map]
    simp only [beq_iff_eq]
  rw [all]
  refine ⟨fun covers => ?_, fun full => ?_⟩
  · have := (List.subperm_of_subset List.nodup_range covers).length_le
    rwa [List.length_range, List.length_map] at this
  · exact ((List.subperm_of_subset distinct inRange).perm_of_length_le (by simpa using full)).symm.subset

theorem lowestFree_eq {s : State} {i : Nat} (bound : i < 32) (free : i ∉ s.table.map (·.index))
    (below : ∀ j, j < i → j ∈ s.table.map (·.index)) : s.lowestFree = some i := by
  refine List.find?_range_eq_some.2 ⟨?_, List.mem_range.2 bound, fun j hj => ?_⟩
  · rw [Bool.not_eq_true', List.any_eq_false]
    exact fun e he same => free (List.mem_map.2 ⟨e, he, beq_iff_eq.1 same⟩)
  · obtain ⟨e, he, same⟩ := List.mem_map.1 (below j hj)
    rw [Bool.not_not]
    exact List.any_eq_true.2 ⟨e, he, beq_iff_eq.2 same⟩

theorem checkDescriptor_eq_none_iff (f : Fence) (a : Word) :
    f.checkDescriptor a = none ↔ a.toNat % 16 = 0 ∧ f.contains a.toNat 16 = true := by
  unfold Fence.checkDescriptor
  split_ifs with odd inside <;> simp_all

theorem badHead_iff (s : State) : s.badHead = true ↔ s.window.argument ≠ 0 ∧
    ¬(s.window.argument.toNat % 16 = 0 ∧ s.fence.contains s.window.argument.toNat 16 = true) := by
  unfold State.badHead
  rw [Bool.and_eq_true, bne_iff_ne, ← checkDescriptor_eq_none_iff, Option.isSome_iff_ne_none]

theorem exec_opens {n : BitVec 16} {c : Instr} (h : c ∈ [.openPublish n, .openSubscribe n]) :
    ∃ role : State → Role, ∀ s, exec c s = .next (openEntry n (role s) s) := by
  simp only [List.mem_cons, List.not_mem_nil, or_false] at h
  rcases h with rfl | rfl
  · exact ⟨_, fun _ => rfl⟩
  · exact ⟨_, fun _ => rfl⟩

theorem exec_others {n : BitVec 16} {c : Instr} (h : c ∈ [.resume n, .close n, .abort n, .info n]) :
    ∃ effect, ∀ s, exec c s = .next (onEntry n effect s) := by
  simp only [List.mem_cons, List.not_mem_nil, or_false] at h
  rcases h with rfl | rfl | rfl | rfl
  all_goals exact ⟨_, fun _ => rfl⟩

/-- Settles O33: the checks come one after another, and a refused command only answers. -/
theorem aRefusedEntryCommandChangesResultAlone : Obligations.ARefusedEntryCommandChangesResultAlone := by
  intro n s table gives opens others attached entry
  have onTheLine : attached ↔ s.station.state.attached = true := (attached_iff _).symm
  have both {r : Result} (opening : ∀ role, openEntry n role s = s.answer r)
      (other : ∀ effect, onEntry n effect s = s.answer r) : ∀ c ∈ opens ++ others, gives c r := by
    intro c hc
    rcases List.mem_append.1 hc with h | h
    · obtain ⟨role, eq⟩ := exec_opens h
      exact (eq s).trans (congrArg Host.Outcome.next (opening _))
    · obtain ⟨effect, eq⟩ := exec_others h
      exact (eq s).trans (congrArg Host.Outcome.next (other _))
  have ofOpens {r : Result} (opening : ∀ role, openEntry n role s = s.answer r) : ∀ c ∈ opens, gives c r := by
    intro c h
    obtain ⟨role, eq⟩ := exec_opens h
    exact (eq s).trans (congrArg Host.Outcome.next (opening _))
  refine ⟨fun code unknown => ?_, fun off => ?_, fun on big => ?_, fun on stream => ⟨fun free => ?_, fun used => ?_,
    fun free full => ?_, fun free room head bad => ?_⟩⟩
  · have codeUnknown : unknownCode code = true := by
      unfold unknownCode
      rw [Bool.or_eq_true, beq_iff_eq, decide_eq_true_eq]
      exact unknown
    exact congrArg Host.Outcome.next (if_pos codeUnknown)
  · have away : s.station.state.attached = false := Bool.eq_false_iff.2 (mt onTheLine.2 off)
    exact both (openEntry_offLine away n) (onEntry_offLine away n)
  · exact both (openEntry_badStream (onTheLine.1 on) big) (onEntry_badStream (onTheLine.1 on) big)
  · intro c h
    obtain ⟨effect, eq⟩ := exec_others h
    exact (eq s).trans (congrArg Host.Outcome.next (onEntry_noEntry (onTheLine.1 on) stream free effect))
  · exact ofOpens (openEntry_inUse (onTheLine.1 on) stream used)
  · refine ofOpens fun role => ?_
    rw [openEntry_unused (onTheLine.1 on) stream free, (lowestFree_none_iff table).2 (Nat.le_of_eq full.symm)]
    rfl
  · refine ofOpens fun role => ?_
    obtain ⟨i, lowest⟩ := Option.ne_none_iff_exists'.1 (mt (lowestFree_none_iff table).1 (Nat.not_le.2 room))
    have refused : s.badHead = true := (badHead_iff s).2 ⟨head, by
      unfold Fence.contains
      rw [Bool.and_eq_true, decide_eq_true_eq, decide_eq_true_eq]
      omega⟩
    rw [openEntry_unused (onTheLine.1 on) stream free, lowest]
    exact if_pos refused

/-! ### What settling leaves of a publish entry that has nothing to segment -/

theorem wantsClaim_held {e : Entry} (h : e.wantsClaim = true) : ∃ a d, e.chain.current = .held a d := by
  unfold Entry.wantsClaim at h
  split at h
  · exact ⟨_, _, ‹_›⟩
  · cases h

/-- A publish entry with nothing to segment or to resend: no step of the segmenters is about it. -/
structure Entry.Unstarted (e : Entry) (p : PublishEntry) : Prop where
  role : e.role = .publish p
  replay : p.replayQueue = []
  claim : p.claim ≠ .closing
  segmenter : p.segmenter ≠ .filling
  blockless : p.segmenter = .ready → ∀ a d, e.chain.current ≠ .held a d

/-- The entry stands in the table as it is, requests of it wait in the third class, and it waits for no cell that its
block could take. -/
structure StandsAt (e : Entry) (asked : List Request) (s : State) : Prop where
  indexes : (s.table.map (·.index)).Nodup
  entry : s.entryAt e.index = some e
  waiting : ∀ r ∈ asked, r ∈ s.port.thirdClass
  claimless : e.index ∈ s.pool.waiting → ∀ a d, e.chain.current ≠ .held a d

namespace StandsAt

variable {e : Entry} {p : PublishEntry} {asked : List Request} {s : State}

theorem ofTable {t : State} (h : StandsAt e asked s) (table : t.table = s.table) (port : t.port = s.port)
    (waits : e.index ∈ t.pool.waiting → e.index ∈ s.pool.waiting) : StandsAt e asked t := by
  refine ⟨table ▸ h.indexes, ?_, port ▸ h.waiting, h.claimless ∘ waits⟩
  unfold State.entryAt
  rw [table]
  exact h.entry

/-- A change of publish fields that is none for this entry. -/
theorem modifyPublish (h : StandsAt e asked s) (j : Nat) (f : PublishEntry → PublishEntry)
    (same : j = e.index → e.role.mapPublish f = e.role) : StandsAt e asked (s.modifyPublish j f) := by
  refine ⟨?_, ?_, h.waiting, h.claimless⟩
  · have keys := congrArg (List.map Prod.fst) (modifyPublish_keys s j f)
    rw [List.map_map, List.map_map] at keys
    exact keys.symm ▸ h.indexes
  · rw [modifyPublish_entryAt, h.entry, Option.map_some]
    split
    case isTrue there => rw [same there.symm]
    case isFalse => rfl

theorem freeCell (h : StandsAt e asked s) (c : Nat) : StandsAt e asked (s.freeCell c) := h.ofTable rfl rfl id

/-- A cell joins the send queue of another entry, or of this one were it to hold a block. -/
theorem joinSend (h : StandsAt e asked s) {j : Nat} (blockless : j = e.index → ∀ a d, e.chain.current ≠ .held a d)
    (c : Nat) : StandsAt e asked (s.joinSend j c) := by
  unfold State.joinSend
  split
  · exact h.freeCell c
  · rename_i f found
    split
    · rename_i q a d role held
      refine h.modifyPublish j _ fun there => ?_
      rw [there, h.entry] at found
      cases found
      exact absurd held (blockless there a d)
    · exact h.freeCell c

theorem releaseCell (h : StandsAt e asked s) (c : Nat) : StandsAt e asked (s.releaseCell c) := by
  unfold State.releaseCell
  split
  · rename_i j next
    have waits : j ∈ s.pool.waiting := by simpa using List.find?_some next
    refine joinSend ?_ (fun there => h.claimless (there ▸ waits)) c
    exact h.ofTable rfl rfl List.mem_of_mem_erase
  · exact h.freeCell c

theorem releaseCells (h : StandsAt e asked s) (l : List Nat) : StandsAt e asked (s.releaseCells l) := by
  unfold State.releaseCells
  induction l generalizing s with
  | nil => exact h
  | cons c rest ih => exact ih (h.releaseCell c)

theorem checkClosing (h : StandsAt e asked s) (rests : e.Unstarted p) (j : Nat) :
    StandsAt e asked (s.checkClosing j) := by
  refine h.modifyPublish j _ fun _ => ?_
  rw [rests.role, Role.mapPublish, if_neg rests.claim]

theorem unlistResend (h : StandsAt e asked s) (rests : e.Unstarted p) (j stream : Nat) (q : Seq) :
    StandsAt e asked (s.unlistResend j stream q) := by
  unfold State.unlistResend
  split
  · refine checkClosing ?_ rests j
    exact h.ofTable rfl rfl id
  · exact h

theorem leaveReplay (h : StandsAt e asked s) (rests : e.Unstarted p) (a : AgedCell) :
    StandsAt e asked (s.leaveReplay a) := by
  have left := h.modifyPublish a.index (fun v => { v with replayQueue := v.replayQueue.filter (·.cell != a.cell) })
    fun _ => by
      rw [rests.role, Role.mapPublish, rests.replay, List.filter_nil, ← rests.replay]
  unfold State.leaveReplay
  split
  · refine unlistResend ?_ rests _ _ _
    exact left.ofTable rfl rfl id
  · exact left.ofTable rfl rfl id

theorem claimCell (h : StandsAt e asked s) (rests : e.Unstarted p) {c : Nat} {t : State}
    (claimed : s.claimCell = some (c, t)) : StandsAt e asked t := by
  unfold State.claimCell at claimed
  split at claimed
  · cases claimed
    exact h.ofTable rfl rfl id
  · split at claimed
    · cases claimed
      exact (h.leaveReplay rests _).ofTable rfl rfl id
    · cases claimed

theorem segmenterClaim (h : StandsAt e asked s) (rests : e.Unstarted p) {j : Nat} (other : j ≠ e.index) :
    StandsAt e asked (s.segmenterClaim j) := by
  unfold State.segmenterClaim
  split
  · rename_i c t claimed
    exact (h.claimCell rests claimed).joinSend (fun there => absurd there other) c
  · refine modifyPublish ?_ j _ fun there => absurd there other
    refine h.ofTable rfl rfl fun waits => ?_
    exact (List.mem_append.1 waits).resolve_right fun new => other (List.mem_singleton.1 new).symm

theorem emit (h : StandsAt e asked s) (ev : Event) : StandsAt e asked (s.emit ev) := by
  obtain ⟨unit, writes, lost, eq, -⟩ := emit_shape s ev
  rw [eq]
  exact ⟨h.indexes, h.entry, h.waiting, h.claimless⟩

theorem requestPayload (h : StandsAt e asked s) (own : ∀ r ∈ asked, r.index? = some e.index) {f : Entry}
    (found : s.entryAt f.index = some f) (other : f.index ≠ e.index) : StandsAt e asked (s.requestPayload f) := by
  unfold State.requestPayload
  split
  · rename_i q a d role held
    split
    · dsimp only
      split
      · exact ⟨h.indexes, h.entry, fun r hr => List.mem_append_left _ (h.waiting r hr), h.claimless⟩
      · unfold State.faultEntry
        rw [found]
        dsimp only
        rw [role]
        refine emit (releaseCells (modifyPublish ?_ f.index _ fun there => absurd there other) _) _
        refine ⟨h.indexes, h.entry, fun r hr => List.mem_filter.2 ⟨h.waiting r hr, ?_⟩,
          fun waits => h.claimless (List.mem_of_mem_filter waits)⟩
        simpa [own r hr] using Ne.symm other
    · exact h
  · exact h

theorem settleRounds (h : StandsAt e asked s) (rests : e.Unstarted p) (own : ∀ r ∈ asked, r.index? = some e.index)
    (n : Nat) : StandsAt e asked (Machine.settleRounds n s) := by
  induction n generalizing s with
  | zero => exact h
  | succ n ih =>
    unfold Machine.settleRounds
    split
    · exact h
    · rename_i f first
      have wants := List.find?_some first
      have found := CellFrame.entryAt_of_mem h.indexes (List.mem_of_find?_eq_some first)
      have other : f.index ≠ e.index := by
        intro same
        rw [same, h.entry] at found
        cases found
        rw [Bool.or_eq_true] at wants
        rcases wants with claims | reads
        · obtain ⟨a, d, held⟩ := wantsClaim_held claims
          obtain ⟨q, role, ready, -⟩ := wantsClaim_some claims
          rw [rests.role] at role
          cases role
          exact rests.blockless ready a d held
        · unfold State.wantsRead at reads
          rw [rests.role] at reads
          exact rests.segmenter (beq_iff_eq.1 (Bool.and_eq_true _ _ ▸ reads).1)
      refine ih ?_
      split
      · exact h.segmenterClaim rests other
      · exact h.requestPayload own found other

theorem finish (h : StandsAt e asked s) (rests : e.Unstarted p) (own : ∀ r ∈ asked, r.index? = some e.index) :
    StandsAt e asked s.finish :=
  (h.settleRounds rests own Config.poolCells).ofTable rfl rfl id

end StandsAt

end Machine
end Sys2Proof
end

section
/-! What an OPEN creates, and what RESUME takes up. -/

namespace Sys2Proof
namespace Machine

/-! ### A new entry -/

/-- The entry that an OPEN creates. -/
def State.newEntry (s : State) (index stream : Nat) (role : Role) : Entry :=
  ⟨index, s.nextSerial, stream, .ofHead s.window.argument, role⟩

/-- Taking a new entry out again leaves the others in their places. -/
theorem insertEntry_filter {new : Entry} {table : List Entry} (free : new.index ∉ table.map (·.index)) :
    (insertEntry new table).filter (·.index ≠ new.index) = table := by
  have others : table.filter (·.index ≠ new.index) = table :=
    List.filter_eq_self.2 fun e he => decide_eq_true fun same => free (List.mem_map.2 ⟨e, he, same⟩)
  induction table with
  | nil => simp [insertEntry]
  | cons e rest ih =>
    rw [List.map_cons, List.mem_cons, not_or] at free
    unfold insertEntry
    split
    case isTrue => rw [List.filter_cons_of_neg (by simp), others]
    case isFalse =>
      have other : e.index ≠ new.index := Ne.symm free.1
      rw [List.filter_cons_of_pos (by simpa using other), ih free.2 ?_]
      rwa [List.filter_cons_of_pos (by simpa using other), List.cons_inj_right] at others

theorem takeHead_keys (s : State) (i : Nat) (head : Word) :
    (s.takeHead i head).table.map Entry.key = s.table.map Entry.key := by
  unfold State.takeHead
  rw [request_table]
  show (s.table.map _).map Entry.key = _
  rw [List.map_map]
  refine List.map_congr_left fun e _ => ?_
  rw [Function.comp_apply]
  split <;> rfl

/-- The table after an OPEN has the keys of the new entry in its place. -/
theorem createEntry_keys (s : State) (i stream : Nat) (role : Role) : (s.createEntry i stream role).table.map Entry.key =
    (s.withEntry i stream role).table.map Entry.key := by
  rw [createEntry_eq]
  split
  case isTrue => rfl
  case isFalse => exact takeHead_keys _ _ _

theorem createEntry_tableOk {s : State} {i stream : Nat} (role : Role) (table : s.tableOk) (bound : i < 32)
    (free : i ∉ s.table.map (·.index)) (streamBound : stream < 1024) (unused : stream ∉ s.table.map (·.stream)) :
    (s.createEntry i stream role).tableOk := by
  have made := withEntry_tableOk role table bound free streamBound unused
  rw [createEntry_eq]
  split
  case isTrue => exact made
  case isFalse => exact (EngineFrame.takeHead _ _ _).keeps.toSteady.table made

theorem createEntry_entryAt {s : State} {i stream : Nat} (role : Role) (table : s.tableOk) (bound : i < 32)
    (free : i ∉ s.table.map (·.index)) (streamBound : stream < 1024) (unused : stream ∉ s.table.map (·.stream)) :
    (s.createEntry i stream role).entryAt i = some (s.newEntry i stream role) := by
  let blank : Entry := ⟨i, s.nextSerial, stream, .ofHead 0, role⟩
  have mem : blank ∈ (s.withEntry i stream role).table := (insertEntry_perm blank s.table).symm.subset List.mem_cons_self
  have made : (s.withEntry i stream role).entryAt i = some blank :=
    (withEntry_tableOk role table bound free streamBound unused).entryAt mem
  rw [createEntry_eq]
  split
  case isTrue none => rw [made, State.newEntry, none]
  case isFalse =>
    unfold State.takeHead State.entryAt
    rw [request_table]
    show ((s.withEntry i stream role).modifyChain i _).entryAt i = _
    rw [modifyChain_entryAt, made, Option.map_some, if_pos rfl]
    rfl

/-- A non-zero head is asked for in the class of the entry's role. -/
theorem createEntry_headRead {s : State} {i stream : Nat} {role : Role} (head : s.window.argument ≠ 0)
    (made : (s.withEntry i stream role).entryAt i = some ⟨i, s.nextSerial, stream, .ofHead 0, role⟩) :
    match role with
    | .publish _ => .headRead i s.window.argument ∈ (s.createEntry i stream role).port.thirdClass
    | .subscribe _ => .headRead i s.window.argument ∈ (s.createEntry i stream role).port.firstClass := by
  rw [createEntry_eq, if_neg head]
  unfold State.takeHead State.readClassAt
  rw [made]
  cases role
  · exact List.mem_append_right _ (List.mem_singleton_self _)
  · exact List.mem_append_right _ (List.mem_singleton_self _)

/-- The table after an OPEN: the new entry in its place among the others, once settling has left it as created. -/
theorem created_table {s t : State} {i stream : Nat} {role : Role} (free : i ∉ s.table.map (·.index)) (ok : t.tableOk)
    (keys : t.table.map Entry.key = (s.withEntry i stream role).table.map Entry.key)
    (entry : t.entryAt i = some (s.newEntry i stream role)) :
    t.entryOf stream = some (s.newEntry i stream role) ∧
      (t.table.filter (·.index ≠ i)).map Entry.key = s.table.map Entry.key ∧
      (t.table.map (·.index)).Pairwise (· < ·) := by
  refine ⟨ok.entryOf (List.mem_of_find?_eq_some entry), ?_, ok.1⟩
  have byKey (l : List Entry) :
      (l.filter (·.index ≠ i)).map Entry.key = (l.map Entry.key).filter (·.1 ≠ i) := by
    rw [List.filter_map]
    rfl
  rw [byKey, keys, ← byKey]
  exact congrArg (List.map Entry.key) (insertEntry_filter (new := ⟨i, s.nextSerial, stream, .ofHead 0, role⟩) free)

theorem openEntry_taken {s : State} (attached : s.station.state.attached = true) {n : BitVec 16} (stream : n.toNat < 1024)
    (unused : n.toNat ∉ s.table.map (·.stream)) {i : Nat} (lowest : s.lowestFree = some i)
    (head : s.window.argument = 0 ∨ (s.window.argument.toNat % 16 = 0 ∧
      s.fence.contains s.window.argument.toNat 16 = true)) (role : Role) :
    openEntry n role s = ((s.createEntry i n.toNat role).answer .done).finish := by
  rw [openEntry_unused attached stream unused, lowest]
  exact if_neg fun bad => ((badHead_iff s).1 bad).elim fun present fails => head.elim present fails

theorem createEntry_window (s : State) (i stream : Nat) (role : Role) :
    ((s.createEntry i stream role).answer .done).finish.window = { s.window with result := .done } := by
  have made : (s.createEntry i stream role).window = s.window := by
    rw [createEntry_eq]
    split
    · rfl
    · exact (EngineFrame.takeHead _ _ _).window
  rw [(EngineFrame.finish _).window, (State.answer_rest _ _).1, made]

/-- The read of a new entry's head, if it has one. -/
def headAsked (i : Nat) (head : Word) : List Request := if head = 0 then [] else [.headRead i head]

theorem mem_headAsked {i : Nat} {head : Word} {r : Request} :
    r ∈ headAsked i head ↔ head ≠ 0 ∧ r = .headRead i head := by
  unfold headAsked
  split
  case isTrue none => exact ⟨nofun, fun h => absurd none h.1⟩
  case isFalse some => rw [List.mem_singleton, and_iff_right some]

/-- Settles O34: the entry is created in its place, and settling leaves it and its head's read. -/
theorem anOpenCreatesAnEntryAtTheLowestFreeIndex : Obligations.AnOpenCreatesAnEntryAtTheLowestFreeIndex := by
  intro n i s table attached stream unused bound free below headOk head chain created
  have lowest := lowestFree_eq bound free below
  have made (role : Role) := createEntry_tableOk role table bound free stream unused
  have entry (role : Role) := createEntry_entryAt role table bound free stream unused
  have blank (role : Role) : (s.withEntry i n.toNat role).entryAt i = some ⟨i, s.nextSerial, n.toNat, .ofHead 0, role⟩ :=
    (withEntry_tableOk role table bound free stream unused).entryAt
      ((insertEntry_perm _ s.table).symm.subset List.mem_cons_self)
  have distinct (role : Role) : (((s.createEntry i n.toNat role).answer .done).table.map (·.index)).Nodup :=
    (made role).1.imp fun h => Nat.ne_of_lt h
  have tables (role : Role) (at' : ((s.createEntry i n.toNat role).answer .done).finish.entryAt i =
      some (s.newEntry i n.toNat role)) := created_table (t := ((s.createEntry i n.toNat role).answer .done).finish) free
        ((Keeps.finish ((s.createEntry i n.toNat role).answer .done)).toSteady.table (made role))
        ((CellFrame.finish _ (distinct role)).keys.trans (createEntry_keys s i n.toNat role)) at'
  constructor
  · let p := PublishEntry.created head
    have blockless (a : Word) (d : Descriptor) : (Chain.ofHead head).current ≠ .held a d := by
      unfold Chain.ofHead
      split <;> exact nofun
    have rests : (s.newEntry i n.toNat (.publish p)).Unstarted p := by
      refine ⟨rfl, rfl, nofun, ?_, fun _ => blockless⟩
      · show (if head = 0 then Segmenter.noChain else .ready) ≠ .filling
        split <;> exact nofun
    have waits : StandsAt (s.newEntry i n.toNat (.publish p)) (headAsked i head)
        ((s.createEntry i n.toNat (.publish p)).answer .done) := by
      refine ⟨distinct _, entry _, fun r hr => ?_, fun _ => blockless⟩
      obtain ⟨some, rfl⟩ := mem_headAsked.1 hr
      exact createEntry_headRead some (blank (.publish p))
    have done := waits.finish rests fun r hr => by
      obtain ⟨-, rfl⟩ := mem_headAsked.1 hr
      rfl
    exact ⟨_, congrArg Host.Outcome.next (openEntry_taken attached stream unused lowest headOk _),
      ⟨createEntry_window s i _ _, tables _ done.entry⟩, fun some => done.waiting _ (mem_headAsked.2 ⟨some, rfl⟩)⟩
  · have done := finish_subscribe _ i _ _ (distinct (.subscribe .created)) (entry (.subscribe .created)) rfl
    exact ⟨_, congrArg Host.Outcome.next (openEntry_taken attached stream unused lowest headOk _),
      ⟨createEntry_window s i _ _, tables _ done.1⟩, fun some => done.2 _ (createEntry_headRead some (blank (.subscribe .created))) rfl⟩

/-! ### RESUME -/

theorem readClassAt_eq {s : State} {e : Entry} (there : s.entryAt e.index = some e) :
    s.readClassAt e.index = if e.publish?.isSome then .third else .first := by
  unfold State.readClassAt
  rw [there, Option.map_some, Option.getD_some]
  unfold Entry.readClass Entry.publish?
  cases e.role <;> rfl

theorem answer_request (s : State) (cls : PortClass) (r : Request) (result : Result) :
    (s.request cls r).answer result = (s.answer result).request cls r := by
  cases cls <;> rfl

/-- Taking a head and answering come in either order. -/
theorem takeHead_answer {s : State} {e : Entry} (there : s.entryAt e.index = some e) {head : Word} (some : head ≠ 0) :
    (s.takeHead e.index head).answer .done =
      ((s.answer .done).modifyChain e.index fun _ => ⟨true, .reading head, .none, none⟩).request
        (if e.publish?.isSome then .third else .first) (.headRead e.index head) := by
  unfold State.takeHead
  rw [readClassAt_eq there, answer_request, Chain.ofHead, if_neg some]
  rfl

/-- So do looking at the tail again and answering. -/
theorem lookAgain_answer {s : State} {e : Entry} (there : s.entryAt e.index = some e) (tail : Word) :
    ((s.modifySubscribe e.index fun u => { u with chainEnded := false }).lookAgain e.index tail).answer .done =
      (((s.answer .done).modifySubscribe e.index fun u => { u with chainEnded := false }).modifyChain e.index
        fun c => { c with lookAhead := .looking }).request (if e.publish?.isSome then .third else .first)
          (.lastLook e.index tail) := by
  have changed : (s.modifySubscribe e.index fun u => { u with chainEnded := false }).readClassAt e.index =
      s.readClassAt e.index := by
    unfold State.readClassAt
    rw [modifySubscribe_entryAt, there, Option.map_some, if_pos rfl, Option.map_some, Option.map_some, Option.getD_some,
      Option.getD_some]
    unfold Entry.readClass
    cases e.role <;> rfl
  unfold State.lookAgain
  rw [answer_request, ← readClassAt_eq there, ← changed]
  rfl

/-- Settles O35: RESUME's cases, on the entry it finds. -/
theorem resumeTakesAHeadOrLooksAtTheTailAgain : Obligations.ResumeTakesAHeadOrLooksAtTheTailAgain := by
  intro n s e table attached stream mem named cls done headOk
  have found : exec (.resume n) s = .next (resumeEntry e s) :=
    congrArg Host.Outcome.next (onEntry_found resumeEntry table attached stream mem named)
  have there := table.entryAt mem
  rw [found]
  unfold resumeEntry
  refine ⟨fun can empty some ok => ?_, fun can empty some bad => ?_, fun can linked ended => ?_, fun nothing => ?_⟩
  · have good : ¬s.badHead = true := fun bad => ((badHead_iff s).1 bad).2 ok
    rw [can, empty, if_neg (by decide), if_pos (by decide), if_neg good, if_neg some, takeHead_answer there some]
    rfl
  · rw [can, empty, if_neg (by decide), if_pos (by decide), if_pos ((badHead_iff s).2 ⟨some, bad⟩)]
    rfl
  · rw [can, linked, if_neg (by decide), if_neg (by decide), if_pos ended, lookAgain_answer there]
    rfl
  · refine congrArg Host.Outcome.next ?_
    rcases nothing with cannot | ⟨empty, none⟩ | ⟨linked, more⟩
    · rw [cannot]
      rfl
    · have good : ¬s.badHead = true := fun bad => ((badHead_iff s).1 bad).1 none
      rw [empty, if_pos (show (!false) = true from rfl), if_neg good, if_pos none]
      exact ite_self _
    · rw [linked, if_neg (show ¬(!true) = true by decide), if_neg more]
      exact ite_self _

end Machine
end Sys2Proof
end

section
/-! Freeing an entry: ABORT, RESET_STATION and CLOSE of a publish entry. -/

namespace Sys2Proof
namespace Machine

/-! ### Releases -/

/-- What releases of cells change: queues of entries, and the pool's free cells and claims. -/
structure Released (s t : State) : Prop where
  shape : t = { s with table := t.table, pool := t.pool }
  keys : t.table.map Entry.key = s.table.map Entry.key
  aged : t.pool.aged = s.pool.aged
  waiting : t.pool.waiting ⊆ s.pool.waiting

theorem Released.refl (s : State) : Released s s := ⟨rfl, rfl, rfl, fun _ h => h⟩

theorem Released.trans {s t u : State} (h : Released s t) (k : Released t u) : Released s u where
  shape := by
    have eq := k.shape
    rw [h.shape] at eq
    exact eq
  keys := k.keys.trans h.keys
  aged := k.aged.trans h.aged
  waiting := fun _ hi => h.waiting (k.waiting hi)

theorem Released.joinSend (s : State) (i c : Nat) : Released s (s.joinSend i c) := by
  unfold State.joinSend
  split
  · exact ⟨rfl, rfl, rfl, fun _ h => h⟩
  · split
    · exact ⟨rfl, modifyPublish_keys s i _, rfl, fun _ h => h⟩
    · exact ⟨rfl, rfl, rfl, fun _ h => h⟩

theorem Released.releaseCell (s : State) (c : Nat) : Released s (s.releaseCell c) := by
  unfold State.releaseCell
  split
  · refine Released.trans ?_ (.joinSend _ _ c)
    exact ⟨rfl, rfl, rfl, fun _ h => List.mem_of_mem_erase h⟩
  · exact ⟨rfl, rfl, rfl, fun _ h => h⟩

theorem Released.releaseCells (s : State) (l : List Nat) : Released s (s.releaseCells l) := by
  induction l generalizing s with
  | nil => exact .refl s
  | cons c rest ih => exact (Released.releaseCell s c).trans (ih _)

/-- With no claim waiting, released cells join the free list at its tail, and nothing else changes. -/
theorem releaseCells_idle {s : State} (h : s.pool.waiting = []) (l : List Nat) :
    s.releaseCells l = { s with pool := { s.pool with free := s.pool.free ++ l } } := by
  induction l generalizing s with
  | nil => simp [State.releaseCells]
  | cons c rest ih =>
    have one : s.releaseCell c = s.freeCell c := by
      have nobody : nextAfter s.pool.waitingPointer (s.pool.waiting.contains ·) = none := by
        rw [h]
        exact List.find?_eq_none.2 fun i _ => by simp
      unfold State.releaseCell
      rw [nobody]
    show (s.releaseCell c).releaseCells rest = _
    rw [one, ih (s := s.freeCell c) h]
    simp [State.freeCell]

/-! ### A freed entry -/

theorem freeEntry_eq {s : State} {e : Entry} (there : s.entryAt e.index = some e) (how : CloseHow) :
    s.freeEntry e.index how = ((s.withoutEntry e.index e.stream).releaseCells e.cells).emit (e.closedEvent how) := by
  unfold State.freeEntry
  rw [there]
  rfl

theorem entryAt_isNone {s : State} {i : Nat} (h : i ∉ s.table.map Entry.index) : s.entryAt i = none :=
  List.find?_eq_none.2 fun e he same => h (List.mem_map.2 ⟨e, he, beq_iff_eq.1 same⟩)

theorem withoutEntry_eventState (s : State) (i stream : Nat) : (s.withoutEntry i stream).eventState = s.eventState :=
  withdrawOf_eventState s i

/-- An emitted event asks for nothing but writes of event records. -/
theorem emit_forgets {s : State} {i stream : Nat} (h : s.forgets i stream) (ev : Event) : (s.emit ev).forgets i stream := by
  obtain ⟨unit, writes, lost, eq, isWrite⟩ := emit_shape s ev
  obtain ⟨aged, waiting, resend, gone, requests⟩ := h
  rw [eq]
  refine ⟨aged, waiting, resend, gone, fun r hr => ?_⟩
  simp only [List.mem_append] at hr
  rcases hr with (first | second | written) | third
  · exact requests r (by simp [first])
  · exact requests r (by simp [second])
  · have := isWrite r written
    cases r <;> simp_all [Request.isEventWrite, Request.index?]
  · exact requests r (by simp [third])

theorem discardHeldOf_stream {stream : Nat} {b : StagingBuffer} {g : StagedSegment} (h : b.discardHeldOf stream = .held g) :
    g.stream ≠ stream := by
  cases b with
  | free => cases h
  | filling c => cases h
  | held f =>
    unfold StagingBuffer.discardHeldOf at h
    dsimp only at h
    split at h
    · cases h
    · cases h
      assumption

theorem filter_others (table : List Entry) (i : Nat) : table.filter (·.index != i) = table.filter (·.index ≠ i) :=
  List.filter_congr fun f _ => by rw [Bool.eq_iff_iff, bne_iff_ne, decide_eq_true_iff]

/-- An entry that is freed leaves no trace: not in the table, nor in a list, a request or a buffer. -/
theorem freeEntry_frees {s : State} {e : Entry} (table : s.tableOk) (mem : e ∈ s.table) (how : CloseHow) :
    let u := s.freeEntry e.index how
    u.entryAt e.index = none ∧ u.entryOf e.stream = none ∧ u.forgets e.index e.stream ∧
      u.table.map Entry.key = (s.table.filter (·.index ≠ e.index)).map Entry.key ∧
      (∀ g, u.line.bufferA = .held g ∨ u.line.bufferB = .held g → g.stream ≠ e.stream) ∧
      s.reports u [e.closedEvent how] ∧ u.window = s.window := by
  intro u
  let bare := s.withoutEntry e.index e.stream
  have shown : u = (bare.releaseCells e.cells).emit (e.closedEvent how) := freeEntry_eq (table.entryAt mem) how
  have released := Released.releaseCells bare e.cells
  obtain ⟨-, line, -, tableKept, -, -⟩ := emit_rest (bare.releaseCells e.cells) (e.closedEvent how)
  have others := filter_others s.table e.index
  have keys : u.table.map Entry.key = (s.table.filter (·.index ≠ e.index)).map Entry.key := by
    rw [shown, tableKept, released.keys, ← others]
    rfl
  have byKey {α : Type} (f : Entry → α) (g : Nat × Nat × Nat × Bool → α) (hf : ∀ e, f e = g e.key) :
      u.table.map f = (s.table.filter (·.index ≠ e.index)).map f := by
    have := congrArg (List.map g) keys
    rw [List.map_map, List.map_map] at this
    rw [show f = g ∘ Entry.key from funext hf]
    exact this
  have lineKept : u.line = bare.line := by
    rw [shown, line, released.shape]
  have forgets : bare.forgets e.index e.stream := by
    refine ⟨fun a ha => bne_iff_ne.1 (List.mem_filter.1 ha).2, fun h => bne_iff_ne.1 (List.mem_filter.1 h).2 rfl,
      fun r hr => bne_iff_ne.1 (List.mem_filter.1 hr).2, fun g hg => bne_iff_ne.1 (List.mem_filter.1 hg).2, fun r hr => ?_⟩
    have kept : (!(r.index? == some e.index)) = true := by
      rcases List.mem_append.1 hr with hr | hr
      · rcases List.mem_append.1 hr with hr | hr <;> exact (List.mem_filter.1 hr).2
      · exact (List.mem_filter.1 hr).2
    simpa using kept
  refine ⟨entryAt_isNone ?_, entryOf_isNone ?_, ?_, keys, fun g held => ?_, ?_, ?_⟩
  · rw [byKey Entry.index (·.1) fun _ => rfl]
    intro h
    obtain ⟨f, hf, same⟩ := List.mem_map.1 h
    exact of_decide_eq_true (List.mem_filter.1 hf).2 same
  · rw [byKey (·.stream) (·.2.2.1) fun _ => rfl]
    intro h
    obtain ⟨f, hf, same⟩ := List.mem_map.1 h
    obtain ⟨inTable, other⟩ := List.mem_filter.1 hf
    exact of_decide_eq_true other (congrArg Entry.index (List.inj_on_of_nodup_map table.2.1 inTable mem same))
  · rw [shown]
    refine emit_forgets ?_ _
    obtain ⟨aged, waiting, resend, gone, requests⟩ := forgets
    refine ⟨released.aged ▸ aged, fun h => waiting (released.waiting h), ?_, ?_, ?_⟩
    · rw [released.shape]; exact resend
    · rw [released.shape]; exact gone
    · rw [released.shape]; exact requests
  · rw [lineKept] at held
    exact held.elim discardHeldOf_stream discardHeldOf_stream
  · rw [shown]
    exact State.reports_congr (withoutEntry_eventState s _ _) rfl rfl
      ((State.reports_congr (s := bare.releaseCells e.cells) (releaseCells_eventState _ _).1
        (releaseCells_eventState _ _).2 rfl (State.reports_emit _ _)))
  · rw [shown, (EngineFrame.emit _ _).window, released.shape]
    rfl

/-- Settles O38: ABORT frees the entry it finds. -/
theorem abortFreesTheEntry : Obligations.AbortFreesTheEntry := by
  intro n s e table attached stream mem named
  obtain ⟨noEntry, noStream, forgets, keys, buffers, told, window⟩ := freeEntry_frees table mem .abort
  refine ⟨(s.freeEntry e.index .abort).answer .done,
    congrArg Host.Outcome.next (onEntry_found abortEntry table attached stream mem named), ?_, noEntry, noStream, forgets,
    keys, buffers, fun idle => ?_, fun p role => ?_, fun v role => ?_⟩
  · rw [(State.answer_rest _ _).1, window]
  · have bare : (s.withoutEntry e.index e.stream).pool.waiting = [] := by
      show s.pool.waiting.filter _ = []
      rw [idle, List.filter_nil]
    have others := filter_others s.table e.index
    obtain ⟨-, -, -, tableKept, pool, -⟩ :=
      emit_rest ((s.withoutEntry e.index e.stream).releaseCells e.cells) (e.closedEvent .abort)
    show (s.freeEntry e.index .abort).table = _ ∧ (s.freeEntry e.index .abort).pool.free = _
    rw [freeEntry_eq (table.entryAt mem), tableKept, pool, releaseCells_idle bare, ← others]
    exact ⟨rfl, rfl⟩
  · have closed : e.closedEvent .abort =
        streamEvent .streamClosed 2 e.stream 0 p.nextSequence.toNat p.segmentsSent.toNat 0 := by
      unfold Entry.closedEvent
      rw [role]
      rfl
    exact closed ▸ told
  · have closed : e.closedEvent .abort = streamEvent .streamClosed 2 e.stream (v.publisher.getD 0)
        ((v.expected.map BitVec.toNat).getD 0) 0 0 := by
      unfold Entry.closedEvent
      rw [role]
      rfl
    exact closed ▸ told

/-! ### CLOSE of a publish entry -/

/-- A publish entry that has begun to close. -/
def PublishEntry.closeBegun (p : PublishEntry) (resendListed : Bool) : PublishEntry :=
  let v : PublishEntry := { p with claim := .closing, segmenter := if p.partlySegmented then p.segmenter else .stopped }
  { v with yieldDue := v.closingCondition resendListed }

theorem partlySegmented_iff (p : PublishEntry) :
    p.partlySegmented = true ↔ p.segmenter = .filling ∨ 0 < p.position := by
  unfold PublishEntry.partlySegmented
  rw [Bool.or_eq_true, beq_iff_eq, decide_eq_true_eq]

theorem closingCondition_iff (p : PublishEntry) (listed : Bool) : p.closingCondition listed = true ↔
    p.segmenter = .stopped ∧ p.sendQueue = [] ∧ p.writeBacks = [] ∧ listed = false := by
  unfold PublishEntry.closingCondition
  rw [Bool.and_eq_true, Bool.and_eq_true, Bool.and_eq_true, beq_iff_eq, List.isEmpty_iff, List.isEmpty_iff,
    Bool.not_eq_true', and_assoc, and_assoc]

theorem beginClosing_publishAt {s : State} {i : Nat} {p : PublishEntry} (there : s.publishAt i = some p) :
    (s.beginClosing i p).publishAt i = some (p.closeBegun (s.lists.resend.any (·.index == i))) := by
  unfold State.beginClosing State.checkClosing
  by_cases part : p.partlySegmented = true
  · simp only [part, if_true]
    rw [modifyPublish_publishAt, modifyPublish_publishAt, there]
    simp [PublishEntry.closeBegun, part, State.modifyPublish]
  · simp only [part, if_false, Bool.false_eq_true]
    rw [modifyPublish_publishAt]
    show Option.map _ ((s.modifyPublish i _).publishAt i) = _
    rw [modifyPublish_publishAt, there]
    simp [PublishEntry.closeBegun, part, State.modifyPublish]

/-- A block that has not begun waits for no cell once its entry closes. -/
theorem beginClosing_waiting {s : State} {i : Nat} {p : PublishEntry} (whole : ¬p.partlySegmented = true) :
    i ∉ (s.beginClosing i p).pool.waiting := by
  unfold State.beginClosing
  simp only [whole, if_false, Bool.false_eq_true]
  exact fun h => bne_iff_ne.1 (List.mem_filter.1 h).2 rfl

theorem closeEffect_freed (s : State) {e : Entry} {p : PublishEntry} (role : e.role = .publish p)
    (h : p.claim = .claiming ∨ p.claim = .lost ∨ (p.claim = .fault ∧ p.yieldDue = false)) :
    closeEffect e s = s.freeEntry e.index .close := by
  unfold closeEffect
  rcases h with claim | claim | ⟨claim, due⟩ <;> simp [*]

theorem closeEffect_owned (s : State) {e : Entry} {p : PublishEntry} (role : e.role = .publish p)
    (claim : p.claim = .owned) : closeEffect e s = s.beginClosing e.index p := by
  unfold closeEffect
  simp only [role, claim]

theorem closeEffect_closing (s : State) {e : Entry} {p : PublishEntry} (role : e.role = .publish p)
    (claim : p.claim = .closing) : closeEffect e s = s := by
  unfold closeEffect
  simp only [role, claim]

theorem closeEffect_fault (s : State) {e : Entry} {p : PublishEntry} (role : e.role = .publish p)
    (claim : p.claim = .fault) (due : p.yieldDue = true) :
    closeEffect e s = s.modifyPublish e.index fun v => { v with closeRequested := true } := by
  unfold closeEffect
  simp [role, claim, due]

/-- Settles O36: CLOSE by the claim state of the entry it finds. -/
theorem closeOfAPublishEntryActsByItsClaimState : Obligations.CloseOfAPublishEntryActsByItsClaimState := by
  intro n s e p table attached stream mem named role
  have there := publishAt_of_entry (table.entryAt mem) role
  have closed : e.closedEvent .close =
      streamEvent .streamClosed 1 e.stream 0 p.nextSequence.toNat p.segmentsSent.toNat 0 := by
    unfold Entry.closedEvent
    rw [role]
    rfl
  refine ⟨(closeEffect e s).answer .done,
    congrArg Host.Outcome.next (onEntry_found closeEntry table attached stream mem named), ?_, fun free => ?_,
    fun owned => ?_, fun closing => ?_, fun fault due => ?_⟩
  · rw [(State.answer_rest _ _).1, (EngineFrame.closeEffect e s).window]
  · obtain ⟨noEntry, -, forgets, -, -, told, -⟩ := freeEntry_frees table mem .close
    rw [closeEffect_freed s role free]
    exact ⟨noEntry, forgets, closed ▸ told⟩
  · rw [closeEffect_owned s role owned]
    refine ⟨_, beginClosing_publishAt there, rfl, ?_, rfl, rfl, rfl, fun stopped sent written listed => ?_, fun whole => ?_⟩
    · exact if_congr (partlySegmented_iff p) rfl rfl
    · refine (closingCondition_iff _ _).2 ⟨stopped, sent, written, ?_⟩
      exact List.any_eq_false.2 fun r hr same => listed r hr (beq_iff_eq.1 same)
    · exact beginClosing_waiting (mt (partlySegmented_iff p).1 whole)
  · rw [closeEffect_closing s role closing]
    rfl
  · rw [closeEffect_fault s role fault due]
    show (s.modifyPublish e.index _).publishAt e.index = _
    rw [modifyPublish_publishAt, there]
    rfl

/-! ### RESET_STATION -/

/-- The station as RESET_STATION leaves it, before the change is told. -/
def State.cleared (s : State) : State := { s with
  station := { s.station with resumeTo := .joining, history := [], stuckSeen := false }
  line := .powerOn
  turn := .powerOn
  table := []
  pool := .powerOn
  lists := ⟨[], []⟩
  port := s.port.softReset
  events := s.events.softReset
  window := { s.window with info0 := 0, info1 := 0, info2 := 0, info3 := 0 }
  counters := .zero }

/-- RESET_STATION's report of its own change. -/
def State.resetRecord (s : State) : Event := stateRecord 9 .detached s.station.state 0 0

theorem resetStation_taken {s : State} (h : s.station.state ≠ .disabled) : resetStation s =
    ((s.cleared.stated .detached).emit s.resetRecord).answer .done := by
  unfold resetStation
  exact if_neg h

/-- The report is number 0, into an empty backlog. -/
theorem cleared_emit (s : State) :
    let t := s.cleared.stated .detached
    let place := s.events.producer
    let inside : Prop := s.fence.contains (s.events.config.recordAddress place) 32 = true
    let room : Prop := (place + 1) % 2 ^ s.events.config.sizeCode.toNat ≠ s.events.consumer
    (s.events.ready = false → t.emit s.resetRecord = t) ∧
    (s.events.ready = true →
      (room → inside → t.emit s.resetRecord = { t with
        events := { t.events.numbered with writeIndex := (place + 1) % s.events.config.size }
        port := { t.port with secondClass := [.eventWrite place s.resetRecord] } }) ∧
      (room → ¬inside → t.emit s.resetRecord = { t with
        events := { t.events.numbered with hostFault := true, writesStopped := true }
        counters := { t.counters with eventsLost := t.counters.eventsLost + 1 } }) ∧
      (¬room → t.emit s.resetRecord = { t with
        events := { t.events.numbered with backlog := [s.resetRecord] } })) := by
  intro t place inside room
  refine ⟨fun unset => emit_unset (s := t) unset _, fun ready => ?_⟩
  have eq : t.emit s.resetRecord = t.numbered.deliverEvent s.resetRecord := emit_ready (s := t) ready _
  rw [eq]
  refine ⟨fun free within => ?_, fun free beyond => ?_, fun full => ?_⟩
  · exact (deliverEvent_toRing (s := t.numbered) rfl rfl ((hasRoom_iff _).2 free) _).trans
      (placeEvent_inside (s := t.numbered) within _)
  · exact (deliverEvent_toRing (s := t.numbered) rfl rfl ((hasRoom_iff _).2 free) _).trans
      (placeEvent_outside (s := t.numbered) beyond _)
  · exact deliverEvent_held (s := t.numbered) (fun all => full ((hasRoom_iff _).1 all.2.2)) _

/-- Where the report of RESET_STATION goes: nowhere from an unset ring, to its record, to the backlog, or it is lost. -/
theorem cleared_told (s : State) :
    let u := (s.cleared.stated .detached).emit s.resetRecord
    let inside : Prop := s.fence.contains (s.events.config.recordAddress s.events.producer) 32 = true
    let room : Prop := (s.events.producer + 1) % 2 ^ s.events.config.sizeCode.toNat ≠ s.events.consumer
    u.events.overflow = false ∧ u.events.number = (if s.events.ready then 1 else 0) ∧
      (inside → u.counters = Counters.zero) ∧ u.port.secondClass.length ≤ 1 ∧
      (s.events.ready = false ∨ inside ∨ ¬room → u.events.writesStopped = false ∧ u.events.hostFault = false) ∧
      (s.events.ready = false → u.events.backlog = [] ∧ u.port.secondClass = []) ∧
      (s.events.ready = true → room → inside →
        u.events.backlog = [] ∧ u.port.secondClass = [.eventWrite s.events.producer s.resetRecord]) ∧
      (s.events.ready = true → ¬room → u.events.backlog = [s.resetRecord] ∧ u.port.secondClass = []) := by
  intro u inside room
  obtain ⟨unset, set⟩ := cleared_emit s
  by_cases ready : s.events.ready = true
  case neg =>
    have off := Bool.eq_false_iff.2 ready
    rw [show u = _ from unset off, if_neg ready]
    exact ⟨rfl, rfl, fun _ => rfl, Nat.zero_le _, fun _ => ⟨rfl, rfl⟩, fun _ => ⟨rfl, rfl⟩, fun on => absurd on ready,
      fun on => absurd on ready⟩
  have notOff : s.events.ready ≠ false := ne_false_of_eq_true ready
  obtain ⟨written, failed, held⟩ := set ready
  rw [if_pos ready]
  by_cases free : room
  case neg =>
    rw [show u = _ from held free]
    exact ⟨rfl, rfl, fun _ => rfl, Nat.zero_le _, fun _ => ⟨rfl, rfl⟩, fun off => absurd off notOff,
      fun _ some => absurd some free, fun _ _ => ⟨rfl, rfl⟩⟩
  by_cases within : inside
  · rw [show u = _ from written free within]
    exact ⟨rfl, rfl, fun _ => rfl, Nat.le_refl _, fun _ => ⟨rfl, rfl⟩, fun off => absurd off notOff,
      fun _ _ _ => ⟨rfl, rfl⟩, fun _ full => absurd free full⟩
  · rw [show u = _ from failed free within]
    exact ⟨rfl, rfl, fun h => absurd h within, Nat.zero_le _,
      fun h => (h.elim notOff fun h => h.elim within fun full => full free).elim, fun off => absurd off notOff,
      fun _ _ h => absurd h within, fun _ full => absurd free full⟩

/-- Settles O8: the station is cleared, and its report goes to the ring, to the backlog, or is lost. -/
theorem resetStationClearsStreamsAndKeepsConfiguration : Obligations.ResetStationClearsStreamsAndKeepsConfiguration := by
  intro s
  refine ⟨fun disabled => congrArg Host.Outcome.next (if_pos disabled), fun usable => ?_⟩
  let t := s.cleared.stated .detached
  have frame : EngineFrame t (t.emit s.resetRecord) := .emit _ _
  obtain ⟨station, line, turn, table, pool, lists⟩ := emit_rest t s.resetRecord
  obtain ⟨unit, writes, lost, shape, -⟩ := emit_shape t s.resetRecord
  obtain ⟨overflow, number, zero, short, running, unset, written, held⟩ := cleared_told s
  have window : ((t.emit s.resetRecord).answer .done).window =
      { s.window with result := .done, info0 := 0, info1 := 0, info2 := 0, info3 := 0 } := by
    rw [(State.answer_rest _ _).1, frame.window]
    rfl
  refine ⟨_, congrArg Host.Outcome.next (resetStation_taken usable), station, line, turn, table, pool, lists, frame.fence,
    frame.config, frame.enable, frame.ready, frame.producer, frame.consumer, overflow, number, frame.timer, window, ?_,
    zero, ?_, ?_, ?_, short, frame.pending, ?_, running, unset, written, held⟩
  · show (t.emit s.resetRecord).counters = { Counters.zero with eventsLost := (t.emit s.resetRecord).counters.eventsLost }
    rw [shape]
    rfl
  · exact congrArg (fun u : State => u.port.granted) shape
  · exact congrArg (fun u : State => u.port.firstClass) shape
  · exact congrArg (fun u : State => u.port.thirdClass) shape
  · refine State.reports_congr (s := t) (t := t.emit s.resetRecord) ?_ rfl rfl (State.reports_emit t s.resetRecord)
    show t.eventState = _
    unfold State.eventState
    rw [show ((t.emit s.resetRecord).answer .done).events.timer = t.events.timer from frame.timer]
    rfl

end Machine
end Sys2Proof
end

section
/-! The choice of a frame: the urgent slot, the rotation slot, and the start of what they take. -/

namespace Sys2Proof
namespace Machine

/-! ### The lowest entry and the next one -/

/-- Of a table in order of index, the first entry to give something is the lowest of those that do. -/
theorem findSome?_lowest {α : Type} {table : List Entry} (sorted : (table.map (·.index)).Pairwise (· < ·))
    {f : Entry → Option α} {e : Entry} {b : α} (mem : e ∈ table) (has : f e = some b)
    (low : ∀ e' ∈ table, (f e').isSome = true → e.index ≤ e'.index) : table.findSome? f = some b := by
  induction table with
  | nil => cases mem
  | cons g rest ih =>
    obtain ⟨above, sorted⟩ := List.pairwise_cons.1 sorted
    rcases List.mem_cons.1 mem with rfl | later
    · rw [List.findSome?_cons, has]
    · have silent : f g = none := by
        by_contra some
        have below : g.index < e.index := above e.index (List.mem_map.2 ⟨e, later, rfl⟩)
        have := low g List.mem_cons_self (Option.isSome_iff_ne_none.2 some)
        omega
      rw [List.findSome?_cons, silent]
      exact ih sorted later fun e' he' => low e' (List.mem_cons_of_mem g he')

/-- How far an index comes after a pointer, searching upward and wrapping. -/
def turnAfter (pointer i : Nat) : Nat := (i + 31 - pointer) % 32

theorem turnAfter_spec {pointer i : Nat} (hp : pointer < 32) (hi : i < 32) :
    turnAfter pointer i < 32 ∧ (pointer + 1 + turnAfter pointer i) % 32 = i := by
  unfold turnAfter
  omega

theorem turnAfter_of {pointer k : Nat} (hp : pointer < 32) (hk : k < 32) :
    turnAfter pointer ((pointer + 1 + k) % 32) = k := by
  unfold turnAfter
  omega

/-- The next index after a pointer is the one with the least turn. -/
theorem nextAfter_eq {pointer i : Nat} {p : Nat → Bool} (hp : pointer < 32) (hi : i < 32) (has : p i = true)
    (low : ∀ j, j < 32 → p j = true → turnAfter pointer i ≤ turnAfter pointer j) : nextAfter pointer p = some i := by
  obtain ⟨bound, there⟩ := turnAfter_spec hp hi
  unfold nextAfter
  have found : (List.range 32).find? (p ∘ fun k => (pointer + 1 + k) % 32) = some (turnAfter pointer i) := by
    refine List.find?_range_eq_some.2 ⟨?_, List.mem_range.2 bound, fun k hk => ?_⟩
    · show p ((pointer + 1 + turnAfter pointer i) % 32) = true
      rw [there]
      exact has
    · show (!p ((pointer + 1 + k) % 32)) = true
      rw [Bool.not_eq_true']
      by_contra some
      have := low _ (Nat.mod_lt _ (by decide)) (Bool.eq_true_of_not_eq_false some)
      rw [turnAfter_of hp (Nat.lt_trans hk bound)] at this
      omega
  rw [List.find?_map]
  exact (congrArg _ found).trans (congrArg some there)

theorem nextAfter_none {pointer : Nat} {p : Nat → Bool} (nobody : ∀ j, p j = false) : nextAfter pointer p = none :=
  List.find?_eq_none.2 fun j _ => by rw [nobody j]; decide

/-! ### Candidates -/

theorem disputeCandidate_eq {own : Nat} {marked : Bool} {e : Entry} {p : PublishEntry} (role : e.role = .publish p)
    (due : p.disputeDue = true) (mark : marked = true ∨ p.disputeMark = false) :
    disputeCandidate own marked e = some (.dispute own e.stream own, .dispute e.serial) := by
  unfold disputeCandidate
  simp only [role]
  exact if_pos (by rcases mark with h | h <;> simp [due, h])

theorem disputeCandidate_some {own : Nat} {marked : Bool} {e : Entry}
    (h : (disputeCandidate own marked e).isSome = true) :
    ∃ p, e.role = .publish p ∧ p.disputeDue = true ∧ (marked = true ∨ p.disputeMark = false) := by
  unfold disputeCandidate at h
  split at h
  · rename_i p role
    split at h
    case isTrue due => exact ⟨p, role, by simpa using due⟩
    case isFalse => cases h
  · cases h

theorem repairCandidate_eq {own : Nat} {marked : Bool} {e : Entry} {u : SubscribeEntry} {target : Nat} {x : Seq}
    (role : e.role = .subscribe u) (asks : u.asks target x) (mark : marked = true ∨ u.repairMark = false) :
    repairCandidate own marked e = some (.repair own e.stream target x (u.repairCount x), .repair e.serial) := by
  obtain ⟨due, publisher, expected, takes, placing, starved⟩ := asks
  unfold repairCandidate
  simp only [role, due, publisher, expected]
  exact if_pos (by rcases mark with h | h <;> simp [takes, placing, starved, h])

theorem repairCandidate_some {own : Nat} {marked : Bool} {e : Entry}
    (h : (repairCandidate own marked e).isSome = true) :
    ∃ u target x, e.role = .subscribe u ∧ u.asks target x ∧ (marked = true ∨ u.repairMark = false) := by
  unfold repairCandidate at h
  split at h
  · cases h
  · rename_i u role
    split at h
    · rename_i target x due publisher expected
      split at h
      case isTrue can =>
        simp only [Bool.and_eq_true, Option.isNone_iff_eq_none, Bool.not_eq_true', Bool.or_eq_true] at can
        obtain ⟨⟨⟨takes, placing⟩, starved⟩, mark⟩ := can
        exact ⟨u, target, x, role, ⟨due, publisher, expected, takes, placing, starved⟩, mark⟩
      case isFalse => cases h
    · cases h

theorem claimCandidate_eq {own : Nat} {e : Entry} {p : PublishEntry} (role : e.role = .publish p)
    (due : p.claimDue = true) (claim : p.claim = .claiming) :
    claimCandidate own e = some (.claim own e.stream, .claim e.serial) := by
  unfold claimCandidate
  simp only [role]
  exact if_pos (by simp [due, claim])

theorem claimCandidate_some {own : Nat} {e : Entry} (h : (claimCandidate own e).isSome = true) :
    ∃ p, e.role = .publish p ∧ p.claimDue = true ∧ p.claim = .claiming := by
  unfold claimCandidate at h
  split at h
  · rename_i p role
    split at h
    case isTrue due => exact ⟨p, role, by simpa using due⟩
    case isFalse => cases h
  · cases h

theorem yieldCandidate_eq {own : Nat} {e : Entry} {p : PublishEntry} (role : e.role = .publish p)
    (due : p.yieldDue = true) : yieldCandidate own e = some (.yield own e.stream, .yield e.serial) := by
  unfold yieldCandidate
  simp only [role]
  exact if_pos due

theorem yieldCandidate_some {own : Nat} {e : Entry} (h : (yieldCandidate own e).isSome = true) :
    ∃ p, e.role = .publish p ∧ p.yieldDue = true := by
  unfold yieldCandidate at h
  split at h
  · rename_i p role
    split at h
    case isTrue due => exact ⟨p, role, due⟩
    case isFalse => cases h
  · cases h

theorem owns_iff (c : ClaimState) : c.owns = true ↔ c = .owned ∨ c = .closing := by cases c <;> decide

theorem readyHead_eq_some_iff {e : Entry} {c : PublishCell} : readyHead e = some c ↔ ∃ p rest, e.role = .publish p ∧
    (p.claim = .owned ∨ p.claim = .closing) ∧ p.sendQueue = c :: rest ∧ c.complete = true := by
  unfold readyHead Entry.publish?
  constructor
  · intro h
    cases role : e.role with
    | subscribe u => simp [role] at h
    | publish p =>
      simp only [role, Option.bind_some] at h
      split at h
      case isFalse => cases h
      case isTrue owns =>
        obtain ⟨first, complete⟩ := Option.filter_eq_some_iff.1 h
        obtain ⟨rest, queue⟩ := List.head?_eq_some_iff.1 first
        exact ⟨p, rest, rfl, (owns_iff _).1 owns, queue, complete⟩
  · rintro ⟨p, rest, role, owns, queue, complete⟩
    simp [role, (owns_iff _).2 owns, queue, complete]

/-- No entry of the table gives a candidate. -/
theorem findSome?_none {α : Type} {table : List Entry} {f : Entry → Option α} {has : Entry → Prop}
    (gives : ∀ e, (f e).isSome = true → has e) (nobody : ∀ e ∈ table, ¬has e) : table.findSome? f = none :=
  List.findSome?_eq_none_iff.2 fun e he => Option.not_isSome_iff_eq_none.1 fun some => nobody e he (gives e some)

/-! ### The urgent slot -/

/-- Settles O24: the first of the three that gives an unmarked frame is taken. -/
theorem theUrgentSlotTakesTheFirstUnmarkedUrgentFrame : Obligations.TheUrgentSlotTakesTheFirstUnmarkedUrgentFrame := by
  intro s table dispute gone repair
  have ofDispute (e : Entry) (h : (disputeCandidate s.ownNumber false e).isSome = true) : dispute e := by
    obtain ⟨p, role, due, mark⟩ := disputeCandidate_some h
    exact ⟨p, role, due, mark.resolve_left nofun⟩
  have ofRepair (e : Entry) (h : (repairCandidate s.ownNumber false e).isSome = true) : repair e := by
    obtain ⟨u, target, x, role, asks, mark⟩ := repairCandidate_some h
    exact ⟨u, target, x, role, asks, mark.resolve_left nofun⟩
  refine ⟨fun e mem ⟨p, role, due, mark⟩ low => ?_, fun noDispute => ⟨fun g rest list mark => ?_, fun noGone =>
    ⟨fun e u target x mem role asks mark low => ?_, fun noRepair => ?_⟩⟩⟩
  · have first := findSome?_lowest table.1 mem (disputeCandidate_eq (own := s.ownNumber) role due (.inr mark))
      fun e' he' some => low e' he' (ofDispute e' some)
    simp [State.selectUrgent, first]
  · have disputes := findSome?_none ofDispute noDispute
    simp [State.selectUrgent, disputes, list, goneCandidate, mark]
  all_goals
    have disputes := findSome?_none ofDispute noDispute
    have silent : goneCandidate s.ownNumber false s.lists.gone = none := by
      unfold goneCandidate
      split
      · rename_i g rest list
        exact if_neg fun unmarked => noGone ⟨g, rest, list, by simpa using unmarked⟩
      · rfl
  · have first := findSome?_lowest table.1 mem (repairCandidate_eq (own := s.ownNumber) role asks (.inr mark))
      fun e' he' some => low e' he' (ofRepair e' some)
    simp [State.selectUrgent, disputes, silent, first]
  · have repairs := findSome?_none ofRepair noRepair
    simp [State.selectUrgent, disputes, silent, repairs]

/-! ### The rotation slot -/

theorem resendCandidate_eq {s : State} {e : Entry} {p : PublishEntry} {r : Resend} {rest : List Resend} {c : PublishCell}
    (list : s.lists.resend = r :: rest) (there : s.entryAt r.index = some e) (role : e.role = .publish p)
    (owns : p.claim = .owned ∨ p.claim = .closing)
    (found : p.replayQueue.find? (fun c => c.sequence == r.sequence) = some c) :
    resendCandidate s = some (dataFrame s.ownNumber e.stream c true, .resend e.serial r.sequence) := by
  unfold resendCandidate Entry.publish?
  simp [list, there, role, (owns_iff _).2 owns, found]

theorem newDataCandidate_eq {s : State} (table : s.tableOk) (pointer : s.turn.pointer < 32) {e : Entry} {c : PublishCell}
    (mem : e ∈ s.table) (ready : readyHead e = some c)
    (low : ∀ e' ∈ s.table, (readyHead e').isSome = true →
      turnAfter s.turn.pointer e.index ≤ turnAfter s.turn.pointer e'.index) :
    newDataCandidate s = some (dataFrame s.ownNumber e.stream c false, .newData e.serial e.index c.cell) := by
  have there := table.entryAt mem
  have next : nextAfter s.turn.pointer (fun i => ((s.entryAt i).bind readyHead).isSome) = some e.index := by
    refine nextAfter_eq pointer (table.2.2.2 e mem).1 (by rw [there, Option.bind_some, ready]; rfl) fun j _ some => ?_
    cases found : s.entryAt j with
    | none => rw [found] at some; cases some
    | some e' =>
      rw [found] at some
      rw [← entryAt_index found]
      exact low e' (List.mem_of_find?_eq_some found) some
  unfold newDataCandidate
  rw [next, Option.bind_some, there, Option.bind_some, ready]
  rfl

theorem newDataCandidate_none {s : State} (nobody : ∀ e ∈ s.table, readyHead e = none) : newDataCandidate s = none := by
  unfold newDataCandidate
  rw [nextAfter_none fun j => ?_]
  · rfl
  · cases found : s.entryAt j with
    | none => rfl
    | some e => simp [nobody e (List.mem_of_find?_eq_some found)]

/-- Settles O25: the first of the seven that gives a frame is taken. -/
theorem theRotationSlotTakesTheFirstDueFrame : Obligations.TheRotationSlotTakesTheFirstDueFrame := by
  intro s table pointer lowest dispute repair claim yield head turn no
  have ofDispute (e : Entry) (h : (disputeCandidate s.ownNumber true e).isSome = true) : dispute e := by
    obtain ⟨p, role, due, -⟩ := disputeCandidate_some h
    exact ⟨p, role, due⟩
  have ofRepair (e : Entry) (h : (repairCandidate s.ownNumber true e).isSome = true) : repair e := by
    obtain ⟨u, target, x, role, asks, -⟩ := repairCandidate_some h
    exact ⟨u, target, x, role, asks⟩
  have noGone (list : s.lists.gone = []) : goneCandidate s.ownNumber true s.lists.gone = none := by rw [list]; rfl
  refine ⟨fun e mem ⟨⟨p, role, due⟩, low⟩ => ?_, fun g rest noDispute list => ?_,
    fun e u target x noDispute list mem role asks ⟨_, low⟩ => ?_, fun noDispute list noRepair =>
    ⟨fun e mem ⟨⟨p, role, due, claiming⟩, low⟩ => ?_, fun e mem noClaim ⟨⟨p, role, due⟩, low⟩ => ?_,
      fun e p r rest c noClaim noYield resends mem index role owns found => ?_, fun noClaim noYield noResend =>
        ⟨fun e c mem ready low => ?_, fun noHead => ?_⟩⟩⟩
  · have first := findSome?_lowest table.1 mem (disputeCandidate_eq (own := s.ownNumber) (marked := true) role due (.inl rfl))
      fun e' he' some => low e' he' (ofDispute e' some)
    simp [State.selectAny, first]
  · have disputes := findSome?_none ofDispute noDispute
    simp [State.selectAny, disputes, list, goneCandidate]
  · have first := findSome?_lowest table.1 mem (repairCandidate_eq (own := s.ownNumber) (marked := true) role asks (.inl rfl))
      fun e' he' some => low e' he' (ofRepair e' some)
    have disputes := findSome?_none ofDispute noDispute
    simp [State.selectAny, disputes, noGone list, first]
  all_goals
    have passed : s.selectAny = [s.table.findSome? (claimCandidate s.ownNumber),
        s.table.findSome? (yieldCandidate s.ownNumber), resendCandidate s, newDataCandidate s].findSome? id := by
      have disputes := findSome?_none ofDispute noDispute
      have repairs := findSome?_none ofRepair noRepair
      simp [State.selectAny, disputes, noGone list, repairs]
    rw [passed]
  · have first := findSome?_lowest table.1 mem (claimCandidate_eq (own := s.ownNumber) role due claiming)
      fun e' he' some => low e' he' (claimCandidate_some some)
    simp [first]
  all_goals have claims := findSome?_none (fun e => claimCandidate_some (own := s.ownNumber) (e := e)) noClaim
  · have first := findSome?_lowest table.1 mem (yieldCandidate_eq (own := s.ownNumber) role due)
      fun e' he' some => low e' he' (yieldCandidate_some some)
    simp [claims, first]
  all_goals have yields := findSome?_none (fun e => yieldCandidate_some (own := s.ownNumber) (e := e)) noYield
  · simp [claims, yields, resendCandidate_eq resends (index ▸ table.entryAt mem) role owns found, dataFrame]
  all_goals
    have resends : resendCandidate s = none := by
      unfold resendCandidate
      rw [noResend]
  · have data := newDataCandidate_eq table pointer mem (readyHead_eq_some_iff.2 ready) fun e' he' some => by
      obtain ⟨c', hc'⟩ := Option.isSome_iff_exists.1 some
      exact low e' he' c' (readyHead_eq_some_iff.1 hc')
    simp [claims, yields, resends, data, dataFrame]
  · have data := newDataCandidate_none (s := s) fun e he => by
      by_contra some
      obtain ⟨c, hc⟩ := Option.ne_none_iff_exists'.1 some
      exact noHead e he ⟨c, readyHead_eq_some_iff.1 hc⟩
    simp [claims, yields, resends, data]

/-! ### Starts -/

theorem mayStart_of {s : State} (active : s.station.state = .active) (rest : s.line.phase = .rest)
    (idle : s.turn.attempt = none) {c : LineCondition} (condition : s.turn.condition = c) : s.mayStart c = true :=
  (mayStart_iff s c).2 ⟨active, condition, rest, idle⟩

theorem mayStart_inactive {s : State} (h : s.station.state ≠ .active) (c : LineCondition) : s.mayStart c = false :=
  Bool.eq_false_iff.2 fun may => h ((mayStart_iff s c).1 may).1

/-- Settles O26: a moment at which the station may start is the start of what is selected. -/
theorem anActiveStationStartsWhatItSelects : Obligations.AnActiveStationStartsWhatItSelects := by
  constructor
  case left =>
    intro s active rest idle acts
    refine ⟨fun window => ?_, fun window => ?_, fun opened running => ?_⟩
    · have eq (first : FirstCell) : exec (.urgentSlotStart first) s = .next (s.start s.selectUrgent true first) :=
        congrArg Host.Outcome.next (if_pos (mayStart_of active rest idle window))
      refine ⟨fun f src selected => ⟨?_, fun heard => ?_⟩, fun nothing first => ?_⟩
      · rw [eq, selected]; rfl
      · rw [eq, selected]; rfl
      · rw [eq, nothing]; rfl
    · have eq (first : FirstCell) : exec (.rotationSlotStart first) s =
          .next (s.lineWasReleased.start s.selectAny false first) :=
        congrArg Host.Outcome.next (if_pos (mayStart_of active rest idle window))
      refine ⟨fun f src selected => ⟨?_, fun heard => ?_⟩, fun nothing first => ?_⟩
      · rw [eq, selected]; rfl
      · rw [eq, selected]; rfl
      · rw [eq, nothing]; rfl
    · have eq (first : FirstCell) : exec (.holdOffExpiry first) s =
          .next (s.lineWasReleased.start s.selectAny false first) :=
        congrArg Host.Outcome.next (if_pos (by rw [mayStart_of active rest idle opened, running]; rfl))
      refine ⟨fun f src selected => ⟨?_, fun heard => ?_⟩, fun nothing first => ?_⟩
      · rw [eq, selected]; rfl
      · rw [eq, selected]; rfl
      · rw [eq, nothing]; rfl
  intro s first inactive
  refine ⟨?_, ?_, ?_⟩
  · exact congrArg Host.Outcome.next (if_neg (by rw [mayStart_inactive inactive]; decide))
  · exact congrArg Host.Outcome.next (if_neg (by rw [mayStart_inactive inactive]; decide))
  · exact congrArg Host.Outcome.next (if_neg (by rw [mayStart_inactive inactive]; exact Bool.false_ne_true))

/-! ### Outcomes of an attempt that failed -/

theorem entryBySerial_none {s : State} {n : Nat} (h : n ∉ s.table.map (·.serial)) : s.entryBySerial n = none :=
  List.find?_eq_none.2 fun e he same => h (List.mem_map.2 ⟨e, he, beq_iff_eq.1 same⟩)

/-- A change of publish fields that is the same at the entry found. -/
theorem modifyPublish_congr {s : State} (table : s.tableOk) {e : Entry} {p : PublishEntry} (mem : e ∈ s.table)
    (role : e.role = .publish p) {f g : PublishEntry → PublishEntry} (h : f p = g p) :
    s.modifyPublish e.index f = s.modifyPublish e.index g := by
  unfold State.modifyPublish
  congr 1
  refine List.map_congr_left fun e' he' => ?_
  by_cases same : e'.index = e.index
  · have : e' = e := Option.some_inj.1 (((table.entryAt he').symm.trans (same ▸ rfl)).trans (table.entryAt mem))
    rw [this, role]
    simp only [Role.mapPublish, h]
  · rw [if_neg same, if_neg same]

theorem modifySubscribe_congr {s : State} (table : s.tableOk) {e : Entry} {u : SubscribeEntry} (mem : e ∈ s.table)
    (role : e.role = .subscribe u) {f g : SubscribeEntry → SubscribeEntry} (h : f u = g u) :
    s.modifySubscribe e.index f = s.modifySubscribe e.index g := by
  unfold State.modifySubscribe
  congr 1
  refine List.map_congr_left fun e' he' => ?_
  by_cases same : e'.index = e.index
  · have : e' = e := Option.some_inj.1 (((table.entryAt he').symm.trans (same ▸ rfl)).trans (table.entryAt mem))
    rw [this, role]
    simp only [Role.mapSubscribe, h]
  · rw [if_neg same, if_neg same]

/-- A change of publish fields that is none at the entry found. -/
theorem modifyPublish_id (s : State) (i : Nat) : s.modifyPublish i id = s := by
  unfold State.modifyPublish
  have : (fun e : Entry => if e.index = i then { e with role := e.role.mapPublish id } else e) = id := by
    funext e
    split
    · cases e with
      | mk _ _ _ _ role => cases role <;> rfl
    · rfl
  rw [this, List.map_id]

theorem modifySubscribe_id (s : State) (i : Nat) : s.modifySubscribe i id = s := by
  unfold State.modifySubscribe
  have : (fun e : Entry => if e.index = i then { e with role := e.role.mapSubscribe id } else e) = id := by
    funext e
    split
    · cases e with
      | mk _ _ _ _ role => cases role <;> rfl
    · rfl
  rw [this, List.map_id]

theorem modifyPublishBySerial_eq {s : State} (table : s.tableOk) {e : Entry} (mem : e ∈ s.table)
    (f : PublishEntry → PublishEntry) : s.modifyPublishBySerial e.serial f = s.modifyPublish e.index f := by
  unfold State.modifyPublishBySerial
  rw [table.entryBySerial mem]

theorem modifyPublishBySerial_none {s : State} {n : Nat} (h : n ∉ s.table.map (·.serial))
    (f : PublishEntry → PublishEntry) : s.modifyPublishBySerial n f = s := by
  unfold State.modifyPublishBySerial
  rw [entryBySerial_none h]

/-- Settles O28: each owner's outcome after a failure. -/
theorem aFailedAttemptLeavesItsFrameDue : Obligations.AFailedAttemptLeavesItsFrameDue := by
  intro s a o table failed marked
  have undelivered : o ≠ .delivered := by rcases failed with rfl | rfl <;> decide
  refine ⟨fun n source => ?_, fun e p mem role due source => ?_, fun e u mem role due source => ?_, fun n q c source => ?_⟩
  · unfold State.ownerOutcome
    rcases source with h | h | ⟨q, h⟩ | ⟨i, c, h⟩ <;> rw [h]
    · show s.claimOutcome n o = s
      unfold State.claimOutcome State.modifyPublishBySerial
      split
      · rfl
      · rw [show (fun p : PublishEntry => if o = .delivered then _ else p) = id from funext fun p => if_neg undelivered]
        exact modifyPublish_id _ _
    · show s.yieldOutcome n o = s
      unfold State.yieldOutcome
      split
      · exact absurd rfl undelivered
      · rfl
    · show s.resendOutcome n q o = s
      unfold State.resendOutcome
      split
      · exact absurd rfl undelivered
      · rfl
    · exact if_neg undelivered
  · unfold State.ownerOutcome State.disputeOutcome
    rw [source]
    show s.modifyPublishBySerial e.serial _ = _
    rw [modifyPublishBySerial_eq table mem]
    refine modifyPublish_congr table mem role ?_
    rw [if_neg undelivered, due, Bool.true_and]
    rfl
  · unfold State.ownerOutcome State.repairOutcome
    rw [source]
    simp only [if_neg undelivered, table.entryBySerial mem]
    refine modifySubscribe_congr table mem role ?_
    rw [due]
    rfl
  · unfold State.ownerOutcome State.goneOutcome
    rw [source]
    exact if_neg undelivered

end Machine
end Sys2Proof
end

section
/-! Time: who owns a rotation slot, and the step on an empty queue. -/

namespace Sys2Proof
namespace Machine

/-! ### Rotation slots -/

/-- The slot a station owns, without a remainder. -/
theorem ownedSlot_eq {K n last : Nat} (one : 1 ≤ n) (high : n ≤ K) (record : last ≤ K) :
    ownedSlot K n last = if n ≤ last then K + n - last - 1 else n - last - 1 := by
  unfold ownedSlot
  split
  case isTrue before => exact Nat.mod_eq_of_lt (by omega)
  case isFalse after =>
    rw [show K + n - last - 1 = n - last - 1 + K by omega, Nat.add_mod_right]
    exact Nat.mod_eq_of_lt (by omega)

theorem ownedSlot_lt {K n last : Nat} (h : 1 ≤ K) : ownedSlot K n last < K := Nat.mod_lt _ h

theorem ownedSlot_int {K n last : Nat} (one : 1 ≤ n) (record : last ≤ K) :
    (ownedSlot K n last : Int) = ((n : Int) - last - 1) % K := by
  have whole : ((K + n - last - 1 : Nat) : Int) = ((n : Int) - last - 1) + K := by omega
  unfold ownedSlot
  rw [Int.natCast_mod, whole, Int.add_emod_right]

/-- The station after another, wrapping from the last to the first. -/
theorem mod_succ {K n : Nat} (high : n ≤ K) : n % K + 1 = if n = K then 1 else n + 1 := by
  split
  case isTrue same => rw [same, Nat.mod_self]
  case isFalse other => rw [Nat.mod_eq_of_lt (by omega)]

/-! ### The moments of a window -/

/-- What falls due `d` bit times after a window's beginning. -/
theorem windowDue_eq {s : State} {a d : Nat} (window : s.turn.condition = .window) (anchor : s.turn.anchor = some a)
    (clock : s.clock = a + s.turn.emptyWindows * (16 * (s.ringSize + 1)) + d) : s.windowDue =
      if d = 16 * (s.ringSize + 1) then
        .windowPassesEmpty :: (if s.turn.emptyWindows = 0 then [.urgentSlotStart .sent] else [])
      else if d = 0 then [.urgentSlotStart .sent]
      else if d = 16 * (ownedSlot s.ringSize s.ownNumber s.turn.lastSender + 1) then [.rotationSlotStart .sent]
      else [] := by
  unfold State.windowDue State.windowLength State.ownSlotStart
  simp only [window, anchor, clock, Config.slotTime, Nat.add_left_cancel_iff, Nat.add_eq_left]

/-- Settles O4: the owned slot is a number below the ring size, and falls due at its place in the window. -/
theorem eachRotationSlotHasExactlyOneOwner : Obligations.EachRotationSlotHasExactlyOneOwner := by
  refine ⟨fun K last two most record => ⟨fun n one high => ownedSlot_int one record, fun j low => ?_,
    fun n one high => ?_, fun named => ⟨?_, ?_, fun n one high other => ?_⟩⟩, fun s a w window anchor empty ring clock => ?_,
    fun s first nothing => ?_⟩
  · refine ⟨if j + last < K then j + last + 1 else j + last + 1 - K, ⟨?_, ?_, ?_⟩, fun n ⟨one, high, owns⟩ => ?_⟩
    · split <;> omega
    · split <;> omega
    · rw [ownedSlot_eq (by split <;> omega) (by split <;> omega) record]
      split_ifs <;> omega
    · rw [ownedSlot_eq one high record] at owns
      split_ifs at owns ⊢ <;> omega
  · rw [ownedSlot_eq one high (Nat.zero_le K), ownedSlot_eq one high (Nat.le_refl K)]
    split_ifs <;> omega
  · rw [mod_succ record, ownedSlot_eq (by split <;> omega) (by split <;> omega) record]
    split_ifs <;> omega
  · rw [ownedSlot_eq named record record, if_pos (Nat.le_refl last)]
    omega
  · rw [mod_succ high, ownedSlot_eq one high record,
      ownedSlot_eq (by split <;> omega) (by split <;> omega) record]
    split_ifs <;> omega
  · have low := ownedSlot_lt (K := s.ringSize) (n := s.ownNumber) (last := s.turn.lastSender) ring
    rw [windowDue_eq window anchor (empty.symm ▸ clock), if_neg (by omega), if_neg (by omega), if_pos rfl]
  · have acts : s.mayStart .window = true ↔ s.station.state = .active ∧ s.turn.condition = .window ∧
        s.line.phase = .rest ∧ s.turn.attempt = none := mayStart_iff s .window
    refine congrArg Host.Outcome.next ?_
    rw [nothing]
    exact if_congr acts rfl rfl

/-! ### What falls due -/

theorem mem_entryDue {s : State} {e : Entry} {c : Instr} : c ∈ s.entryDue e ↔
    (∃ p, e.role = .publish p ∧ p.settleTimer = some 0 ∧ s.station.state.receiving = true ∧
      c = .claimSettleExpiry e.index) ∨
    ∃ u, e.role = .subscribe u ∧ u.repairTimer = some 0 ∧ s.station.state.receiving = true ∧ u.starved = false ∧
      (u.repair = .waiting ∧ c = .repairDelayExpiry e.index ∨ u.repair = .requested ∧ c = .repairWaitExpiry e.index) := by
  unfold State.entryDue State.repairPaused
  cases role : e.role with
  | publish p =>
    simp only [Role.publish.injEq, reduceCtorEq, false_and, exists_false, or_false, exists_eq_left']
    split
    case isTrue due => simp [due]
    case isFalse not => exact ⟨nofun, fun ⟨timer, receiving, _⟩ => absurd ⟨timer, receiving⟩ not⟩
  | subscribe u =>
    simp only [Role.subscribe.injEq, reduceCtorEq, false_and, exists_false, false_or, exists_eq_left',
      Bool.or_eq_false_iff, Bool.not_eq_false']
    split
    case isTrue due =>
      obtain ⟨timer, receiving, starved⟩ := due
      cases repair : u.repair <;> simp [timer, receiving, starved]
    case isFalse not => exact ⟨nofun, fun ⟨timer, receiving, starved, _⟩ => absurd ⟨timer, receiving, starved⟩ not⟩

theorem mem_ageDue {s : State} {c : Instr} (h : c ∈ s.ageDue) : c = .replayAgeLimit := by
  unfold State.ageDue at h
  split at h
  · obtain ⟨_, _, rfl⟩ := List.mem_map.1 h
    rfl
  · cases h

theorem count_ageDue (s : State) : s.ageDue.count .replayAgeLimit =
    if s.station.state.receiving then s.pool.aged.countP (fun a => decide (65536 ≤ a.age)) else 0 := by
  unfold State.ageDue
  split
  · rw [List.map_const', List.count_replicate_self, List.countP_eq_length_filter]
    rfl
  · rfl

theorem mem_windowDue {s : State} {c : Instr} (h : c ∈ s.windowDue) :
    c = .windowPassesEmpty ∨ c = .urgentSlotStart .sent ∨ c = .rotationSlotStart .sent := by
  unfold State.windowDue at h
  split at h
  · dsimp only at h
    split_ifs at h <;> simp only [List.mem_cons, List.not_mem_nil, or_false] at h <;> tauto
  · cases h

theorem mem_eventsDue {e : EventUnit} {c : Instr} : c ∈ e.due ↔ c = .coalescingTimerExpiry ∧ e.timer = .running 0 := by
  unfold EventUnit.due
  split <;> simp [*]

theorem mem_holdOffDue {t : TurnUnit} {c : Instr} : c ∈ t.holdOffDue ↔ c = .holdOffExpiry .sent ∧ t.holdOff = some 0 := by
  unfold TurnUnit.holdOffDue
  split <;> simp [*]

/-- What falls due is an expiry of a timer or a moment of the window. -/
theorem mem_due {s : State} {c : Instr} : c ∈ s.due ↔ c ∈ s.events.due ∨ (∃ e ∈ s.table, c ∈ s.entryDue e) ∨
    c ∈ s.ageDue ∨ c ∈ s.windowDue ∨ c ∈ s.turn.holdOffDue := by
  unfold State.due
  simp only [List.mem_append, List.mem_flatMap, or_assoc]

/-- An entry's expiry falls due as one of its timers runs out. -/
theorem mem_due_entry {s : State} {c : Instr} (unit : c ≠ .coalescingTimerExpiry) (age : c ≠ .replayAgeLimit)
    (window : c ≠ .windowPassesEmpty ∧ c ≠ .urgentSlotStart .sent ∧ c ≠ .rotationSlotStart .sent)
    (holdOff : c ≠ .holdOffExpiry .sent) : c ∈ s.due ↔ ∃ e ∈ s.table, c ∈ s.entryDue e := by
  rw [mem_due]
  refine ⟨fun h => ?_, fun h => .inr (.inl h)⟩
  rcases h with h | h | h | h | h
  · exact absurd (mem_eventsDue.1 h).1 unit
  · exact h
  · exact absurd (mem_ageDue h) age
  · obtain ⟨passes, urgent, rotation⟩ := window
    rcases mem_windowDue h with h | h | h
    · exact absurd h passes
    · exact absurd h urgent
    · exact absurd h rotation
  · exact absurd (mem_holdOffDue.1 h).1 holdOff

theorem count_due (s : State) : s.due.count .replayAgeLimit = s.ageDue.count .replayAgeLimit := by
  have unit : s.events.due.count .replayAgeLimit = 0 :=
    List.count_eq_zero.2 fun h => nomatch (mem_eventsDue.1 h).1
  have entries : (s.table.flatMap s.entryDue).count .replayAgeLimit = 0 := by
    refine List.count_eq_zero.2 fun h => ?_
    obtain ⟨e, -, h⟩ := List.mem_flatMap.1 h
    rcases mem_entryDue.1 h with ⟨_, _, _, _, same⟩ | ⟨_, _, _, _, _, ⟨_, same⟩ | ⟨_, same⟩⟩ <;> cases same
  have window : s.windowDue.count .replayAgeLimit = 0 := by
    refine List.count_eq_zero.2 fun h => ?_
    rcases mem_windowDue h with same | same | same <;> cases same
  have holdOff : s.turn.holdOffDue.count .replayAgeLimit = 0 :=
    List.count_eq_zero.2 fun h => nomatch (mem_holdOffDue.1 h).1
  unfold State.due
  rw [List.count_append, List.count_append, List.count_append, List.count_append, unit, entries, window, holdOff]
  omega

/-! ### One bit time -/

theorem passBitTime_entryAt {s : State} (receiving : s.station.state.receiving = true) (i : Nat) :
    s.passBitTime.entryAt i = (s.entryAt i).map Entry.count := by
  unfold State.entryAt
  rw [passBitTime_table, if_pos receiving]
  exact find?_map_index _ _ _ fun _ => rfl

theorem passBitTime_publishAt {s : State} (receiving : s.station.state.receiving = true) {i : Nat} {p : PublishEntry}
    (h : s.publishAt i = some p) :
    s.passBitTime.publishAt i = some { p with settleTimer := p.settleTimer.map (· - 1) } := by
  obtain ⟨e, there, role⟩ := publishAt_entry h
  refine publishAt_of_entry (e := e.count) ?_ ?_
  · rw [passBitTime_entryAt receiving, there]
    rfl
  · unfold Entry.count
    rw [role]
    rfl

theorem passBitTime_subscribeAt {s : State} (receiving : s.station.state.receiving = true) {i : Nat}
    {u : SubscribeEntry} (h : s.subscribeAt i = some u) : s.passBitTime.subscribeAt i =
      some { u with repairTimer := if u.starved then u.repairTimer else u.repairTimer.map (· - 1) } := by
  obtain ⟨e, there, role⟩ := subscribeAt_entry h
  refine subscribeAt_of_entry (e := e.count) ?_ ?_
  · rw [passBitTime_entryAt receiving, there]
    rfl
  · unfold Entry.count
    rw [role]
    rfl

theorem passBitTime_pool (s : State) : s.passBitTime.pool =
    if s.station.state.receiving then { s.pool with aged := s.pool.aged.map fun a => { a with age := a.age + 1 } }
    else s.pool := by
  unfold State.passBitTime
  split <;> rfl

theorem passBitTime_clock (s : State) : s.passBitTime.clock = s.clock + 1 ∧ s.passBitTime.momentTaken = false :=
  ⟨rfl, rfl⟩

theorem step_idle {s : State} (idle : s.pending = []) : step s = .next s.tick := by
  unfold step
  rw [idle]

theorem tick_queues {s : State} (fresh : s.momentTaken = false) (due : s.due ≠ []) :
    s.tick = { s with momentTaken := true, pending := s.due } := by
  unfold State.tick
  exact if_pos (by rw [fresh, List.isEmpty_eq_false_iff.2 due]; rfl)

theorem tick_passes {s : State} (h : s.momentTaken = true ∨ s.due = []) : s.tick = s.passBitTime := by
  unfold State.tick
  refine if_neg fun both => ?_
  rw [Bool.and_eq_true, Bool.not_eq_true', Bool.not_eq_true', List.isEmpty_eq_false_iff] at both
  obtain ⟨fresh, due⟩ := both
  exact h.elim (fun taken => absurd (taken.symm.trans fresh) (by decide)) due

/-- Settles O3: the step queues what is due, or passes a bit time; what is due is told timer by timer. -/
theorem anIdleStepQueuesWhatIsDueOrPassesABitTime : Obligations.AnIdleStepQueuesWhatIsDueOrPassesABitTime := by
  refine ⟨fun s idle => ⟨fun fresh due => ?_, fun passes => ⟨s.passBitTime, ?_, ?_⟩⟩,
    fun s a d window anchor ring clock => ?_, ?_⟩
  · rw [step_idle idle, tick_queues fresh due]
  · rw [step_idle idle, tick_passes passes]
  · obtain ⟨station, lists, port, fence, windowKept, counters, serial, pending, events, turn, line⟩ := passBitTime_rest s
    have timer : s.passBitTime.events.timer = s.events.timer.count := congrArg EventUnit.timer events
    refine ⟨rfl, rfl, pending.trans idle, station, line, turn, lists, port, fence, windowKept, counters, serial, ?_,
      fun n running => ?_, fun rests => ?_, fun away => ⟨?_, ?_⟩, fun receiving => ⟨passBitTime_keys s, ?_,
      fun i p there => passBitTime_publishAt receiving there, fun i u there => passBitTime_subscribeAt receiving there⟩⟩
    · rw [events]
    · rw [timer, running]
      rfl
    · rw [timer]
      cases h : s.events.timer with
      | stopped => rfl
      | running n => exact absurd h (rests n)
      | expired => rfl
    · rw [passBitTime_table, if_neg (by rw [away]; decide)]
    · rw [passBitTime_pool, if_neg (by rw [away]; decide)]
    · rw [passBitTime_pool, if_pos receiving]
  · have low := ownedSlot_lt (K := s.ringSize) (n := s.ownNumber) (last := s.turn.lastSender) ring
    rw [windowDue_eq window anchor clock]
    refine ⟨fun start => ?_, fun own => ?_, fun ends => ?_, fun h₁ h₂ h₃ => ?_⟩
    · rw [if_neg (by omega), if_pos start]
    · rw [if_neg (by omega), if_neg (by omega), if_pos own]
    · rw [if_pos ends]
    · rw [if_neg h₃, if_neg h₁, if_neg h₂]
  · intro s repairDue
    refine ⟨fun i => ?_, fun i => ?_, fun i => ?_, (count_due s).trans (count_ageDue s), ?_, ?_,
      fun c h => mem_due.2 (.inr (.inr (.inr (.inl h)))), fun c h => ?_⟩
    · rw [mem_due_entry (c := .claimSettleExpiry i) nofun nofun ⟨nofun, nofun, nofun⟩ nofun]
      simp only [mem_entryDue, Instr.claimSettleExpiry.injEq, reduceCtorEq, and_false, or_self, exists_false, or_false]
      exact ⟨fun ⟨e, mem, p, role, timer, receiving, same⟩ => ⟨receiving, e, mem, same.symm, p, role, timer⟩,
        fun ⟨receiving, e, mem, same, p, role, timer⟩ => ⟨e, mem, p, role, timer, receiving, same.symm⟩⟩
    · rw [mem_due_entry (c := .repairDelayExpiry i) nofun nofun ⟨nofun, nofun, nofun⟩ nofun]
      simp only [mem_entryDue, Instr.repairDelayExpiry.injEq, reduceCtorEq, and_false, exists_false, or_false, false_or]
      exact ⟨fun ⟨e, mem, u, role, timer, receiving, starved, repair, same⟩ =>
          ⟨receiving, e, mem, same.symm, u, role, repair, timer, starved⟩,
        fun ⟨receiving, e, mem, same, u, role, repair, timer, starved⟩ =>
          ⟨e, mem, u, role, timer, receiving, starved, repair, same.symm⟩⟩
    · rw [mem_due_entry (c := .repairWaitExpiry i) nofun nofun ⟨nofun, nofun, nofun⟩ nofun]
      simp only [mem_entryDue, Instr.repairWaitExpiry.injEq, reduceCtorEq, and_false, exists_false, false_or]
      exact ⟨fun ⟨e, mem, u, role, timer, receiving, starved, repair, same⟩ =>
          ⟨receiving, e, mem, same.symm, u, role, repair, timer, starved⟩,
        fun ⟨receiving, e, mem, same, u, role, repair, timer, starved⟩ =>
          ⟨e, mem, u, role, timer, receiving, starved, repair, same.symm⟩⟩
    · refine mem_due.trans ⟨fun h => ?_, fun timer => .inl (mem_eventsDue.2 ⟨rfl, timer⟩)⟩
      rcases h with h | ⟨e, -, h⟩ | h | h | h
      · exact (mem_eventsDue.1 h).2
      · rcases mem_entryDue.1 h with ⟨_, _, _, _, same⟩ | ⟨_, _, _, _, _, ⟨_, same⟩ | ⟨_, same⟩⟩ <;> cases same
      · cases mem_ageDue h
      · rcases mem_windowDue h with same | same | same <;> cases same
      · cases (mem_holdOffDue.1 h).1
    · refine mem_due.trans ⟨fun h => ?_, fun timer => .inr (.inr (.inr (.inr (mem_holdOffDue.2 ⟨rfl, timer⟩))))⟩
      rcases h with h | ⟨e, -, h⟩ | h | h | h
      · cases (mem_eventsDue.1 h).1
      · rcases mem_entryDue.1 h with ⟨_, _, _, _, same⟩ | ⟨_, _, _, _, _, ⟨_, same⟩ | ⟨_, same⟩⟩ <;> cases same
      · cases mem_ageDue h
      · rcases mem_windowDue h with same | same | same <;> cases same
      · exact (mem_holdOffDue.1 h).2
    · rcases mem_due.1 h with h | ⟨e, -, h⟩ | h | h | h
      · exact .inr (.inl (by rw [(mem_eventsDue.1 h).1]; simp))
      · refine .inr (.inr ⟨e.index, ?_⟩)
        rcases mem_entryDue.1 h with ⟨_, _, _, _, rfl⟩ | ⟨_, _, _, _, _, ⟨_, rfl⟩ | ⟨_, rfl⟩⟩ <;> simp
      · exact .inr (.inl (by rw [mem_ageDue h]; simp))
      · exact .inl h
      · exact .inr (.inl (by rw [(mem_holdOffDue.1 h).1]; simp))

end Machine
end Sys2Proof
end

section
/-! Changes of state on the line: two empty windows, and a clean frame. -/

namespace Sys2Proof
namespace Machine

/-! ### Changes of state that are told -/

/-- `u` is `w` after changes of the station's state, each told by its record. -/
structure Reported (w u : State) (asked : List Event) (new : StationState) : Prop where
  state : u.station.state = new
  history : u.station.history = w.station.history
  resumeTo : u.station.resumeTo = w.station.resumeTo
  straps : u.station.straps = w.station.straps
  line : u.line = w.line
  turn : u.turn = w.turn
  table : u.table = w.table
  fence : u.fence = w.fence
  config : u.events.config = w.events.config
  window : u.window = w.window
  pending : u.pending = w.pending
  lineCounters : u.counters.ofLine = w.counters.ofLine
  told : w.reports u asked

theorem Reported.refl (w : State) : Reported w w [] w.station.state :=
  ⟨rfl, rfl, rfl, rfl, rfl, rfl, rfl, rfl, rfl, rfl, rfl, rfl, State.reports_refl w⟩

theorem Reported.report {w u : State} {asked : List Event} {old : StationState} (h : Reported w u asked old)
    (new : StationState) (cause : StateCause) (n : Nat) : Reported w (u.reportState new cause n)
      (asked ++ [stateRecord cause.code new old n (failureCount w.station.history)]) new := by
  have frame := reportState_frame u new cause n
  obtain ⟨station, line, turn, table, -, -⟩ := reportState_rest u new cause n
  have told := reportState_reports u new cause n
  rw [h.state, h.history] at told
  exact ⟨by rw [station], by rw [station]; exact h.history, by rw [station]; exact h.resumeTo,
    by rw [station]; exact h.straps, line.trans h.line, turn.trans h.turn, table.trans h.table, frame.fence.trans h.fence,
    frame.config.trans h.config, frame.window.trans h.window, frame.pending.trans h.pending,
    frame.lineCounters.trans h.lineCounters, State.reports_append h.fence h.told told⟩

/-! ### Windows -/

theorem joinIfOpen_joining {u : State} (joining : u.station.state = .joining) (opened : u.turn.condition = .opened) :
    u.joinIfOpen = u.reportState .active .joinedByOpen 0 := if_pos ⟨joining, opened⟩

theorem joinIfOpen_other {u : State} (h : u.station.state ≠ .joining) : u.joinIfOpen = u := if_neg fun k => h k.1

/-- The state in which a station stands once the line has come to be OPEN. -/
def StationControl.onOpenLine (c : StationControl) : StationState :=
  match c.state, c.resumeTo with
  | .joining, _ => .active
  | .hold, .joining => .active
  | .hold, .quiet => .quiet
  | other, _ => other

/-- The records of what an OPEN line changes at a station. -/
def StationControl.openReports (c : StationControl) : List Event :=
  let report (cause : Nat) (entered left : StationState) : Event :=
    stateRecord cause entered left 0 (failureCount c.history)
  match c.state, c.resumeTo with
  | .joining, _ => [report 3 .active .joining]
  | .hold, .joining => [report 6 .joining .hold, report 3 .active .joining]
  | .hold, .quiet => [report 6 .quiet .hold]
  | _, _ => []

/-- HOLD ends and JOINING ends on an OPEN line. -/
theorem recover_join {w : State} (opened : w.turn.condition = .opened) :
    Reported w w.recover.joinIfOpen w.station.openReports w.station.onOpenLine := by
  have awake (h : w.station.state ≠ .hold) : w.recover = w := if_neg h
  unfold StationControl.openReports StationControl.onOpenLine
  have same := Reported.refl w
  cases state : w.station.state with
  | joining =>
    rw [state] at same
    rw [awake (by rw [state]; nofun), joinIfOpen_joining state opened]
    exact same.report .active .joinedByOpen 0
  | hold =>
    rw [state] at same
    have recovers : w.recover = w.reportState w.station.resumeTo.state .lineRecovered 0 := if_pos state
    rw [recovers]
    cases resume : w.station.resumeTo with
    | joining =>
      have back := same.report .joining .lineRecovered 0
      have opened' : (w.reportState .joining .lineRecovered 0).turn.condition = .opened := by
        rw [back.turn]
        exact opened
      rw [ResumeTo.state, joinIfOpen_joining back.state opened']
      exact back.report .active .joinedByOpen 0
    | quiet =>
      have back := same.report .quiet .lineRecovered 0
      rw [ResumeTo.state, joinIfOpen_other (by rw [back.state]; nofun)]
      exact back
  | disabled | detached | active | quiet =>
    rw [state] at same
    rw [awake (by rw [state]; nofun), joinIfOpen_other (by rw [state]; nofun)]
    exact same

/-- Settles O14: the first empty window is noted, the second opens the line. -/
theorem twoEmptyWindowsMakeTheLineOpen : Obligations.TwoEmptyWindowsMakeTheLineOpen := by
  intro s attached window rest
  have acts : (s.station.state.attached && s.turn.condition == .window && s.line.phase == .rest) = true := by
    rw [attached, window, rest]
    rfl
  refine ⟨fun first => congrArg Host.Outcome.next ((if_pos acts).trans (if_pos first)), fun second => ?_⟩
  let w : State := s.lineWasReleased.lineOpens
  have opened := recover_join (w := w) rfl
  have frame := EngineFrame.finish w.recover.joinIfOpen
  refine ⟨_, w.recover.joinIfOpen, congrArg Host.Outcome.next ((if_pos acts).trans (if_neg second)), rfl,
    State.reports_congr (s := w) rfl rfl rfl opened.told, ?_, ?_, ?_, ?_, ?_, ?_, ?_, ?_, ?_, fun table => ?_⟩
  · rw [frame.condition, opened.turn]; rfl
  · rw [frame.anchor, opened.turn]; rfl
  · rw [frame.lastSender, opened.turn]; rfl
  · rw [frame.station]
    exact opened.state
  · rw [frame.station]
    exact opened.history
  · rw [frame.station]
    exact opened.resumeTo
  · rw [frame.phase, opened.line]; rfl
  · rw [frame.record, opened.line]; rfl
  · rw [frame.stuckCount, opened.line]; rfl
  · have distinct : (w.recover.joinIfOpen.table.map (·.index)).Nodup := by
      rw [opened.table]
      exact table.1.imp fun h => Nat.ne_of_lt h
    rw [(CellFrame.finish _ distinct).line, opened.line]
    rfl

/-! ### A clean frame -/

theorem heardFrame_of_hears {s : State} {f : Frame} (h : s.hears f) : s.heardFrame = some f := by
  obtain ⟨receiving, phase, idle, clean, silent, record⟩ := h
  unfold State.heardFrame State.inVerdict
  rw [receiving, phase, idle, clean, silent, record]
  rfl

/-- A clean frame is taken at the table, then the verdict is told. -/
theorem exec_cleanCommand {s : State} {f : Frame} (h : s.hears f) :
    exec (cleanCommand f) s = .next ((s.atTable f).cleanVerdict f.sender) := by
  have heard := heardFrame_of_hears h
  cases f with
  | data => exact congrArg Host.Outcome.next (by unfold cleanData; rw [heard]; rfl)
  | repair => exact congrArg Host.Outcome.next (by unfold cleanRepair; rw [heard]; rfl)
  | gone => exact congrArg Host.Outcome.next (by unfold cleanGone; rw [heard]; rfl)
  | claim => exact congrArg Host.Outcome.next (by unfold cleanClaim; rw [heard]; rfl)
  | dispute => exact congrArg Host.Outcome.next (by unfold cleanDispute; rw [heard]; rfl)
  | yield => exact congrArg Host.Outcome.next (by unfold cleanYield; rw [heard]; rfl)

/-- The receive record is empty, and the frame is judged. -/
def State.judged (s : State) : State := { s with line := s.line.discardFrame.verdictOver }

theorem atTable_frame (s : State) (f : Frame) : EngineFrame s.judged (s.atTable f) := by
  cases f with
  | data => exact .dataHeard _ _ _
  | repair => exact .repairHeard _ _ _ _ _ _
  | gone => exact .goneHeard _ _ _ _ _
  | claim => exact .claimHeard _ _ _
  | dispute => exact .disputeHeard _ _ _ _
  | yield => exact .yieldHeard _ _ _

/-- The clean verdict counts, anchors, and ends JOINING. -/
theorem cleanVerdict_reported (t : State) (sender : Nat) :
    ∃ u : State, t.cleanVerdict sender = u.finish ∧ Reported ((t.bump .cleanFrames).anchorNow sender) u
      (if t.station.state = .joining then [stateRecord 2 .active .joining sender (failureCount t.station.history)] else [])
      (if t.station.state = .joining then .active else t.station.state) := by
  let w := (t.bump .cleanFrames).anchorNow sender
  have same : Reported w w [] t.station.state := .refl w
  by_cases joining : t.station.state = .joining
  · refine ⟨w.reportState .active .joinedByFrame sender, ?_, ?_⟩
    · unfold State.cleanVerdict
      exact congrArg State.finish (if_pos joining)
    · rw [if_pos joining, if_pos joining]
      rw [joining] at same
      exact same.report .active .joinedByFrame sender
  · refine ⟨w, ?_, ?_⟩
    · unfold State.cleanVerdict
      exact congrArg State.finish (if_neg joining)
    · rw [if_neg joining, if_neg joining]
      exact same

/-- Settles O15: what the table does leaves the line's and the station's parts to the verdict. -/
theorem aCleanFrameNamesItsSenderAndEndsJoining : Obligations.ACleanFrameNamesItsSenderAndEndsJoining := by
  intro s f heard
  obtain ⟨receiving, phase, idle, clean, silent, record⟩ := heard
  have heard : s.hears f := ⟨receiving, phase, idle, clean, silent, record⟩
  have table := atTable_frame s f
  have station : (s.atTable f).station = s.station := table.station
  obtain ⟨u, eq, told⟩ := cleanVerdict_reported (s.atTable f) f.sender
  rw [station] at told
  have frame := EngineFrame.finish u
  have counted : u.counters.cleanFrames = s.counters.cleanFrames + 1 := by
    have counters := congrArg List.head? told.lineCounters
    have before := congrArg List.head? table.lineCounters
    simp only [Counters.ofLine, List.head?_cons, Option.some_inj] at counters before
    exact counters.trans (congrArg (· + 1) before)
  have finished : u.finish.counters.cleanFrames = u.counters.cleanFrames := by
    have counters := congrArg List.head? frame.lineCounters
    simpa only [Counters.ofLine, List.head?_cons, Option.some_inj] using counters
  refine ⟨u.finish, u, (exec_cleanCommand heard).trans (congrArg Host.Outcome.next eq), eq.symm, rfl,
    State.reports_congr (s := ((s.atTable f).bump .cleanFrames).anchorNow f.sender) rfl rfl rfl told.told, ?_, ?_, ?_, ?_,
    ?_, ?_, ?_, ?_, finished.trans counted, ?_, ?_, ?_, ?_, ?_, ?_, ?_, ?_⟩
  · rw [frame.condition, told.turn]; rfl
  · rw [frame.anchor, told.turn]
    exact congrArg some table.clock
  · rw [frame.emptyWindows, told.turn]; rfl
  · rw [frame.lastSender, told.turn]; rfl
  · rw [frame.attempt, told.turn]
    exact table.attempt.trans idle
  · rw [frame.phase, told.line]
    exact table.phase
  · rw [frame.record, told.line]
    exact table.record
  · rw [frame.faults, told.line]
    exact table.faults
  · rw [frame.station]
    exact told.state
  · rw [frame.station, told.history]
    exact congrArg StationControl.history station
  · rw [frame.station, told.straps]
    exact congrArg StationControl.straps station
  · rw [frame.fence, told.fence]
    exact table.fence
  · rw [frame.config, told.config]
    exact table.config
  · rw [frame.window, told.window]
    exact table.window
  · rw [frame.pending, told.pending]
    exact table.pending
  · refine frame.keys.trans ?_
    rw [told.table]
    exact table.keys

end Machine
end Sys2Proof
end

section
/-! Clean frames at the stream table: claims, publishers, and the service of a REPAIR. -/

namespace Sys2Proof
namespace Machine

/-! ### What a clean frame leaves -/

theorem indexes_of_tableOk {s : State} (h : s.tableOk) : (s.table.map (·.index)).Nodup :=
  h.1.imp fun lt => Nat.ne_of_lt lt

/-- After the table, a clean verdict counts and moves the line and the station; subscribe entries stay. -/
theorem clean_taken {s : State} {f : Frame} (table : s.tableOk) (heard : s.hears f) :
    ∃ t, exec (cleanCommand f) s = .next t ∧ CellFrame ((s.atTable f).bump .cleanFrames) t :=
  ⟨_, exec_cleanCommand heard,
    CellFrame.cleanVerdict _ _ (indexes_of_tableOk ((atTable_frame s f).keeps.toSteady.table (show s.judged.tableOk from table)))⟩

/-- A clean frame that does nothing at the table leaves subscribe entries, and FOREIGN_DATA. -/
theorem clean_untouched {s : State} {f : Frame} (table : s.tableOk) (heard : s.hears f) (same : s.atTable f = s.judged) :
    ∃ t, exec (cleanCommand f) s = .next t ∧ (∀ i, t.subscribeAt i = s.subscribeAt i) ∧
      t.counters.foreignData = s.counters.foreignData ∧ t.line = s.judged.line := by
  obtain ⟨t, eq, frame⟩ := clean_taken table heard
  rw [same] at frame
  exact ⟨t, eq, frame.subscribeAt, by rw [frame.counters]; rfl, frame.line⟩

/-- So a publish entry with nothing to segment or to resend stays. -/
theorem StandsAt.cleanVerdict {e : Entry} {p : PublishEntry} {asked : List Request} {s : State} (h : StandsAt e asked s)
    (rests : e.Unstarted p) (own : ∀ r ∈ asked, r.index? = some e.index) (x : Nat) :
    StandsAt e asked (s.cleanVerdict x) := by
  unfold State.cleanVerdict
  refine StandsAt.finish ?_ rests own
  split
  · refine StandsAt.emit ?_ _
    exact h.ofTable rfl rfl id
  · exact h.ofTable rfl rfl id

/-! ### Publish entries -/

section Publish

variable {s : State} {e : Entry} {p : PublishEntry}

theorem subscribe?_publish (role : e.role = .publish p) : e.subscribe? = none := by
  unfold Entry.subscribe?
  rw [role]

theorem claimHeard_publish (table : s.tableOk) (mem : e ∈ s.table) (role : e.role = .publish p) (x : Nat) :
    claimHeard s x e.stream =
      if x = s.ownNumber then s
      else if p.claim = .claiming then if x < s.ownNumber then s.loseClaim e.index x 4 else s
      else s.modifyPublish e.index PublishEntry.defend := by
  unfold claimHeard
  rw [table.entryOf mem]
  dsimp only
  rw [role]

theorem disputeHeard_publish (table : s.tableOk) (mem : e ∈ s.table) (role : e.role = .publish p) (x y : Nat) :
    disputeHeard s x e.stream y =
      if x = s.ownNumber ∨ y = s.ownNumber then s
      else if p.claim = .claiming ∨ (p.claim.owns = true ∧ y < s.ownNumber) then s.loseClaim e.index y 5
      else s.modifyPublish e.index PublishEntry.defend := by
  unfold disputeHeard
  rw [table.entryOf mem]
  dsimp only
  rw [role]

theorem yieldHeard_publish (table : s.tableOk) (mem : e ∈ s.table) (role : e.role = .publish p) (x : Nat) :
    yieldHeard s x e.stream = s := by
  unfold yieldHeard
  rw [table.entryOf mem]
  dsimp only
  rw [role]

theorem repairHeard_publish (table : s.tableOk) (mem : e ∈ s.table) (role : e.role = .publish p) (x y : Nat) (q : Seq)
    (n : Nat) : repairHeard s x e.stream y q n =
      if !p.claim.owns then s
      else if y = s.ownNumber then s.serveRepair e.index e.stream q n
      else if x = s.ownNumber then s
      else s.modifyPublish e.index PublishEntry.defend := by
  unfold repairHeard
  rw [table.entryOf mem]
  dsimp only
  rw [role]

theorem goneHeard_publish (table : s.tableOk) (mem : e ∈ s.table) (role : e.role = .publish p) (x : Nat) (q : Seq)
    (n : Nat) : goneHeard s x e.stream q n = s := by
  unfold goneHeard
  rw [table.entryOf mem, Option.bind_some, subscribe?_publish role]

theorem dataHeard_publish (table : s.tableOk) (mem : e ∈ s.table) (role : e.role = .publish p)
    (k : Option BufferId) {g : StagedSegment} (stream : g.stream = e.stream) : dataHeard s k g =
      if g.sender = s.ownNumber then s else s.modifyPublish e.index PublishEntry.defend := by
  unfold dataHeard
  rw [stream, table.entryOf mem]
  dsimp only
  rw [role]

/-- An owning entry defends its stream. -/
theorem defend_owns (table : s.tableOk) (mem : e ∈ s.table) (role : e.role = .publish p) (owns : p.claim.owns = true) :
    s.modifyPublish e.index PublishEntry.defend = s.modifyPublish e.index fun v => { v with disputeDue := true } :=
  modifyPublish_congr table mem role (if_pos owns)

theorem defend_idle (table : s.tableOk) (mem : e ∈ s.table) (role : e.role = .publish p) (owns : ¬p.claim.owns = true) :
    s.modifyPublish e.index PublishEntry.defend = s :=
  (modifyPublish_congr table mem role (f := PublishEntry.defend) (g := id) (if_neg owns)).trans (modifyPublish_id s _)

theorem cells_length (role : e.role = .publish p) : e.cells.length = p.replayQueue.length + p.sendQueue.length := by
  unfold Entry.cells
  rw [role]
  dsimp only
  rw [List.length_map, List.length_append]

theorem loseClaim_eq (table : s.tableOk) (mem : e ∈ s.table) (role : e.role = .publish p) (winner code : Nat) :
    s.loseClaim e.index winner code =
      ((((s.withdrawOf e.index).clearLists e.index e.stream).modifyPublish e.index fun p => p.ended .lost false).releaseCells
        e.cells).emit (streamEvent .claimLost code e.stream winner p.nextSequence.toNat
          (p.replayQueue.length + p.sendQueue.length) 0) := by
  unfold State.loseClaim
  rw [table.entryAt mem]
  dsimp only
  rw [role]
  dsimp only
  rw [cells_length role]

/-- An entry that loses its claim is ended, and nothing names it any more; CLAIM_LOST tells it. -/
theorem loseClaim_ends (table : s.tableOk) (mem : e ∈ s.table) (role : e.role = .publish p) (winner code : Nat) :
    EndedAt e.index e.stream (p.ended .lost false) (s.loseClaim e.index winner code) ∧
      s.reports (s.loseClaim e.index winner code) [streamEvent .claimLost code e.stream winner p.nextSequence.toNat
        (p.replayQueue.length + p.sendQueue.length) 0] := by
  rw [loseClaim_eq table mem role]
  refine ⟨EndedAt.ofEnded (indexes_of_tableOk table) table.2.1 (table.entryAt mem) role .lost false nofun _ _, ?_⟩
  refine State.reports_congr (s := ((((s.withdrawOf e.index).clearLists e.index e.stream).modifyPublish e.index
    fun p => p.ended .lost false).releaseCells e.cells)) ?_ ?_ rfl (State.reports_emit _ _)
  · exact (releaseCells_eventState _ _).1.trans (withdrawOf_eventState s _)
  · exact (releaseCells_eventState _ _).2

theorem ended_isEnded (p : PublishEntry) (claim : ClaimState) (due : Bool) : (p.ended claim due).isEnded claim due :=
  ⟨rfl, rfl, rfl, rfl, rfl, rfl, rfl, rfl, rfl, rfl⟩

/-- A clean frame that takes the claim leaves an ended entry that nothing names. -/
theorem clean_loses {f : Frame} {winner code : Nat} (table : s.tableOk) (mem : e ∈ s.table) (role : e.role = .publish p)
    (heard : s.hears f) (loses : s.atTable f = s.judged.loseClaim e.index winner code) :
    (∃ t q, exec (cleanCommand f) s = .next t ∧ t.publishAt e.index = some q ∧ q.isEnded .lost false ∧
      q.nextSequence = p.nextSequence ∧ t.forgets e.index e.stream) ∧
    s.reports (s.atTable f) [streamEvent .claimLost code e.stream winner p.nextSequence.toNat
      (p.replayQueue.length + p.sendQueue.length) 0] := by
  obtain ⟨ends, told⟩ := loseClaim_ends (s := s.judged) table mem role winner code
  rw [← loses] at ends told
  have done := ends.cleanVerdict f.sender
  exact ⟨⟨_, p.ended .lost false, exec_cleanCommand heard, done.publishAt, ended_isEnded _ _ _, rfl, done.forgets⟩,
    State.reports_congr (s := s.judged) rfl rfl rfl told⟩

/-- At an entry that is LOST or in FAULT no clean frame does anything at the table. -/
theorem atTable_idle {f : Frame} (table : s.tableOk) (mem : e ∈ s.table) (role : e.role = .publish p)
    (past : p.claim = .lost ∨ p.claim = .fault) (stream : f.stream = e.stream) : s.atTable f = s.judged := by
  have owns : ¬p.claim.owns = true := by rcases past with h | h <;> rw [h] <;> decide
  have claim : p.claim ≠ .claiming := by rcases past with h | h <;> rw [h] <;> decide
  have judged : s.judged.tableOk := table
  have idle := defend_idle (s := s.judged) judged mem role owns
  cases f with
  | data x n q first last replayed decoded coded =>
    refine (dataHeard_publish (s := s.judged) judged mem role s.line.fillingBuffer (g := ⟨n, x, q, first, last, replayed,
      decoded, coded⟩) stream).trans ?_
    split
    · rfl
    · exact idle
  | repair x n target q count =>
    cases stream
    exact (repairHeard_publish (s := s.judged) judged mem role x target q count).trans (if_pos (by simpa using owns))
  | gone x n q count =>
    cases stream
    exact goneHeard_publish (s := s.judged) judged mem role x q count
  | claim x n =>
    cases stream
    refine (claimHeard_publish (s := s.judged) judged mem role x).trans ?_
    rw [if_neg claim, idle]
    exact ite_self _
  | dispute x n owner =>
    cases stream
    refine (disputeHeard_publish (s := s.judged) judged mem role x owner).trans ?_
    rw [if_neg (not_or.2 ⟨claim, fun h => owns h.1⟩), idle]
    exact ite_self _
  | yield x n =>
    cases stream
    exact yieldHeard_publish (s := s.judged) judged mem role x

end Publish

/-- Settles O16: each clean frame at a publish entry, by the entry's claim state. -/
theorem cleanFramesAtAPublishEntryDecideItsClaim : Obligations.CleanFramesAtAPublishEntryDecideItsClaim := by
  refine ⟨?_, ?_, fun s e p f table mem role past stream => ?_⟩
  · intro s e p x table mem role claiming lost
    have judged : s.judged.tableOk := table
    refine ⟨fun heard lower => ?_, fun y heard away other => ?_, fun heard higher => ?_⟩
    · have loses : s.atTable (.claim x e.stream) = s.judged.loseClaim e.index x 4 := by
        refine (claimHeard_publish (s := s.judged) judged mem role x).trans ?_
        rw [if_neg (show x ≠ s.judged.ownNumber from Nat.ne_of_lt lower), if_pos claiming,
          if_pos (show x < s.judged.ownNumber from lower)]
      obtain ⟨⟨t, q, eq, there, ended, next, forgets⟩, told⟩ := clean_loses table mem role heard loses
      exact ⟨t, q, eq, there, ended, next, forgets, told⟩
    · have loses : s.atTable (.dispute y e.stream x) = s.judged.loseClaim e.index x 5 := by
        refine (disputeHeard_publish (s := s.judged) judged mem role y x).trans ?_
        rw [if_neg (show ¬(y = s.judged.ownNumber ∨ x = s.judged.ownNumber) from not_or.2 ⟨away, other⟩),
          if_pos (.inl claiming)]
      obtain ⟨⟨t, q, eq, there, ended, next, forgets⟩, told⟩ := clean_loses table mem role heard loses
      exact ⟨t, q, eq, there, ended, next, forgets, told⟩
    · rw [claimHeard_publish table mem role, if_neg (Nat.ne_of_gt higher), if_pos claiming,
        if_neg (Nat.not_lt.2 (Nat.le_of_lt higher))]
  · intro s e p x table mem role owning other due
    have owns := (owns_iff p.claim).2 owning
    have claim : p.claim ≠ .claiming := by rcases owning with h | h <;> rw [h] <;> decide
    have defends := defend_owns table mem role owns
    refine ⟨?_, fun k q f l r n b => ?_, fun y q n away => ?_, fun y higher => ?_, fun y lower heard => ?_⟩
    · exact (claimHeard_publish table mem role x).trans (by rw [if_neg other, if_neg claim, defends])
    · exact (dataHeard_publish table mem role k (g := ⟨e.stream, x, q, f, l, r, n, b⟩) rfl).trans ((if_neg other).trans defends)
    · exact (repairHeard_publish table mem role x y q n).trans
        (by rw [if_neg (by rw [owns]; decide), if_neg away, if_neg other, defends])
    · exact (disputeHeard_publish table mem role x y).trans (by
        rw [if_neg (not_or.2 ⟨other, Nat.ne_of_gt higher⟩),
          if_neg (not_or.2 ⟨claim, fun h => Nat.lt_asymm h.2 higher⟩), defends])
    · have loses : s.atTable (.dispute x e.stream y) = s.judged.loseClaim e.index y 5 := by
        refine (disputeHeard_publish (s := s.judged) table mem role x y).trans ?_
        rw [if_neg (show ¬(x = s.judged.ownNumber ∨ y = s.judged.ownNumber) from not_or.2 ⟨other, Nat.ne_of_lt lower⟩),
          if_pos (.inr ⟨owns, show y < s.judged.ownNumber from lower⟩)]
      obtain ⟨⟨t, q, eq, there, ended, -, forgets⟩, told⟩ := clean_loses table mem role heard loses
      exact ⟨t, q, eq, there, ended, forgets, told⟩
  · have idle := atTable_idle table mem role past stream
    refine ⟨idle, fun heard => ⟨_, exec_cleanCommand heard, fun ended noClaim => ?_⟩⟩
    obtain ⟨-, -, -, -, -, -, stopped, -, replay, -⟩ := ended
    have rests : e.Unstarted p := by
      refine ⟨role, replay, ?_, ?_, fun ready => absurd (stopped.symm.trans ready) nofun⟩
      · rcases past with h | h <;> rw [h] <;> decide
      · rw [stopped]
        decide
    have stands : StandsAt e [] s.judged :=
      ⟨indexes_of_tableOk table, table.entryAt mem, nofun, fun waits => absurd waits noClaim⟩
    rw [idle]
    exact publishAt_of_entry (stands.cleanVerdict rests nofun f.sender).entry role

end Machine
end Sys2Proof
end

section
/-! Clean frames at a subscribe entry, and the service of a REPAIR. -/

namespace Sys2Proof
namespace Machine

/-! ### The recorded publisher -/

section Subscribe

variable {s : State} {e : Entry} {u : SubscribeEntry}

theorem claimHeard_subscribe (table : s.tableOk) (mem : e ∈ s.table) (role : e.role = .subscribe u) (x : Nat) :
    claimHeard s x e.stream = if u.takesFrames then s.setPublisher e u (some x) 4 else s := by
  unfold claimHeard
  rw [table.entryOf mem]
  dsimp only
  rw [role]

theorem disputeHeard_subscribe (table : s.tableOk) (mem : e ∈ s.table) (role : e.role = .subscribe u) (x y : Nat) :
    disputeHeard s x e.stream y = if u.takesFrames then s.setPublisher e u (some y) 5 else s := by
  unfold disputeHeard
  rw [table.entryOf mem]
  dsimp only
  rw [role]

theorem repairHeard_subscribe (table : s.tableOk) (mem : e ∈ s.table) (role : e.role = .subscribe u) (x y : Nat) (q : Seq)
    (n : Nat) : repairHeard s x e.stream y q n = s.suppress e u x y q n := by
  unfold repairHeard
  rw [table.entryOf mem]
  dsimp only
  rw [role]

theorem subscribe?_subscribe (role : e.role = .subscribe u) : e.subscribe? = some u := by
  unfold Entry.subscribe?
  rw [role]

/-- A GONE gives up the range from the expected sequence, if it covers it and is the recorded publisher's. -/
theorem goneHeard_subscribe (table : s.tableOk) (mem : e ∈ s.table) (role : e.role = .subscribe u) {y : Seq}
    (expected : u.expected = some y) (x : Nat) (q : Seq) (n : Nat) : goneHeard s x e.stream q n =
      if u.takesFrames && u.publisher == some x && rangeCovers q n y then
        s.lose e.index (n - forwardDistance q y) .gone
      else s := by
  unfold goneHeard
  rw [table.entryOf mem, Option.bind_some, subscribe?_subscribe role]
  dsimp only
  rw [expected]

theorem goneHeard_unsynced (table : s.tableOk) (mem : e ∈ s.table) (role : e.role = .subscribe u)
    (expected : u.expected = none) (x : Nat) (q : Seq) (n : Nat) : goneHeard s x e.stream q n = s := by
  unfold goneHeard
  rw [table.entryOf mem, Option.bind_some, subscribe?_subscribe role]
  dsimp only
  rw [expected]

/-- A YIELD of the recorded publisher clears the record, where no REPAIR is due. -/
theorem yieldHeard_subscribe (table : s.tableOk) (mem : e ∈ s.table) (role : e.role = .subscribe u)
    (idle : u.takesFrames = true → u.repair ≠ .due) (x : Nat) : yieldHeard s x e.stream =
      if u.takesFrames && u.publisher == some x then s.setPublisher e u none 6 else s := by
  unfold yieldHeard
  rw [table.entryOf mem]
  dsimp only
  rw [role]
  refine ite_congr rfl (fun takes => ?_) fun _ => rfl
  have idle := idle (Bool.and_eq_true _ _ ▸ takes).1
  split
  · exact absurd ‹_› idle
  · rfl

theorem dataHeard_subscribe (table : s.tableOk) (mem : e ∈ s.table) (role : e.role = .subscribe u)
    (k : Option BufferId) {g : StagedSegment} (stream : g.stream = e.stream) : dataHeard s k g =
      if !u.takesFrames then s
      else u.publisher.elim ((s.setPublisher e u (some g.sender) 1).takeStaged e.index k g) fun x =>
        if x = g.sender then s.takeStaged e.index k g else s.bump .foreignData := by
  unfold dataHeard
  rw [stream, table.entryOf mem]
  dsimp only
  rw [role]
  refine ite_congr rfl (fun _ => rfl) fun _ => ?_
  cases u.publisher <;> rfl

/-- The state once a new publisher is recorded and told. -/
def State.publisherChanged (s : State) (e : Entry) (new : Option Nat) (code : Nat) : State :=
  (s.modifySubscribe e.index fun v => { v with publisher := new }).emit
    (streamEvent .publisherSet code e.stream (new.getD 0) 0 0 0)

theorem setPublisher_eq (s : State) (e : Entry) (u : SubscribeEntry) (new : Option Nat) (code : Nat) :
    s.setPublisher e u new code = if u.publisher = new then s else s.publisherChanged e new code := rfl

theorem setPublisher_subscribeAt (there : s.subscribeAt e.index = some u) (new : Option Nat) (code : Nat) :
    (s.setPublisher e u new code).subscribeAt e.index = some { u with publisher := new } := by
  rw [setPublisher_eq]
  split
  case isTrue same => rw [there, ← same]
  case isFalse =>
    unfold State.publisherChanged
    rw [(CellFrame.emit _ _).subscribeAt, modifySubscribe_subscribeAt, there]
    rfl

theorem takesFrames_iff (u : SubscribeEntry) : u.takesFrames = true ↔ u.state = .opened ∧ u.closing = false := by
  unfold SubscribeEntry.takesFrames
  rw [Bool.and_eq_true, beq_iff_eq, Bool.not_eq_true']

/-- An entry that is closing or in FAULT takes no frame. -/
theorem atTable_closed {f : Frame} (table : s.tableOk) (mem : e ∈ s.table) (role : e.role = .subscribe u)
    (takes : u.takesFrames = false) (stream : f.stream = e.stream) : s.atTable f = s.judged := by
  have judged : s.judged.tableOk := table
  cases f with
  | data x n q first last replayed decoded coded =>
    exact (dataHeard_subscribe (s := s.judged) judged mem role s.line.fillingBuffer (g := ⟨n, x, q, first, last, replayed,
      decoded, coded⟩) stream).trans (if_pos (by rw [takes]; rfl))
  | repair x n target q count =>
    cases stream
    refine (repairHeard_subscribe (s := s.judged) judged mem role x target q count).trans ?_
    unfold State.suppress
    split
    · rfl
    · exact if_neg (by rw [takes]; exact Bool.false_ne_true)
  | gone x n q count =>
    cases stream
    cases expected : u.expected with
    | none => exact goneHeard_unsynced (s := s.judged) judged mem role expected x q count
    | some y =>
      exact (goneHeard_subscribe (s := s.judged) judged mem role expected x q count).trans
        (if_neg (by rw [takes]; exact Bool.false_ne_true))
  | claim x n =>
    cases stream
    exact (claimHeard_subscribe (s := s.judged) judged mem role x).trans (if_neg (by rw [takes]; decide))
  | dispute x n owner =>
    cases stream
    exact (disputeHeard_subscribe (s := s.judged) judged mem role x owner).trans (if_neg (by rw [takes]; decide))
  | yield x n =>
    cases stream
    exact (yieldHeard_subscribe (s := s.judged) judged mem role (fun h => absurd (takes.symm.trans h) (by decide)) x).trans
      (if_neg (by rw [takes]; exact Bool.false_ne_true))

end Subscribe

/-- Judging a frame leaves no buffer filling. -/
theorem judged_buffer {s : State} {k : BufferId} {bytes : List Byte} (h : s.line.buffer k = .filling bytes) :
    s.judged.line.buffer k = .free := by
  cases k
  · exact congrArg StagingBuffer.discardFilling (show s.line.bufferA = _ from h)
  · exact congrArg StagingBuffer.discardFilling (show s.line.bufferB = _ from h)

/-- Settles O17: what each clean frame records, and what an entry that takes no frame leaves. -/
theorem cleanFramesKeepTheRecordedPublisher : Obligations.CleanFramesKeepTheRecordedPublisher := by
  refine ⟨fun s e u table mem role opened closing => ?_,
    fun s e u x y q f l r n b table mem role opened closing publisher other heard => ?_,
    fun s e u f table mem role closed stream => ?_⟩
  · have takes := (takesFrames_iff u).2 ⟨opened, closing⟩
    have judged : s.judged.tableOk := table
    have there : s.judged.subscribeAt e.index = some u := subscribeAt_of_entry (table.entryAt mem) role
    have set (new : Option Nat) (code : Nat) {f : Frame} (heard : s.hears f)
        (sets : s.atTable f = s.judged.setPublisher e u new code) :
        ∃ t, exec (cleanCommand f) s = .next t ∧ t.subscribeAt e.index = some { u with publisher := new } := by
      obtain ⟨t, eq, frame⟩ := clean_taken table heard
      rw [sets] at frame
      exact ⟨t, eq, (frame.subscribeAt _).trans (setPublisher_subscribeAt there new code)⟩
    refine ⟨fun x heard => ?_, fun y x heard => ?_, fun x heard idle => ?_, fun x q f l r n b heard unset empty => ?_,
      fun x => ?_, fun y x => ?_, fun x idle => ?_, fun g stream unset => ⟨?_, fun k => ?_⟩⟩
    · exact set (some x) 4 heard ((claimHeard_subscribe (s := s.judged) judged mem role x).trans (if_pos takes))
    · exact set (some x) 5 heard ((disputeHeard_subscribe (s := s.judged) judged mem role y x).trans (if_pos takes))
    · have yields := yieldHeard_subscribe (s := s.judged) judged mem role (fun _ => idle) x
      by_cases publisher : u.publisher = some x
      · rw [if_pos publisher]
        exact set none 6 heard (yields.trans (if_pos (by rw [takes, publisher, beq_self_eq_true]; rfl)))
      · rw [if_neg publisher]
        have same : s.atTable (.yield x e.stream) = s.judged :=
          yields.trans (if_neg (by simpa [takes] using publisher))
        obtain ⟨t, eq, kept, -, -⟩ := clean_untouched table heard same
        exact ⟨t, eq, (kept _).trans there⟩
    · refine set (some x) 1 heard ((dataHeard_subscribe (s := s.judged) judged mem role _ rfl).trans ?_)
      rw [takes, unset, empty]
      rfl
    · rw [claimHeard_subscribe table mem role, if_pos takes]
      rfl
    · rw [disputeHeard_subscribe table mem role, if_pos takes]
      rfl
    · rw [yieldHeard_subscribe table mem role fun _ => idle, takes, setPublisher_eq, Bool.true_and]
      by_cases publisher : u.publisher = some x
      · rw [if_pos (by rw [publisher, beq_self_eq_true]), if_pos publisher, if_neg (by rw [publisher]; nofun)]
        rfl
      · rw [if_neg (by simpa using publisher), if_neg publisher]
    · rw [dataHeard_subscribe table mem role none stream, takes, unset]
      exact (setPublisher_eq s e u (some g.sender) 1).trans (if_neg (by rw [unset]; nofun))
    · rw [dataHeard_subscribe table mem role (some k) stream, takes, unset]
      refine congrArg (fun t : State => (t.setBuffer k (.held g)).takeSegment e.index k g) ?_
      exact (setPublisher_eq s e u (some g.sender) 1).trans (if_neg (by rw [unset]; nofun))
  · have takes := (takesFrames_iff u).2 ⟨opened, closing⟩
    have foreign : s.atTable (.data x e.stream q f l r n b) = s.judged.bump .foreignData := by
      refine (dataHeard_subscribe (s := s.judged) table mem role s.line.fillingBuffer (g := ⟨e.stream, x, q, f, l, r, n, b⟩)
        rfl).trans ?_
      rw [takes, publisher]
      exact if_neg (Ne.symm other)
    obtain ⟨t, eq, frame⟩ := clean_taken table heard
    rw [foreign] at frame
    refine ⟨t, eq, (frame.subscribeAt _).trans (subscribeAt_of_entry (table.entryAt mem) role), ?_, ?_, ?_⟩
    · rw [frame.counters]
      rfl
    · rw [frame.line]
      rfl
    · rw [frame.line]
      rfl
  · have takes : u.takesFrames = false := by
      refine Bool.eq_false_iff.2 fun takes => ?_
      obtain ⟨opened, open'⟩ := (takesFrames_iff u).1 takes
      rcases closed with fault | closing
      · exact absurd (opened.symm.trans fault) nofun
      · exact absurd (open'.symm.trans closing) nofun
    have same := atTable_closed table mem role takes stream
    refine ⟨same, fun heard => ?_⟩
    obtain ⟨t, eq, kept, foreign, line⟩ := clean_untouched table heard same
    exact ⟨t, eq, (kept _).trans (subscribeAt_of_entry (table.entryAt mem) role), foreign,
      fun k bytes filling => line ▸ judged_buffer filling⟩

/-! ### Suppression -/

/-- Settles O20: a REPAIR that covers the expected sequence puts the entry's own back. -/
theorem anotherStationsRepairSuppressesTheOwn : Obligations.AnotherStationsRepairSuppressesTheOwn := by
  intro s e u y target n q x table mem role takes publisher expected heard
  have there : s.judged.subscribeAt e.index = some u := subscribeAt_of_entry (table.entryAt mem) role
  have taken : s.atTable (.repair y e.stream target q n) = if rangeCovers q n x && y != s.ownNumber then
      (if u.repair = .waiting ∨ u.repair = .due then
        (s.judged.modifySubscribe e.index SubscribeEntry.suppressed).bump .repairsSuppressed
      else s.judged.modifySubscribe e.index SubscribeEntry.suppressed) else s.judged := by
    refine (repairHeard_subscribe (s := s.judged) table mem role y target q n).trans ?_
    unfold State.suppress
    rw [expected]
    dsimp only
    rw [takes, publisher, beq_self_eq_true, Bool.true_and, Bool.true_and]
    rfl
  have covers : rangeCovers q n x = true ↔ forwardDistance q x < n := decide_eq_true_iff
  obtain ⟨t, eq, frame⟩ := clean_taken table heard
  have counted : t.counters.repairsSuppressed = (s.atTable (.repair y e.stream target q n)).counters.repairsSuppressed := by
    rw [frame.counters]
    rfl
  refine ⟨fun inside other => ?_, fun outside => ?_⟩
  · have suppresses := taken.trans (if_pos (by rw [Bool.and_eq_true, covers, bne_iff_ne]; exact ⟨inside, other⟩))
    have suppressed : (s.judged.modifySubscribe e.index SubscribeEntry.suppressed).subscribeAt e.index =
        some u.suppressed := by
      rw [modifySubscribe_subscribeAt, there]
      rfl
    refine ⟨t, eq, (frame.subscribeAt _).trans ?_, counted.trans ?_⟩
    · rw [suppresses]
      split <;> exact suppressed
    · rw [suppresses]
      split
      · rfl
      · exact (BitVec.add_zero _).symm
  · have same := taken.trans (if_neg (by rw [Bool.and_eq_true, covers, bne_iff_ne]; omega))
    refine ⟨t, eq, ?_, counted.trans (by rw [same]; rfl)⟩
    rw [frame.subscribeAt, same]
    exact there

/-! ### The service of a REPAIR -/

theorem resendListed_iff (s : State) (i : Nat) (q : Seq) :
    s.resendListed i q = true ↔ (⟨i, q⟩ : Resend) ∈ s.lists.resend := by
  unfold State.resendListed
  rw [List.any_eq_true]
  constructor
  · rintro ⟨⟨j, x⟩, hr, same⟩
    simp only [Bool.and_eq_true, beq_iff_eq] at same
    obtain ⟨rfl, rfl⟩ := same
    exact hr
  · exact fun h => ⟨_, h, by simp⟩

/-- One sequence is served by where it stands among those the entry holds. -/
theorem serveSequence_eq {s : State} {i : Nat} {p : PublishEntry} (there : s.publishAt i = some p) (stream : Nat)
    (q : Seq) : s.serveSequence i stream q =
      if 1 ≤ forwardDistance q p.oldestHeld ∧ forwardDistance q p.oldestHeld ≤ 2047 then s.addGone stream q
      else if forwardDistance p.oldestHeld q < p.replayQueue.length ∧ s.resendListed i q = false ∧
          s.lists.resend.length < 16 then
        { s with lists := { s.lists with resend := s.lists.resend ++ [⟨i, q⟩] } }
      else s := by
  unfold State.serveSequence
  rw [there]
  dsimp only
  by_cases older : 1 ≤ forwardDistance q p.oldestHeld ∧ forwardDistance q p.oldestHeld ≤ 2047
  · rw [show p.standing q = .older from if_pos older, if_pos older]
  rw [if_neg older]
  by_cases held : forwardDistance p.oldestHeld q < p.replayQueue.length
  · rw [show p.standing q = .inReplay from (if_neg older).trans (if_pos held)]
    cases s.resendListed i q with
    | true => exact (if_neg fun h => nomatch h.2.1).symm
    | false =>
      exact (if_neg Bool.false_ne_true).trans
        (if_congr ((and_iff_right rfl).symm.trans (and_iff_right held).symm) rfl rfl)
  · have rests : ¬(forwardDistance p.oldestHeld q < p.replayQueue.length ∧ s.resendListed i q = false ∧
        s.lists.resend.length < 16) := fun h => held h.1
    by_cases sending : forwardDistance p.oldestHeld q < p.replayQueue.length + p.sendQueue.length
    · rw [show p.standing q = .inSendQueue from (if_neg older).trans ((if_neg held).trans (if_pos sending))]
      exact (if_neg rests).symm
    · rw [show p.standing q = .notYetMade from (if_neg older).trans ((if_neg held).trans (if_neg sending))]
      exact (if_neg rests).symm

/-- Settles O18: a sequence is served by where it stands, a range sequence by sequence. -/
theorem aRepairIsServedByWhereItsSequencesStand : Obligations.ARepairIsServedByWhereItsSequencesStand := by
  intro s e p table mem role
  have there := publishAt_of_entry (table.entryAt mem) role
  refine ⟨?_, fun x q n owning => ?_, fun x y q n notOwned notClosing => ?_⟩
  · intro q t older ahead
    have served : t = _ := serveSequence_eq there e.stream q
    rw [served]
    refine ⟨fun old => if_pos old, fun young held fresh room => ?_, fun young stays => ?_⟩
    · have unlisted := Bool.eq_false_iff.2 (mt (resendListed_iff s e.index q).1 fresh)
      rw [if_neg young, if_pos ⟨held, unlisted, room⟩]
    · refine (if_neg young).trans (if_neg fun ⟨held, unlisted, room⟩ => ?_)
      rcases stays with listed | full | beyond
      · exact Bool.eq_false_iff.1 unlisted ((resendListed_iff s e.index q).2 listed)
      · exact Nat.not_le.2 room full
      · exact Nat.not_le.2 held beyond
  · refine (repairHeard_publish table mem role x s.ownNumber q n).trans ?_
    rw [(owns_iff p.claim).2 owning, if_neg (by decide), if_pos rfl]
    rfl
  · refine (repairHeard_publish table mem role x y q n).trans (if_pos ?_)
    rw [Bool.not_eq_true', Bool.eq_false_iff]
    exact fun owns => ((owns_iff p.claim).1 owns).elim notOwned notClosing

end Machine
end Sys2Proof
end

section
/-! The payload coding (R5, R6, R7): what the encoder codes, the decoder gives back. -/

namespace Sys2Proof
namespace Machine

/-! ### The token decoder -/

/-- Fuel beyond the coded length makes no difference. -/
theorem decodeTokens_eq (fuel : Nat) : ∀ coded : List Byte, coded.length ≤ fuel →
    decodeTokens fuel coded = decodePayload coded := by
  induction fuel using Nat.strong_induction_on with
  | _ fuel ih =>
    intro coded fits
    unfold decodePayload
    match coded, fuel with
    | [], 0 => rfl
    | [], _ + 1 => rfl
    | h :: rest, 0 => exact absurd fits (Nat.not_succ_le_zero _)
    | h :: rest, fuel + 1 =>
      have fits : rest.length ≤ fuel := Nat.le_of_succ_le_succ fits
      have again (tail : List Byte) (short : tail.length ≤ rest.length) :
          decodeTokens fuel tail = decodeTokens rest.length tail := by
        rcases Nat.lt_or_ge rest.length (fuel + 1) with less | more
        · rw [ih fuel (Nat.lt_succ_self _) tail (short.trans fits), ih rest.length less tail short]
        · exact absurd more (Nat.not_le.mpr (Nat.lt_succ_of_le fits))
      simp only [List.length_cons, decodeTokens]
      rw [again _ (by rw [List.length_drop]; exact Nat.sub_le _ _)]
      cases rest with
      | nil => rfl
      | cons b rest' => simp only [again rest' (Nat.le_succ _)]

theorem decodePayload_nil : decodePayload [] = some [] := rfl

theorem decodeTokens_literal {h : Byte} {rest : List Byte} (short : h.toNat < 128) (held : h.toNat + 1 ≤ rest.length)
    (fuel : Nat) : decodeTokens (fuel + 1) (h :: rest) =
      (decodeTokens fuel (rest.drop (h.toNat + 1))).map (rest.take (h.toNat + 1) ++ ·) :=
  (if_pos short).trans (if_pos held)

theorem decodeTokens_run {h : Byte} (long : ¬h.toNat < 128) (b : Byte) (rest : List Byte) (fuel : Nat) :
    decodeTokens (fuel + 1) (h :: b :: rest) =
      (decodeTokens fuel rest).map (List.replicate (h.toNat - 128 + 3) b ++ ·) :=
  if_neg long

theorem decodePayload_literal {h : Byte} {group : List Byte} (length : group.length = h.toNat + 1)
    (short : h.toNat < 128) (rest : List Byte) :
    decodePayload (h :: (group ++ rest)) = (decodePayload rest).map (group ++ ·) := by
  have held : h.toNat + 1 ≤ (group ++ rest).length := by
    rw [List.length_append]
    omega
  have step := decodeTokens_literal short held (group ++ rest).length
  rw [← length, List.drop_left, List.take_left, decodeTokens_eq _ rest (by simp)] at step
  exact step

/-- A closed literal group is read back as its bytes. -/
theorem decodePayload_closeGroup {group : List Byte} (short : group.length ≤ 128) (rest : List Byte) :
    decodePayload (closeGroup group ++ rest) = (decodePayload rest).map (group ++ ·) := by
  cases group with
  | nil => simp [closeGroup]
  | cons b more =>
    have short : more.length < 128 := short
    have token : (BitVec.ofNat 8 more.length).toNat = more.length := by
      rw [BitVec.toNat_ofNat]
      exact Nat.mod_eq_of_lt (by omega)
    exact decodePayload_literal (h := BitVec.ofNat 8 more.length) (group := b :: more) (by rw [token]; rfl)
      (by rwa [token]) rest

/-- A run token is read back as its run. -/
theorem decodePayload_run {run : Nat} (atLeast : 3 ≤ run) (atMost : run ≤ 130) (b : Byte) (rest : List Byte) :
    decodePayload (BitVec.ofNat 8 (128 + (run - 3)) :: b :: rest) =
      (decodePayload rest).map (List.replicate run b ++ ·) := by
  have token : (BitVec.ofNat 8 (128 + (run - 3))).toNat = 128 + (run - 3) := by
    rw [BitVec.toNat_ofNat]
    exact Nat.mod_eq_of_lt (by omega)
  have long : 128 + (run - 3) - 128 + 3 = run := by omega
  have step := decodeTokens_run (h := BitVec.ofNat 8 (128 + (run - 3))) (by omega) b rest (b :: rest).length
  rw [token, long, decodeTokens_eq _ rest (by simp)] at step
  exact step

/-! ### The encoder's scan -/

theorem take_leadingEqual (b : Byte) : ∀ (rest : List Byte) (k : Nat), k ≤ leadingEqual b rest →
    rest.take k = List.replicate k b
  | [], k, h => by
    have : k = 0 := Nat.le_zero.mp h
    rw [this]
    rfl
  | c :: rest, 0, _ => rfl
  | c :: rest, k + 1, h => by
    unfold leadingEqual at h
    split at h
    · next same =>
      rw [List.take_succ_cons, take_leadingEqual b rest k (Nat.le_of_succ_le_succ h), List.replicate_succ,
        eq_of_beq same]
    · exact absurd h (Nat.not_succ_le_zero _)

theorem leadingEqual_le (b : Byte) : ∀ rest : List Byte, leadingEqual b rest ≤ rest.length
  | [] => Nat.le_refl _
  | c :: rest => by
    unfold leadingEqual
    split
    · exact Nat.succ_le_succ (leadingEqual_le b rest)
    · exact Nat.zero_le _

/-- A run splits off the front of the bytes. -/
theorem run_append_drop (b : Byte) (rest : List Byte) {run : Nat} (pos : 1 ≤ run)
    (h : run ≤ leadingEqual b rest + 1) : List.replicate run b ++ rest.drop (run - 1) = b :: rest := by
  obtain ⟨k, rfl⟩ : ∃ k, run = k + 1 := ⟨run - 1, by omega⟩
  rw [List.replicate_succ, Nat.add_sub_cancel, ← take_leadingEqual b rest k (Nat.le_of_succ_le_succ h), List.cons_append,
    List.take_append_drop]

/-- What is scanned is read back, behind what the open group holds. -/
theorem decodePayload_encodeScan : ∀ (fuel : Nat) (bytes group : List Byte), bytes.length ≤ fuel → group.length < 128 →
    decodePayload (encodeScan fuel bytes group) = some (group ++ bytes) := by
  intro fuel
  have close (group : List Byte) (short : group.length < 128) : decodePayload (closeGroup group) = some (group ++ []) := by
    have read := decodePayload_closeGroup (Nat.le_of_lt short) []
    rwa [List.append_nil] at read
  induction fuel with
  | zero =>
    intro bytes group fits short
    rw [List.eq_nil_of_length_eq_zero (Nat.le_zero.mp fits)]
    exact close group short
  | succ fuel ih =>
    intro bytes group fits short
    cases bytes with
    | nil => exact close group short
    | cons b rest =>
      have fits : rest.length ≤ fuel := Nat.le_of_succ_le_succ fits
      unfold encodeScan
      split_ifs with repeats full
      · dsimp only
        have atLeast : 3 ≤ min 130 (leadingEqual b rest + 1) := by omega
        rw [decodePayload_closeGroup (Nat.le_of_lt short), decodePayload_run atLeast (Nat.min_le_left _ _),
          ih _ [] (by rw [List.length_drop]; omega) (by decide)]
        simp only [Option.map_some, List.nil_append]
        rw [run_append_drop b rest (by omega) (Nat.min_le_right _ _)]
      · rw [decodePayload_closeGroup (by simpa using Nat.le_of_eq (eq_of_beq full)), ih rest [] fits (by decide)]
        simp
      · have room : (group ++ [b]).length < 128 := by
          have : (group ++ [b]).length ≠ 128 := fun h => full (beq_of_eq h)
          simp only [List.length_append, List.length_singleton] at this ⊢
          omega
        rw [ih rest _ fits room]
        simp

theorem length_closeGroup (group : List Byte) :
    (closeGroup group).length = if group = [] then 0 else group.length + 1 := by
  cases group <;> rfl

theorem length_closeGroup_le (group : List Byte) : (closeGroup group).length ≤ group.length + 1 := by
  rw [length_closeGroup]
  split <;> omega

/-- A run pays for the group it closes; a full group costs one byte for its 128, the last group one. -/
theorem length_encodeScan_le : ∀ (fuel : Nat) (bytes group : List Byte), bytes.length ≤ fuel →
    (encodeScan fuel bytes group).length ≤
      group.length + bytes.length + 1 + (group.length + bytes.length) / 128 := by
  intro fuel
  induction fuel with
  | zero =>
    intro bytes group _
    have closed := length_closeGroup_le group
    simp only [encodeScan]
    omega
  | succ fuel ih =>
    intro bytes group fits
    cases bytes with
    | nil =>
      have closed := length_closeGroup_le group
      simp only [encodeScan, List.length_nil]
      omega
    | cons b rest =>
      have fits : rest.length ≤ fuel := Nat.le_of_succ_le_succ fits
      have length : (b :: rest).length = rest.length + 1 := rfl
      rw [length]
      unfold encodeScan
      split_ifs with repeats full
      · have short := leadingEqual_le b rest
        have closed := length_closeGroup_le group
        have tail := ih (rest.drop (min 130 (leadingEqual b rest + 1) - 1)) []
          (by rw [List.length_drop]; omega)
        simp only [List.length_append, List.length_cons, List.length_drop, List.length_nil] at tail ⊢
        omega
      · have full := eq_of_beq full
        have closed := length_closeGroup_le (group ++ [b])
        have tail := ih rest [] fits
        simp only [List.length_append, List.length_singleton, List.length_nil] at tail closed full ⊢
        omega
      · have tail := ih rest (group ++ [b]) fits
        simp only [List.length_append, List.length_singleton] at tail ⊢
        omega

theorem two_le_length_closeGroup {group : List Byte} (some : group ≠ []) : 2 ≤ (closeGroup group).length := by
  rw [length_closeGroup, if_neg some]
  exact Nat.succ_le_succ (List.length_pos_of_ne_nil some)

theorem two_le_length_encodeScan : ∀ (fuel : Nat) (bytes group : List Byte), bytes.length ≤ fuel →
    group ++ bytes ≠ [] → 2 ≤ (encodeScan fuel bytes group).length := by
  intro fuel
  induction fuel with
  | zero =>
    intro bytes group fits nonempty
    rw [List.eq_nil_of_length_eq_zero (Nat.le_zero.mp fits), List.append_nil] at nonempty
    exact two_le_length_closeGroup nonempty
  | succ fuel ih =>
    intro bytes group fits nonempty
    cases bytes with
    | nil => exact two_le_length_closeGroup (by rwa [List.append_nil] at nonempty)
    | cons b rest =>
      have fits : rest.length ≤ fuel := Nat.le_of_succ_le_succ fits
      unfold encodeScan
      split_ifs with repeats full
      · simp only [List.length_append, List.length_cons]
        omega
      · have closed := two_le_length_closeGroup (group := group ++ [b]) (by simp)
        rw [List.length_append]
        omega
      · exact ih rest _ fits (by simp)

/-- Settles O9: the scan is read back byte for byte, and its length is bounded group by group. -/
theorem anEncodedPayloadDecodesToItsBytesWithinItsLength :
    Obligations.AnEncodedPayloadDecodesToItsBytesWithinItsLength := by
  refine ⟨fun bytes => decodePayload_encodeScan _ bytes [] (Nat.le_refl _) (by decide), fun bytes pos short => ⟨?_, ?_⟩⟩
  · exact two_le_length_encodeScan _ bytes [] (Nat.le_refl _) (List.ne_nil_of_length_pos pos)
  · have bound := length_encodeScan_le _ bytes [] (Nat.le_refl bytes.length)
    rw [List.length_nil, Nat.zero_add] at bound
    have := Nat.div_lt_of_lt_mul (m := bytes.length) (n := 128) (k := 2) (by omega)
    exact bound.trans (by omega)

end Machine
end Sys2Proof
end

section
/-! A frame and its cells: fields and their bits (R180), the check, the marks (R3, R9), and what a receiver finds
(R12). -/

namespace Sys2Proof
namespace Machine

/-! ### Fields and their bits -/

@[simp] theorem length_bitsOf (n v : Nat) : (bitsOf n v).length = n := by simp [bitsOf]

theorem bitsOf_succ (n v : Nat) : bitsOf (n + 1) v = v.testBit n :: bitsOf n v := by
  unfold bitsOf
  rw [List.range_succ_eq_map, List.map_cons, List.map_map]
  refine congrArg₂ _ rfl (List.map_congr_left fun i _ => ?_)
  exact congrArg v.testBit (by simp only [Nat.succ_eq_add_one]; omega)

theorem foldl_bits (bits : List Bool) : ∀ v : Nat,
    bits.foldl (fun v b => 2 * v + flagBit b) v = v * 2 ^ bits.length + fromBits bits := by
  induction bits with
  | nil => exact fun v => by simp [fromBits]
  | cons b rest ih =>
    intro v
    unfold fromBits
    rw [List.foldl_cons, List.foldl_cons, ih, ih (2 * 0 + flagBit b), List.length_cons, Nat.pow_succ]
    ring

theorem fromBits_cons (b : Bool) (rest : List Bool) :
    fromBits (b :: rest) = flagBit b * 2 ^ rest.length + fromBits rest := by
  refine (foldl_bits rest _).trans ?_
  simp only [Nat.mul_zero, Nat.zero_add]

theorem flagBit_testBit (v n : Nat) : flagBit (v.testBit n) = v / 2 ^ n % 2 := by
  rw [Nat.testBit_eq_decide_div_mod_eq, flagBit]
  rcases Nat.mod_two_eq_zero_or_one (v / 2 ^ n) with h | h <;> simp [h]

theorem fromBits_bitsOf_mod (n v : Nat) : fromBits (bitsOf n v) = v % 2 ^ n := by
  induction n with
  | zero => exact (Nat.mod_one v).symm
  | succ n ih =>
    rw [bitsOf_succ, fromBits_cons, ih, length_bitsOf, flagBit_testBit, Nat.pow_succ, Nat.mod_mul]
    ring

theorem fromBits_bitsOf {n v : Nat} (h : v < 2 ^ n) : fromBits (bitsOf n v) = v :=
  (fromBits_bitsOf_mod n v).trans (Nat.mod_eq_of_lt h)

theorem fromBits_lt (bits : List Bool) : fromBits bits < 2 ^ bits.length := by
  induction bits with
  | nil => exact Nat.one_pos
  | cons b rest ih =>
    have bit : flagBit b ≤ 1 := by cases b <;> decide
    rw [fromBits_cons, List.length_cons, Nat.pow_succ]
    nlinarith

/-- A field that stands behind what comes before it is read as its number. -/
theorem bitField_at {front : List Bool} {n v start : Nat} (place : front.length = start) (h : v < 2 ^ n)
    (rest : List Bool) : bitField (front ++ (bitsOf n v ++ rest)) start n = v := by
  unfold bitField
  rw [← place, List.drop_left, List.take_append_of_le_length (by simp), List.take_of_length_le (by simp),
    fromBits_bitsOf h]

theorem bitFlag_at {front : List Bool} {start : Nat} (place : front.length = start) (b : Bool) (rest : List Bool) :
    bitFlag (front ++ (b :: rest)) start = b := by
  unfold bitFlag
  rw [← place, List.drop_left]
  rfl

theorem bytesOfBits_flatMap (coded : List Byte) :
    bytesOfBits coded.length (coded.flatMap fun b => bitsOf 8 b.toNat) = coded := by
  induction coded with
  | nil => rfl
  | cons b rest ih =>
    rw [List.flatMap_cons, List.length_cons, bytesOfBits, List.take_left' (length_bitsOf _ _),
      List.drop_left' (length_bitsOf _ _), ih, fromBits_bitsOf b.isLt, BitVec.ofNat_toNat, BitVec.setWidth_eq]

@[simp] theorem length_bytesOfBits (n : Nat) : ∀ bits : List Bool, (bytesOfBits n bits).length = n := by
  induction n with
  | zero => exact fun _ => rfl
  | succ n ih => exact fun bits => congrArg (· + 1) (ih _)

theorem length_codedBits (coded : List Byte) :
    (coded.flatMap fun b => bitsOf 8 b.toNat).length = 8 * coded.length := by
  induction coded with
  | nil => rfl
  | cons b rest ih =>
    rw [List.flatMap_cons, List.length_append, ih, length_bitsOf, List.length_cons]
    ring

/-! ### Cells -/

@[simp] theorem bitOfCell_cellOf (b : Bool) : bitOfCell (cellOf b) = b := by cases b <;> rfl

@[simp] theorem validCell_cellOf (b : Bool) : validCell (cellOf b) = true := by cases b <;> rfl

@[simp] theorem map_bitOfCell (bits : List Bool) : (bits.map cellOf).map bitOfCell = bits := by
  rw [List.map_map]
  exact (List.map_congr_left fun b _ => bitOfCell_cellOf b).trans (List.map_id _)

theorem validCell_eq_false_iff (c : LineCell) : validCell c = false ↔ ∃ level, c = .held level := by
  cases c with
  | zero | one => exact ⟨nofun, nofun⟩
  | held level => exact ⟨fun _ => ⟨level, rfl⟩, fun _ => rfl⟩

theorem cells_any_violation (cells : List LineCell) :
    cells.any (!validCell ·) = true ↔ ∃ level, LineCell.held level ∈ cells := by
  simp only [List.any_eq_true, Bool.not_eq_true', validCell_eq_false_iff]
  exact ⟨fun ⟨_, mem, level, eq⟩ => ⟨level, eq ▸ mem⟩, fun ⟨level, mem⟩ => ⟨_, mem, level, rfl⟩⟩

/-! ### The parts of a frame -/

/-- The bits of a frame with any kind, body and check. -/
def frameBits (kind sender : Nat) (body check : List Bool) : List Bool :=
  bitsOf 3 kind ++ bitsOf 6 sender ++ body ++ check

theorem frameBits_covered (kind sender : Nat) (body check : List Bool) (h : check.length = 16) :
    (frameBits kind sender body check).length = 25 + body.length ∧
      (frameBits kind sender body check).take ((frameBits kind sender body check).length - 16) =
        bitsOf 3 kind ++ bitsOf 6 sender ++ body ∧
      (frameBits kind sender body check).drop ((frameBits kind sender body check).length - 16) = check := by
  have covered : (bitsOf 3 kind ++ bitsOf 6 sender ++ body).length = 9 + body.length := by
    simp only [List.length_append, length_bitsOf]
  have all : (frameBits kind sender body check).length = 25 + body.length := by
    unfold frameBits
    rw [List.length_append, covered, h]
    omega
  have place : (frameBits kind sender body check).length - 16 = (bitsOf 3 kind ++ bitsOf 6 sender ++ body).length := by
    rw [all, covered]
    omega
  refine ⟨all, ?_, ?_⟩
  · rw [place]
    exact List.take_left
  · rw [place]
    exact List.drop_left

theorem frameBits_kind {kind : Nat} (sender : Nat) (body check : List Bool) (h : kind < 8) :
    bitField (frameBits kind sender body check) 0 3 = kind := by
  unfold frameBits
  rw [List.append_assoc, List.append_assoc]
  exact bitField_at (front := []) rfl h _

theorem frameBits_sender {sender : Nat} (kind : Nat) (body check : List Bool) (h : sender < 64) :
    bitField (frameBits kind sender body check) 3 6 = sender := by
  unfold frameBits
  rw [List.append_assoc, List.append_assoc]
  exact bitField_at (front := bitsOf 3 kind) (length_bitsOf _ _) h _

theorem frameBits_body (kind sender : Nat) (body : List Bool) {check : List Bool} (h : check.length = 16) :
    ((frameBits kind sender body check).drop 9).take ((frameBits kind sender body check).length - 25) = body := by
  rw [(frameBits_covered kind sender body check h).1]
  unfold frameBits
  rw [List.append_assoc, List.drop_left' (by simp), Nat.add_sub_cancel_left]
  exact List.take_left

/-- The cells of a frame are read by their kind, sender and body. -/
theorem readFrame_frameBits {kind sender : Nat} (body : List Bool) {check : List Bool} (hk : kind < 8)
    (hs : sender < 64) (h : check.length = 16) :
    readFrame ((frameBits kind sender body check).map cellOf) = frameOfBody kind sender body := by
  unfold readFrame
  rw [map_bitOfCell]
  dsimp only
  rw [frameBits_kind sender body check hk, frameBits_sender kind body check hs, frameBits_body kind sender body h]
  exact if_pos (by rw [(frameBits_covered kind sender body check h).1]; omega)

theorem payloadFault_frameBits {kind : Nat} (sender : Nat) (body : List Bool) {check : List Bool} (hk : kind < 8)
    (h : check.length = 16) :
    payloadFault (frameBits kind sender body check) =
      if kind = 1 ∧ 42 ≤ body.length then
        (decodePayload (bytesOfBits (min (bitField body 34 8) ((body.length - 42) / 8)) (body.drop 42))).map
          List.length != some (bitField body 26 8)
      else false := by
  unfold payloadFault
  dsimp only
  rw [frameBits_kind sender body check hk, frameBits_body kind sender body h]

theorem frame_bits_eq (f : Frame) :
    f.bits = frameBits f.kindCode f.sender f.bodyBits (bitsOf 16 (checkOf f.coveredBits).toNat) := rfl

/-! ### The fields of each kind -/

/-- The fields of a frame fit their widths. -/
def Frame.fits (f : Frame) : Prop :=
  f.sender < 64 ∧ f.stream < 2 ^ 11 ∧
    match f with
    | .data _ _ _ _ _ _ decoded coded => decoded < 2 ^ 8 ∧ coded.length < 2 ^ 8
    | .repair _ _ target _ count => target < 2 ^ 6 ∧ count < 2 ^ 5
    | .gone _ _ _ count => count < 2 ^ 5
    | .dispute _ _ owner => owner < 2 ^ 6
    | .claim _ _ | .yield _ _ => True

theorem kindCode_lt (f : Frame) : f.kindCode < 8 := by cases f <;> simp [Frame.kindCode]

/-- The number of bits of a frame's body. -/
def Frame.bodyLength : Frame → Nat
  | .data _ _ _ _ _ _ _ coded => 42 + 8 * coded.length
  | .repair .. => 34
  | .gone .. => 28
  | .claim .. => 11
  | .dispute .. => 17
  | .yield .. => 11

theorem length_bodyBits (f : Frame) : f.bodyBits.length = f.bodyLength := by
  cases f with
  | data _ _ _ _ _ _ _ coded =>
    have codedBits := length_codedBits coded
    simp only [Frame.bodyBits, Frame.bodyLength, List.length_append, length_bitsOf, List.length_cons, List.length_nil]
    omega
  | repair | gone | claim | dispute | yield => simp [Frame.bodyBits, Frame.bodyLength]

theorem bitField_of {bits front rest : List Bool} {n v start : Nat} (eq : bits = front ++ (bitsOf n v ++ rest))
    (place : front.length = start) (h : v < 2 ^ n) : bitField bits start n = v := by
  rw [eq]
  exact bitField_at place h rest

theorem bitFlag_of {bits front rest : List Bool} {b : Bool} {start : Nat} (eq : bits = front ++ (b :: rest))
    (place : front.length = start) : bitFlag bits start = b := by
  rw [eq]
  exact bitFlag_at place b rest

theorem ofNat_toNat_seq (q : Seq) : BitVec.ofNat 12 q.toNat = q := by simp

/-- The coded length and the payload of a DATA frame stand behind its other fields. -/
theorem data_payload {sender t decoded : Nat} (q : Seq) (first last replayed : Bool) {coded : List Byte}
    (short : coded.length < 2 ^ 8) :
    let body := (Frame.data sender t q first last replayed decoded coded).bodyBits
    bitField body 34 8 = coded.length ∧ body.drop 42 = coded.flatMap (fun b => bitsOf 8 b.toNat) := by
  constructor
  · exact bitField_of (front := bitsOf 11 t ++ bitsOf 12 q.toNat ++ [first, last, replayed] ++ bitsOf 8 decoded)
      (rest := coded.flatMap fun b => bitsOf 8 b.toNat) (by simp [Frame.bodyBits]) (by simp) short
  · exact List.drop_left' (by simp)

theorem data_decoded {sender t decoded : Nat} (q : Seq) (first last replayed : Bool) (coded : List Byte)
    (short : decoded < 2 ^ 8) :
    bitField (Frame.data sender t q first last replayed decoded coded).bodyBits 26 8 = decoded :=
  bitField_of (front := bitsOf 11 t ++ bitsOf 12 q.toNat ++ [first, last, replayed]) (by simp [Frame.bodyBits]; rfl)
    (by simp) short

theorem frameOfBody_data {body : List Bool} (sender : Nat)
    (h : 42 ≤ body.length ∧ body.length = 42 + 8 * bitField body 34 8) :
    frameOfBody 1 sender body = some (.data sender (bitField body 0 11) (BitVec.ofNat 12 (bitField body 11 12))
      (bitFlag body 23) (bitFlag body 24) (bitFlag body 25) (bitField body 26 8)
      (bytesOfBits (bitField body 34 8) (body.drop 42))) := if_pos h

theorem frameOfBody_repair {body : List Bool} (sender : Nat) (h : body.length = 34) :
    frameOfBody 2 sender body = some (.repair sender (bitField body 0 11) (bitField body 11 6)
      (BitVec.ofNat 12 (bitField body 17 12)) (bitField body 29 5)) := if_pos h

theorem frameOfBody_gone {body : List Bool} (sender : Nat) (h : body.length = 28) :
    frameOfBody 3 sender body = some (.gone sender (bitField body 0 11) (BitVec.ofNat 12 (bitField body 11 12))
      (bitField body 23 5)) := if_pos h

theorem frameOfBody_claim {body : List Bool} (sender : Nat) (h : body.length = 11) :
    frameOfBody 4 sender body = some (.claim sender (bitField body 0 11)) := if_pos h

theorem frameOfBody_dispute {body : List Bool} (sender : Nat) (h : body.length = 17) :
    frameOfBody 5 sender body = some (.dispute sender (bitField body 0 11) (bitField body 11 6)) := if_pos h

theorem frameOfBody_yield {body : List Bool} (sender : Nat) (h : body.length = 11) :
    frameOfBody 6 sender body = some (.yield sender (bitField body 0 11)) := if_pos h

/-- The body's bits are read back field by field. -/
theorem frameOfBody_bodyBits {f : Frame} (fits : f.fits) : frameOfBody f.kindCode f.sender f.bodyBits = some f := by
  obtain ⟨-, stream, fields⟩ := fits
  have length := length_bodyBits f
  cases f with
  | data sender t q first last replayed decoded coded =>
    obtain ⟨decodedFits, codedFits⟩ := fields
    obtain ⟨count, payload⟩ := data_payload (sender := sender) (t := t) (decoded := decoded) q first last replayed
      codedFits
    have decodedRead := data_decoded (sender := sender) (t := t) q first last replayed coded decodedFits
    generalize bodyEq : (Frame.data sender t q first last replayed decoded coded).bodyBits = body at *
    simp only [Frame.bodyBits] at bodyEq
    have streamRead : bitField body 0 11 = t :=
      bitField_of (front := []) (by rw [← bodyEq]; simp; rfl) rfl stream
    have sequenceRead : bitField body 11 12 = q.toNat :=
      bitField_of (front := bitsOf 11 t) (by rw [← bodyEq]; simp; rfl) (by simp) q.isLt
    have firstRead : bitFlag body 23 = first :=
      bitFlag_of (front := bitsOf 11 t ++ bitsOf 12 q.toNat) (by rw [← bodyEq]; simp; rfl) (by simp)
    have lastRead : bitFlag body 24 = last :=
      bitFlag_of (front := bitsOf 11 t ++ bitsOf 12 q.toNat ++ [first]) (by rw [← bodyEq]; simp; rfl) (by simp)
    have replayedRead : bitFlag body 25 = replayed :=
      bitFlag_of (front := bitsOf 11 t ++ bitsOf 12 q.toNat ++ [first, last]) (by rw [← bodyEq]; simp; rfl) (by simp)
    have shape : 42 ≤ body.length ∧ body.length = 42 + 8 * bitField body 34 8 := by
      rw [count, length]
      exact ⟨Nat.le_add_right _ _, rfl⟩
    refine (frameOfBody_data sender shape).trans ?_
    rw [streamRead, sequenceRead, firstRead, lastRead, replayedRead, decodedRead, count, payload,
      bytesOfBits_flatMap, ofNat_toNat_seq]
  | repair sender t target first count =>
    obtain ⟨targetFits, countFits⟩ := fields
    generalize bodyEq : (Frame.repair sender t target first count).bodyBits = body at *
    simp only [Frame.bodyBits] at bodyEq
    have streamRead : bitField body 0 11 = t :=
      bitField_of (front := []) (by rw [← bodyEq]; simp; rfl) rfl stream
    have targetRead : bitField body 11 6 = target :=
      bitField_of (front := bitsOf 11 t) (by rw [← bodyEq]; simp; rfl) (by simp) targetFits
    have firstRead : bitField body 17 12 = first.toNat :=
      bitField_of (front := bitsOf 11 t ++ bitsOf 6 target) (by rw [← bodyEq]; simp; rfl) (by simp) first.isLt
    have countRead : bitField body 29 5 = count :=
      bitField_of (front := bitsOf 11 t ++ bitsOf 6 target ++ bitsOf 12 first.toNat) (rest := [])
        (by rw [← bodyEq]; simp) (by simp) countFits
    refine (frameOfBody_repair sender length).trans ?_
    rw [streamRead, targetRead, firstRead, countRead, ofNat_toNat_seq]
  | gone sender t first count =>
    generalize bodyEq : (Frame.gone sender t first count).bodyBits = body at *
    simp only [Frame.bodyBits] at bodyEq
    have streamRead : bitField body 0 11 = t :=
      bitField_of (front := []) (by rw [← bodyEq]; simp; rfl) rfl stream
    have firstRead : bitField body 11 12 = first.toNat :=
      bitField_of (front := bitsOf 11 t) (by rw [← bodyEq]; simp; rfl) (by simp) first.isLt
    have countRead : bitField body 23 5 = count :=
      bitField_of (front := bitsOf 11 t ++ bitsOf 12 first.toNat) (rest := []) (by rw [← bodyEq]; simp) (by simp) fields
    refine (frameOfBody_gone sender length).trans ?_
    rw [streamRead, firstRead, countRead, ofNat_toNat_seq]
  | claim sender t =>
    have streamRead : bitField (bitsOf 11 t) 0 11 = t := bitField_of (front := []) (rest := []) (by simp) rfl stream
    exact (frameOfBody_claim sender length).trans (congrArg (fun n => some (Frame.claim sender n)) streamRead)
  | yield sender t =>
    have streamRead : bitField (bitsOf 11 t) 0 11 = t := bitField_of (front := []) (rest := []) (by simp) rfl stream
    exact (frameOfBody_yield sender length).trans (congrArg (fun n => some (Frame.yield sender n)) streamRead)
  | dispute sender t owner =>
    have streamRead : bitField (bitsOf 11 t ++ bitsOf 6 owner) 0 11 = t := bitField_of (front := []) rfl rfl stream
    have ownerRead : bitField (bitsOf 11 t ++ bitsOf 6 owner) 11 6 = owner :=
      bitField_of (front := bitsOf 11 t) (rest := []) (by simp) (by simp) fields
    refine (frameOfBody_dispute sender length).trans ?_
    exact congrArg₂ (fun n m => some (Frame.dispute sender n m)) streamRead ownerRead

/-! ### What R4 allows -/

theorem stationInRing_iff (ring n : Nat) : stationInRing ring n = true ↔ 1 ≤ n ∧ n ≤ ring := by
  simp [stationInRing]

theorem streamInRange_iff (n : Nat) : streamInRange n = true ↔ n < 1024 := decide_eq_true_iff

theorem countInRange_iff (n : Nat) : countInRange n = true ↔ 1 ≤ n ∧ n ≤ 16 := by
  rw [countInRange, Bool.and_eq_true, decide_eq_true_iff, decide_eq_true_iff]
  exact Iff.rfl

theorem payloadInRange_iff (decoded coded : Nat) :
    (1 ≤ decoded && decoded ≤ Config.segmentBytes && 2 ≤ coded && coded ≤ Config.segmentBytes + 2) = true ↔
      1 ≤ decoded ∧ decoded ≤ 240 ∧ 2 ≤ coded ∧ coded ≤ 242 := by
  simp only [Bool.and_eq_true, decide_eq_true_iff, and_assoc]
  exact Iff.rfl

theorem inRange_iff (ring : Nat) (f : Frame) : f.inRange ring = true ↔
    1 ≤ f.sender ∧ f.sender ≤ ring ∧ f.stream < 1024 ∧
      match f with
      | .data _ _ _ _ _ _ decoded coded => 1 ≤ decoded ∧ decoded ≤ 240 ∧ 2 ≤ coded.length ∧ coded.length ≤ 242
      | .repair _ _ target _ count => 1 ≤ target ∧ target ≤ ring ∧ 1 ≤ count ∧ count ≤ 16
      | .gone _ _ _ count => 1 ≤ count ∧ count ≤ 16
      | .dispute _ _ owner => 1 ≤ owner ∧ owner ≤ ring
      | .claim _ _ => True
      | .yield _ _ => True := by
  unfold Frame.inRange
  rw [Bool.and_eq_true, Bool.and_eq_true, stationInRing_iff, streamInRange_iff]
  cases f with
  | data => simp only [payloadInRange_iff, and_assoc]
  | repair => simp only [Bool.and_eq_true, stationInRing_iff, countInRange_iff, and_assoc]
  | gone => simp only [countInRange_iff, and_assoc]
  | dispute => simp only [stationInRing_iff, and_assoc]
  | claim | yield => simp only [and_assoc]

/-- What R4 allows fits the fields' widths. -/
theorem fits_of_inRange {ring : Nat} (small : ring ≤ 63) {f : Frame} (h : f.inRange ring = true) : f.fits := by
  obtain ⟨-, sender, stream, fields⟩ := (inRange_iff ring f).mp h
  refine ⟨by omega, by omega, ?_⟩
  cases f with
  | data => exact ⟨by omega, by omega⟩
  | repair => exact ⟨by omega, by omega⟩
  | gone => exact Nat.lt_of_le_of_lt fields.2 (by decide)
  | dispute => exact Nat.lt_of_le_of_lt (fields.2.trans small) (by decide)
  | claim | yield => trivial

/-- A frame whose coded payload is too long for a frame has more cells than the longest. -/
theorem length_of_inRange {ring : Nat} {f : Frame} (h : f.inRange ring = true) :
    25 + f.bodyLength ≤ Config.longestFrameCells := by
  obtain ⟨-, -, -, fields⟩ := (inRange_iff ring f).mp h
  cases f with
  | data =>
    simp only [Frame.bodyLength, Config.longestFrameCells]
    omega
  | repair | gone | claim | dispute | yield => simp [Frame.bodyLength, Config.longestFrameCells]

/-! ### What a receiver finds in a frame's cells -/

theorem codingError_eq {f : Frame} (fits : f.fits) {check : List Bool} (h : check.length = 16) :
    payloadFault (frameBits f.kindCode f.sender f.bodyBits check) = f.codingError := by
  rw [payloadFault_frameBits _ _ (kindCode_lt f) h, length_bodyBits]
  cases f with
  | data sender t q first last replayed decoded coded =>
    obtain ⟨-, -, decodedFits, codedFits⟩ := fits
    obtain ⟨count, payload⟩ := data_payload (sender := sender) (t := t) (decoded := decoded) q first last replayed
      codedFits
    have came : min coded.length ((42 + 8 * coded.length - 42) / 8) = coded.length := by omega
    refine (if_pos ⟨rfl, Nat.le_add_right _ _⟩).trans ?_
    rw [data_decoded q first last replayed coded decodedFits, count, payload]
    exact congrArg (fun n => (decodePayload (bytesOfBits n _)).map List.length != some decoded) came |>.trans
      (by rw [bytesOfBits_flatMap]; rfl)
  | repair | gone | claim | dispute | yield => exact if_neg fun k => absurd k.1 (by simp [Frame.kindCode])

/-- A frame that R4 allows is read back without a fault but the token decoder's. -/
theorem frame_readBack {ring : Nat} (small : ring ≤ 63) {f : Frame} (h : f.inRange ring = true) :
    readFrame f.cells = some f ∧
      readFaults ring f.cells = { violation := false, check := false, format := false, coding := f.codingError } := by
  have fits := fits_of_inRange small h
  have sixteen : (bitsOf 16 (checkOf f.coveredBits).toNat).length = 16 := length_bitsOf _ _
  have read : readFrame f.cells = some f :=
    (readFrame_frameBits f.bodyBits (kindCode_lt f) fits.1 sixteen).trans (frameOfBody_bodyBits fits)
  refine ⟨read, ?_⟩
  obtain ⟨length, covered, check⟩ := frameBits_covered f.kindCode f.sender f.bodyBits _ sixteen
  rw [← frame_bits_eq] at length covered check
  unfold readFaults
  rw [read]
  unfold Frame.cells
  rw [map_bitOfCell]
  dsimp only
  rw [covered, check, List.length_map, length, length_bodyBits]
  have coding : payloadFault f.bits = f.codingError := codingError_eq fits sixteen
  have violation : (f.bits.map cellOf).any (!validCell ·) = false := by simp
  have long := length_of_inRange h
  have coveredBits : bitsOf 3 f.kindCode ++ bitsOf 6 f.sender ++ f.bodyBits = f.coveredBits := rfl
  rw [coding, violation, coveredBits]
  have short : ¬Config.longestFrameCells < 25 + f.bodyLength := Nat.not_lt.mpr long
  simp [short, h]

/-! ### The marks -/

/-- The end mark ends a frame after its valid cells, at its last cell. -/
theorem followFrame_bits (bits : List Bool) : ∀ n,
    followFrame n ((bits.map cellOf ++ endMark).map some) = .ended (bits.map cellOf) ∧
      ∀ k, k < bits.length + 2 → followFrame n (((bits.map cellOf ++ endMark).take k).map some) = .going := by
  induction bits with
  | nil =>
    refine fun n => ⟨rfl, fun k less => ?_⟩
    match k, less with
    | 0, _ => rfl
    | 1, _ => rfl
  | cons b rest ih =>
    intro n
    obtain ⟨ended, going⟩ := ih (n + 1)
    have step (heard : List LineReading) :
        followFrame n (some (cellOf b) :: heard) = (followFrame (n + 1) heard).after (cellOf b) := by
      cases b <;> rfl
    refine ⟨(step _).trans (congrArg (FrameProgress.after (cellOf b)) ended), fun k less => ?_⟩
    cases k with
    | zero => rfl
    | succ k => exact (step _).trans (congrArg (FrameProgress.after (cellOf b)) (going k (Nat.lt_of_succ_lt_succ less)))

theorem activityOf_startMark_part {n : Nat} (h : n < 8) : activityOf ((startMark.take n).map some) = none := by
  interval_cases n <;> rfl

/-! ### Levels and readings -/

theorem boundaryTransition_iff {a b : LineCell} (ha : validCell a = true) (hb : validCell b = true) :
    boundaryTransition a b = true ↔ a = b := by
  cases a with
  | held => exact absurd ha Bool.false_ne_true
  | zero | one =>
    cases b with
    | held => exact absurd hb Bool.false_ne_true
    | zero | one => decide

theorem cellOfLevels_cellLevels (c : LineCell) : cellOfLevels (cellLevels c).1 (cellLevels c).2 = c := by
  cases c with
  | zero | one => rfl
  | held level => cases level <;> rfl

/-- Where drivers overlap, any violation may be read. -/
theorem readsAs_overlap (a b : LineCell) (more : List LineCell) (r : LineReading) :
    readsAs (a :: b :: more) r = true ↔ ∃ level, r = some (.held level) := by
  have read : readsAs (a :: b :: more) r = (r == some (.held .low) || r == some (.held .high)) := rfl
  rw [read, Bool.or_eq_true, beq_iff_eq, beq_iff_eq]
  constructor
  · rintro (h | h)
    · exact ⟨_, h⟩
    · exact ⟨_, h⟩
  · rintro ⟨level, h⟩
    cases level with
    | low => exact .inl h
    | high => exact .inr h

/-! ### Bodies of any length -/

/-- A body has a length that its kind calls for (R12). -/
def BodyFits (kind : Nat) (body : List Bool) : Prop :=
  (kind = 1 ∧ 42 ≤ body.length ∧ body.length = 42 + 8 * bitField body 34 8) ∨ (kind = 2 ∧ body.length = 34) ∨
    (kind = 3 ∧ body.length = 28) ∨ ((kind = 4 ∨ kind = 6) ∧ body.length = 11) ∨ (kind = 5 ∧ body.length = 17)

theorem frameOfBody_of_fits {kind : Nat} (sender : Nat) {body : List Bool} (h : BodyFits kind body) :
    ∃ f, frameOfBody kind sender body = some f ∧ f.kindCode = kind ∧ f.sender = sender ∧
      f.stream = bitField body 0 11 ∧ f.bodyLength = body.length := by
  rcases h with ⟨rfl, long, length⟩ | ⟨rfl, length⟩ | ⟨rfl, length⟩ | ⟨rfl | rfl, length⟩ | ⟨rfl, length⟩
  · refine ⟨_, frameOfBody_data sender ⟨long, length⟩, rfl, rfl, rfl, ?_⟩
    rw [Frame.bodyLength, length_bytesOfBits]
    exact length.symm
  · exact ⟨_, frameOfBody_repair sender length, rfl, rfl, rfl, length.symm⟩
  · exact ⟨_, frameOfBody_gone sender length, rfl, rfl, rfl, length.symm⟩
  · exact ⟨_, frameOfBody_claim sender length, rfl, rfl, rfl, length.symm⟩
  · exact ⟨_, frameOfBody_yield sender length, rfl, rfl, rfl, length.symm⟩
  · exact ⟨_, frameOfBody_dispute sender length, rfl, rfl, rfl, length.symm⟩

theorem frameOfBody_of_not_fits {kind : Nat} (sender : Nat) {body : List Bool} (h : ¬BodyFits kind body) :
    frameOfBody kind sender body = none := by
  unfold frameOfBody
  split
  · exact if_neg fun k => h (.inl ⟨rfl, k⟩)
  · exact if_neg fun k => h (.inr (.inl ⟨rfl, k⟩))
  · exact if_neg fun k => h (.inr (.inr (.inl ⟨rfl, k⟩)))
  · exact if_neg fun k => h (.inr (.inr (.inr (.inl ⟨.inl rfl, k⟩))))
  · exact if_neg fun k => h (.inr (.inr (.inr (.inr ⟨rfl, k⟩))))
  · exact if_neg fun k => h (.inr (.inr (.inr (.inl ⟨.inr rfl, k⟩))))
  · rfl

theorem format_frameBits (ring : Nat) {kind sender : Nat} (body : List Bool) {check : List Bool} (hk : kind < 8)
    (hs : sender < 64) (h : check.length = 16) :
    (readFaults ring ((frameBits kind sender body check).map cellOf)).format =
      (decide (Config.longestFrameCells < 25 + body.length) ||
        !((frameOfBody kind sender body).map (Frame.inRange ring)).getD false) := by
  unfold readFaults
  dsimp only
  rw [readFrame_frameBits body hk hs h, List.length_map, (frameBits_covered kind sender body check h).1]

theorem format_of_fits (ring : Nat) {kind sender : Nat} {body check : List Bool} (hk : kind < 8) (hs : sender < 64)
    (h : check.length = 16) {f : Frame} (read : frameOfBody kind sender body = some f)
    (length : f.bodyLength = body.length) :
    (readFaults ring ((frameBits kind sender body check).map cellOf)).format = true ↔ f.inRange ring = false := by
  rw [format_frameBits ring body hk hs h, read, ← length]
  cases allowed : f.inRange ring with
  | true =>
    have short : ¬Config.longestFrameCells < 25 + f.bodyLength := Nat.not_lt.mpr (length_of_inRange allowed)
    simp [short, allowed]
  | false => simp [allowed]

/-- The check is the last 16 cells. -/
theorem check_iff (ring : Nat) (covered check : List Bool) (h : check.length = 16) :
    (readFaults ring ((covered ++ check).map cellOf)).check = true ↔ check ≠ bitsOf 16 (checkOf covered).toNat := by
  have place : (covered ++ check).length - 16 = covered.length := by
    rw [List.length_append, h, Nat.add_sub_cancel]
  unfold readFaults
  rw [map_bitOfCell]
  dsimp only
  rw [place, List.take_left, List.drop_left, bne_iff_ne, ne_comm]

/-- Settles O10: the fields, the marks and the faults, each by its own lemma. -/
theorem aFrameIsReadBackFromItsCells : Obligations.AFrameIsReadBackFromItsCells := by
  refine ⟨fun ring f small allowed => frame_readBack small allowed, fun f => ?_, ?_, inRange_iff, fun ring cells => ?_,
    check_iff, fun ring kind sender body check hk hs h => ?_⟩
  · have cells : f.cells.length = f.bits.length := List.length_map _
    obtain ⟨ended, going⟩ := followFrame_bits f.bits 0
    exact ⟨rfl, activityOf_startMark, fun n less => activityOf_startMark_part less, ended,
      fun n less => going n (cells ▸ less)⟩
  · refine ⟨rfl, rfl, fun level => rfl, cellOfLevels_cellLevels, fun a b ha hb => boundaryTransition_iff ha hb,
      fun r => ⟨beq_iff_eq, fun c => beq_iff_eq, fun a b more => readsAs_overlap a b more r⟩⟩
  · exact cells_any_violation cells
  · have coding : (readFaults ring ((frameBits kind sender body check).map cellOf)).coding =
        payloadFault (frameBits kind sender body check) := by
      unfold readFaults
      rw [map_bitOfCell]
    rw [payloadFault_frameBits sender body hk h] at coding
    refine ⟨fun unfit => ?_, fun fits => ?_, fun other => ?_, fun data long => ?_⟩
    · refine (format_frameBits ring body hk hs h).trans ?_
      rw [frameOfBody_of_not_fits sender unfit]
      simp
    · obtain ⟨f, read, kindEq, senderEq, streamEq, length⟩ := frameOfBody_of_fits sender fits
      exact ⟨f, (readFrame_frameBits body hk hs h).trans read, kindEq, senderEq, streamEq,
        format_of_fits ring hk hs h read length⟩
    · exact coding.trans (if_neg fun k => other k.1)
    · rw [if_pos ⟨data, long⟩] at coding
      exact (iff_of_eq (congrArg (· = true) coding)).trans bne_iff_ne

end Machine
end Sys2Proof
end

section
/-! A frame on its way: staging, the end mark, and the break (R9, R12, R13, R17). -/

namespace Sys2Proof
namespace Machine

/-! ### The stuck count over a frame -/

theorem stuckStep_cellOf (count : Nat) (b : Bool) : stuckStep count (some (cellOf b)) = 0 := by cases b <;> rfl

/-- Valid cells never make the line stuck. -/
theorem reachesStuck_bits (bits : List Bool) (rest : List LineReading) : ∀ count, bits ≠ [] →
    reachesStuck count ((bits.map cellOf).map some ++ rest) = reachesStuck 0 rest := by
  induction bits with
  | nil => exact fun _ h => absurd rfl h
  | cons b more ih =>
    intro count _
    rw [List.map_cons, List.map_cons, List.cons_append, reachesStuck_cons, stuckStep_cellOf]
    refine (Bool.false_or _).trans ?_
    cases more with
    | nil => rfl
    | cons => exact ih 0 nofun

theorem frame_bits_ne_nil (f : Frame) : f.bits ≠ [] := by
  rw [frame_bits_eq, frameBits, bitsOf_succ]
  nofun

theorem map_frame_end (f : Frame) :
    (f.cells ++ endMark).map some = (f.bits.map cellOf).map some ++ endMark.map some := List.map_append

theorem stuckAfter_frame (f : Frame) (count : Nat) : stuckAfter count ((f.cells ++ endMark).map some) = 2 := by
  have ⟨valid, ne⟩ := cells_valid f
  rw [List.map_append, stuckAfter_append, stuckAfter_valid f.cells valid ne]
  rfl

theorem reachesStuck_frame (f : Frame) (count : Nat) :
    reachesStuck count ((f.cells ++ endMark).map some) = false := by
  rw [map_frame_end, reachesStuck_bits _ _ _ (frame_bits_ne_nil f)]
  rfl

/-! ### The staging buffers -/

theorem fillingBuffer_none {l : LineInterface} (a : ∀ c, l.bufferA ≠ .filling c) (b : ∀ c, l.bufferB ≠ .filling c) :
    l.fillingBuffer = none := by
  unfold LineInterface.fillingBuffer
  split
  · next h => exact absurd h (a _)
  · next h _ => exact absurd h (b _)
  · rfl

theorem freeBuffer_a {l : LineInterface} (h : l.bufferA = .free) : l.freeBuffer = some .a := by
  unfold LineInterface.freeBuffer
  rw [h]

theorem freeBuffer_b {l : LineInterface} (a : l.bufferA ≠ .free) (b : l.bufferB = .free) : l.freeBuffer = some .b := by
  unfold LineInterface.freeBuffer
  split
  · next h => exact absurd h a
  · rfl
  · next h => exact absurd b (h ·)

theorem freeBuffer_none {l : LineInterface} (a : l.bufferA ≠ .free) (b : l.bufferB ≠ .free) : l.freeBuffer = none := by
  unfold LineInterface.freeBuffer
  split
  · next h => exact absurd h a
  · next h _ => exact absurd h b
  · rfl

/-- Filling and the stuck count have nothing to do with each other. -/
theorem fill_hear (l : LineInterface) (heard : List LineReading) (f : Option Frame) :
    (l.hear heard).fill f = (l.fill f).hear heard := by
  have same : (l.hear heard).fillingBuffer = l.fillingBuffer := rfl
  have count (k : BufferId) (v : StagingBuffer) : (l.hear heard).setBuffer k v = (l.setBuffer k v).hear heard := by
    cases k <;> rfl
  cases f with
  | none => rfl
  | some f =>
    cases f with
    | data _ _ _ _ _ _ _ coded =>
      unfold LineInterface.fill
      dsimp only
      rw [same]
      cases l.fillingBuffer with
      | none => rfl
      | some k => exact count k _
    | repair | gone | claim | dispute | yield => rfl

/-- What filling leaves. -/
theorem fill_rest (l : LineInterface) (f : Option Frame) :
    (l.fill f).brokenWait = l.brokenWait ∧ (l.fill f).stuckCount = l.stuckCount := by
  have buffer (k : BufferId) (v : StagingBuffer) :
      (l.setBuffer k v).brokenWait = l.brokenWait ∧ (l.setBuffer k v).stuckCount = l.stuckCount := by
    cases k <;> exact ⟨rfl, rfl⟩
  cases f with
  | none => exact ⟨rfl, rfl⟩
  | some f =>
    cases f with
    | data =>
      unfold LineInterface.fill
      dsimp only
      cases l.fillingBuffer with
      | none => exact ⟨rfl, rfl⟩
      | some k => exact buffer k _
    | repair | gone | claim | dispute | yield => exact ⟨rfl, rfl⟩

/-! ### Staging -/

theorem stagingClaim_eq {s : State} (n : BitVec 11) (receiving : s.station.state.receiving = true)
    (phase : s.line.phase = .frame) (idle : s.turn.attempt = none) (none : s.line.fillingBuffer = none) :
    stagingClaim n s =
      if ((s.entryOf n.toNat).bind Entry.subscribe?).isSome then
        s.line.freeBuffer.elim (s.bump .stagingOverruns) fun k => s.setBuffer k (.filling [])
      else s := by
  have acts : (s.station.state.receiving && s.line.phase == .frame && s.turn.attempt.isNone &&
      s.line.fillingBuffer.isNone) = true := by
    rw [receiving, phase, idle, none]
    rfl
  refine (if_pos acts).trans ?_
  cases (s.entryOf n.toNat).bind Entry.subscribe? with
  | none => rfl
  | some u => cases s.line.freeBuffer <;> rfl

theorem stagingClaim_some {s : State} {n : BitVec 11} (receiving : s.station.state.receiving = true)
    (phase : s.line.phase = .frame) (idle : s.turn.attempt = none) (none : s.line.fillingBuffer = none)
    {u : SubscribeEntry} (there : (s.entryOf n.toNat).bind Entry.subscribe? = some u) :
    exec (.stagingClaim n) s =
      .next (s.line.freeBuffer.elim (s.bump .stagingOverruns) fun k => s.setBuffer k (.filling [])) := by
  refine congrArg Host.Outcome.next ((stagingClaim_eq n receiving phase idle none).trans (if_pos ?_))
  rw [there]
  rfl

/-! ### The end mark -/

theorem frameEnd_eq {s : State} (heard : List LineReading) (receiving : s.station.state.receiving = true)
    (phase : s.line.phase = .frame) : frameEnd heard s = s.turn.attempt.elim (s.frameHeard heard) fun a =>
      if heard = a.frame.onLine.map some then { s with line := { s.line.hear heard with phase := .verdict } }
      else attemptCollided heard s := by
  have acts : (s.station.state.receiving && s.line.phase == .frame) = true := by
    rw [receiving, phase]
    rfl
  refine (if_pos acts).trans ?_
  cases s.turn.attempt <;> rfl

theorem frameEnd_other {s : State} (heard : List LineReading) (receiving : s.station.state.receiving = true)
    (phase : s.line.phase = .frame) (idle : s.turn.attempt = none) :
    exec (.frameEnd heard) s = .next (s.frameHeard heard) := by
  refine congrArg Host.Outcome.next ((frameEnd_eq heard receiving phase).trans ?_)
  rw [idle]
  rfl

theorem frameHeard_ended {s : State} {heard : List LineReading} {cells : List LineCell}
    (followed : followFrame 0 heard = .ended cells) : s.frameHeard heard =
      s.unlessStuck heard ({ s with line := s.line.hear heard }.judgeFrame cells) := by
  unfold State.frameHeard
  rw [followed]

theorem frameHeard_broken {s : State} {heard : List LineReading} (followed : followFrame 0 heard = .broken) :
    s.frameHeard heard = s.unlessStuck heard { s with line := (s.line.hear heard).breakFrame } := by
  unfold State.frameHeard
  rw [followed]

theorem frameHeard_going {s : State} {heard : List LineReading} (followed : followFrame 0 heard = .going) :
    s.frameHeard heard = s := by
  unfold State.frameHeard
  rw [followed]

theorem frameBecomesBroken_eq {s : State} {heard : List LineReading} (receiving : s.station.state.receiving = true)
    (phase : s.line.phase = .frame) (idle : s.turn.attempt = none) (followed : followFrame 0 heard = .broken) :
    exec (.frameBecomesBroken heard) s =
      .next (s.unlessStuck heard { s with line := (s.line.hear heard).breakFrame }) := by
  have acts : (s.station.state.receiving && s.line.phase == .frame && s.turn.attempt.isNone &&
      followFrame 0 heard == .broken) = true := by
    rw [receiving, phase, idle, followed]
    rfl
  exact congrArg Host.Outcome.next ((if_pos acts).trans (frameHeard_broken followed))

/-- The judgment of a frame the end mark has ended. -/
theorem judgeFrame_eq (s : State) (heard : List LineReading) (cells : List LineCell) :
    { s with line := s.line.hear heard }.judgeFrame cells =
      { s with
        line := { s.line.fill (readFrame cells) with
          phase := .verdict, record := readFrame cells, faults := readFaults s.ringSize cells
          spoiling := s.station.state == .active && (readFaults s.ringSize cells).any
          stuckCount := stuckAfter s.line.stuckCount heard }
        counters := { s.counters with spoilsDriven :=
          if s.station.state == .active && (readFaults s.ringSize cells).any then s.counters.spoilsDriven + 1
          else s.counters.spoilsDriven } } := by
  have count := (fill_rest s.line (readFrame cells)).2
  unfold State.judgeFrame
  dsimp only
  rw [fill_hear]
  unfold LineInterface.hear
  rw [count]
  have ring : State.ringSize { s with line := { s.line with stuckCount := stuckAfter s.line.stuckCount heard } } =
    s.ringSize := rfl
  rw [ring]
  cases s.station.state == .active && (readFaults s.ringSize cells).any <;> rfl

/-- Settles O11: the buffers first, then the frame by what its bit times make. -/
theorem aFrameIsStagedAndJudgedAtItsEndMark : Obligations.AFrameIsStagedAndJudgedAtItsEndMark := by
  refine ⟨fun n s receiving phase idle a b => ?_, fun s receiving phase => ⟨fun own h => ⟨?_, fun heard other => ?_⟩,
    fun f idle allowed coded => ?_, fun heard cells idle followed faulty unstuck => ?_, fun heard idle followed => ?_,
    fun heard idle followed => ?_⟩⟩
  · have unfilled := fillingBuffer_none a b
    refine ⟨fun absent => ?_, fun u there => ?_⟩
    · refine congrArg Host.Outcome.next ((stagingClaim_eq n receiving phase idle unfilled).trans (if_neg ?_))
      rw [absent]
      nofun
    · have claim := stagingClaim_some receiving phase idle unfilled there
      refine ⟨fun free => ?_, fun held free => ?_, fun held held' => ?_⟩
      · rw [freeBuffer_a free] at claim
        exact claim
      · rw [freeBuffer_b held free] at claim
        exact claim
      · rw [freeBuffer_none held held'] at claim
        exact claim
  · refine congrArg Host.Outcome.next ((frameEnd_eq _ receiving phase).trans ?_)
    rw [h]
    refine (if_pos rfl).trans ?_
    rw [LineInterface.hear, stuckAfter_onLine]
  · refine congrArg Host.Outcome.next ((frameEnd_eq _ receiving phase).trans ?_)
    rw [h]
    exact if_neg other
  · have small : s.ringSize ≤ 63 := Nat.le_of_lt_succ s.station.straps.ring.isLt
    obtain ⟨read, faults⟩ := frame_readBack small allowed
    refine (frameEnd_other _ receiving phase idle).trans (congrArg Host.Outcome.next ?_)
    have followed : followFrame 0 ((f.cells ++ endMark).map some) = .ended f.cells := (followFrame_bits f.bits 0).1
    have clear : readFaults s.ringSize f.cells = .clear := faults.trans (by rw [coded]; rfl)
    rw [frameHeard_ended followed, unlessStuck_of_not _ (reachesStuck_frame f _), judgeFrame_eq, stuckAfter_frame, read,
      clear]
    have silent : (s.station.state == .active && FrameFaults.clear.any) = false := Bool.and_false _
    rw [silent]
    rfl
  · refine (frameEnd_other _ receiving phase idle).trans (congrArg Host.Outcome.next ?_)
    rw [frameHeard_ended followed, unlessStuck_of_not _ unstuck, judgeFrame_eq, faulty, Bool.and_true]
    by_cases active : s.station.state = .active
    · rw [decide_eq_true active, if_pos active, if_pos (beq_iff_eq.mpr active), beq_iff_eq.mpr active]
    · have passive : (s.station.state == .active) = false := beq_eq_false_iff_ne.mpr active
      rw [decide_eq_false active, if_neg active, passive]
      rfl
  · rw [frameEnd_other _ receiving phase idle, frameBecomesBroken_eq receiving phase idle followed,
      frameHeard_broken followed]
  · rw [frameEnd_other _ receiving phase idle, frameHeard_going followed]

end Machine
end Sys2Proof
end

section
/-! Activity on the line and its ends (R9, R11, R13 to R16, R21, R22). -/

namespace Sys2Proof
namespace Machine

/-! ### Activity -/

theorem activityBegins_rest {s : State} {heard : List LineReading} {a : Activity} (act : activityOf heard = some a)
    (attached : s.station.state.attached = true) (rest : s.line.phase = .rest) :
    s.activityBegins heard = s.unlessStuck heard { s with
      line := { (s.line.hear heard).discardFrame with
        phase := if a == .startMark && s.station.state.receiving then .frame else .broken, brokenWait := .activity }
      turn := { s.turn with condition := s.turn.condition.onActivity, holdOff := none, attempt := none } } := by
  unfold State.activityBegins
  rw [if_pos attached, rest, act]

theorem activityBegins_quiet {s : State} {heard : List LineReading} (act : activityOf heard = none)
    (rest : s.line.phase = .rest) : s.activityBegins heard = s := by
  unfold State.activityBegins
  rw [rest, act]
  exact ite_self s

theorem activityBegins_stuckWait {s : State} (heard : List LineReading)
    (attached : s.station.state.attached = true) (broken : s.line.phase = .broken) (wait : s.line.brokenWait = .stuckWait) :
    s.activityBegins heard =
      if slotSpoiled heard then
        s.unlessStuck heard { s with line := { s.line.hear heard with brokenWait := .afterStuck } }
      else s := by
  unfold State.activityBegins
  rw [if_pos attached, broken, wait]

/-- A driven line in REST, or in the wait after a stuck condition, is told stuck before anything else. -/
theorem activityBegins_stuck {s : State} {heard : List LineReading} (attached : s.station.state.attached = true)
    (stuck : reachesStuck s.line.stuckCount heard = true)
    (h : (s.line.phase = .rest ∧ activityOf heard ≠ none) ∨ (s.line.phase = .broken ∧ s.line.brokenWait = .stuckWait)) :
    s.activityBegins heard = s.becomeStuck := by
  rcases h with ⟨rest, act⟩ | ⟨broken, wait⟩
  · obtain ⟨a, act⟩ := Option.ne_none_iff_exists'.mp act
    rw [activityBegins_rest act attached rest, unlessStuck_of _ stuck]
  · rw [activityBegins_stuckWait heard attached broken wait, unlessStuck_of _ stuck]
    exact if_pos (isSome_of_reachesStuck heard _ stuck)

theorem onActivity_eq (c : LineCondition) : c.onActivity =
    match c with
    | .opened | .window => .busy
    | .ignored => .ignored
    | .busy => .busy
    | .stuck => .stuck := by
  cases c <;> rfl

/-! ### Verdicts and ends -/

theorem inVerdict_of {s : State} (receiving : s.station.state.receiving = true) (phase : s.line.phase = .verdict)
    (idle : s.turn.attempt = none) : s.inVerdict = true := by
  unfold State.inVerdict
  rw [receiving, phase, idle]
  rfl

theorem spoiledVerdict_eq {s : State} {heard : List LineReading} (slot : s.inVerdict = true)
    (spoiled : heard.any Option.isSome = true ∨ s.line.spoiling = true) :
    spoiledVerdict heard s = s.unlessStuck heard
      (((s.discardAndRest (stuckAfter s.line.stuckCount heard)).bump .spoiledSeen).anchorNow s.turn.lastSender) := by
  refine if_pos ?_
  rw [slot, Bool.true_and, Bool.or_eq_true]
  exact spoiled

theorem brokenFrameEnd_counted {s : State} (broken : s.line.phase = .broken)
    (receiving : s.station.state.receiving = true) (wait : s.line.brokenWait ≠ .stuckWait) :
    brokenFrameEnd s = s.activityEnds.bump .brokenFrames := by
  unfold brokenFrameEnd
  dsimp only
  cases eq : s.line.brokenWait with
  | activity => exact if_pos ⟨broken, receiving⟩
  | afterStuck => exact if_pos ⟨broken, attached_of_receiving receiving⟩
  | stuckWait => exact absurd eq wait

/-- Settles O12: each command by its one branch. -/
theorem activityAndItsEndsMoveTheLineConditions : Obligations.ActivityAndItsEndsMoveTheLineConditions := by
  refine ⟨fun s heard => ⟨fun a act attached rest unstuck => ?_, fun act rest => ?_,
      fun attached broken wait driven unstuck => ?_, fun receiving phase idle followed unstuck => ?_⟩,
    fun s receiving phase idle => ⟨fun heard spoiled unstuck => ?_, fun faulty silent => ?_⟩,
    fun s broken => ⟨fun receiving wait => ?_, fun hold wait => ?_, fun attached wait => ?_⟩⟩
  · refine congrArg Host.Outcome.next ?_
    rw [activityBegins_rest act attached rest, unlessStuck_of_not _ unstuck, onActivity_eq]
    by_cases framed : a = .startMark ∧ s.station.state.receiving = true
    · obtain ⟨rfl, receiving⟩ := framed
      rw [receiving]
      rfl
    · have broken : (a == .startMark && s.station.state.receiving) = false := by
        rw [← Bool.not_eq_true, Bool.and_eq_true, beq_iff_eq]
        exact framed
      rw [if_neg framed, broken]
      rfl
  · exact congrArg Host.Outcome.next (activityBegins_quiet act rest)
  · refine congrArg Host.Outcome.next ?_
    rw [activityBegins_stuckWait heard attached broken wait, unlessStuck_of_not _ unstuck]
    exact if_pos driven
  · rw [frameBecomesBroken_eq receiving phase idle followed, unlessStuck_of_not _ unstuck]
    rfl
  · refine congrArg Host.Outcome.next ?_
    rw [spoiledVerdict_eq (inVerdict_of receiving phase idle) spoiled, unlessStuck_of_not _ unstuck]
    rfl
  · refine congrArg Host.Outcome.next (if_pos ?_)
    rw [inVerdict_of receiving phase idle, faulty, silent]
    rfl
  · exact congrArg Host.Outcome.next (brokenFrameEnd_counted broken receiving wait)
  · refine congrArg Host.Outcome.next (if_pos ⟨hold, broken, ?_⟩)
    rw [wait]
    nofun
  · refine congrArg Host.Outcome.next (if_pos ?_)
    rw [attached, broken, wait]
    rfl

/-! ### The stuck line -/

theorem reachesStuck_iff (heard : List LineReading) : ∀ n : Nat, reachesStuck n heard = true ↔
    ∃ k, 1 ≤ k ∧ k ≤ heard.length ∧ stuckAfter n (heard.take k) = 4096 := by
  induction heard with
  | nil =>
    intro n
    refine ⟨nofun, ?_⟩
    rintro ⟨k, pos, le, -⟩
    exact absurd (pos.trans le) (by decide)
  | cons r rest ih =>
    intro n
    rw [reachesStuck_cons, Bool.or_eq_true, ih, beq_iff_eq]
    constructor
    · rintro (now | ⟨k, pos, le, later⟩)
      · exact ⟨1, Nat.le_refl 1, Nat.succ_le_succ (Nat.zero_le _), now⟩
      · exact ⟨k + 1, Nat.le_add_left 1 k, Nat.succ_le_succ le, later⟩
    · rintro ⟨k, pos, le, at'⟩
      obtain ⟨k, rfl⟩ : ∃ m, k = m + 1 := ⟨k - 1, by omega⟩
      cases k with
      | zero => exact .inl at'
      | succ k => exact .inr ⟨k + 1, Nat.le_add_left 1 k, Nat.le_of_succ_le_succ le, at'⟩

theorem stuckCondition_eq {s : State} {heard : List LineReading} (attached : s.station.state.attached = true)
    (phase : s.line.phase ≠ .stuck) (stuck : reachesStuck s.line.stuckCount heard = true) :
    exec (.stuckCondition heard) s = .next s.becomeStuck := by
  refine congrArg Host.Outcome.next (if_pos ?_)
  rw [attached, stuck, bne_iff_ne.mpr phase]
  rfl

/-- The station that a stuck line leaves, before the change is reported. -/
def State.stuckLine (s : State) : State :=
  { s with
    line := { s.line.discardFrame with phase := .stuck, stuckCount := Config.stuckLimit }
    turn := { s.turn with condition := .stuck, anchor := none, lastSender := 0, holdOff := none, attempt := none }
    station := { s.station with stuckSeen := true, resumeTo :=
      if s.station.state.receiving then s.station.state.resumeRecord else s.station.resumeTo } }

theorem becomeStuck_receiving {s : State} (h : s.station.state.receiving = true) :
    s.becomeStuck = s.stuckLine.reportState .hold .lineStuck 0 := by
  unfold State.becomeStuck State.stuckLine
  rw [if_pos h, if_pos h]

theorem becomeStuck_hold {s : State} (h : s.station.state = .hold) : s.becomeStuck = s.stuckLine := by
  have deaf : ¬s.station.state.receiving = true := by
    rw [h]
    nofun
  unfold State.becomeStuck State.stuckLine
  rw [if_neg deaf, if_neg deaf]

/-- What the change into HOLD leaves, and what it reports. -/
theorem stuck_report (s : State) (new : StationState) (cause : StateCause) (n : Nat) :
    (s.reportState new cause n).port.firstClass = s.port.firstClass ∧
      (s.reportState new cause n).port.thirdClass = s.port.thirdClass ∧
      (s.reportState new cause n).counters.ofLine = s.counters.ofLine := by
  obtain ⟨unit, writes, lost, eq, -⟩ := emit_shape (s.stated new)
    (stateRecord cause.code new s.station.state n (failureCount s.station.history))
  rw [reportState_eq, eq]
  exact ⟨rfl, rfl, rfl⟩

/-- Settles O13: the count bit time by bit time, then the two states a stuck line can meet. -/
theorem aStuckLineTakesTheStationToHold : Obligations.AStuckLineTakesTheStationToHold := by
  refine ⟨fun n level rest small => ⟨rfl, rfl, ?_⟩, fun n heard => reachesStuck_iff heard n, ?_,
    fun s heard unstuck => ?_, ?_, fun valid s attached phase => ?_⟩
  · rintro r (rfl | rfl | rfl) <;> rfl
  · intro s heard attached phase stuck
    refine ⟨_, stuckCondition_eq attached phase stuck, ?_⟩
    by_cases hold : s.station.state = .hold
    · rw [becomeStuck_hold hold, if_pos hold, hold]
      have deaf : s.station.state.receiving = false := by rw [hold]; rfl
      have resume : s.stuckLine.station.resumeTo = s.station.resumeTo := if_neg (by rw [deaf]; nofun)
      exact ⟨hold, rfl, rfl, resume, (Bool.or_false _).symm, rfl, rfl, rfl, rfl, rfl, rfl, rfl,
        State.reports_nil rfl, rfl, rfl, rfl, rfl⟩
    · have receiving : s.station.state.receiving = true := by
        cases state : s.station.state with
        | disabled | detached =>
          rw [state] at attached
          exact nomatch attached
        | joining | active | quiet => rfl
        | hold => exact absurd state hold
      have resume : s.stuckLine.station.resumeTo = s.station.state.resumeRecord := if_pos receiving
      obtain ⟨station, line, turn, table, pool, lists⟩ := reportState_rest s.stuckLine .hold .lineStuck 0
      obtain ⟨first, third, counters⟩ := stuck_report s.stuckLine .hold .lineStuck 0
      have frame := reportState_frame s.stuckLine .hold .lineStuck 0
      have told := reportState_reports s.stuckLine .hold .lineStuck 0
      rw [becomeStuck_receiving receiving, if_neg hold]
      refine ⟨?_, ?_, ?_, ?_, ?_, line, turn, table, pool, lists, frame.fence, frame.window,
        State.reports_congr (s := s.stuckLine) rfl rfl rfl told, first, third, counters, frame.pending⟩
      · rw [station]
      · rw [station]; rfl
      · rw [station]; rfl
      · rw [station, resume]
        cases state : s.station.state with
        | hold => exact absurd state hold
        | disabled | detached | joining | active | quiet => rfl
      · rw [station, bne_iff_ne.mpr hold, Bool.or_true]
  · refine congrArg Host.Outcome.next (if_neg ?_)
    rw [unstuck, Bool.and_false]
    nofun
  · intro s heard stuck
    have attachedStuck (attached : s.station.state.attached = true) (phase : s.line.phase ≠ .stuck) (t : State)
        (h : t = s.becomeStuck) : Host.Outcome.next t = exec (.stuckCondition heard) s :=
      (congrArg Host.Outcome.next h).trans (stuckCondition_eq attached phase stuck).symm
    have off {p : ReceivePhase} (phase : s.line.phase = p) (other : p ≠ .stuck) : s.line.phase ≠ .stuck := phase ▸ other
    refine ⟨fun attached where' => ?_, fun receiving phase idle => ⟨fun ends => ?_, fun followed => ?_⟩,
      fun receiving phase idle => ?_, fun active phase own => ?_⟩
    · refine attachedStuck attached ?_ _ (activityBegins_stuck attached stuck where')
      rcases where' with ⟨rest, -⟩ | ⟨broken, -⟩
      · exact off rest nofun
      · exact off broken nofun
    · refine (frameEnd_other heard receiving phase idle).trans
        (attachedStuck (attached_of_receiving receiving) (off phase nofun) _ ?_)
      cases followed : followFrame 0 heard with
      | going => exact absurd followed ends
      | ended cells => rw [frameHeard_ended followed, unlessStuck_of _ stuck]
      | broken => rw [frameHeard_broken followed, unlessStuck_of _ stuck]
    · exact (frameBecomesBroken_eq receiving phase idle followed).trans
        (attachedStuck (attached_of_receiving receiving) (off phase nofun) _ (unlessStuck_of _ stuck))
    · refine attachedStuck (attached_of_receiving receiving) (off phase nofun) _ ?_
      rw [spoiledVerdict_eq (inVerdict_of receiving phase idle) (.inl (isSome_of_reachesStuck heard _ stuck)),
        unlessStuck_of _ stuck]
    · have attached : s.station.state.attached = true := by rw [active]; rfl
      obtain ⟨a, own⟩ := Option.ne_none_iff_exists'.mp own
      refine attachedStuck attached (off phase nofun) _ ?_
      unfold attemptVerdict
      rw [own]
      refine (if_pos ⟨active, phase⟩).trans ((if_pos (isSome_of_reachesStuck heard _ stuck)).trans ?_)
      exact unlessStuck_of _ stuck
  · refine congrArg Host.Outcome.next (if_pos ?_)
    rw [attached, phase]
    rfl

end Machine
end Sys2Proof
end

section
/-! What a delivered frame does at its owner (R31, R33, R60, R66, R68, R98, R102, R104, R124). -/

namespace Sys2Proof
namespace Machine

theorem yieldOutcome_delivered {s : State} (table : s.tableOk) {e : Entry} {p : PublishEntry} (mem : e ∈ s.table)
    (role : e.role = .publish p) : s.yieldOutcome e.serial .delivered =
      if p.claim = .closing ∨ (p.claim = .fault ∧ p.closeRequested = true) then s.freeEntry e.index .close
      else if p.claim = .fault then s.modifyPublish e.index fun v => { v with yieldDue := false }
      else s := by
  unfold State.yieldOutcome
  rw [table.entryBySerial mem]
  dsimp only
  rw [role]
  dsimp only
  cases p.claim <;> simp

theorem withGone_id (s : State) {f : List GoneEntry → List GoneEntry} (h : f s.lists.gone = s.lists.gone) :
    s.withGone f = s := by
  unfold State.withGone
  rw [h]

/-- A GONE list in which no entry has the serial is not marked. -/
theorem map_mark_id {gone : List GoneEntry} {n : Nat} (h : n ∉ gone.map (·.serial)) (mark : Bool) :
    gone.map (fun g => if g.serial = n then { g with mark := mark } else g) = gone :=
  (List.map_congr_left fun g mem => if_neg fun same => h (List.mem_map.2 ⟨g, mem, same⟩)).trans (List.map_id _)

theorem goneOutcome_gone {s : State} {n : Nat} (h : n ∉ s.lists.gone.map (·.serial)) (q : Seq) (c : Nat) (a : Attempt)
    (o : AttemptOutcome) :
    s.goneOutcome n q c a o = if o = .delivered then s.bump .gonesSent else s := by
  unfold State.goneOutcome
  refine if_congr Iff.rfl (withGone_id (s.bump .gonesSent) ?_) (withGone_id s (map_mark_id h _))
  have kept : s.lists.gone.filter (fun g => !(g.serial == n && g.first == q && g.count == c)) = s.lists.gone :=
    List.filter_eq_self.2 fun g mem => by
      have other : (g.serial == n) = false := beq_eq_false_iff_ne.2 fun same => h (List.mem_map.2 ⟨g, mem, same⟩)
      rw [other]
      rfl
  show (s.lists.gone.filter _).map _ = s.lists.gone
  rw [kept]
  exact map_mark_id h false

theorem repairOutcome_none {s : State} {n : Nat} (h : n ∉ s.table.map (·.serial)) (a : Attempt) (o : AttemptOutcome) :
    s.repairOutcome n a o = if o = .delivered then s.bump .repairsSent else s := by
  have gone : (if o = .delivered then s.bump .repairsSent else s).entryBySerial n = none := by
    have absent := entryBySerial_none h
    split
    · exact absent
    · exact absent
  unfold State.repairOutcome
  dsimp only
  rw [gone]

/-- The turn of new DATA has come to an index. -/
def State.turned (s : State) (i : Nat) : State := { s with turn := { s.turn with pointer := i } }

theorem newDataOutcome_none {s : State} {n : Nat} (h : n ∉ s.table.map (·.serial)) (i c : Nat) :
    s.newDataOutcome n i c .delivered = s.turned i := by
  have gone : (s.turned i).entryBySerial n = none := entryBySerial_none h
  refine (if_pos rfl).trans ?_
  dsimp only
  split
  · rfl
  · next found => exact nomatch gone.symm.trans found

theorem newDataOutcome_head {s : State} (table : s.tableOk) {e : Entry} {p : PublishEntry} {c : PublishCell}
    {rest : List PublishCell} (mem : e ∈ s.table) (role : e.role = .publish p) (queue : p.sendQueue = c :: rest)
    (i : Nat) : s.newDataOutcome e.serial i c.cell .delivered = (s.turned i).deliverSegment e.index p c := by
  have there : (s.turned i).entryBySerial e.serial = some e := table.entryBySerial mem
  refine (if_pos rfl).trans ?_
  dsimp only
  split
  · next found => exact nomatch there.symm.trans found
  · next f found =>
    obtain rfl : e = f := Option.some_inj.1 (there.symm.trans found)
    rw [role]
    dsimp only
    rw [queue]
    exact if_pos rfl

theorem filter_resend_eq_erase {list : List Resend} (nodup : list.Nodup) (i : Nat) (q : Seq) :
    list.filter (fun r => !(r.index == i && r.sequence == q)) = list.erase ⟨i, q⟩ := by
  rw [nodup.erase_eq_filter]
  refine List.filter_congr fun r _ => ?_
  rw [Bool.eq_iff_iff, bne_iff_ne, Bool.not_eq_true', Bool.and_eq_false_iff, beq_eq_false_iff_ne, beq_eq_false_iff_ne]
  constructor
  · rintro (h | h) rfl
    · exact h rfl
    · exact h rfl
  · intro h
    by_contra both
    rw [not_or, not_not, not_not] at both
    obtain ⟨rfl, rfl⟩ := both
    exact h rfl

/-- The fields of an entry whose closing condition has been checked. -/
def PublishEntry.checked (p : PublishEntry) (listed : Bool) : PublishEntry :=
  if p.claim = .closing then { p with yieldDue := p.closingCondition listed } else p

theorem checkClosing_publishAt (s : State) (i : Nat) : (s.checkClosing i).publishAt i =
    (s.publishAt i).map (·.checked (s.lists.resend.any (·.index == i))) :=
  modifyPublish_publishAt s i _

theorem checked_eq (p : PublishEntry) (listed : Bool) : p.checked listed = { p with yieldDue :=
    if p.claim = .closing then p.segmenter == .stopped && p.sendQueue.isEmpty && p.writeBacks.isEmpty && !listed
    else p.yieldDue } := by
  unfold PublishEntry.checked
  split
  · rfl
  · rfl

/-- The GONE list entry with a serial. -/
theorem gone_eq_of_serial {gone : List GoneEntry} (nodup : (gone.map (·.serial)).Nodup) {g h : GoneEntry}
    (hg : g ∈ gone) (hh : h ∈ gone) (same : h.serial = g.serial) : h = g :=
  List.inj_on_of_nodup_map nodup hh hg same

theorem goneDelivered_erase {gone : List GoneEntry} (nodup : (gone.map (·.serial)).Nodup) {g : GoneEntry}
    (mem : g ∈ gone) :
    (gone.filter fun h => !(h.serial == g.serial && h.first == g.first && h.count == g.count)).map
      (fun h => if h.serial = g.serial then { h with mark := false } else h) = gone.erase g := by
  have kept : (gone.filter fun h => !(h.serial == g.serial && h.first == g.first && h.count == g.count)) =
      gone.erase g := by
    rw [nodup.of_map.erase_eq_filter]
    refine List.filter_congr fun h hh => ?_
    by_cases same : h.serial = g.serial
    · rw [gone_eq_of_serial nodup mem hh same]
      simp
    · have other : h ≠ g := fun eq => same (eq ▸ rfl)
      rw [beq_eq_false_iff_ne.2 same, bne_iff_ne.2 other]
      rfl
  rw [kept]
  refine map_mark_id (fun listed => ?_) false
  obtain ⟨h, hh, same⟩ := List.mem_map.1 listed
  obtain ⟨other, inList⟩ := (nodup.of_map.mem_erase_iff).1 hh
  exact other (gone_eq_of_serial nodup mem inList same)

theorem goneDelivered_kept {gone : List GoneEntry} (nodup : (gone.map (·.serial)).Nodup) {g : GoneEntry} {q : Seq}
    {c : Nat} (mem : g ∈ gone) (moved : q ≠ g.first ∨ c ≠ g.count) :
    (gone.filter fun h => !(h.serial == g.serial && h.first == q && h.count == c)) = gone := by
  refine List.filter_eq_self.2 fun h hh => ?_
  rw [Bool.not_eq_true', ← Bool.not_eq_true, Bool.and_eq_true, Bool.and_eq_true, beq_iff_eq, beq_iff_eq, beq_iff_eq]
  rintro ⟨⟨same, first⟩, count⟩
  rw [gone_eq_of_serial nodup mem hh same] at first count
  exact moved.elim (· first.symm) (· count.symm)

/-- Settles O29: the owner of each kind, then the sources that are gone. -/
theorem aDeliveredFrameActsAtItsOwner : Obligations.ADeliveredFrameActsAtItsOwner := by
  refine ⟨fun s a table => ⟨fun e p mem role => ⟨fun source => ?_, fun source claim => ?_, fun source claim => ?_,
      fun source => ?_⟩, fun n absent => ⟨fun source o => ?_, fun source => ?_, fun i c source => ?_⟩,
      fun n q c absent source => ?_⟩,
    fun s a table serials => ⟨fun g q c mem source => ?_, fun e u m k y q c mem role source frame => ?_,
      fun e p q mem role source listed nodup => ?_⟩⟩
  · unfold State.ownerOutcome
    rw [source]
    exact modifyPublishBySerial_eq table mem _
  · unfold State.ownerOutcome
    rw [source]
    refine (modifyPublishBySerial_eq table mem _).trans (modifyPublish_congr table mem role ?_)
    rw [claim]
    rfl
  · unfold State.ownerOutcome
    rw [source]
    refine (modifyPublishBySerial_eq table mem _).trans (modifyPublish_congr table mem role ?_)
    rw [claim]
    rfl
  · unfold State.ownerOutcome
    rw [source]
    dsimp only
    rw [yieldOutcome_delivered table mem role]
    refine ⟨fun ends => if_pos ends, fun fault open' => ?_⟩
    rw [if_neg (by rw [fault, open']; simp), if_pos fault]
  · unfold State.ownerOutcome
    rcases source with h | h | h | ⟨q, h⟩ <;> rw [h]
    · exact modifyPublishBySerial_none absent _
    · exact modifyPublishBySerial_none absent _
    · show s.yieldOutcome n o = s
      unfold State.yieldOutcome
      rw [entryBySerial_none absent]
      cases o <;> rfl
    · show s.resendOutcome n q o = s
      unfold State.resendOutcome
      rw [entryBySerial_none absent]
      cases o <;> rfl
  · unfold State.ownerOutcome
    rw [source]
    exact ⟨(repairOutcome_none absent a _).trans (if_pos rfl),
      fun o failed => (repairOutcome_none absent a o).trans (if_neg failed)⟩
  · unfold State.ownerOutcome
    rw [source]
    exact newDataOutcome_none absent i c
  · unfold State.ownerOutcome
    rw [source]
    exact ⟨(goneOutcome_gone absent q c a _).trans (if_pos rfl),
      fun o failed => (goneOutcome_gone absent q c a o).trans (if_neg failed)⟩
  · have eq : s.ownerOutcome a .delivered = s.goneOutcome g.serial q c a .delivered := by
      unfold State.ownerOutcome
      rw [source]
    refine ⟨_, eq, rfl, rfl, rfl, ?_, fun moved => ?_⟩
    · rintro rfl rfl
      exact goneDelivered_erase serials mem
    · exact congrArg (List.map _) (goneDelivered_kept serials mem moved)
  · have eq : s.ownerOutcome a .delivered =
        (s.bump .repairsSent).modifySubscribe e.index fun v => v.repairDelivered q c := by
      unfold State.ownerOutcome State.repairOutcome
      rw [source]
      dsimp only
      rw [if_pos rfl, frame]
      have there : (s.bump .repairsSent).entryBySerial e.serial = some e := table.entryBySerial mem
      rw [there]
      rfl
    refine ⟨_, eq, rfl, ?_⟩
    rw [modifySubscribe_subscribeAt]
    have there : (s.bump .repairsSent).subscribeAt e.index = some u := subscribeAt_of_entry (table.entryAt mem) role
    rw [there]
    rfl
  · have eq : s.ownerOutcome a .delivered = (({ s with lists := { s.lists with
        resend := s.lists.resend.erase ⟨e.index, q⟩ } } : State).modifyPublish e.index
          fun p => { p with resendsSent := p.resendsSent + 1 }).checkClosing e.index := by
      unfold State.ownerOutcome State.resendOutcome
      rw [source]
      dsimp only
      rw [table.entryBySerial mem]
      dsimp only
      rw [if_pos ((resendListed_iff s _ _).2 listed), filter_resend_eq_erase nodup]
    refine ⟨_, _, eq, rfl, ?_, rfl⟩
    rw [checkClosing_publishAt, modifyPublish_publishAt]
    have there : ({ s with lists := { s.lists with resend := s.lists.resend.erase ⟨e.index, q⟩ } } : State).publishAt
        e.index = some p := publishAt_of_entry (table.entryAt mem) role
    rw [there, Option.map_some, Option.map_some, checked_eq]
    rfl

end Machine
end Sys2Proof
end

section
/-! A delivered segment joins the replay queue (R78, R80, R85, R86, R93, R94, R98, R104). -/

namespace Sys2Proof
namespace Machine

/-! ### What leaves a replay queue -/

/-- `v` has the fields of `p`, but for a YIELD that a check of the closing condition has settled. -/
def PublishEntry.yields (p v : PublishEntry) : Prop :=
  ∃ due, v = { p with yieldDue := due } ∧ (p.claim ≠ .closing → due = p.yieldDue)

theorem PublishEntry.yields_refl (p : PublishEntry) : p.yields p := ⟨p.yieldDue, rfl, fun _ => rfl⟩

theorem PublishEntry.yields_checked (p : PublishEntry) (listed : Bool) : p.yields (p.checked listed) :=
  ⟨_, checked_eq p listed, fun other => if_neg other⟩

theorem checkClosing_some {s : State} {i : Nat} {p : PublishEntry} (there : s.publishAt i = some p) :
    (s.checkClosing i).publishAt i = some (p.checked (s.lists.resend.any (·.index == i))) := by
  rw [checkClosing_publishAt, there]
  rfl

theorem unlistResend_publishAt {s : State} {i : Nat} {p : PublishEntry} (there : s.publishAt i = some p) (stream : Nat)
    (q : Seq) : ∃ v, (s.unlistResend i stream q).publishAt i = some v ∧ p.yields v := by
  unfold State.unlistResend
  split
  · exact ⟨_, checkClosing_some there, p.yields_checked _⟩
  · exact ⟨p, there, p.yields_refl⟩

theorem leaveReplay_publishAt {s : State} {i : Nat} {p : PublishEntry} (there : s.publishAt i = some p) (cell age : Nat) :
    ∃ v, (s.leaveReplay ⟨cell, i, age⟩).publishAt i = some v ∧
      { p with replayQueue := p.replayQueue.filter (·.cell != cell) }.yields v := by
  have left : (s.modifyPublish i fun p => { p with replayQueue := p.replayQueue.filter (·.cell != cell) }).publishAt i =
      some { p with replayQueue := p.replayQueue.filter (·.cell != cell) } := by
    rw [modifyPublish_publishAt, there]
    rfl
  unfold State.leaveReplay
  dsimp only
  split
  · refine unlistResend_publishAt ?_ _ _
    exact left
  · exact ⟨_, left, PublishEntry.yields_refl _⟩

/-! ### Room -/

theorem makeReplayRoom_room {s : State} {p : PublishEntry} (i : Nat) (room : p.replayQueue.length < 32) :
    s.makeReplayRoom i p = s := by
  unfold State.makeReplayRoom
  split
  · exact if_neg (Nat.not_le.2 room)
  · rfl

theorem makeReplayRoom_full {s : State} {p : PublishEntry} {r : PublishCell} {more : List PublishCell} (i : Nat)
    (queue : p.replayQueue = r :: more) (full : 32 ≤ p.replayQueue.length) :
    s.makeReplayRoom i p = ((s.leaveReplay ⟨r.cell, i, 0⟩).bump .replayReleases).releaseCell r.cell := by
  have held : Config.replayLimit ≤ p.replayQueue.length := full
  unfold State.makeReplayRoom
  rw [queue] at held ⊢
  exact if_pos held

theorem releaseCell_idle {s : State} (idle : s.pool.waiting = []) (c : Nat) :
    s.releaseCell c = { s with pool := { s.pool with free := s.pool.free ++ [c] } } :=
  releaseCells_idle idle [c]

theorem filter_head_out {α : Type} (key : α → Nat) (r : α) (more : List α) (others : ∀ d ∈ more, key d ≠ key r) :
    (r :: more).filter (fun d => key d != key r) = more := by
  rw [List.filter_cons_of_neg (by simp)]
  exact List.filter_eq_self.2 fun d mem => bne_iff_ne.2 (others d mem)

/-! ### Joining -/

/-- What joins an entry's replay queue once there is room. -/
def State.joinReplay (s : State) (index : Nat) (p : PublishEntry) (c : PublishCell) : State :=
  let t := s.modifyPublish index fun v =>
    { v with sendQueue := v.sendQueue.filter (·.cell != c.cell), replayQueue := v.replayQueue ++ [c],
             segmentsSent := v.segmentsSent + 1, writeBacks := v.writeBacks ++ c.writeBack?.toList }
  let t := { t with pool := { t.pool with aged := t.pool.aged ++ [(⟨c.cell, index, 0⟩ : AgedCell)] } }
  let t := if p.writeBacks.isEmpty && c.writeBack?.isSome then t.requestWriteBack index else t
  t.checkClosing index

theorem deliverSegment_eq (s : State) (index : Nat) (p : PublishEntry) (c : PublishCell) :
    s.deliverSegment index p c = (s.makeReplayRoom index p).joinReplay index p c := rfl

/-- The fields of an entry whose segment has joined the replay queue. -/
def PublishEntry.sent (v : PublishEntry) (c : PublishCell) : PublishEntry :=
  { v with sendQueue := v.sendQueue.filter (·.cell != c.cell), replayQueue := v.replayQueue ++ [c],
           segmentsSent := v.segmentsSent + 1, writeBacks := v.writeBacks ++ c.writeBack?.toList }

/-- The write-back that a segment asks for at once. -/
def PublishEntry.asksWriteBack (p : PublishEntry) (index : Nat) (c : PublishCell) : List Request :=
  if p.writeBacks = [] then c.writeBack?.toList.map (.txWriteBack index) else []

/-- What joining changes. -/
structure Joined (s t : State) (i : Nat) (p v : PublishEntry) (c : PublishCell) : Prop where
  turn : t.turn = s.turn
  lists : t.lists = s.lists
  counters : t.counters = s.counters
  pool : t.pool = { s.pool with aged := s.pool.aged ++ [⟨c.cell, i, 0⟩] }
  port : t.port = { s.port with thirdClass := s.port.thirdClass ++ p.asksWriteBack i c }
  fields : t.publishAt i = some ((v.sent c).checked (t.lists.resend.any (·.index == i)))

theorem joinReplay_joined {s : State} {i : Nat} {p v : PublishEntry} (there : s.publishAt i = some v)
    (same : v.writeBacks = p.writeBacks) (c : PublishCell) : Joined s (s.joinReplay i p c) i p v c := by
  let t : State := { s.modifyPublish i (·.sent c) with pool := { s.pool with aged := s.pool.aged ++ [⟨c.cell, i, 0⟩] } }
  have fields : t.publishAt i = some (v.sent c) := by
    show (s.modifyPublish i (·.sent c)).publishAt i = _
    rw [modifyPublish_publishAt, there]
    rfl
  have asked : (if p.writeBacks.isEmpty && c.writeBack?.isSome then t.requestWriteBack i else t) =
      { t with port := { s.port with thirdClass := s.port.thirdClass ++ p.asksWriteBack i c } } := by
    unfold PublishEntry.asksWriteBack
    cases back : c.writeBack? with
    | none => simp [t, State.modifyPublish]
    | some r =>
      by_cases first : p.writeBacks = []
      · have own : (v.sent c).writeBacks = [r] := by
          unfold PublishEntry.sent
          rw [same, first, back]
          rfl
        have asks : t.requestWriteBack i = t.request .third (.txWriteBack i r) := by
          unfold State.requestWriteBack
          rw [fields]
          dsimp only
          rw [own]
        rw [first, asks]
        rfl
      · have none : p.writeBacks.isEmpty = false := by rw [← Bool.not_eq_true, List.isEmpty_iff]; exact first
        rw [none, if_neg first, List.append_nil]
        rfl
  have eq : s.joinReplay i p c =
      ({ t with port := { s.port with thirdClass := s.port.thirdClass ++ p.asksWriteBack i c } } : State).checkClosing i :=
    congrArg (State.checkClosing · i) asked
  rw [eq]
  exact ⟨rfl, rfl, rfl, rfl, rfl, checkClosing_some fields⟩

/-- A segment that is no block's last leaves no record; one that is leaves its block's. -/
theorem writeBack?_last {c : PublishCell} {g : BlockTag} (last : c.last = true) (tag : c.tag = some g) :
    c.writeBack? = some ⟨g.descriptor, g.length, c.sequence, g.notify⟩ := by
  unfold PublishCell.writeBack?
  rw [if_pos last, tag]
  rfl

theorem writeBack?_inner {c : PublishCell} (inner : c.last = false) : c.writeBack? = none :=
  if_neg (by rw [inner]; nofun)

/-- Settles O30: room is made first, then the segment joins. -/
theorem aDeliveredSegmentJoinsTheReplayQueue : Obligations.ADeliveredSegmentJoinsTheReplayQueue := by
  intro s e p c rest a table mem role owns queue others source tagged delivered
  have there : (s.turned e.index).publishAt e.index = some p := publishAt_of_entry (table.entryAt mem) role
  have outcome : s.ownerOutcome a .delivered =
      ((s.turned e.index).makeReplayRoom e.index p).joinReplay e.index p c := by
    unfold State.ownerOutcome
    rw [source]
    exact newDataOutcome_head table mem role queue e.index
  have sent : p.sendQueue.filter (fun d => d.cell != c.cell) = rest := by
    rw [queue]
    exact filter_head_out PublishCell.cell c rest others
  have settled {r : State} {v : PublishEntry} (room : (s.turned e.index).makeReplayRoom e.index p = r)
      (pointer : r.turn.pointer = e.index) (port : r.port = s.port) (fields : r.publishAt e.index = some v)
      {old : List PublishCell} (left : { p with replayQueue := old }.yields v) :
      ∃ w, delivered (r.joinReplay e.index p c) w ∧ w.replayQueue = old ++ [c] := by
    obtain ⟨due, rfl, kept⟩ := left
    have joined := joinReplay_joined (p := p) fields rfl c
    have asked := joined.port
    rw [port] at asked
    have fields := joined.fields
    rw [checked_eq] at fields
    refine ⟨_, ⟨by rw [outcome, room], (congrArg TurnUnit.pointer joined.turn).trans pointer, fields, sent, rfl, rfl, ?_,
      fun inner => ⟨?_, ?_⟩, fun g last tag => ⟨?_, fun first => ?_, fun more => ?_⟩⟩, rfl⟩
    · rw [← sent]
      by_cases closing : p.claim = .closing
      · exact (if_pos closing).trans (if_pos closing).symm
      · exact (if_neg closing).trans ((kept closing).trans (if_neg closing).symm)
    · exact (congrArg (p.writeBacks ++ ·) (congrArg Option.toList (writeBack?_inner inner))).trans (List.append_nil _)
    · rw [asked, PublishEntry.asksWriteBack, writeBack?_inner inner]
      simp
    · exact congrArg (p.writeBacks ++ ·) (congrArg Option.toList (writeBack?_last last tag))
    · rw [asked, PublishEntry.asksWriteBack, writeBack?_last last tag, if_pos first]
      rfl
    · rw [asked, PublishEntry.asksWriteBack, if_neg more]
      simp
  refine ⟨fun room => ?_, fun r more replay full distinct idle => ?_⟩
  · obtain ⟨w, done, replayed⟩ := settled (makeReplayRoom_room e.index room) rfl rfl there p.yields_refl
    have joined := joinReplay_joined there rfl c
    exact ⟨_, w, done, replayed, joined.pool, joined.counters⟩
  · let left := (s.turned e.index).leaveReplay ⟨r.cell, e.index, 0⟩
    obtain ⟨-, port, pool, counters, lists⟩ := leaveReplay_leaves (s.turned e.index) ⟨r.cell, e.index, 0⟩
    obtain ⟨v, fields, kept⟩ := leaveReplay_publishAt there r.cell 0
    have out : p.replayQueue.filter (·.cell != r.cell) = more := by
      rw [replay]
      exact filter_head_out PublishCell.cell r more distinct
    rw [out] at kept
    have waits : (left.bump .replayReleases).pool.waiting = [] := (congrArg Pool.waiting pool).trans idle
    have room := makeReplayRoom_full (s := s.turned e.index) e.index replay full
    rw [releaseCell_idle waits] at room
    have pointer : left.turn.pointer = e.index := (EngineFrame.leaveReplay (s.turned e.index) _).pointer
    obtain ⟨w, done, replayed⟩ := settled room pointer port fields kept
    have writeBacks : v.writeBacks = p.writeBacks := by
      obtain ⟨due, rfl, -⟩ := kept
      rfl
    have joined := joinReplay_joined (s := { left.bump .replayReleases with pool :=
      { (left.bump .replayReleases).pool with free := (left.bump .replayReleases).pool.free ++ [r.cell] } })
      fields writeBacks c
    refine ⟨_, w, done, replayed, joined.pool.trans ?_, joined.counters.trans ?_, joined.lists.trans ?_⟩
    · show ({ left.pool with
        free := left.pool.free ++ [r.cell], aged := left.pool.aged ++ [⟨c.cell, e.index, 0⟩] } : Pool) = _
      rw [pool]
      rfl
    · show left.counters.add .replayReleases 1 = _
      rw [counters]
      rfl
    · exact lists e p r (table.entryAt mem) role (by rw [replay]; simp)

end Machine
end Sys2Proof
end

section
/-! The end of an own attempt (R2, R13, R31 to R34, R41, R42). -/

namespace Sys2Proof
namespace Machine

/-! ### The read-back -/

theorem mem_zip_iff {α β : Type} (l : List α) (m : List β) (x : α × β) :
    x ∈ l.zip m ↔ ∃ j : Nat, l[j]? = some x.1 ∧ m[j]? = some x.2 := by
  rw [List.mem_iff_getElem?]
  exact exists_congr fun _ => List.getElem?_zip_eq_some

/-- The read-back fails where some bit time differs from the cell driven in it. -/
theorem readBackFails_iff_differs (driven : List LineCell) (heard : List LineReading) :
    readBackFails driven heard = true ↔ ∃ (j : Nat) (c : LineCell) (r : LineReading),
      driven[j]? = some c ∧ heard[j]? = some r ∧ r ≠ some c := by
  rw [readBackFails_iff]
  constructor
  · rintro ⟨⟨c, r⟩, mem, other⟩
    obtain ⟨j, hc, hr⟩ := (mem_zip_iff _ _ _).1 mem
    exact ⟨j, c, r, hc, hr, other⟩
  · rintro ⟨j, c, r, hc, hr, other⟩
    exact ⟨(c, r), (mem_zip_iff _ _ _).2 ⟨j, hc, hr⟩, other⟩

/-! ### The history -/

theorem pushOutcome_eq {history : List AttemptOutcome} (o : AttemptOutcome) (h : history.length ≤ 16) :
    pushOutcome history o = (history ++ [o]).drop (history.length - 15) := by
  unfold pushOutcome
  by_cases room : history.length < 16
  · have none : history.length - 15 = 0 := by omega
    rw [none]
    exact if_pos room
  · have one : history.length - 15 = 1 := by omega
    rw [one]
    exact if_neg room

/-- A delivered frame is no failure. -/
theorem failureCount_delivered {history : List AttemptOutcome} (h : failureCount history < 8) :
    failureCount (pushOutcome history .delivered) < 8 := by
  have same : failureCount (history ++ [AttemptOutcome.delivered]) = failureCount history := by
    unfold failureCount
    rw [List.countP_append]
    rfl
  unfold pushOutcome
  split
  · rw [same]
    exact h
  · exact Nat.lt_of_le_of_lt (((history ++ [AttemptOutcome.delivered]).drop_sublist 1).countP_le) (by rw [failureCount] at same; omega)

/-! ### The owner's outcome and the history -/

/-- Where the round-robin pointer stands after an outcome (R31). -/
def Attempt.pointerAfter (a : Attempt) (o : AttemptOutcome) (pointer : Nat) : Nat :=
  match a.source with
  | .newData _ index _ => if o = .delivered then index else pointer
  | _ => pointer

/-- The owner's outcome is engine work once the pointer has moved. -/
theorem ownerOutcome_pointer (s : State) (a : Attempt) (o : AttemptOutcome) :
    EngineFrame (s.turned (a.pointerAfter o s.turn.pointer)) (s.ownerOutcome a o) := by
  unfold State.ownerOutcome Attempt.pointerAfter
  cases a.source with
  | dispute serial => exact .disputeOutcome s serial a o
  | gone serial first count => exact .goneOutcome s serial first count a o
  | repair serial => exact .repairOutcome s serial a o
  | claim serial => exact .claimOutcome s serial o
  | yield serial => exact .yieldOutcome s serial o
  | resend serial q => exact .resendOutcome s serial q o
  | newData serial index cell =>
    dsimp only
    unfold State.newDataOutcome
    split
    · dsimp only
      split
      · exact .refl _
      · split
        · exact .refl _
        · split
          · split
            · exact .deliverSegment _ _ _ _
            · exact .refl _
          · exact .refl _
    · exact .refl s

/-- The state in which the history leaves an ACTIVE station. -/
def stateAfter (history : List AttemptOutcome) : StationState := if 8 ≤ failureCount history then .quiet else .active

/-- `t` is `s` with an attempt's outcome in its history. -/
structure Recorded (s t : State) (history : List AttemptOutcome) (pointer : Nat) : Prop where
  state : t.station.state = stateAfter history
  history : t.station.history = history
  phase : t.line.phase = s.line.phase
  brokenWait : t.line.brokenWait = s.line.brokenWait
  condition : t.turn.condition = s.turn.condition
  anchor : t.turn.anchor = s.turn.anchor
  emptyWindows : t.turn.emptyWindows = s.turn.emptyWindows
  lastSender : t.turn.lastSender = s.turn.lastSender
  attempt : t.turn.attempt = s.turn.attempt
  pointer : t.turn.pointer = pointer
  lineCounters : t.counters.ofLine = s.counters.ofLine

theorem Recorded.after {s t u : State} {history : List AttemptOutcome} {pointer : Nat} (h : Recorded s t history pointer)
    (k : EngineFrame t u) : Recorded s u history pointer :=
  ⟨(congrArg StationControl.state k.station).trans h.state, (congrArg StationControl.history k.station).trans h.history,
    k.phase.trans h.phase, k.brokenWait.trans h.brokenWait, k.condition.trans h.condition, k.anchor.trans h.anchor,
    k.emptyWindows.trans h.emptyWindows, k.lastSender.trans h.lastSender, k.attempt.trans h.attempt,
    k.pointer.trans h.pointer, k.lineCounters.trans h.lineCounters⟩

theorem Recorded.before {r s t : State} {history : List AttemptOutcome} {pointer p : Nat}
    (k : EngineFrame (r.turned p) s) (h : Recorded s t history pointer) : Recorded r t history pointer :=
  ⟨h.state, h.history, h.phase.trans k.phase, h.brokenWait.trans k.brokenWait, h.condition.trans k.condition,
    h.anchor.trans k.anchor, h.emptyWindows.trans k.emptyWindows, h.lastSender.trans k.lastSender,
    h.attempt.trans k.attempt, h.pointer, h.lineCounters.trans k.lineCounters⟩

/-- The station with an outcome in its history. -/
def State.withOutcome (s : State) (o : AttemptOutcome) : State :=
  { s with station := { s.station with history := pushOutcome s.station.history o } }

/-- The station as it enters QUIET, before the change is told. -/
def State.quieting (s : State) : State := { s with
  turn := { s.turn with holdOff := none }
  table := s.table.map fun e => { e with role := e.role.mapSubscribe SubscribeEntry.quieted } }

theorem recordOutcome_eq {s : State} (active : s.station.state = .active) (o : AttemptOutcome) :
    s.recordOutcome o = if 8 ≤ failureCount (pushOutcome s.station.history o)
      then (s.withOutcome o).quieting.reportState .quiet .failureHistory 0 else s.withOutcome o :=
  if_congr (and_iff_right active) rfl rfl

theorem recordOutcome_recorded {s : State} (active : s.station.state = .active) (o : AttemptOutcome) :
    Recorded s (s.recordOutcome o) (pushOutcome s.station.history o) s.turn.pointer := by
  rw [recordOutcome_eq active]
  by_cases full : 8 ≤ failureCount (pushOutcome s.station.history o)
  · rw [if_pos full]
    obtain ⟨station, line, turn, -, -, -⟩ := reportState_rest (s.withOutcome o).quieting .quiet .failureHistory 0
    have frame := reportState_frame (s.withOutcome o).quieting .quiet .failureHistory 0
    refine ⟨?_, ?_, frame.phase, frame.brokenWait, frame.condition, frame.anchor, frame.emptyWindows, frame.lastSender,
      frame.attempt, frame.pointer, frame.lineCounters⟩
    · rw [station]
      exact (if_pos full).symm
    · rw [station]
      rfl
  · rw [if_neg full]
    exact ⟨active.trans (if_neg full).symm, rfl, rfl, rfl, rfl, rfl, rfl, rfl, rfl, rfl, rfl⟩

theorem recordOutcome_reports {s : State} (active : s.station.state = .active) (o : AttemptOutcome) :
    s.reports (s.recordOutcome o) (if 8 ≤ failureCount (pushOutcome s.station.history o)
      then [stateRecord 4 .quiet .active 0 (failureCount (pushOutcome s.station.history o))] else []) := by
  rw [recordOutcome_eq active]
  by_cases full : 8 ≤ failureCount (pushOutcome s.station.history o)
  · rw [if_pos full, if_pos full]
    have told := reportState_reports (s.withOutcome o).quieting .quiet .failureHistory 0
    have left : (s.withOutcome o).quieting.station.state = .active := active
    rw [left] at told
    exact State.reports_congr (s := (s.withOutcome o).quieting) rfl rfl rfl told
  · rw [if_neg full, if_neg full]
    exact State.reports_nil rfl

/-- An attempt's end: the owner first, then the history. -/
theorem endAttempt_recorded {s : State} (active : s.station.state = .active) (a : Attempt) (o : AttemptOutcome) :
    Recorded s ((s.ownerOutcome a o).recordOutcome o).finish (pushOutcome s.station.history o)
      (a.pointerAfter o s.turn.pointer) := by
  have frame := ownerOutcome_pointer s a o
  have station : (s.ownerOutcome a o).station = s.station := frame.station
  have recorded := recordOutcome_recorded (s := s.ownerOutcome a o) (by rw [station]; exact active) o
  rw [station, frame.pointer] at recorded
  exact (recorded.before frame).after (EngineFrame.finish _)

theorem Counters.ofLine_inj {c d : Counters} (h : c.ofLine = d.ofLine) :
    c.cleanFrames = d.cleanFrames ∧ c.spoiledSeen = d.spoiledSeen ∧ c.ownCollisions = d.ownCollisions := by
  simp only [Counters.ofLine, List.cons.injEq] at h
  obtain ⟨clean, spoiled, -, -, own, -, -⟩ := h
  exact ⟨clean, spoiled, own⟩

/-! ### The two ends -/

theorem attemptCollided_agrees {s : State} {a : Attempt} {heard : List LineReading} (own : s.turn.attempt = some a)
    (agrees : readBackFails a.frame.onLine heard = false) : attemptCollided heard s = s := by
  unfold attemptCollided
  rw [own]
  refine if_neg ?_
  rintro ⟨-, -, fails⟩
  exact nomatch agrees.symm.trans fails

theorem attemptCollided_fails {s : State} {a : Attempt} {heard : List LineReading} (own : s.turn.attempt = some a)
    (active : s.station.state = .active) (phase : s.line.phase = .frame)
    (fails : readBackFails a.frame.onLine heard = true) :
    let ended : State := { s with
      line := { s.line with
        phase := .broken, brokenWait := .activity, stuckCount := stuckAfter s.line.stuckCount heard }
      turn := { s.turn with attempt := none }
      counters := { s.counters with ownCollisions := s.counters.ownCollisions + 1 } }
    let t := ((ended.ownerOutcome a .collided).recordOutcome .collided).finish
    attemptCollided heard s = if reachesStuck s.line.stuckCount heard then t.becomeStuck else t := by
  unfold attemptCollided
  rw [own]
  exact if_pos ⟨active, phase, fails⟩

/-- A station that follows the line enters HOLD from the state its history left it in. -/
theorem becomeStuck_after {s : State} {history : List AttemptOutcome} (state : s.station.state = stateAfter history) :
    let t := s.becomeStuck
    t.station.state = .hold ∧ t.station.stuckSeen = true ∧ t.station.history = s.station.history ∧
      t.station.resumeTo = (if 8 ≤ failureCount history then .quiet else .joining) ∧ t.line.phase = .stuck ∧
      t.turn.condition = .stuck ∧ t.turn.attempt = none ∧ t.counters.ofLine = s.counters.ofLine := by
  have receiving : s.station.state.receiving = true := by
    rw [state, stateAfter]
    split <;> rfl
  have resume : s.stuckLine.station.resumeTo = if 8 ≤ failureCount history then .quiet else .joining := by
    refine (if_pos receiving).trans ?_
    rw [state, stateAfter]
    split <;> rfl
  obtain ⟨station, line, turn, -, -, -⟩ := reportState_rest s.stuckLine .hold .lineStuck 0
  obtain ⟨-, -, counters⟩ := stuck_report s.stuckLine .hold .lineStuck 0
  intro t
  have eq : t = s.stuckLine.reportState .hold .lineStuck 0 := becomeStuck_receiving receiving
  rw [eq, station, line, turn]
  exact ⟨rfl, rfl, rfl, resume, rfl, rfl, rfl, counters⟩

theorem attemptVerdict_clean {s : State} {a : Attempt} {heard : List LineReading} (own : s.turn.attempt = some a)
    (active : s.station.state = .active) (phase : s.line.phase = .verdict) (clean : heard.any Option.isSome = false) :
    attemptVerdict heard s =
      (((({ s with line := { s.line.hear heard with phase := .rest } } : State).anchorNow s.ownNumber).bump
        .cleanFrames).endAttempt a .delivered).finish := by
  unfold attemptVerdict
  rw [own]
  exact (if_pos ⟨active, phase⟩).trans (if_neg (Bool.eq_false_iff.1 clean))

theorem attemptVerdict_spoiled {s : State} {a : Attempt} {heard : List LineReading} (own : s.turn.attempt = some a)
    (active : s.station.state = .active) (phase : s.line.phase = .verdict) (spoiled : heard.any Option.isSome = true)
    (unstuck : reachesStuck s.line.stuckCount heard = false) :
    attemptVerdict heard s =
      (((({ s with line := { s.line.hear heard with phase := .rest } } : State).anchorNow s.turn.lastSender).bump
        .spoiledSeen).endAttempt a .spoiled).finish := by
  unfold attemptVerdict
  rw [own]
  exact (if_pos ⟨active, phase⟩).trans ((if_pos spoiled).trans (unlessStuck_of_not _ unstuck))

/-- Settles O27: the three outcomes, each told by what the owner and the history leave. -/
theorem anOwnAttemptEndsWithItsOutcome : Obligations.AnOwnAttemptEndsWithItsOutcome := by
  refine ⟨?_, ?_, ?_⟩
  · intro s a heard ok active phase own differs history ended
    have pushed : pushOutcome s.station.history .collided = history := pushOutcome_eq _ ok.1
    have recorded := endAttempt_recorded (s := ended) active a .collided
    have collisions := (Counters.ofLine_inj recorded.lineCounters).2.2
    have kept : a.pointerAfter .collided s.turn.pointer = s.turn.pointer := by
      unfold Attempt.pointerAfter
      split
      · rfl
      · rfl
    refine ⟨fun agrees => ?_, fun fails stuck => ?_, fun fails unstuck => ?_⟩
    · exact congrArg Host.Outcome.next (attemptCollided_agrees own
        (Bool.eq_false_iff.2 (mt (readBackFails_iff_differs _ _).1 agrees)))
    · have eq := attemptCollided_fails own active phase ((readBackFails_iff_differs _ _).2 fails)
      obtain ⟨state, seen, past, resume, line, condition, attempt, counters⟩ := becomeStuck_after recorded.state
      refine ⟨_, congrArg Host.Outcome.next (eq.trans (if_pos stuck)), state, seen, ?_, ?_, line, condition, attempt, ?_⟩
      · exact past.trans (recorded.history.trans pushed)
      · rw [← pushed]
        exact resume
      · exact (Counters.ofLine_inj counters).2.2.trans collisions
    · have eq := attemptCollided_fails own active phase ((readBackFails_iff_differs _ _).2 fails)
      refine ⟨_, congrArg Host.Outcome.next (eq.trans (if_neg (Bool.eq_false_iff.1 unstuck))), rfl, recorded.attempt,
        recorded.phase, recorded.brokenWait, collisions, recorded.history.trans pushed, ?_, recorded.pointer.trans kept,
        recorded.condition, recorded.anchor, recorded.lastSender⟩
      rw [← pushed]
      exact recorded.state
  · intro s a heard ok active phase own ended
    refine ⟨fun clean => ?_, fun spoiled unstuck => ?_⟩
    · have recorded := endAttempt_recorded (s := ended s.ownNumber
        { s.counters with cleanFrames := s.counters.cleanFrames + 1 }) active a .delivered
      have few := failureCount_delivered (ok.2.2 (.inl active))
      refine ⟨_, congrArg Host.Outcome.next (attemptVerdict_clean own active phase clean), rfl, recorded.attempt,
        recorded.phase, recorded.condition, recorded.anchor, recorded.emptyWindows, recorded.lastSender,
        (Counters.ofLine_inj recorded.lineCounters).1, recorded.history.trans (pushOutcome_eq _ ok.1),
        recorded.state.trans (if_neg (Nat.not_le.2 few)), recorded.pointer.trans ?_⟩
      unfold Attempt.pointerAfter
      cases a.source <;> rfl
    · have recorded := endAttempt_recorded (s := ended s.turn.lastSender
        { s.counters with spoiledSeen := s.counters.spoiledSeen + 1 }) active a .spoiled
      have kept : a.pointerAfter .spoiled s.turn.pointer = s.turn.pointer := by
        unfold Attempt.pointerAfter
        cases a.source <;> rfl
      refine ⟨_, congrArg Host.Outcome.next (attemptVerdict_spoiled own active phase spoiled unstuck), rfl,
        recorded.attempt, recorded.phase, recorded.condition, recorded.anchor, recorded.emptyWindows,
        recorded.lastSender, (Counters.ofLine_inj recorded.lineCounters).2.1,
        recorded.history.trans (pushOutcome_eq _ ok.1), ?_, recorded.pointer.trans kept⟩
      exact recorded.state.trans (congrArg stateAfter recorded.history.symm)
  · intro s o ok active history
    have pushed : pushOutcome s.station.history o = history := pushOutcome_eq o ok.1
    rw [← pushed]
    exact recordOutcome_reports active o

end Machine
end Sys2Proof
end

section
/-! The host port: grants, the bytes of each kind of transfer, and the ends of transfers nobody wants (R148, R150,
R157, R160, R181). -/

namespace Sys2Proof
namespace Machine

/-! ### Host records -/

@[simp] theorem length_littleEndian (n v : Nat) : (littleEndian n v).length = n := by simp [littleEndian]

theorem littleEndian_succ (n v : Nat) :
    littleEndian (n + 1) v = BitVec.ofNat 8 v :: littleEndian n (v / 256) := by
  unfold littleEndian
  rw [List.range_succ_eq_map, List.map_cons, List.map_map]
  refine congrArg₂ _ (by rw [Nat.pow_zero, Nat.div_one]) (List.map_congr_left fun i _ => ?_)
  exact congrArg (BitVec.ofNat 8) (by rw [Nat.succ_eq_add_one, Nat.pow_succ', Nat.div_div_eq_div_mul])

theorem fromLittleEndian_littleEndian (n : Nat) : ∀ v, fromLittleEndian (littleEndian n v) = v % 256 ^ n := by
  induction n with
  | zero => exact fun v => (Nat.mod_one v).symm
  | succ n ih =>
    intro v
    have wider : 256 ^ (n + 1) = 256 * 256 ^ n := Nat.pow_succ'
    rw [littleEndian_succ, fromLittleEndian, ih, BitVec.toNat_ofNat, wider]
    exact (Nat.mod_mul (x := v) (a := 256) (b := 256 ^ n)).symm

/-- A field of a record is its number, up to its width. -/
theorem recordField_of {record front rest : List Byte} {n v start : Nat}
    (eq : record = front ++ (littleEndian n v ++ rest)) (place : front.length = start) :
    recordField record start n = v % 256 ^ n := by
  unfold recordField
  rw [eq, ← place, List.drop_left, List.take_append_of_le_length (by simp), List.take_of_length_le (by simp),
    fromLittleEndian_littleEndian]

theorem ofNat_mod_byte (v : Nat) : BitVec.ofNat 8 (v % 256) = BitVec.ofNat 8 v := by
  apply BitVec.eq_of_toNat_eq
  rw [BitVec.toNat_ofNat, BitVec.toNat_ofNat]
  exact Nat.mod_mod _ _

theorem littleEndian_one (v : Nat) : littleEndian 1 v = [BitVec.ofNat 8 v] := littleEndian_succ 0 v

theorem littleEndian_two (v : Nat) : littleEndian 2 v = [BitVec.ofNat 8 v, BitVec.ofNat 8 (v / 256)] := by
  rw [littleEndian_succ, littleEndian_one]

/-- A sequence has no more than two bytes. -/
theorem littleEndian_seq (q : Seq) :
    littleEndian 2 q.toNat = [BitVec.ofNat 8 (q.toNat % 256), BitVec.ofNat 8 (q.toNat / 256)] := by
  rw [littleEndian_two, ofNat_mod_byte]

/-- A field before what a transfer writes stays. -/
theorem recordField_writeInto {record bytes : List Byte} {start n offset : Nat} (before : start + n ≤ offset)
    (inside : offset ≤ record.length) : recordField (writeInto record offset bytes) start n = recordField record start n := by
  unfold recordField writeInto
  have short : start ≤ (record.take offset).length := by rw [List.length_take]; omega
  rw [List.append_assoc, List.drop_append_of_le_length short, List.take_append_of_le_length, List.drop_take,
    List.take_take, Nat.min_eq_left (by omega)]
  rw [List.length_drop, List.length_take]
  omega

theorem descriptorOf_writeInto {record : List Byte} (bytes : List Byte) (length : record.length = 16) :
    descriptorOf (writeInto record 12 bytes) = descriptorOf record := by
  unfold descriptorOf
  rw [recordField_writeInto (by decide) (by omega), recordField_writeInto (by decide) (by omega),
    recordField_writeInto (by decide) (by omega), recordField_writeInto (by decide) (by omega)]

theorem rxDescriptorOf_writeInto {record : List Byte} (bytes : List Byte) (length : record.length = 16) :
    rxDescriptorOf (writeInto record 10 bytes) = rxDescriptorOf record := by
  unfold rxDescriptorOf descriptorOf
  rw [recordField_writeInto (by decide) (by omega), recordField_writeInto (by decide) (by omega),
    recordField_writeInto (by decide) (by omega)]

theorem kind_code_lt (k : EventKind) : k.code < 256 := by cases k <;> decide

/-- The record of an event, field by field. -/
theorem event_fields (ev : Event) :
    let b := ev.bytes
    b.length = 32 ∧ recordField b 0 1 = ev.kind.code ∧ recordField b 1 1 = ev.code % 256 ∧
      recordField b 2 1 = ev.entered % 256 ∧ recordField b 3 1 = ev.left % 256 ∧
      recordField b 4 2 = ev.number.toNat ∧ recordField b 6 2 = ev.stream.getD 65535 % 65536 ∧
      recordField b 8 1 = ev.station % 256 ∧ recordField b 9 1 = 0 ∧
      recordField b 10 2 = ev.sequence % 65536 ∧ recordField b 12 4 = ev.count % 4294967296 ∧
      recordField b 16 4 = ev.descriptor.toNat ∧ b.drop 20 = List.replicate 12 0 := by
  intro b
  let f4 := littleEndian 1 ev.kind.code ++ littleEndian 1 ev.code ++ littleEndian 1 ev.entered ++ littleEndian 1 ev.left
  let f9 := f4 ++ littleEndian 2 ev.number.toNat ++ littleEndian 2 (ev.stream.getD 65535) ++ littleEndian 1 ev.station
  let f20 := f9 ++ [0] ++ littleEndian 2 ev.sequence ++ littleEndian 4 ev.count ++ littleEndian 4 ev.descriptor.toNat
  have all : b = f20 ++ List.replicate 12 0 := rfl
  refine ⟨by simp [all, f20, f9, f4], ?_, ?_, ?_, ?_, ?_, ?_, ?_, ?_, ?_, ?_, ?_, ?_⟩
  · exact (recordField_of (front := []) (by simp [all, f20, f9, f4]; rfl) rfl).trans
      (Nat.mod_eq_of_lt (kind_code_lt ev.kind))
  · exact recordField_of (front := littleEndian 1 ev.kind.code) (by simp [all, f20, f9, f4]; rfl) (by simp)
  · exact recordField_of (front := littleEndian 1 ev.kind.code ++ littleEndian 1 ev.code)
      (by simp [all, f20, f9, f4]; rfl) (by simp)
  · exact recordField_of (front := littleEndian 1 ev.kind.code ++ littleEndian 1 ev.code ++ littleEndian 1 ev.entered)
      (by simp [all, f20, f9, f4]; rfl) (by simp)
  · exact (recordField_of (front := f4) (by simp [all, f20, f9]; rfl) (by simp [f4])).trans
      (Nat.mod_eq_of_lt ev.number.isLt)
  · exact recordField_of (front := f4 ++ littleEndian 2 ev.number.toNat) (by simp [all, f20, f9]; rfl) (by simp [f4])
  · exact recordField_of (front := f4 ++ littleEndian 2 ev.number.toNat ++ littleEndian 2 (ev.stream.getD 65535))
      (by simp [all, f20, f9]; rfl) (by simp [f4])
  · exact recordField_of (v := 0) (front := f9) (by simp [all, f20]; rfl) (by simp [f9, f4])
  · exact recordField_of (front := f9 ++ [0]) (by simp [all, f20]; rfl) (by simp [f9, f4])
  · exact recordField_of (front := f9 ++ [0] ++ littleEndian 2 ev.sequence) (by simp [all, f20]; rfl)
      (by simp [f9, f4])
  · exact (recordField_of (front := f9 ++ [0] ++ littleEndian 2 ev.sequence ++ littleEndian 4 ev.count)
      (by simp [all, f20]; rfl) (by simp [f9, f4])).trans (Nat.mod_eq_of_lt ev.descriptor.isLt)
  · exact List.drop_left' (by simp)

theorem sourceBytes_staging {s : State} (i : Nat) {j : BufferId} {g : StagedSegment}
    (held : s.line.buffer j = .held g) : s.sourceBytes i (.staging j) = g.bytes := by
  have segment : s.heldSegment j = some g := by
    unfold State.heldSegment
    rw [held]
  exact congrArg (fun h : Option StagedSegment => (h.map StagedSegment.bytes).getD []) segment

theorem sourceBytes_cell {s : State} {i j : Nat} {u : SubscribeEntry} {c : ReorderCell}
    (there : s.subscribeAt i = some u) (found : (u.written ++ u.waiting).find? (fun c => c.cell == j) = some c) :
    s.sourceBytes i (.cell j) = c.bytes := by
  have cell : ((s.subscribeAt i).bind fun u => ((u.written ++ u.waiting).find? (fun c => c.cell == j)).map
      ReorderCell.bytes) = some c.bytes := by
    rw [there, Option.bind_some, found]
    rfl
  exact congrArg (fun h : Option (List Byte) => h.getD []) cell

/-! ### Grants and discarded results -/

theorem transferGrant_free {s : State} (free : s.port.granted = none) : exec .transferGrant s = .next s.grant := by
  refine congrArg Host.Outcome.next (if_pos ?_)
  rw [free]
  rfl

theorem grant_nothing {s : State} (first : s.port.firstClass = []) (second : s.port.secondClass = [])
    (third : s.port.thirdClass = []) : s.grant = s := by
  unfold State.grant
  rw [first, second, third]

theorem endTransfer_discarded {s : State} {g : Granted} (discarded : g.discarded = true) (effect : State → State) :
    s.endTransfer g effect = s.freePort := if_pos discarded

theorem endTransfer_wanted {s : State} {g : Granted} (wanted : g.discarded = false) (effect : State → State) :
    s.endTransfer g effect = (effect s.freePort).finish := if_neg (by rw [wanted]; nofun)

section
variable {s : State} {g : Granted} (granted : s.port.granted = some g)
include granted

theorem headDescriptorReadEnd_eq {i : Nat} {a : Word} (request : g.request = .headRead i a) {d : ReadCompletion}
    (fits : d.isDescriptor = true) :
    exec (.headDescriptorReadEnd d) s = .next (s.endTransfer g (headRead i a d)) := by
  refine congrArg Host.Outcome.next ?_
  unfold headDescriptorReadEnd
  rw [granted]
  dsimp only
  rw [request]
  exact if_pos fits

theorem lookAheadReadEnd_eq {i : Nat} {a : Word} (request : g.request = .lookAheadRead i a) {d : ReadCompletion}
    (fits : d.isDescriptor = true) :
    exec (.lookAheadReadEnd d) s = .next (s.endTransfer g (lookAheadRead i a d)) := by
  refine congrArg Host.Outcome.next ?_
  unfold lookAheadReadEnd
  rw [granted]
  dsimp only
  rw [request]
  exact if_pos fits

theorem lastLookEnd_eq {i : Nat} {a : Word} (request : g.request = .lastLook i a) {d : ReadCompletion}
    (fits : d.isDescriptor = true) :
    exec (.lastLookEnd d) s = .next (s.endTransfer g (lastLook i a d)) := by
  refine congrArg Host.Outcome.next ?_
  unfold lastLookEnd
  rw [granted]
  dsimp only
  rw [request]
  exact if_pos fits

theorem txPayloadReadEnd_ok {i k n : Nat} {a : Word} (request : g.request = .txPayload i k a n) {b : List Byte}
    (length : b.length = n) :
    exec (.txPayloadReadEnd (.ok b)) s = .next (s.endTransfer g (payloadRead i k b)) := by
  refine congrArg Host.Outcome.next ?_
  unfold txPayloadReadEnd
  rw [granted]
  dsimp only
  rw [request]
  exact if_pos length

theorem txPayloadReadEnd_error {i k n : Nat} {a : Word} (request : g.request = .txPayload i k a n) :
    exec (.txPayloadReadEnd .error) s = .next (s.endTransfer g fun t =>
      t.faultEntry i .busError n (((t.entryAt i).map (·.chain.current.address)).getD 0)) := by
  refine congrArg Host.Outcome.next ?_
  unfold txPayloadReadEnd
  rw [granted]
  dsimp only
  rw [request]

theorem txWriteBackEnd_eq {i : Nat} {r : WriteBack} (request : g.request = .txWriteBack i r) (c : Completion) :
    exec (.txWriteBackEnd c) s = .next (s.endTransfer g
      (if c = .ok then writeBackDone i r else (·.faultEntry i .busError 4 r.descriptor))) := by
  refine congrArg Host.Outcome.next ?_
  unfold txWriteBackEnd
  rw [granted]
  dsimp only
  rw [request]
  cases c <;> rfl

theorem rxPayloadWriteEnd_eq {i o n : Nat} {k : SegmentSource} {a b : Word}
    (request : g.request = .rxPayload i k a b o n) (c : Completion) :
    exec (.rxPayloadWriteEnd c) s = .next (s.endTransfer g fun t =>
      if c = .error ∧ t.isClosing i = false then t.faultEntry i .busError n a
      else (t.sourceWritten i k).closeProgress i) := by
  refine congrArg Host.Outcome.next ?_
  unfold rxPayloadWriteEnd
  rw [granted]
  dsimp only
  rw [request]

theorem rxWriteBackEnd_eq {i : Nat} {r : RxWriteBack} (request : g.request = .rxWriteBack i r) (c : Completion) :
    exec (.rxWriteBackEnd c) s = .next (s.endTransfer g fun t =>
      if c = .ok then (t.blockReceived i r).closeProgress i
      else if t.isClosing i then t.closeProgress i else t.faultEntry i .busError 6 r.descriptor) := by
  refine congrArg Host.Outcome.next ?_
  unfold rxWriteBackEnd
  rw [granted]
  dsimp only
  rw [request]
  cases c <;> rfl

theorem eventWriteEnd_eq {place : Nat} {ev : Event} (request : g.request = .eventWrite place ev) (c : Completion) :
    exec (.eventWriteEnd c) s = .next (s.endTransfer g fun t =>
      if c = .ok then { t with events := t.events.recordWritten } else t.recordFailed place) := by
  refine congrArg Host.Outcome.next ?_
  unfold eventWriteEnd
  rw [granted]
  dsimp only
  rw [request]
  cases c <;> rfl

end

/-- Settles O47: grants by class, bytes by kind, and a discarded result frees the port. -/
theorem thePortGrantsInOrderAndDiscardsWhatNobodyWants :
    Obligations.ThePortGrantsInOrderAndDiscardsWhatNobodyWants := by
  refine ⟨?_, ?_, ⟨rfl, rfl, rfl, rfl⟩, ?_⟩
  · intro s granted
    refine ⟨fun free r rest => ⟨fun first => ?_, fun first second => ?_, fun first second third => ?_⟩, ?_, ?_⟩
    · rw [transferGrant_free free]
      unfold State.grant
      rw [first]
    · rw [transferGrant_free free]
      unfold State.grant
      rw [first, second]
    · rw [transferGrant_free free]
      unfold State.grant
      rw [first, second, third]
    · rintro (busy | ⟨first, second, third⟩)
      · refine congrArg Host.Outcome.next (if_neg ?_)
        obtain ⟨g, eq⟩ := Option.isSome_iff_exists.1 busy
        rw [eq]
        nofun
      · by_cases free : s.port.granted = none
        · rw [transferGrant_free free, grant_nothing first second third]
        · refine congrArg Host.Outcome.next (if_neg ?_)
          exact fun h => free (Option.isNone_iff_eq_none.1 h)
    · exact Option.isSome_iff_ne_none
  · intro s i transfer
    refine ⟨fun a r mem => ?_, fun k a n => ⟨⟨rfl, rfl⟩, rfl⟩, fun r => ⟨⟨rfl, rfl⟩, ?_, fun record length => ?_⟩,
      fun r => ⟨⟨rfl, rfl⟩, ?_, fun record length => ?_⟩, fun k a b o n => ⟨⟨rfl, rfl⟩, ?_, ?_⟩, fun place ev => ⟨⟨rfl, rfl⟩, ?_⟩⟩
    · simp only [List.mem_cons, List.not_mem_nil, or_false] at mem
      rcases mem with rfl | rfl | rfl <;> exact ⟨⟨rfl, rfl⟩, rfl⟩
    · exact congrArg ([1, 0] ++ ·) (littleEndian_seq r.lastSequence)
    · exact descriptorOf_writeInto _ length
    · show littleEndian 2 r.used ++ littleEndian 1 _ ++ littleEndian 1 r.status.code ++ littleEndian 2 r.sequence.toNat = _
      rw [littleEndian_seq, littleEndian_two, littleEndian_one, littleEndian_one, ofNat_mod_byte r.used,
        ofNat_mod_byte (r.used / 256)]
      rfl
    · exact rxDescriptorOf_writeInto _ length
    · rintro j g rfl held
      exact congrArg (fun l : List Byte => (l.drop o).take n) (sourceBytes_staging i held)
    · rintro j c u rfl there found
      exact congrArg (fun l : List Byte => (l.drop o).take n) (sourceBytes_cell there found)
    · exact event_fields ev
  · intro s g c d granted discarded freed
    have freed (effect : State → State) : s.endTransfer g effect = freed := endTransfer_discarded discarded effect
    refine ⟨fun i a request fits => ?_, fun i a request fits => ?_, fun i a request fits => ?_,
      fun i k a n request length => ?_, fun i r request => ?_, fun i k a b o n request => ?_, fun i r request => ?_,
      fun i e request => ?_⟩
    · rw [headDescriptorReadEnd_eq granted request fits, freed]
    · rw [lookAheadReadEnd_eq granted request fits, freed]
    · rw [lastLookEnd_eq granted request fits, freed]
    · cases d with
      | ok b => rw [txPayloadReadEnd_ok granted request (length b rfl), freed]
      | error => rw [txPayloadReadEnd_error granted request, freed]
    · rw [txWriteBackEnd_eq granted request, freed]
    · rw [rxPayloadWriteEnd_eq granted request, freed]
    · rw [rxWriteBackEnd_eq granted request, freed]
    · rw [eventWriteEnd_eq granted request, freed]

/-! ### Event records -/

theorem timerAtWrite_eq (e : EventUnit) : e.timerAtWrite = match e.timer with
    | .running n => .running n
    | .stopped | .expired =>
      if e.producer = e.consumer ∧ e.config.coalescing ≠ 0 then .running (e.config.coalescing.toNat * 256)
      else e.timer := by
  unfold EventUnit.timerAtWrite
  cases e.timer <;> rfl

/-- Settles O52: the producer moves, or HOST_FAULT is latched and every later write withdrawn. -/
theorem anEventWriteMovesTheProducerOrLatchesHostFault :
    Obligations.AnEventWriteMovesTheProducerOrLatchesHostFault := by
  intro s g place ev granted wanted request
  have ends (c : Completion) := (eventWriteEnd_eq granted request c).trans
    (congrArg Host.Outcome.next (endTransfer_wanted wanted _))
  constructor
  · refine ⟨{ s.freePort with events := s.events.recordWritten }, ends .ok, ?_⟩
    unfold EventUnit.recordWritten
    rw [timerAtWrite_eq]
    rfl
  · exact ⟨s.freePort.recordFailed place, ends .error, rfl, rfl, rfl, rfl, rfl⟩

end Machine
end Sys2Proof
end

section
/-! The timers of claim, age and events (R61, R80, R84, R86, R87, R161), and cells that are released. -/

namespace Sys2Proof
namespace Machine

/-! ### What a cell that leaves its replay queue leaves of the entries -/

/-- `v` has the fields of `p` but for the replay queue and the YIELD due. -/
def PublishEntry.replayed (p v : PublishEntry) : Prop :=
  ∃ queue due, v = { p with replayQueue := queue, yieldDue := due }

theorem PublishEntry.replayed_refl (p : PublishEntry) : p.replayed p := ⟨p.replayQueue, p.yieldDue, rfl⟩

theorem PublishEntry.replayed_trans {p v w : PublishEntry} (h : p.replayed v) (k : v.replayed w) : p.replayed w := by
  obtain ⟨queue, due, rfl⟩ := h
  obtain ⟨queue', due', rfl⟩ := k
  exact ⟨queue', due', rfl⟩

/-- The role's fields but for a publish entry's replay queue and YIELD due. -/
def Role.replayed (r r' : Role) : Prop :=
  (∀ u, r = .subscribe u → r' = r) ∧ ∀ p, r = .publish p → ∃ v, r' = .publish v ∧ p.replayed v

theorem Role.replayed_refl (r : Role) : r.replayed r := ⟨fun _ _ => rfl, fun p h => ⟨p, h, p.replayed_refl⟩⟩

theorem Role.replayed_trans {r r' r'' : Role} (h : r.replayed r') (k : r'.replayed r'') : r.replayed r'' := by
  refine ⟨fun u eq => ?_, fun p eq => ?_⟩
  · have same := h.1 u eq
    rw [same] at k
    exact k.1 u eq
  · obtain ⟨v, eq', first⟩ := h.2 p eq
    obtain ⟨w, eq'', second⟩ := k.2 v eq'
    exact ⟨w, eq'', PublishEntry.replayed_trans first second⟩

theorem Role.mapPublish_replayed {f : PublishEntry → PublishEntry} (keeps : ∀ p : PublishEntry, p.replayed (f p)) (r : Role) :
    r.replayed (r.mapPublish f) := by
  cases r with
  | publish p =>
    have there : (Role.publish p).mapPublish f = .publish (f p) := rfl
    rw [there]
    refine ⟨fun u other => Role.noConfusion other, fun q same => ?_⟩
    obtain rfl : p = q := Role.publish.inj same
    exact ⟨f p, rfl, keeps p⟩
  | subscribe u =>
    have there : (Role.subscribe u).mapPublish f = .subscribe u := rfl
    rw [there]
    exact Role.replayed_refl _

/-- Every entry stays, but for replay queues and YIELDs due. -/
def EntriesReplayed (s t : State) : Prop :=
  ∀ i e, s.entryAt i = some e → ∃ r, t.entryAt i = some { e with role := r } ∧ e.role.replayed r

theorem EntriesReplayed.ofTable {s t : State} (h : t.table = s.table) : EntriesReplayed s t := fun i e there =>
  ⟨e.role, by unfold State.entryAt; rw [h]; exact there, e.role.replayed_refl⟩

theorem EntriesReplayed.trans {s t u : State} (h : EntriesReplayed s t) (k : EntriesReplayed t u) :
    EntriesReplayed s u := by
  intro i e there
  obtain ⟨r, at', first⟩ := h i e there
  obtain ⟨r', at'', second⟩ := k i _ at'
  exact ⟨r', at'', Role.replayed_trans first second⟩

theorem EntriesReplayed.modifyPublish (s : State) (i : Nat) {f : PublishEntry → PublishEntry}
    (keeps : ∀ p : PublishEntry, p.replayed (f p)) : EntriesReplayed s (s.modifyPublish i f) := by
  intro j e there
  rw [modifyPublish_entryAt, there, Option.map_some]
  split
  · exact ⟨_, rfl, Role.mapPublish_replayed keeps e.role⟩
  · exact ⟨e.role, rfl, e.role.replayed_refl⟩

theorem EntriesReplayed.checkClosing (s : State) (i : Nat) : EntriesReplayed s (s.checkClosing i) :=
  .modifyPublish s i fun p => by
    split
    · exact ⟨p.replayQueue, _, rfl⟩
    · exact p.replayed_refl

theorem EntriesReplayed.unlistResend (s : State) (i stream : Nat) (q : Seq) :
    EntriesReplayed s (s.unlistResend i stream q) := by
  unfold State.unlistResend
  split
  · refine EntriesReplayed.trans (t := State.addGone { s with lists := { s.lists with
      resend := s.lists.resend.filter fun r => !(r.index == i && r.sequence == q) } } stream q) (.ofTable rfl)
      (.checkClosing _ i)
  · exact .ofTable rfl

theorem EntriesReplayed.leaveReplay (s : State) (a : AgedCell) : EntriesReplayed s (s.leaveReplay a) := by
  have left : EntriesReplayed s { s.modifyPublish a.index fun p =>
      { p with replayQueue := p.replayQueue.filter (·.cell != a.cell) } with
      pool := { s.pool with aged := s.pool.aged.filter (·.cell != a.cell) } } :=
    (EntriesReplayed.modifyPublish s a.index
      (f := fun p => { p with replayQueue := p.replayQueue.filter (·.cell != a.cell) }) fun p => ⟨_, p.yieldDue, rfl⟩).trans
      (.ofTable rfl)
  unfold State.leaveReplay
  dsimp only
  split
  · exact left.trans (.unlistResend _ _ _ _)
  · exact left

/-! ### Releases to an entry that waits -/

/-- The fields of an entry that has been given a cell. -/
def PublishEntry.joinedBy (p : PublishEntry) (address : Word) (d : Descriptor) (cell : Nat) : PublishEntry :=
  { p with sendQueue := p.sendQueue ++ [newSendCell p address d cell], nextSequence := seqAfter p.nextSequence 1,
           segmenter := .filling }

theorem joinSend_held {s : State} {i : Nat} {e : Entry} {p : PublishEntry} {a : Word} {d : Descriptor}
    (there : s.entryAt i = some e) (role : e.role = .publish p) (held : e.chain.current = .held a d) (c : Nat) :
    s.joinSend i c = s.modifyPublish i (·.joinedBy a d c) := by
  unfold State.joinSend
  rw [there]
  dsimp only
  rw [role, held]
  rfl

theorem nextAfter_waiting {s : State} {i : Nat} (pointer : s.pool.waitingPointer < 32)
    (small : ∀ j ∈ s.pool.waiting, j < 32) (waits : i ∈ s.pool.waiting)
    (first : ∀ j ∈ s.pool.waiting, turnAfter s.pool.waitingPointer i ≤ turnAfter s.pool.waitingPointer j) :
    nextAfter s.pool.waitingPointer (s.pool.waiting.contains ·) = some i :=
  nextAfter_eq pointer (small i waits) (List.elem_eq_true_of_mem waits) fun j _ h => first j (List.contains_iff_mem.1 h)

/-- A released cell goes to the entry that waits first after the waiting pointer. -/
theorem releaseCell_waiting {s : State} {i : Nat} {e : Entry} {p : PublishEntry} {a : Word} {d : Descriptor}
    (there : s.entryAt i = some e) (role : e.role = .publish p) (held : e.chain.current = .held a d)
    (next : nextAfter s.pool.waitingPointer (s.pool.waiting.contains ·) = some i) (c : Nat) :
    s.releaseCell c = ({ s with pool := { s.pool with waiting := s.pool.waiting.erase i, waitingPointer := i } } :
      State).modifyPublish i (·.joinedBy a d c) := by
  unfold State.releaseCell
  rw [next]
  exact joinSend_held (s := { s with pool := { s.pool with waiting := s.pool.waiting.erase i, waitingPointer := i } })
    there role held c

/-! ### The expiries -/

theorem claimSettleExpiry_eq {s : State} {i : Nat} {e : Entry} {p : PublishEntry} (there : s.entryAt i = some e)
    (role : e.role = .publish p) : claimSettleExpiry i s =
      if p.claim = .claiming ∧ p.settleTimer.isSome = true ∧ s.station.state.receiving = true then
        ((s.modifyPublish i fun v => { v with claim := .owned, settleTimer := none }).emit
          (streamEvent .claimWon 0 e.stream s.ownNumber p.nextSequence.toNat p.sendQueue.length 0)).finish
      else s := by
  unfold claimSettleExpiry
  rw [there]
  dsimp only
  rw [role]

theorem replayAgeLimit_old {s : State} {a : AgedCell} {rest : List AgedCell} (aged : s.pool.aged = a :: rest)
    (old : 65536 ≤ a.age) (receiving : s.station.state.receiving = true) :
    replayAgeLimit s = (((s.leaveReplay a).bump .replayReleases).releaseCell a.cell).finish := by
  unfold replayAgeLimit
  rw [aged]
  refine if_pos ?_
  rw [receiving, Bool.true_and]
  exact decide_eq_true old

theorem replayAgeLimit_young {s : State} {a : AgedCell} {rest : List AgedCell} (aged : s.pool.aged = a :: rest)
    (young : a.age < 65536) : replayAgeLimit s = s := by
  unfold replayAgeLimit
  rw [aged]
  refine if_neg ?_
  rw [Bool.and_eq_true, decide_eq_true_iff]
  exact fun h => Nat.not_le.2 young h.2

theorem replayAgeLimit_none {s : State} (aged : s.pool.aged = []) : replayAgeLimit s = s := by
  unfold replayAgeLimit
  rw [aged]

theorem coalescingTimerExpiry_other {s : State} (h : ∀ n, s.events.timer ≠ .running n) : coalescingTimerExpiry s = s := by
  unfold coalescingTimerExpiry
  split
  · next n running => exact absurd running (h n)
  · rfl
  · rfl

/-- Settles O45: each timer by its own command. -/
theorem theTimersOfClaimAgeAndEventsExpire : Obligations.TheTimersOfClaimAgeAndEventsExpire := by
  intro s table
  refine ⟨fun e p mem role claim running receiving => ?_, fun e p mem role stopped => ?_,
    fun a rest aged old receiving idle => ?_, fun a rest e p b d aged old receiving pointer small mem role held waits first => ?_,
    fun a rest aged young => congrArg Host.Outcome.next (replayAgeLimit_young aged young), fun n running => ?_,
    fun h => congrArg Host.Outcome.next (coalescingTimerExpiry_other h),
    fun aged => congrArg Host.Outcome.next (replayAgeLimit_none aged)⟩
  · exact congrArg Host.Outcome.next
      ((claimSettleExpiry_eq (table.entryAt mem) role).trans (if_pos ⟨claim, running, receiving⟩))
  · refine congrArg Host.Outcome.next ((claimSettleExpiry_eq (table.entryAt mem) role).trans (if_neg ?_))
    rw [stopped]
    exact fun h => nomatch h.2.1
  · obtain ⟨-, -, pool, counters, lists⟩ := leaveReplay_leaves s a
    have waits : ((s.leaveReplay a).bump .replayReleases).pool.waiting = [] := (congrArg Pool.waiting pool).trans idle
    have released := releaseCell_idle waits a.cell
    refine ⟨_, congrArg Host.Outcome.next (replayAgeLimit_old aged old receiving), ?_, ?_, ?_, fun p there => ?_⟩
    · rw [released]
      show (s.leaveReplay a).counters.add .replayReleases 1 = _
      rw [counters]
      rfl
    · rw [released]
      show ({ (s.leaveReplay a).pool with free := (s.leaveReplay a).pool.free ++ [a.cell] } : Pool) = _
      rw [pool]
    · rw [released]
      exact lists
    · obtain ⟨v, fields, due, rfl, -⟩ := leaveReplay_publishAt there a.cell a.age
      rw [released]
      exact ⟨_, fields, rfl, rfl⟩
  · obtain ⟨-, -, pool, counters, -⟩ := leaveReplay_leaves s a
    obtain ⟨r, there, -, replayed⟩ := EntriesReplayed.leaveReplay s a _ _ (table.entryAt mem)
    obtain ⟨v, rfl, queue, due, rfl⟩ := replayed p role
    let left := (s.leaveReplay a).bump .replayReleases
    have next : nextAfter left.pool.waitingPointer (left.pool.waiting.contains ·) = some e.index := by
      show nextAfter (s.leaveReplay a).pool.waitingPointer ((s.leaveReplay a).pool.waiting.contains ·) = _
      rw [pool]
      exact nextAfter_waiting pointer small waits first
    have released := releaseCell_waiting (s := left) there rfl held next a.cell
    refine ⟨_, congrArg Host.Outcome.next (replayAgeLimit_old aged old receiving), ?_, ?_, ?_⟩
    · rw [released]
      show (s.leaveReplay a).counters.add .replayReleases 1 = _
      rw [counters]
      rfl
    · rw [released]
      show ({ (s.leaveReplay a).pool with
        waiting := (s.leaveReplay a).pool.waiting.erase e.index, waitingPointer := e.index } : Pool) = _
      rw [pool]
    · rw [released]
      refine ⟨_, (modifyPublish_publishAt _ _ _).trans (congrArg _ (publishAt_of_entry (s := left) there rfl)), rfl, ?_⟩
      exact List.map_append
  · refine congrArg Host.Outcome.next ?_
    unfold coalescingTimerExpiry
    rw [running]

end Machine
end Sys2Proof
end

section
/-! The GONE list: what a sequence that is added makes of it (R99, R100). -/

namespace Sys2Proof
namespace Machine

/-! ### Entries that a sequence touches -/

/-- The entry of the stream ends right before the sequence. -/
def GoneEntry.follows (stream : Nat) (q : Seq) (g : GoneEntry) : Prop :=
  g.stream = stream ∧ g.first + BitVec.ofNat 12 g.count = q

/-- The entry of the stream begins right after the sequence. -/
def GoneEntry.precedes (stream : Nat) (q : Seq) (g : GoneEntry) : Prop := g.stream = stream ∧ q + 1 = g.first

theorem distance_eq_iff {f q : Seq} {c : Nat} (small : c ≤ 16) : (q - f).toNat = c ↔ f + BitVec.ofNat 12 c = q := by
  bv_omega

theorem distance_one_iff (f q : Seq) : (f - q).toNat = 1 ↔ q + 1 = f := by
  bv_omega

theorem touchesEnd_iff {g : GoneEntry} (small : g.count ≤ 16) (q : Seq) :
    g.touchesEnd q = true ↔ g.first + BitVec.ofNat 12 g.count = q := by
  unfold GoneEntry.touchesEnd forwardDistance
  rw [beq_iff_eq]
  exact distance_eq_iff small

theorem touchesFront_iff (g : GoneEntry) (q : Seq) : g.touchesFront q = true ↔ q + 1 = g.first := by
  unfold GoneEntry.touchesFront forwardDistance
  rw [beq_iff_eq]
  exact distance_one_iff g.first q

theorem covers_before {f q : Seq} {c : Nat} (pos : 1 ≤ c) (small : c ≤ 16) (h : f + BitVec.ofNat 12 c = q) :
    (q - 1 - f).toNat < c := by
  bv_omega

theorem covers_first {f : Seq} {c : Nat} (pos : 1 ≤ c) : (f - f).toNat < c := by
  rw [BitVec.sub_self]
  exact pos

/-- No entry both ends before a sequence and begins after it. -/
theorem not_follows_precedes {f q : Seq} {c : Nat} (small : c ≤ 16) (ends : f + BitVec.ofNat 12 c = q)
    (begins : q + 1 = f) : False := by
  bv_omega

theorem find_nobody {list : List GoneEntry} {stream : Nat} {p : GoneEntry → Bool} (nobody : ∀ g ∈ list, g.stream = stream → p g = false) :
    (list.filter (·.stream == stream)).find? p = none :=
  List.find?_eq_none.2 fun g mem => by
    obtain ⟨inList, same⟩ := List.mem_filter.1 mem
    rw [nobody g inList (beq_iff_eq.1 same)]
    exact Bool.false_ne_true

section
variable {list : List GoneEntry} {serial stream : Nat} {q : Seq} (ok : goneOk list serial)
include ok

theorem goneOk_count {g : GoneEntry} (mem : g ∈ list) : 1 ≤ g.count ∧ g.count ≤ 16 := by
  obtain ⟨-, -, count, -⟩ := ok
  exact ⟨(count g mem).1, (count g mem).2.1⟩

theorem follows_unique {g h : GoneEntry} (hg : g ∈ list) (hh : h ∈ list) (fg : g.follows stream q)
    (fh : h.follows stream q) : g = h := by
  obtain ⟨sg, eg⟩ := fg
  obtain ⟨sh, eh⟩ := fh
  have cg := goneOk_count ok hg
  have ch := goneOk_count ok hh
  exact ok.2.2.2 g hg h hh (sg.trans sh.symm) (q - 1) ((covers_iff _ _).2 (covers_before cg.1 cg.2 eg))
    ((covers_iff _ _).2 (covers_before ch.1 ch.2 eh))

theorem precedes_unique {g h : GoneEntry} (hg : g ∈ list) (hh : h ∈ list) (pg : g.precedes stream q)
    (ph : h.precedes stream q) : g = h := by
  obtain ⟨sg, eg⟩ := pg
  obtain ⟨sh, eh⟩ := ph
  have first : g.first = h.first := eg.symm.trans eh
  have covered : h.covers g.first = true := by
    rw [first]
    exact (covers_iff _ _).2 (covers_first (goneOk_count ok hh).1)
  exact ok.2.2.2 g hg h hh (sg.trans sh.symm) g.first ((covers_iff _ _).2 (covers_first (goneOk_count ok hg).1)) covered

/-! ### What is found among the entries of the stream -/

theorem find_follows {p : GoneEntry → Bool} {x : GoneEntry} (mem : x ∈ list) (follows : x.follows stream q)
    (found : p x = true) (only : ∀ g, p g = true → g.touchesEnd q = true) :
    (list.filter (·.stream == stream)).find? p = some x := by
  cases eq : (list.filter (·.stream == stream)).find? p with
  | none => exact absurd found (List.find?_eq_none.1 eq x (List.mem_filter.2 ⟨mem, beq_iff_eq.2 follows.1⟩))
  | some g =>
    obtain ⟨inList, same, touches⟩ := goneFound eq
    have ends := (touchesEnd_iff (goneOk_count ok inList).2 q).1 (only g touches)
    rw [follows_unique ok inList mem ⟨same, ends⟩ follows]

theorem find_precedes {p : GoneEntry → Bool} {x : GoneEntry} (mem : x ∈ list) (precedes : x.precedes stream q)
    (found : p x = true) (only : ∀ g, p g = true → g.touchesFront q = true) :
    (list.filter (·.stream == stream)).find? p = some x := by
  cases eq : (list.filter (·.stream == stream)).find? p with
  | none => exact absurd found (List.find?_eq_none.1 eq x (List.mem_filter.2 ⟨mem, beq_iff_eq.2 precedes.1⟩))
  | some g =>
    obtain ⟨inList, same, touches⟩ := goneFound eq
    rw [precedes_unique ok inList mem ⟨same, (touchesFront_iff g q).1 (only g touches)⟩ precedes]

theorem goneBridge_some {a b : GoneEntry} (ha : a ∈ list) (hb : b ∈ list) (follows : a.follows stream q)
    (precedes : b.precedes stream q) (small : a.count + b.count ≤ 15) :
    goneBridge (list.filter (·.stream == stream)) q = some (a, b) := by
  unfold goneBridge
  rw [find_follows ok ha follows ((touchesEnd_iff (goneOk_count ok ha).2 q).2 follows.2) fun _ => id,
    find_precedes ok hb precedes ((touchesFront_iff b q).2 precedes.2) fun _ => id]
  exact if_pos small

/-- No two entries are made one where those that the sequence joins are too long. -/
theorem goneBridge_none (long : ∀ a ∈ list, ∀ b ∈ list, a.follows stream q → b.precedes stream q → 15 < a.count + b.count) :
    goneBridge (list.filter (·.stream == stream)) q = none := by
  unfold goneBridge
  split
  · next a b ha hb =>
    obtain ⟨inList, same, ends⟩ := goneFound ha
    obtain ⟨inList', same', begins⟩ := goneFound hb
    exact if_neg (Nat.not_le.2 (long a inList b inList' ⟨same, (touchesEnd_iff (goneOk_count ok inList).2 q).1 ends⟩
      ⟨same', (touchesFront_iff b q).1 begins⟩))
  · rfl

end

/-! ### The list after a sequence is added -/

theorem goneAdded_covered {list : List GoneEntry} {stream : Nat} {q : Seq} (serial : Nat)
    (covered : ∃ g ∈ list, g.stream = stream ∧ g.covers q = true) : goneAdded list serial stream q = list := by
  obtain ⟨g, mem, same, covers⟩ := covered
  refine if_pos ?_
  exact List.any_eq_true.2 ⟨g, List.mem_filter.2 ⟨mem, beq_iff_eq.2 same⟩, covers⟩

/-- The list after the addition of a sequence that no entry covers. -/
def goneGrown (list : List GoneEntry) (serial stream : Nat) (q : Seq) : List GoneEntry :=
  let mine := list.filter (·.stream == stream)
  (goneBridge mine q).elim
    ((mine.find? (fun g => g.touchesEnd q && g.count < Config.rangeLimit)).elim
      ((mine.find? (fun g => g.touchesFront q && g.count < Config.rangeLimit)).elim
        (if list.length < Config.goneLimit then list ++ [⟨serial, stream, q, 1, false⟩] else list)
        fun b => list.map fun g => if g.serial = b.serial then { g with first := q, count := g.count + 1 } else g)
      fun a => list.map fun g => if g.serial = a.serial then { g with count := g.count + 1 } else g)
    fun ab => combineGone ab.1 ab.2 list

theorem goneAdded_fresh {list : List GoneEntry} {stream : Nat} {q : Seq} (serial : Nat)
    (fresh : ∀ g ∈ list, g.stream = stream → g.covers q = false) :
    goneAdded list serial stream q = goneGrown list serial stream q := by
  have free : (list.filter (·.stream == stream)).any (·.covers q) = false :=
    List.any_eq_false.2 fun g mem => by
      obtain ⟨inList, same⟩ := List.mem_filter.1 mem
      rw [fresh g inList (beq_iff_eq.1 same)]
      exact Bool.false_ne_true
  unfold goneAdded goneGrown
  dsimp only
  rw [if_neg (by rw [free]; exact Bool.false_ne_true)]
  split
  · next a b bridge => rw [bridge]; rfl
  · next bridge =>
    rw [bridge]
    split
    · next a found => rw [found]; rfl
    · next none =>
      rw [none]
      split
      · next b found => rw [found]; rfl
      · next none' => rw [none']; rfl

/-! ### Changes at a place -/

theorem serial_ne_of_split {pre post : List GoneEntry} {x : GoneEntry}
    (nodup : ((pre ++ x :: post).map (·.serial)).Nodup) :
    (∀ g ∈ pre, g.serial ≠ x.serial) ∧ ∀ g ∈ post, g.serial ≠ x.serial := by
  rw [List.map_append, List.map_cons, List.nodup_append] at nodup
  obtain ⟨-, tail, apart⟩ := nodup
  refine ⟨fun g mem => apart _ (List.mem_map_of_mem mem) _ List.mem_cons_self, fun g mem same => ?_⟩
  exact (List.nodup_cons.1 tail).1 (same ▸ List.mem_map_of_mem mem)

/-- Changing the entry of one serial changes the entry at its place. -/
theorem map_at_serial {pre post : List GoneEntry} {x : GoneEntry} (nodup : ((pre ++ x :: post).map (·.serial)).Nodup)
    (f : GoneEntry → GoneEntry) :
    (pre ++ x :: post).map (fun g => if g.serial = x.serial then f g else g) = pre ++ f x :: post := by
  obtain ⟨before, after⟩ := serial_ne_of_split nodup
  have same {l : List GoneEntry} (h : ∀ g ∈ l, g.serial ≠ x.serial) :
      l.map (fun g => if g.serial = x.serial then f g else g) = l :=
    (List.map_congr_left fun g mem => if_neg (h g mem)).trans (List.map_id _)
  rw [List.map_append, List.map_cons, if_pos rfl, same before, same after]

/-- Two entries become one in the place of the earlier. -/
theorem combineGone_at {pre mid post : List GoneEntry} {x y a b : GoneEntry}
    (nodup : ((pre ++ x :: (mid ++ y :: post)).map (·.serial)).Nodup) (parts : (a = x ∧ b = y) ∨ (a = y ∧ b = x)) :
    combineGone a b (pre ++ x :: (mid ++ y :: post)) =
      pre ++ { x with first := a.first, count := a.count + b.count + 1 } :: (mid ++ post) := by
  obtain ⟨beforeX, afterX⟩ := serial_ne_of_split nodup
  have split' : pre ++ x :: (mid ++ y :: post) = (pre ++ x :: mid) ++ y :: post := by simp
  obtain ⟨beforeY, afterY⟩ := serial_ne_of_split (split' ▸ nodup)
  have part (g : GoneEntry) : (g.serial == a.serial || g.serial == b.serial) =
      (g.serial == x.serial || g.serial == y.serial) := by
    rcases parts with ⟨rfl, rfl⟩ | ⟨rfl, rfl⟩
    · rfl
    · exact Bool.or_comm _ _
  have other {g : GoneEntry} (hx : g.serial ≠ x.serial) (hy : g.serial ≠ y.serial) :
      (g.serial == x.serial || g.serial == y.serial) = false := by
    rw [beq_eq_false_iff_ne.2 hx, beq_eq_false_iff_ne.2 hy]
    rfl
  have found : (pre ++ x :: (mid ++ y :: post)).find? (fun g => g.serial == x.serial || g.serial == y.serial) = some x := by
    refine List.find?_append.trans ?_
    have none : pre.find? (fun g => g.serial == x.serial || g.serial == y.serial) = none :=
      List.find?_eq_none.2 fun g mem => by
        rw [other (beforeX g mem) (beforeY g (List.mem_append_left _ mem))]
        exact Bool.false_ne_true
    rw [none]
    have this : (x.serial == x.serial || x.serial == y.serial) = true := by rw [beq_self_eq_true]; rfl
    exact List.find?_cons_of_pos (p := fun g : GoneEntry => g.serial == x.serial || g.serial == y.serial) this
  have kept {l : List GoneEntry} (hx : ∀ g ∈ l, g.serial ≠ x.serial) (hy : ∀ g ∈ l, g.serial ≠ y.serial) :
      l.filter (fun g => g.serial == x.serial || !(g.serial == x.serial || g.serial == y.serial)) = l :=
    List.filter_eq_self.2 fun g mem => by
      rw [other (hx g mem) (hy g mem), beq_eq_false_iff_ne.2 (hx g mem)]
      rfl
  have there : y ∈ mid ++ y :: post := List.mem_append_right _ List.mem_cons_self
  have differ : y.serial ≠ x.serial := afterX y there
  have filtered : (pre ++ x :: (mid ++ y :: post)).filter
      (fun g => g.serial == x.serial || !(g.serial == x.serial || g.serial == y.serial)) = pre ++ x :: (mid ++ post) := by
    rw [List.filter_append, List.filter_cons_of_pos (by simp), List.filter_append,
      List.filter_cons_of_neg (by simp [differ]), kept beforeX fun g mem => beforeY g (by simp [mem]),
      kept (fun g mem => afterX g (by simp [mem])) fun g mem => beforeY g (by simp [mem]),
      kept (fun g mem => afterX g (by simp [mem])) afterY]
  have nodup' : ((pre ++ x :: (mid ++ post)).map (·.serial)).Nodup := by
    refine nodup.sublist (List.Sublist.map _ ?_)
    exact (List.Sublist.refl pre).append (((List.Sublist.refl mid).append (List.sublist_cons_self y post)).cons_cons x)
  unfold combineGone
  simp only [part]
  rw [found]
  dsimp only
  rw [filtered]
  exact map_at_serial nodup' _

/-! ### What the list makes of a sequence that no entry covers -/

section
variable {list : List GoneEntry} {serial stream : Nat} {q : Seq} (ok : goneOk list serial)
  (fresh : ∀ g ∈ list, g.stream = stream → g.covers q = false)
include ok fresh

/-- Two entries that the sequence joins become one. -/
theorem goneAdded_joins {pre mid post : List GoneEntry} {x y a b : GoneEntry}
    (split : list = pre ++ x :: (mid ++ y :: post)) (parts : (a = x ∧ b = y) ∨ (a = y ∧ b = x))
    (follows : a.follows stream q) (precedes : b.precedes stream q) (small : a.count + b.count ≤ 15) :
    goneAdded list serial stream q =
      pre ++ { x with first := a.first, count := a.count + b.count + 1 } :: (mid ++ post) := by
  have hx : x ∈ list := split ▸ List.mem_append_right _ List.mem_cons_self
  have hy : y ∈ list := split ▸ List.mem_append_right _
    (List.mem_cons_of_mem _ (List.mem_append_right _ List.mem_cons_self))
  have ha : a ∈ list := by rcases parts with ⟨rfl, -⟩ | ⟨rfl, -⟩ <;> assumption
  have hb : b ∈ list := by rcases parts with ⟨-, rfl⟩ | ⟨-, rfl⟩ <;> assumption
  rw [goneAdded_fresh serial fresh, goneGrown, goneBridge_some ok ha hb follows precedes small]
  obtain ⟨-, nodup, -, -⟩ := ok
  subst split
  exact combineGone_at nodup parts

/-- An entry that the sequence follows grows by it. -/
theorem goneAdded_follows {pre post : List GoneEntry} {x : GoneEntry} (split : list = pre ++ x :: post)
    (room : x.count < 16) (follows : x.follows stream q)
    (alone : ∀ h ∈ list, h.precedes stream q → 15 < x.count + h.count) :
    goneAdded list serial stream q = pre ++ { x with count := x.count + 1 } :: post := by
  have mem : x ∈ list := split ▸ List.mem_append_right _ List.mem_cons_self
  have bridge := goneBridge_none ok (stream := stream) (q := q) fun a ha b hb fa pb => by
    rw [follows_unique ok ha mem fa follows]
    exact alone b hb pb
  have ends := (touchesEnd_iff (goneOk_count ok mem).2 q).2 follows.2
  have found := find_follows ok (p := fun g => g.touchesEnd q && g.count < Config.rangeLimit) mem follows
    (by rw [ends]; exact decide_eq_true room) fun g h => (Bool.and_eq_true _ _ ▸ h).1
  rw [goneAdded_fresh serial fresh, goneGrown, bridge, found]
  obtain ⟨-, nodup, -, -⟩ := ok
  subst split
  exact map_at_serial nodup _

/-- Else an entry that the sequence precedes grows by it. -/
theorem goneAdded_precedes {pre post : List GoneEntry} {x : GoneEntry} (split : list = pre ++ x :: post)
    (room : x.count < 16) (precedes : x.precedes stream q) (full : ∀ h ∈ list, h.follows stream q → h.count = 16) :
    goneAdded list serial stream q = pre ++ { x with first := q, count := x.count + 1 } :: post := by
  have mem : x ∈ list := split ▸ List.mem_append_right _ List.mem_cons_self
  have bridge := goneBridge_none ok (stream := stream) (q := q) fun a ha b hb fa pb => by
    have := full a ha fa
    omega
  have nobody := find_nobody (list := list) (stream := stream)
    (p := fun g => g.touchesEnd q && g.count < Config.rangeLimit) fun g hg same => by
      rw [Bool.and_eq_false_iff]
      by_cases ends : g.touchesEnd q = true
      · have := full g hg ⟨same, (touchesEnd_iff (goneOk_count ok hg).2 q).1 ends⟩
        exact .inr (decide_eq_false (by rw [this]; decide))
      · exact .inl (Bool.eq_false_iff.2 ends)
  have found := find_precedes ok (p := fun g => g.touchesFront q && g.count < Config.rangeLimit) mem precedes
    (by rw [(touchesFront_iff x q).2 precedes.2]; exact decide_eq_true room) fun g h => (Bool.and_eq_true _ _ ▸ h).1
  rw [goneAdded_fresh serial fresh, goneGrown, bridge, nobody, found]
  obtain ⟨-, nodup, -, -⟩ := ok
  subst split
  exact map_at_serial nodup _

/-- Else it becomes an entry of its own, if there is room. -/
theorem goneAdded_alone (full : ∀ h ∈ list, h.follows stream q ∨ h.precedes stream q → h.count = 16) :
    goneAdded list serial stream q = if list.length < 4 then list ++ [⟨serial, stream, q, 1, false⟩] else list := by
  have bridge := goneBridge_none ok (stream := stream) (q := q) fun a ha b hb fa pb => by
    have := full a ha (.inl fa)
    omega
  have nobody := find_nobody (list := list) (stream := stream)
    (p := fun g => g.touchesEnd q && g.count < Config.rangeLimit) fun g hg same => by
      rw [Bool.and_eq_false_iff]
      by_cases ends : g.touchesEnd q = true
      · have := full g hg (.inl ⟨same, (touchesEnd_iff (goneOk_count ok hg).2 q).1 ends⟩)
        exact .inr (decide_eq_false (by rw [this]; decide))
      · exact .inl (Bool.eq_false_iff.2 ends)
  have nobody' := find_nobody (list := list) (stream := stream)
    (p := fun g => g.touchesFront q && g.count < Config.rangeLimit) fun g hg same => by
      rw [Bool.and_eq_false_iff]
      by_cases begins : g.touchesFront q = true
      · have := full g hg (.inr ⟨same, (touchesFront_iff g q).1 begins⟩)
        exact .inr (decide_eq_false (by rw [this]; decide))
      · exact .inl (Bool.eq_false_iff.2 begins)
  rw [goneAdded_fresh serial fresh, goneGrown, bridge, nobody, nobody']
  rfl

/-! ### What it covers then -/

/-- A stream's sequence is covered by an entry of the list. -/
def goneCovers (l : List GoneEntry) (m : Nat) (x : Seq) : Prop := ∃ g ∈ l, g.stream = m ∧ g.covers x = true

/-- The list has come to cover one sequence more. -/
def CoversToo (stream : Nat) (q : Seq) (list after : List GoneEntry) : Prop :=
  ∀ m x, goneCovers after m x ↔ goneCovers list m x ∨ (m = stream ∧ x = q)

end

theorem goneCovers_append (l r : List GoneEntry) (m : Nat) (x : Seq) :
    goneCovers (l ++ r) m x ↔ goneCovers l m x ∨ goneCovers r m x := by
  unfold goneCovers
  simp only [List.mem_append, or_and_right, exists_or]

theorem goneCovers_cons (g : GoneEntry) (l : List GoneEntry) (m : Nat) (x : Seq) :
    goneCovers (g :: l) m x ↔ (g.stream = m ∧ g.covers x = true) ∨ goneCovers l m x := by
  unfold goneCovers
  simp only [List.mem_cons, or_and_right, exists_or, exists_eq_left]

theorem covers_grown_end {f q x : Seq} {c : Nat} (small : c ≤ 16) (ends : f + BitVec.ofNat 12 c = q) :
    (x - f).toNat < c + 1 ↔ (x - f).toNat < c ∨ x = q := by
  bv_omega

theorem covers_grown_front {f q x : Seq} {c : Nat} (small : c ≤ 16) (begins : q + 1 = f) :
    (x - q).toNat < c + 1 ↔ (x - f).toNat < c ∨ x = q := by
  bv_omega

theorem covers_joined {f q g x : Seq} {c d : Nat} (small : c + d ≤ 15) (ends : f + BitVec.ofNat 12 c = q)
    (begins : q + 1 = g) :
    (x - f).toNat < c + d + 1 ↔ (x - f).toNat < c ∨ (x - g).toNat < d ∨ x = q := by
  bv_omega

theorem covers_single (q x : Seq) : (x - q).toNat < 1 ↔ x = q := by
  bv_omega

theorem goneCovers_iff (l : List GoneEntry) (m : Nat) (x : Seq) :
    goneCovers l m x ↔ ∃ g ∈ l, g.stream = m ∧ forwardDistance g.first x < g.count := by
  unfold goneCovers
  simp only [covers_iff]
  rfl

theorem not_covers_of_not_goneCovers {list : List GoneEntry} {stream : Nat} {q : Seq} (h : ¬ goneCovers list stream q) :
    ∀ g ∈ list, g.stream = stream → g.covers q = false :=
  fun g mem same => Bool.eq_false_iff.2 fun covers => h ⟨g, mem, same, covers⟩

/-- An entry that covers one sequence more makes its list cover it. -/
theorem coversToo_grown {stream : Nat} {q : Seq} {pre post : List GoneEntry} {x x' : GoneEntry} (mine : x.stream = stream)
    (same : x'.stream = stream) (grown : ∀ y, x'.covers y = true ↔ x.covers y = true ∨ y = q) :
    CoversToo stream q (pre ++ x :: post) (pre ++ x' :: post) := by
  intro m y
  rw [goneCovers_append, goneCovers_append, goneCovers_cons, goneCovers_cons, grown, mine, same]
  tauto

/-- So does one that covers it and what an entry covered that is gone. -/
theorem coversToo_joined {stream : Nat} {q : Seq} {pre mid post : List GoneEntry} {x y x' : GoneEntry}
    (mine : x.stream = stream) (mine' : y.stream = stream) (same : x'.stream = stream)
    (joined : ∀ z, x'.covers z = true ↔ x.covers z = true ∨ y.covers z = true ∨ z = q) :
    CoversToo stream q (pre ++ x :: (mid ++ y :: post)) (pre ++ x' :: (mid ++ post)) := by
  intro m z
  rw [goneCovers_append, goneCovers_append, goneCovers_cons, goneCovers_cons, goneCovers_append, goneCovers_append,
    goneCovers_cons, joined, mine, mine', same]
  tauto

theorem coversToo_alone (list : List GoneEntry) (serial stream : Nat) (q : Seq) :
    CoversToo stream q list (list ++ [⟨serial, stream, q, 1, false⟩]) := by
  intro m y
  rw [goneCovers_append, goneCovers_cons, covers_iff, covers_single]
  constructor
  · rintro (old | ⟨same, rfl⟩ | ⟨_, none, _⟩)
    · exact .inl old
    · exact .inr ⟨same.symm, rfl⟩
    · exact nomatch none
  · rintro (old | ⟨same, rfl⟩)
    · exact .inl old
    · exact .inr (.inl ⟨same.symm, rfl⟩)

section
variable {list : List GoneEntry} {serial stream : Nat} {q : Seq} (ok : goneOk list serial)
  (fresh : ∀ g ∈ list, g.stream = stream → g.covers q = false)
include ok fresh

/-- Joining two entries of the stream covers the sequence between them. -/
theorem goneAdded_joins_covers {a b : GoneEntry} (ha : a ∈ list) (hb : b ∈ list) (follows : a.follows stream q)
    (precedes : b.precedes stream q) (small : a.count + b.count ≤ 15) :
    CoversToo stream q list (goneAdded list serial stream q) := by
  have differ : a ≠ b := fun same =>
    not_follows_precedes (goneOk_count ok ha).2 follows.2 (by rw [same]; exact precedes.2)
  obtain ⟨pre, post, split⟩ := List.append_of_mem ha
  rw [split] at hb
  rcases List.mem_append.1 hb with before | after
  · obtain ⟨pre', mid, split'⟩ := List.append_of_mem before
    have whole : list = pre' ++ b :: (mid ++ a :: post) := by rw [split, split']; exact List.append_assoc ..
    rw [goneAdded_joins ok fresh whole (.inr ⟨rfl, rfl⟩) follows precedes small, whole]
    refine coversToo_joined precedes.1 follows.1 precedes.1 fun z => ?_
    rw [covers_iff, covers_iff, covers_iff, covers_joined small follows.2 precedes.2]
    tauto
  · have after : b ∈ post := (List.mem_cons.1 after).resolve_left differ.symm
    obtain ⟨mid, post', split'⟩ := List.append_of_mem after
    have whole : list = pre ++ a :: (mid ++ b :: post') := by rw [split, split']
    rw [goneAdded_joins ok fresh whole (.inl ⟨rfl, rfl⟩) follows precedes small, whole]
    refine coversToo_joined follows.1 precedes.1 follows.1 fun z => ?_
    rw [covers_iff, covers_iff, covers_iff, covers_joined small follows.2 precedes.2]

/-- A sequence that no entry covers is covered then, unless the list is full and kept as it is. -/
theorem goneAdded_covers :
    CoversToo stream q list (goneAdded list serial stream q) ∨
      (4 ≤ list.length ∧ goneAdded list serial stream q = list) := by
  by_cases joins : ∃ a ∈ list, ∃ b ∈ list, a.follows stream q ∧ b.precedes stream q ∧ a.count + b.count ≤ 15
  · obtain ⟨a, ha, b, hb, follows, precedes, small⟩ := joins
    exact .inl (goneAdded_joins_covers ok fresh ha hb follows precedes small)
  by_cases ends : ∃ a ∈ list, a.follows stream q ∧ a.count < 16
  · obtain ⟨a, ha, follows, room⟩ := ends
    obtain ⟨pre, post, split⟩ := List.append_of_mem ha
    have alone : ∀ h ∈ list, h.precedes stream q → 15 < a.count + h.count := fun h mem precedes =>
      Nat.lt_of_not_le fun small => joins ⟨a, ha, h, mem, follows, precedes, small⟩
    rw [goneAdded_follows ok fresh split room follows alone]
    conv => lhs; rw [split]
    refine .inl (coversToo_grown follows.1 follows.1 fun y => ?_)
    rw [covers_iff, covers_iff]
    exact covers_grown_end (goneOk_count ok ha).2 follows.2
  have full : ∀ h ∈ list, h.follows stream q → h.count = 16 := fun h mem follows =>
    Nat.le_antisymm (goneOk_count ok mem).2 (Nat.le_of_not_lt fun room => ends ⟨h, mem, follows, room⟩)
  by_cases begins : ∃ a ∈ list, a.precedes stream q ∧ a.count < 16
  · obtain ⟨a, ha, precedes, room⟩ := begins
    obtain ⟨pre, post, split⟩ := List.append_of_mem ha
    rw [goneAdded_precedes ok fresh split room precedes full]
    conv => lhs; rw [split]
    refine .inl (coversToo_grown precedes.1 precedes.1 fun y => ?_)
    rw [covers_iff, covers_iff]
    exact covers_grown_front (goneOk_count ok ha).2 precedes.2
  have full' : ∀ h ∈ list, h.precedes stream q → h.count = 16 := fun h mem precedes =>
    Nat.le_antisymm (goneOk_count ok mem).2 (Nat.le_of_not_lt fun room => begins ⟨h, mem, precedes, room⟩)
  rw [goneAdded_alone ok fresh fun h mem touches => touches.elim (full h mem) (full' h mem)]
  split
  · exact .inl (coversToo_alone list serial stream q)
  · next noRoom => exact .inr ⟨Nat.le_of_not_lt noRoom, rfl⟩

end

theorem goneAdded_same_of_covered {list : List GoneEntry} {serial stream : Nat} {q : Seq}
    (covered : goneCovers list stream q) : goneAdded list serial stream q = list := goneAdded_covered serial covered

/-- Whatever is added, the list covers what it covered, and nothing but the sequence besides; with room, that too. -/
theorem goneAdded_coverage {list : List GoneEntry} {serial stream : Nat} {q : Seq} (ok : goneOk list serial) :
    (∀ m x, goneCovers list m x → goneCovers (goneAdded list serial stream q) m x) ∧
    (∀ m x, goneCovers (goneAdded list serial stream q) m x → goneCovers list m x ∨ (m = stream ∧ x = q)) ∧
    (list.length < 4 → goneCovers (goneAdded list serial stream q) stream q) := by
  by_cases covered : goneCovers list stream q
  · rw [goneAdded_same_of_covered covered]
    exact ⟨fun _ _ => id, fun _ _ => .inl, fun _ => covered⟩
  · rcases goneAdded_covers ok (not_covers_of_not_goneCovers covered) with too | ⟨noRoom, same⟩
    · exact ⟨fun m x h => (too m x).2 (.inl h), fun m x => (too m x).1, fun _ => (too stream q).2 (.inr ⟨rfl, rfl⟩)⟩
    · rw [same]
      exact ⟨fun _ _ => id, fun _ _ => .inl, fun room => absurd room (Nat.not_lt.2 noRoom)⟩

/-- Settles O19: a sequence that is covered leaves the list; else each place it can take gives the list it makes. -/
theorem theGoneListCoversWhatItIsGiven : Obligations.TheGoneListCoversWhatItIsGiven := by
  intro list serial stream q ok after covers
  have okAfter : goneOk after (serial + 1) := goneOk_mono (goneAdded_ok list serial stream q ok) (by split <;> omega)
  have same (l : List GoneEntry) (m : Nat) (x : Seq) : goneCovers l m x ↔ covers l m x := goneCovers_iff l m x
  obtain ⟨kept, only, added⟩ := goneAdded_coverage (stream := stream) (q := q) ok
  have apart : goneApart after := okAfter.2.2.2
  refine ⟨okAfter, fun m x h => (same _ m x).1 (kept m x ((same _ m x).2 h)),
    fun m x h => (only m x ((same _ m x).2 h)).imp_left (same _ m x).1, fun room => (same _ stream q).1 (added room),
    fun g hg h hh streams x cg ch =>
      apart g hg h hh streams x ((covers_iff g x).2 cg) ((covers_iff h x).2 ch),
    fun covered => goneAdded_same_of_covered ((same _ stream q).2 covered), fun fresh => ?_⟩
  have fresh' := not_covers_of_not_goneCovers fun h => fresh ((same _ stream q).1 h)
  intro follows precedes
  refine ⟨fun pre mid post x y split small => ⟨fun hx hy => ?_, fun hy hx => ?_⟩, fun pre post x split room => ⟨?_, ?_⟩, ?_⟩
  · exact goneAdded_joins ok fresh' split (.inl ⟨rfl, rfl⟩) hx hy small
  · rw [Nat.add_comm x.count]
    exact goneAdded_joins ok fresh' split (.inr ⟨rfl, rfl⟩) hy hx (Nat.add_comm x.count _ ▸ small)
  · exact goneAdded_follows ok fresh' split room
  · exact goneAdded_precedes ok fresh' split room
  · exact goneAdded_alone ok fresh'

end Machine
end Sys2Proof
end

section
/-! A publish entry while its chain moves: its takes, its faults, and the payload reads that complete its cells (R91,
R92, R140 to R147). -/

namespace Sys2Proof
namespace Machine

/-- `t` is `s` with these requests more in the third class and another table of the same keys, in which the entry at `i`
is `f`. -/
structure PublisherAt (s t : State) (i : Nat) (f : Entry) (requests : List Request) : Prop where
  eq : t = { s with table := t.table
                    port := { s.port with thirdClass := s.port.thirdClass ++ requests } }
  keys : t.table.map Entry.key = s.table.map Entry.key
  entry : t.entryAt i = some f

theorem emit_table (s : State) (ev : Event) : (s.emit ev).table = s.table := by
  obtain ⟨-, -, -, table, -⟩ := emit_rest s ev
  exact table

theorem modifyChain_keys (s : State) (i : Nat) (f : Chain → Chain) :
    (s.modifyChain i f).table.map Entry.key = s.table.map Entry.key := by
  rw [State.modifyChain, List.map_map]
  refine List.map_congr_left fun e _ => ?_
  rw [Function.comp_apply]
  split <;> rfl

namespace PublisherAt

variable {s t : State} {i : Nat} {f : Entry} {l : List Request} {p : PublishEntry}

theorem refl (there : s.entryAt i = some f) : PublisherAt s s i f [] :=
  ⟨by rw [List.append_nil], rfl, there⟩

theorem port (h : PublisherAt s t i f l) : t.port = { s.port with thirdClass := s.port.thirdClass ++ l } :=
  congrArg State.port h.eq

theorem fence (h : PublisherAt s t i f l) : t.fence = s.fence := by rw [h.eq]

theorem ownNumber (h : PublisherAt s t i f l) : t.ownNumber = s.ownNumber := by rw [h.eq]; rfl

theorem eventState (h : PublisherAt s t i f l) : t.eventState = s.eventState := by rw [h.eq]; rfl

theorem reports (h : PublisherAt s t i f l) : s.reports t [] := State.reports_nil h.eventState

theorem publishAt (h : PublisherAt s t i f l) (role : f.role = .publish p) : t.publishAt i = some p :=
  publishAt_of_entry h.entry role

theorem tableOk (h : PublisherAt s t i f l) (table : s.tableOk) : t.tableOk :=
  tableOk_of_keys table (h.keys ▸ List.Sublist.refl _) (by rw [h.eq])

theorem modifyPublish (h : PublisherAt s t i f l) (role : f.role = .publish p) (change : PublishEntry → PublishEntry) :
    PublisherAt s (t.modifyPublish i change) i { f with role := .publish (change p) } l := by
  refine ⟨?_, (modifyPublish_keys t i change).trans h.keys, ?_⟩
  · rw [State.modifyPublish]
    conv => lhs; rw [h.eq]
  · rw [modifyPublish_entryAt, h.entry, Option.map_some, if_pos (entryAt_index h.entry), role]
    rfl

theorem modifyChain (h : PublisherAt s t i f l) (change : Chain → Chain) :
    PublisherAt s (t.modifyChain i change) i { f with chain := change f.chain } l := by
  refine ⟨?_, (modifyChain_keys t i change).trans h.keys, ?_⟩
  · rw [State.modifyChain]
    conv => lhs; rw [h.eq]
  · rw [modifyChain_entryAt, h.entry, Option.map_some, if_pos (entryAt_index h.entry)]

theorem request (h : PublisherAt s t i f l) (r : Request) : PublisherAt s (t.request .third r) i f (l ++ [r]) := by
  refine ⟨?_, h.keys, h.entry⟩
  rw [State.request]
  dsimp only
  rw [congrArg HostPort.thirdClass h.port, List.append_assoc]
  conv => lhs; rw [h.eq]

theorem readClassAt (h : PublisherAt s t i f l) (role : f.role = .publish p) : t.readClassAt i = .third := by
  unfold State.readClassAt
  rw [h.entry, Option.map_some, Option.getD_some, Entry.readClass, role]

/-- A publish entry follows a link. -/
theorem followLink (h : PublisherAt s t i f l) (role : f.role = .publish p) (link : Word) :
    PublisherAt s (t.followLink i link) i { f with chain := { f.chain with lookAhead := s.fence.lookAheadFor link } }
      (l ++ s.fence.linkReads i link) := by
  have nothing {look : LookAhead} (other : look ≠ .reading link) (same : s.fence.lookAheadFor link = look) :
      PublisherAt s (t.modifyChain i fun c => { c with lookAhead := look }) i
        { f with chain := { f.chain with lookAhead := s.fence.lookAheadFor link } } (l ++ s.fence.linkReads i link) := by
    rw [Fence.linkReads, if_neg (by rw [same]; exact other), List.append_nil, same]
    exact h.modifyChain _
  rw [State.followLink, Fence.checkDescriptor, h.fence]
  by_cases zero : link = 0
  · rw [if_pos zero]
    exact nothing nofun (if_pos zero)
  rw [if_neg zero]
  by_cases unaligned : link.toNat % 16 ≠ 0
  · rw [if_pos unaligned]
    exact nothing nofun ((if_neg zero).trans (if_pos unaligned))
  rw [if_neg unaligned]
  by_cases inside : s.fence.contains link.toNat 16 = true
  · have reads : s.fence.lookAheadFor link = .reading link :=
      (if_neg zero).trans ((if_neg unaligned).trans (if_pos inside))
    rw [if_pos inside, Fence.linkReads, if_pos reads, reads, h.readClassAt role]
    exact (h.modifyChain fun c => { c with lookAhead := .reading link }).request _
  · rw [if_neg inside]
    exact nothing nofun ((if_neg zero).trans ((if_neg unaligned).trans (if_neg inside)))

/-- A descriptor becomes current at a publish entry. -/
theorem makeCurrent (h : PublisherAt s t i f l) (role : f.role = .publish p) (a : Word) (d : Descriptor) :
    PublisherAt s (t.makeCurrent i a d) i
      { f with chain := { f.chain with current := .held a d, lookAhead := s.fence.lookAheadFor d.link } }
      (l ++ s.fence.linkReads i d.link) :=
  (h.modifyChain _).followLink role _

/-- A publish entry looks at its tail again. -/
theorem lookAgain (h : PublisherAt s t i f l) (role : f.role = .publish p) (tail : Word) :
    PublisherAt s (t.lookAgain i tail) i { f with chain := { f.chain with lookAhead := .looking } }
      (l ++ [.lastLook i tail]) := by
  rw [State.lookAgain, h.readClassAt role]
  exact (h.modifyChain fun c => { c with lookAhead := .looking }).request _

/-! ### The take of the next descriptor (R142, R143) -/

theorem publishTake_held (h : PublisherAt s t i f l) (role : f.role = .publish p) {a : Word} {d : Descriptor}
    (look : f.chain.lookAhead = .held a d) :
    PublisherAt s (t.publishTake i) i
      { f with role := .publish { p with segmenter := .ready }
               chain := { f.chain with current := .held a d, lookAhead := s.fence.lookAheadFor d.link } }
      (l ++ s.fence.linkReads i d.link) := by
  rw [State.publishTake, h.entry]
  dsimp only
  rw [look]
  exact (h.modifyPublish role fun v => { v with segmenter := .ready }).makeCurrent rfl a d

theorem publishTake_waits (h : PublisherAt s t i f l)
    (look : (∃ a, f.chain.lookAhead = .reading a) ∨ f.chain.lookAhead = .looking) : t.publishTake i = t := by
  rw [State.publishTake, h.entry]
  dsimp only
  rcases look with ⟨a, look⟩ | look <;> rw [look]

theorem publishTake_ended (h : PublisherAt s t i f l) (role : f.role = .publish p) (look : f.chain.lookAhead = .ended) :
    PublisherAt s (t.publishTake i) i { f with chain := { f.chain with lookAhead := .looking } }
      (l ++ [.lastLook i (f.chain.tail.getD 0)]) := by
  rw [State.publishTake, h.entry]
  dsimp only
  rw [look]
  exact h.lookAgain role _

theorem publishTake_faulty (h : PublisherAt s t i f l) {a : Word} {cause : FaultCause}
    (look : f.chain.lookAhead = .faulty a cause) :
    t.publishTake i = t.faultEntry i cause cause.lookAheadBytes a := by
  rw [State.publishTake, h.entry]
  dsimp only
  rw [look]

theorem chainEnds (h : PublisherAt s t i f l) (role : f.role = .publish p) :
    t.chainEnds i = (t.modifyPublish i fun v => { v with segmenter := .noChain }).emit
      (streamEvent .txChainEnd 0 f.stream s.ownNumber p.nextSequence.toNat p.sendQueue.length
        (f.chain.tail.getD 0)) := by
  rw [State.chainEnds, h.entry]
  dsimp only
  rw [role, h.ownNumber]

theorem publishTake_none (h : PublisherAt s t i f l) (look : f.chain.lookAhead = .none) :
    t.publishTake i = t.chainEnds i := by
  rw [State.publishTake, h.entry]
  dsimp only
  rw [look]

/-- What the end of the chain leaves of the entry, and what it tells. -/
theorem chainEnds_leaves (h : PublisherAt s t i f l) (role : f.role = .publish p) :
    (t.chainEnds i).entryAt i = some { f with role := .publish { p with segmenter := .noChain } } ∧
      s.reports (t.chainEnds i) [streamEvent .txChainEnd 0 f.stream s.ownNumber p.nextSequence.toNat p.sendQueue.length
        (f.chain.tail.getD 0)] := by
  have told := h.modifyPublish role fun v => { v with segmenter := .noChain }
  rw [h.chainEnds role]
  refine ⟨?_, State.reports_emit_after (asked := []) told.fence told.reports _⟩
  exact (congrArg (List.find? _) (emit_table _ _)).trans told.entry

/-- The entry is in FAULT, nothing names it, and STREAM_FAULT tells it. -/
theorem faultEntry (h : PublisherAt s t i f l) (table : s.tableOk) (role : f.role = .publish p) (cause : FaultCause)
    (count : Nat) (a : Word) :
    EndedAt i f.stream (p.ended .fault p.claim.owns) (t.faultEntry i cause count a) ∧
      s.reports (t.faultEntry i cause count a) [streamEvent .streamFault cause.code f.stream s.ownNumber
        p.nextSequence.toNat count a] := by
  have ok := h.tableOk table
  have index := entryAt_index h.entry
  subst index
  have change : ((t.withdrawOf f.index).clearLists f.index f.stream).modifyPublish f.index
        (fun v => v.ended .fault v.claim.owns) =
      ((t.withdrawOf f.index).clearLists f.index f.stream).modifyPublish f.index fun v => v.ended .fault p.claim.owns :=
    modifyPublish_congr (s := (t.withdrawOf f.index).clearLists f.index f.stream) ok (List.mem_of_find?_eq_some h.entry)
      role rfl
  rw [State.faultEntry, h.entry]
  dsimp only
  rw [role]
  dsimp only
  rw [change, h.ownNumber]
  refine ⟨EndedAt.ofEnded (indexes_of_tableOk ok) ok.2.1 h.entry role .fault p.claim.owns nofun _ _, ?_⟩
  have cells := releaseCells_eventState f.cells
    (((t.withdrawOf f.index).clearLists f.index f.stream).modifyPublish f.index fun v => v.ended .fault p.claim.owns)
  refine State.reports_emit_after (asked := []) (cells.2.trans h.fence) (State.reports_nil ?_) _
  exact cells.1.trans ((withdrawOf_eventState t f.index).trans h.eventState)

end PublisherAt

end Machine
end Sys2Proof
end

section
/-! A payload read ends: its cell is complete, and the segmenter goes on (R92, R142, R143, R147). -/

namespace Sys2Proof
namespace Machine

theorem payloadRead_eq {s : State} {i k : Nat} {p : PublishEntry} {c : PublishCell} (there : s.publishAt i = some p)
    (found : p.sendQueue.find? (fun c => c.cell == k) = some c) (b : List Byte) :
    payloadRead i k b s =
      if c.last = true then
        if p.claim = .closing then (s.modifyPublish i (·.blockSegmented k b)).checkClosing i
        else ((s.modifyPublish i (·.blockSegmented k b)).modifyChain i fun ch => { ch with current := .none }).publishTake i
      else s.modifyPublish i (·.nextSegment k b) := by
  rw [payloadRead, there]
  dsimp only
  rw [found, Option.any_some]

/-- What is asked for after the port is free is asked for before. -/
theorem reports_of_freePort {s t : State} {asked : List Event} (h : s.freePort.reports t asked) : s.reports t asked :=
  State.reports_congr (s := s.freePort) rfl rfl rfl h

/-- What a take leaves of a READY entry without a current block whose look-ahead is not FAULTY, and what it tells. -/
theorem PublisherAt.publishTake_leaves {s t : State} {i : Nat} {f : Entry} {l : List Request} {p : PublishEntry}
    (h : PublisherAt s t i f l) (role : f.role = .publish p) (ready : p.segmenter = .ready)
    (current : f.chain.current = .none) (sound : ∀ a cause, f.chain.lookAhead ≠ .faulty a cause) :
    s.reports (t.publishTake i) (if f.chain.lookAhead = .none then
      [streamEvent .txChainEnd 0 f.stream s.ownNumber p.nextSequence.toNat p.sendQueue.length (f.chain.tail.getD 0)]
      else []) ∧
    (t.publishTake i).publishAt i =
      some { p with segmenter := if f.chain.lookAhead = .none then .noChain else .ready } ∧
    ∃ g, (t.publishTake i).entryAt i = some g ∧
      (∀ a d, f.chain.lookAhead = .held a d → g.chain.current = .held a d) ∧
      ((∀ a d, f.chain.lookAhead ≠ .held a d) → g.chain.current = .none ∧ g.chain.tail = f.chain.tail) ∧
      (f.chain.lookAhead = .ended → g.chain.lookAhead = .looking ∧
        .lastLook i (f.chain.tail.getD 0) ∈ (t.publishTake i).port.thirdClass) ∧
      ((∃ a, f.chain.lookAhead = .reading a) ∨ f.chain.lookAhead = .looking ∨ f.chain.lookAhead = .none →
        g.chain.lookAhead = f.chain.lookAhead) := by
  have same : { p with segmenter := .ready } = p := by rw [← ready]
  cases look : f.chain.lookAhead with
  | held a d =>
    have taken := h.publishTake_held role look
    refine ⟨taken.reports, taken.publishAt rfl, _, taken.entry, fun a' d' same => ?_, fun other => absurd rfl (other a d),
      nofun, nofun⟩
    cases same
    rfl
  | faulty a cause => exact absurd look (sound a cause)
  | ended =>
    have looks := h.publishTake_ended role look
    refine ⟨looks.reports, (looks.publishAt role).trans (congrArg some same.symm), _, looks.entry, nofun,
      fun _ => ⟨current, rfl⟩, fun _ => ⟨rfl, ?_⟩, nofun⟩
    rw [looks.port]
    exact List.mem_append_right _ (List.mem_append_right _ (List.mem_singleton.2 rfl))
  | none =>
    obtain ⟨entry, told⟩ := h.chainEnds_leaves role
    rw [h.publishTake_none look]
    exact ⟨told, publishAt_of_entry entry rfl, _, entry, nofun, fun _ => ⟨current, rfl⟩, nofun, fun _ => look⟩
  | reading a =>
    rw [h.publishTake_waits (.inl ⟨a, look⟩)]
    exact ⟨h.reports, (h.publishAt role).trans (congrArg some same.symm), _, h.entry, nofun, fun _ => ⟨current, rfl⟩,
      nofun, fun _ => look⟩
  | looking =>
    rw [h.publishTake_waits (.inr look)]
    exact ⟨h.reports, (h.publishAt role).trans (congrArg some same.symm), _, h.entry, nofun, fun _ => ⟨current, rfl⟩,
      nofun, fun _ => look⟩

theorem lookAheadBytes_eq (cause : FaultCause) : cause.lookAheadBytes = if cause = .busError then 16 else 0 := by
  cases cause <;> rfl

section
variable {s : State} {e : Entry} {p : PublishEntry} {k : Nat} {c : PublishCell} {b : List Byte}
  (table : s.tableOk) (there : s.entryAt e.index = some e) (role : e.role = .publish p)
  (found : p.sendQueue.find? (fun c => c.cell == k) = some c)
include there role found

/-- The bytes of a segment that does not end its block. -/
theorem payloadRead_inner (inner : c.last = false) :
    PublisherAt s (payloadRead e.index k b s) e.index { e with role := .publish (p.nextSegment k b) } [] := by
  rw [payloadRead_eq (publishAt_of_entry there role) found, if_neg (by rw [inner]; exact Bool.false_ne_true)]
  exact (PublisherAt.refl there).modifyPublish role _

/-- The bytes of the last segment at a closing entry. -/
theorem payloadRead_closing (last : c.last = true) (closing : p.claim = .closing) :
    s.reports (payloadRead e.index k b s) [] ∧ ∃ listed, (payloadRead e.index k b s).publishAt e.index =
      some ((p.blockSegmented k b).checked listed) := by
  rw [payloadRead_eq (publishAt_of_entry there role) found, if_pos last, if_pos closing]
  have coded := (PublisherAt.refl there).modifyPublish role (·.blockSegmented k b)
  exact ⟨State.reports_nil rfl, _, checkClosing_some (coded.publishAt rfl)⟩

/-- The entry whose block is wholly in cells is to take the next descriptor. -/
theorem payloadRead_takes (last : c.last = true) (goesOn : p.claim ≠ .closing) :
    ∃ t, payloadRead e.index k b s = t.publishTake e.index ∧
      PublisherAt s t e.index { e with role := .publish (p.blockSegmented k b)
                                       chain := { e.chain with current := .none } } [] := by
  rw [payloadRead_eq (publishAt_of_entry there role) found, if_pos last, if_neg goesOn]
  exact ⟨_, rfl, ((PublisherAt.refl there).modifyPublish role _).modifyChain _⟩

end

theorem blockSegmented_ready {p : PublishEntry} (goesOn : p.claim ≠ .closing) (k : Nat) (b : List Byte) :
    (p.blockSegmented k b).segmenter = .ready := if_neg goesOn

theorem blockSegmented_stopped {p : PublishEntry} (closing : p.claim = .closing) (k : Nat) (b : List Byte) :
    (p.blockSegmented k b).segmenter = .stopped := if_pos closing

/-- Settles O50: by whether the cell ends its block, whether its entry closes, and what its look-ahead is. -/
theorem aPayloadReadCompletesItsCell : Obligations.APayloadReadCompletesItsCell := by
  intro s g e p k n a c b table mem role granted wanted request length found coded faulted fault
  have there : s.freePort.entryAt e.index = some e := table.entryAt mem
  have free : s.freePort.tableOk := table
  have fails {t : State} {f : Entry} {v : PublishEntry} {l : List Request} (h : PublisherAt s.freePort t e.index f l)
      (role' : f.role = .publish v) (stream : f.stream = e.stream) (claim : v.claim = p.claim) (cause : FaultCause)
      (count : Nat) (address : Word) : faulted (t.faultEntry e.index cause count address) := by
    have ends := (h.faultEntry free role' cause count address).1
    rw [claim, stream] at ends
    exact ⟨_, ends.publishAt, ended_isEnded _ _ _, ends.forgets⟩
  have start := PublisherAt.refl there
  refine ⟨⟨payloadRead e.index k b s.freePort, ?_, ?_⟩, s.freePort.faultEntry e.index .busError n e.chain.current.address, ?_,
    fails start role rfl rfl .busError n _, ?_⟩
  · rw [txPayloadReadEnd_ok granted request length, endTransfer_wanted wanted]
  · cases last : c.last with
    | false =>
      have done := payloadRead_inner (b := b) there role found last
      refine ⟨.inl nofun, nofun, nofun, fun _ => reports_of_freePort done.reports, _, done.publishAt rfl, fun _ => ?_, nofun, nofun⟩
      rw [← length]
      rfl
    | true =>
      by_cases closing : p.claim = .closing
      · obtain ⟨told, listed, at'⟩ := payloadRead_closing (b := b) there role found last closing
        refine ⟨.inl fun _ _ _ goesOn => absurd closing goesOn, fun _ goesOn => absurd closing goesOn,
          fun _ goesOn => absurd closing goesOn, fun _ => reports_of_freePort told, _, at', nofun, fun _ goesOn => absurd closing goesOn,
          fun _ _ => ?_⟩
        rw [checked_eq]
        exact ⟨blockSegmented_stopped closing k b, rfl, rfl, closing⟩
      · obtain ⟨t, take, h⟩ := payloadRead_takes (b := b) there role found last closing
        rw [take]
        have goes : ¬((true = false) ∨ p.claim = .closing) := not_or.2 ⟨nofun, closing⟩
        by_cases faulty : ∃ h cause, e.chain.lookAhead = .faulty h cause
        · obtain ⟨address, cause, look⟩ := faulty
          have fell := fails h rfl rfl rfl cause cause.lookAheadBytes address
          have told := (h.faultEntry free rfl cause cause.lookAheadBytes address).2
          rw [h.publishTake_faulty look]
          refine ⟨.inr fell, fun _ _ h' cause' look' => ?_, fun _ _ none => ?_, fun other => absurd other goes, ?_⟩
          · obtain ⟨rfl, rfl⟩ : address = h' ∧ cause = cause' := by
              rw [look] at look'
              exact LookAhead.faulty.inj look'
            rw [← lookAheadBytes_eq]
            exact reports_of_freePort told
          · rw [look] at none
            exact nomatch none
          · obtain ⟨v, at', -⟩ := fell
            exact ⟨v, at', nofun, fun _ _ sound => absurd look (sound address cause), fun _ other => absurd other closing⟩
        · have sound : ∀ h cause, e.chain.lookAhead ≠ .faulty h cause := fun h cause look => faulty ⟨h, cause, look⟩
          obtain ⟨told, at', entry⟩ := h.publishTake_leaves rfl (blockSegmented_ready closing k b) rfl sound
          refine ⟨.inl fun h cause _ _ => sound h cause, fun _ _ h cause look => absurd look (sound h cause),
            fun _ _ none => ?_, fun other => absurd other goes, _, at', nofun, fun _ _ _ => ⟨rfl, entry⟩,
            fun _ other => absurd other closing⟩
          have told' := told
          rw [if_pos none] at told'
          have same : (p.blockSegmented k b).sendQueue.length = p.sendQueue.length := List.length_map _
          rw [same] at told'
          exact reports_of_freePort told'
  · rw [txPayloadReadEnd_error granted request, endTransfer_wanted wanted]
    have address : ((s.freePort.entryAt e.index).map (·.chain.current.address)).getD 0 = e.chain.current.address := by
      rw [there]
      rfl
    rw [address]
  · exact reports_of_freePort (start.faultEntry free role .busError n e.chain.current.address).2

end Machine
end Sys2Proof
end

section
/-! The ends of write transfers at their entries: SENT write-backs, receive payload writes and receive write-backs (R70,
R94, R104, R116, R118, R131, R146, R147). -/

namespace Sys2Proof
namespace Machine

/-! ### A SENT write-back (R94, R104) -/

/-- An event is asked for on a condition. -/
def State.tell (s : State) (asks : Bool) (ev : Event) : State := if asks then s.emit ev else s

theorem tell_leaves (s : State) (asks : Bool) (ev : Event) :
    (s.tell asks ev).table = s.table ∧ (s.tell asks ev).lists = s.lists ∧
      (s.tell asks ev).port.granted = s.port.granted ∧ (s.tell asks ev).port.thirdClass = s.port.thirdClass ∧
      s.reports (s.tell asks ev) (if asks = true then [ev] else []) := by
  cases asks with
  | false => exact ⟨rfl, rfl, rfl, rfl, State.reports_refl s⟩
  | true =>
    obtain ⟨unit, writes, lost, shape, -⟩ := emit_shape s ev
    have told := State.reports_emit s ev
    show (s.emit ev).table = _ ∧ (s.emit ev).lists = _ ∧ (s.emit ev).port.granted = _ ∧
      (s.emit ev).port.thirdClass = _ ∧ s.reports (s.emit ev) [ev]
    refine ⟨?_, ?_, ?_, ?_, told⟩ <;> rw [shape]

theorem requestWriteBack_eq {s : State} {i : Nat} {p : PublishEntry} (there : s.publishAt i = some p) :
    s.requestWriteBack i = p.writeBacks.head?.elim s fun r => s.request .third (.txWriteBack i r) := by
  rw [State.requestWriteBack, there]
  dsimp only
  cases p.writeBacks with
  | nil => rfl
  | cons r rest => rfl

/-- The state after the record of a write-back has left its list, and BLOCK_SENT is told. -/
def State.recordLeaves (s : State) (e : Entry) (r : WriteBack) : State :=
  (s.modifyPublish e.index fun p => { p with writeBacks := p.writeBacks.drop 1 }).tell r.notify
    (streamEvent .blockSent 1 e.stream s.ownNumber r.lastSequence.toNat r.length r.descriptor)

theorem writeBackDone_eq {s : State} {e : Entry} (there : s.entryAt e.index = some e) (r : WriteBack) :
    writeBackDone e.index r s = ((s.recordLeaves e r).requestWriteBack e.index).checkClosing e.index := by
  rw [writeBackDone, there]
  rfl

theorem writeBackDone_leaves {s : State} {e : Entry} {p : PublishEntry} {r : WriteBack} {rest : List WriteBack}
    (there : s.entryAt e.index = some e) (role : e.role = .publish p) (queue : p.writeBacks = r :: rest) :
    (writeBackDone e.index r s).publishAt e.index =
      some (({ p with writeBacks := rest } : PublishEntry).checked (s.lists.resend.any (·.index == e.index))) ∧
    (writeBackDone e.index r s).port.granted = s.port.granted ∧
    (writeBackDone e.index r s).port.thirdClass =
      s.port.thirdClass ++ rest.head?.toList.map (Request.txWriteBack e.index) ∧
    s.reports (writeBackDone e.index r s) (if r.notify = true then
      [streamEvent .blockSent 1 e.stream s.ownNumber r.lastSequence.toNat r.length r.descriptor] else []) := by
  have left := (PublisherAt.refl there).modifyPublish role fun p => { p with writeBacks := p.writeBacks.drop 1 }
  obtain ⟨table, lists, granted, third, told⟩ := tell_leaves
    (s.modifyPublish e.index fun p => { p with writeBacks := p.writeBacks.drop 1 }) r.notify
    (streamEvent .blockSent 1 e.stream s.ownNumber r.lastSequence.toNat r.length r.descriptor)
  have entry : (s.recordLeaves e r).entryAt e.index =
      some { e with role := .publish { p with writeBacks := rest } } := by
    refine (congrArg (List.find? _) table).trans (left.entry.trans ?_)
    rw [queue]
    rfl
  have at' := publishAt_of_entry entry rfl
  have told' : s.reports (s.recordLeaves e r) (if r.notify = true then
      [streamEvent .blockSent 1 e.stream s.ownNumber r.lastSequence.toNat r.length r.descriptor] else []) :=
    State.reports_congr left.eventState left.fence rfl told
  have third' : (s.recordLeaves e r).port.thirdClass = s.port.thirdClass := third
  have granted' : (s.recordLeaves e r).port.granted = s.port.granted := granted
  have lists' : (s.recordLeaves e r).lists = s.lists := lists
  rw [writeBackDone_eq there, requestWriteBack_eq at', ← lists']
  cases rest with
  | nil =>
    refine ⟨checkClosing_some at', granted', ?_, State.reports_congr rfl rfl rfl told'⟩
    rw [← third']
    exact (List.append_nil _).symm
  | cons next more =>
    refine ⟨checkClosing_some (s := (s.recordLeaves e r).request .third (.txWriteBack e.index next)) at', granted', ?_,
      State.reports_congr rfl rfl rfl told'⟩
    rw [← third']
    rfl

/-! ### Receive transfers (R116, R118, R131, R146) -/

theorem closeProgress_eq {s : State} {i : Nat} {u : SubscribeEntry} (there : s.subscribeAt i = some u) :
    s.closeProgress i =
      if u.closing = true ∧ s.port.outstanding (Request.receiveWriteOf i) = false then s.freeEntry i .close else s := by
  rw [State.closeProgress, there]
  simp only [Bool.and_eq_true, Bool.not_eq_true']

theorem isClosing_eq {s : State} {i : Nat} {u : SubscribeEntry} (there : s.subscribeAt i = some u) :
    s.isClosing i = u.closing := by
  rw [State.isClosing, there]
  rfl

/-- While nothing is granted, what is outstanding is what waits. -/
theorem outstanding_freePort (s : State) (p : Request → Bool) :
    s.freePort.port.outstanding p = (s.port.firstClass ++ s.port.secondClass ++ s.port.thirdClass).any p := by
  rw [List.any_append, List.any_append]
  exact Bool.or_false _

/-- The events of a receive write-back that ended OK. -/
def RxWriteBack.received (r : RxWriteBack) (stream : Nat) : List Event :=
  match r.closes with
  | some b => if r.status = .aborted then []
    else [streamEvent .blockReceived r.status.code stream b.publisher b.sequence.toNat b.bytes b.descriptor]
  | none => []

/-- Asking for the events of a write-back, and nothing else. -/
theorem blockReceived_eq {s : State} {i : Nat} {e : Entry} (there : s.entryAt i = some e) (r : RxWriteBack) :
    s.blockReceived i r = (r.received e.stream).foldl State.emit s := by
  rw [State.blockReceived, RxWriteBack.received, there]
  cases r.closes with
  | none => rfl
  | some b =>
    dsimp only
    split <;> rfl

theorem emitAll_leaves (asked : List Event) (s : State) :
    (asked.foldl State.emit s).table = s.table ∧ (asked.foldl State.emit s).pool = s.pool ∧
      (asked.foldl State.emit s).fence = s.fence ∧ (asked.foldl State.emit s).nextSerial = s.nextSerial ∧
      ∀ p : Request → Bool, (∀ r, r.isEventWrite = true → p r = false) →
        (asked.foldl State.emit s).port.outstanding p = s.port.outstanding p := by
  induction asked generalizing s with
  | nil => exact ⟨rfl, rfl, rfl, rfl, fun _ _ => rfl⟩
  | cons ev asked ih =>
    obtain ⟨table, pool, fence, serial, requests⟩ := ih (s.emit ev)
    obtain ⟨unit, writes, lost, shape, events⟩ := emit_shape s ev
    rw [List.foldl_cons]
    refine ⟨table.trans ?_, pool.trans ?_, fence.trans ?_, serial.trans ?_, fun p other => (requests p other).trans ?_⟩
    any_goals rw [shape]
    have none : writes.any p = false := List.any_eq_false.2 fun r mem => by
      rw [other r (events r mem)]
      exact Bool.false_ne_true
    simp only [HostPort.outstanding, List.any_append, none, Bool.or_false]

/-- `w` is `s` after the effect of a receive transfer that ends at the entry `e`, with fields `u`, and before the check
whether a closing one is freed: it has asked for these events, and at `e` at most written cells are gone. -/
structure TransferEnded (s w : State) (e : Entry) (u : SubscribeEntry) (asked : List Event) : Prop where
  table : w.tableOk
  entry : ∃ v, w.entryAt e.index = some { e with role := .subscribe v } ∧ v = { u with written := v.written }
  writes : w.port.outstanding (Request.receiveWriteOf e.index) = s.port.outstanding (Request.receiveWriteOf e.index)
  reports : s.reports w asked
  fence : w.fence = s.fence

theorem TransferEnded.refl {s : State} {e : Entry} {u : SubscribeEntry} (table : s.tableOk)
    (there : s.entryAt e.index = some e) (role : e.role = .subscribe u) : TransferEnded s s e u [] :=
  ⟨table, ⟨u, there.trans (by rw [← role]), rfl⟩, rfl, State.reports_refl s, rfl⟩

/-- A closing entry with nothing outstanding is freed. -/
theorem TransferEnded.freed {s w : State} {e : Entry} {u : SubscribeEntry} {asked : List Event}
    (h : TransferEnded s w e u asked) (closing : u.closing = true)
    (nothing : s.port.outstanding (Request.receiveWriteOf e.index) = false) :
    (w.closeProgress e.index).finish.entryAt e.index = none ∧
      s.reports (w.closeProgress e.index) (asked ++ [streamEvent .streamClosed 1 e.stream (u.publisher.getD 0)
        ((u.expected.map BitVec.toNat).getD 0) 0 0]) := by
  obtain ⟨table, ⟨v, entry, same⟩, writes, reports, fence⟩ := h
  have closing' : v.closing = true := by rw [same]; exact closing
  rw [closeProgress_eq (subscribeAt_of_entry entry rfl), if_pos ⟨closing', writes.trans nothing⟩]
  obtain ⟨gone, -, -, keys, -, told, -⟩ := freeEntry_frees table (List.mem_of_find?_eq_some entry) .close
  have frame : CellFrame (w.freeEntry e.index .close) (w.freeEntry e.index .close).finish := by
    refine CellFrame.finish _ ?_
    have := (tableOk_of_keys (t := w.freeEntry e.index .close) table
      (keys ▸ (List.filter_sublist).map _) (EngineFrame.freeEntry w e.index .close).serial)
    exact indexes_of_tableOk this
  refine ⟨?_, ?_⟩
  · have := frame.at_still e.index
    rw [show (w.freeEntry e.index .close).entryAt e.index = none from gone] at this
    exact Option.map_eq_none_iff.1 this
  · have event : ({ e with role := .subscribe v } : Entry).closedEvent .close = streamEvent .streamClosed 1 e.stream
        (u.publisher.getD 0) ((u.expected.map BitVec.toNat).getD 0) 0 0 := by
      rw [same]
      rfl
    rw [← event]
    exact State.reports_append fence reports told

/-- One with writes outstanding stays, closing. -/
theorem TransferEnded.stays {s w : State} {e : Entry} {u : SubscribeEntry} {asked : List Event}
    (h : TransferEnded s w e u asked)
    (stays : ¬(u.closing = true ∧ s.port.outstanding (Request.receiveWriteOf e.index) = false)) :
    w.closeProgress e.index = w ∧ ∃ v, w.finish.subscribeAt e.index = some v ∧ v = { u with written := v.written } := by
  obtain ⟨table, ⟨v, entry, same⟩, writes, -, -⟩ := h
  have there := subscribeAt_of_entry (u := v) entry rfl
  refine ⟨?_, v, ((CellFrame.finish w table.indexes).subscribeAt e.index).trans there, same⟩
  have closing : v.closing = u.closing := by rw [same]
  rw [closeProgress_eq there, writes, closing]
  exact if_neg stays

/-- The source of a piece that is written is free, or at its use still. -/
theorem sourceWritten_ended {s : State} {e : Entry} {u : SubscribeEntry} (table : s.tableOk)
    (there : s.entryAt e.index = some e) (role : e.role = .subscribe u) (source : SegmentSource) :
    TransferEnded s (s.sourceWritten e.index source) e u [] := by
  have frame := EngineFrame.sourceWritten s e.index source
  have ok := tableOk_of_keys table frame.keys frame.serial
  have same : e = { e with role := .subscribe u } := by rw [← role]
  cases source with
  | staging k =>
    by_cases done : (s.port.outstanding (Request.writesFrom (.staging k)) || s.placingFrom k) = true
    · have kept : s.sourceWritten e.index (.staging k) = s := if_pos done
      rw [kept]
      exact TransferEnded.refl table there role
    · have freed : s.sourceWritten e.index (.staging k) = s.setBuffer k .free := if_neg done
      rw [freed] at ok ⊢
      exact ⟨ok, ⟨u, there.trans (congrArg some same), rfl⟩, rfl, State.reports_nil rfl, rfl⟩
  | cell c =>
    obtain ⟨entry, -, events, -, -, -⟩ := (AtEntry.refl there).releaseIfWritten role c rfl
    have port : (s.sourceWritten e.index (.cell c)).port = s.port := by
      rw [State.sourceWritten, State.releaseIfWritten, subscribeAt_of_entry there role]
      dsimp only
      split
      · rw [(Released.releaseCell _ c).shape]
        rfl
      · rfl
    exact ⟨ok, ⟨_, entry, rfl⟩, by rw [port], State.reports_nil events, frame.fence⟩

/-- A receive write-back that ended OK has told its block. -/
theorem blockReceived_ended {s : State} {e : Entry} {u : SubscribeEntry} (table : s.tableOk)
    (there : s.entryAt e.index = some e) (role : e.role = .subscribe u) (r : RxWriteBack) :
    TransferEnded s (s.blockReceived e.index r) e u (r.received e.stream) ∧
      (s.blockReceived e.index r).subscribeAt e.index = some u := by
  obtain ⟨tableKept, -, fence, serial, requests⟩ := emitAll_leaves (r.received e.stream) s
  rw [blockReceived_eq there]
  have entry : ((r.received e.stream).foldl State.emit s).entryAt e.index = some e :=
    (congrArg (List.find? _) tableKept).trans there
  refine ⟨⟨?_, ⟨u, entry.trans (by rw [← role]), rfl⟩, ?_, rfl, fence⟩, subscribeAt_of_entry entry role⟩
  · unfold State.tableOk
    rw [tableKept, serial]
    exact table
  · refine requests _ fun q event => ?_
    cases q <;> first | rfl | exact nomatch event

/-- A staging buffer that no write and no placing uses is free then. -/
theorem sourceWritten_frees {s : State} {k : BufferId} (i : Nat)
    (unwritten : s.port.outstanding (Request.writesFrom (.staging k)) = false) (unplaced : s.placingFrom k = false) :
    s.sourceWritten i (.staging k) = s.setBuffer k .free :=
  if_neg (by rw [unwritten, unplaced]; exact Bool.false_ne_true)

/-- How a receive transfer ends at a closing entry: by the check whether it is freed. -/
theorem closing_transfer_ends {s : State} {g : Granted} {e : Entry} {u : SubscribeEntry} (table : s.tableOk)
    (mem : e ∈ s.table) (role : e.role = .subscribe u) (granted : s.port.granted = some g) (wanted : g.discarded = false)
    (closing : u.closing = true) {c : Instr} {how : Completion}
    (h : (c = .rxPayloadWriteEnd how ∧ ∃ k a b o n, g.request = .rxPayload e.index k a b o n) ∨
      (c = .rxWriteBackEnd how ∧ ∃ r, g.request = .rxWriteBack e.index r)) :
    ∃ w, exec c s = .next (w.closeProgress e.index).finish ∧ TransferEnded s.freePort w e u
      (match g.request with
        | .rxWriteBack _ r => if how = .ok then r.received e.stream else []
        | _ => []) := by
  have there : s.freePort.entryAt e.index = some e := table.entryAt mem
  have closes : s.freePort.isClosing e.index = true := (isClosing_eq (subscribeAt_of_entry there role)).trans closing
  rcases h with ⟨rfl, k, a, b, o, n, request⟩ | ⟨rfl, r, request⟩
  · refine ⟨s.freePort.sourceWritten e.index k, ?_, ?_⟩
    · rw [rxPayloadWriteEnd_eq granted request, endTransfer_wanted wanted]
      refine congrArg (fun t => Host.Outcome.next (State.finish t)) (if_neg ?_)
      rw [closes]
      exact fun h => nomatch h.2
    · rw [request]
      exact sourceWritten_ended (s := s.freePort) table there role k
  · rw [rxWriteBackEnd_eq granted request, endTransfer_wanted wanted, request]
    cases how with
    | ok => exact ⟨_, rfl, (blockReceived_ended (s := s.freePort) table there role r).1⟩
    | error =>
      refine ⟨s.freePort, ?_, TransferEnded.refl (s := s.freePort) table there role⟩
      refine congrArg (fun t => Host.Outcome.next (State.finish t)) ?_
      rw [if_neg nofun, closes]
      rfl

/-- How a receive transfer that ended ERROR ends at an entry that does not close: in FAULT. -/
theorem failed_transfer_faults {s : State} {g : Granted} {e : Entry} {u : SubscribeEntry} (table : s.tableOk)
    (mem : e ∈ s.table) (role : e.role = .subscribe u) (granted : s.port.granted = some g) (wanted : g.discarded = false)
    (openEntry : u.closing = false) {c : Instr} {n : Nat} {a : Word}
    (h : (c = .rxPayloadWriteEnd .error ∧ ∃ k b o, g.request = .rxPayload e.index k a b o n) ∨
      (c = .rxWriteBackEnd .error ∧ n = 6 ∧ ∃ r, g.request = .rxWriteBack e.index r ∧ r.descriptor = a)) :
    exec c s = .next (s.freePort.faultEntry e.index .busError n a).finish := by
  have there : s.freePort.entryAt e.index = some e := table.entryAt mem
  have stays : s.freePort.isClosing e.index = false := (isClosing_eq (subscribeAt_of_entry there role)).trans openEntry
  rcases h with ⟨rfl, k, b, o, request⟩ | ⟨rfl, rfl, r, request, rfl⟩
  · rw [rxPayloadWriteEnd_eq granted request, endTransfer_wanted wanted]
    exact congrArg (fun t => Host.Outcome.next (State.finish t)) (if_pos ⟨rfl, stays⟩)
  · rw [rxWriteBackEnd_eq granted request, endTransfer_wanted wanted]
    refine congrArg (fun t => Host.Outcome.next (State.finish t)) ?_
    rw [if_neg nofun, stays]
    rfl

/-- Settles O51: each kind of write by how it ends, and whether its entry closes. -/
theorem aWriteTransferEndsAtItsEntry : Obligations.AWriteTransferEndsAtItsEntry := by
  refine ⟨fun s g e p r rest table mem role granted wanted request queue => ?_,
    fun s g e u table mem role granted wanted => ?_⟩
  · have there : s.freePort.entryAt e.index = some e := table.entryAt mem
    have start := PublisherAt.refl there
    constructor
    · obtain ⟨at', granted', third, told⟩ := writeBackDone_leaves there role queue
      refine ⟨writeBackDone e.index r s.freePort, _, ?_, at', checked_eq _ _, granted', fun next more same => ?_, fun none => ?_,
        reports_of_freePort told⟩
      · rw [txWriteBackEnd_eq granted request, endTransfer_wanted wanted]
        rfl
      · rw [third, same]
        rfl
      · rw [third, none]
        exact List.append_nil _
    · obtain ⟨ends, told⟩ := start.faultEntry table role .busError 4 r.descriptor
      refine ⟨s.freePort.faultEntry e.index .busError 4 r.descriptor, _, ?_, ends.publishAt, ended_isEnded _ _ _,
        ends.forgets, reports_of_freePort told⟩
      rw [txWriteBackEnd_eq granted request, endTransfer_wanted wanted, if_neg nofun]
  · have there : s.freePort.entryAt e.index = some e := table.entryAt mem
    have at' : s.freePort.subscribeAt e.index = some u := subscribeAt_of_entry there role
    intro received about
    refine ⟨fun k a b o n request openEntry unwritten unplaced => ?_,
      fun c a b o n request openEntry written idle unwritten => ?_, fun r request openEntry => ?_,
      fun c n a fails openEntry => ?_, fun c how ends closing => ?_⟩
    · have freed := sourceWritten_frees (s := s.freePort) e.index ((outstanding_freePort s _).trans unwritten) unplaced
      have ended := sourceWritten_ended (s := s.freePort) table there role (.staging k)
      obtain ⟨kept, -⟩ := ended.stays fun h => absurd h.1 (by rw [openEntry]; exact Bool.false_ne_true)
      rw [rxPayloadWriteEnd_eq granted request, endTransfer_wanted wanted, if_neg (fun h => nomatch h.1), kept, freed]
      have frame := CellFrame.finish (s.freePort.setBuffer k .free) table.indexes
      refine ⟨_, rfl, ?_, (frame.subscribeAt e.index).trans at'⟩
      rw [frame.line]
      exact buffer_setBuffer _ _ _
    · have ended := sourceWritten_ended (s := s.freePort) table there role (.cell c)
      obtain ⟨kept, -⟩ := ended.stays fun h => absurd h.1 (by rw [openEntry]; exact Bool.false_ne_true)
      obtain ⟨entry, -, -, -, -, frees⟩ := (AtEntry.refl there).releaseIfWritten role c
        ((outstanding_freePort s (Request.writesFrom (.cell c))).trans unwritten)
      refine ⟨s.freePort.sourceWritten e.index (.cell c), ?_, frees written rfl idle, subscribeAt_of_entry entry rfl⟩
      rw [rxPayloadWriteEnd_eq granted request, endTransfer_wanted wanted, if_neg (fun h => nomatch h.1), kept]
    · obtain ⟨ended, unchanged⟩ := blockReceived_ended (s := s.freePort) table there role r
      obtain ⟨kept, -⟩ := ended.stays fun h => absurd h.1 (by rw [openEntry]; exact Bool.false_ne_true)
      refine ⟨s.freePort.blockReceived e.index r, ?_, unchanged, reports_of_freePort ended.reports⟩
      rw [rxWriteBackEnd_eq granted request, endTransfer_wanted wanted, if_pos rfl, kept]
    · obtain ⟨faulted, told⟩ := faultEntry_subscribe s.freePort e.index e u there role openEntry .busError n a
      have frame := EngineFrame.faultEntry s.freePort e.index .busError n a
      have ok := tableOk_of_keys (s := s.freePort) table frame.keys frame.serial
      exact ⟨_, _, failed_transfer_faults table mem role granted wanted openEntry fails,
        ((CellFrame.finish _ ok.indexes).subscribeAt e.index).trans faulted, ⟨rfl, rfl, rfl, rfl, rfl, rfl⟩,
        reports_of_freePort told⟩
    · obtain ⟨w, run, ended⟩ := closing_transfer_ends table mem role granted wanted closing ends
      constructor
      · intro nothing
        obtain ⟨gone, told⟩ := ended.freed closing ((outstanding_freePort s _).trans nothing)
        exact ⟨_, run, gone, reports_of_freePort told⟩
      · intro busy
        obtain ⟨kept, v, at'', same⟩ := ended.stays fun h => by
          rw [outstanding_freePort, busy] at h
          exact nomatch h.2
        rw [kept] at run
        refine ⟨_, v, run, at'', ?_, ?_⟩ <;> rw [same]
        exact closing

end Machine
end Sys2Proof
end

section
/-! What settles after a command: the segmenters' claims and reads, and the hold-off (R27, R79, R80, R83, R90, R91,
R138). -/

namespace Sys2Proof
namespace Machine

/-! ### The turn unit while the segmenters settle -/

theorem unlistResend_turn (s : State) (i stream : Nat) (q : Seq) : (s.unlistResend i stream q).turn = s.turn := by
  unfold State.unlistResend
  split <;> rfl

theorem leaveReplay_turn (s : State) (a : AgedCell) : (s.leaveReplay a).turn = s.turn := by
  unfold State.leaveReplay
  dsimp only
  split
  · exact unlistResend_turn _ _ _ _
  · rfl

theorem joinSend_turn (s : State) (i c : Nat) : (s.joinSend i c).turn = s.turn := by
  rw [(Released.joinSend s i c).shape]

theorem claimCell_turn {s t : State} {c : Nat} (claimed : s.claimCell = some (c, t)) : t.turn = s.turn := by
  unfold State.claimCell at claimed
  split at claimed
  · cases claimed
    rfl
  · split at claimed
    · cases claimed
      exact leaveReplay_turn s _
    · cases claimed

theorem segmenterClaim_turn (s : State) (i : Nat) : (s.segmenterClaim i).turn = s.turn := by
  unfold State.segmenterClaim
  split
  · next c t claimed => exact (joinSend_turn t i c).trans (claimCell_turn claimed)
  · rfl

theorem emit_turn (s : State) (ev : Event) : (s.emit ev).turn = s.turn := by
  obtain ⟨-, -, turn, -⟩ := emit_rest s ev
  exact turn

theorem releaseCells_turn (s : State) (l : List Nat) : (s.releaseCells l).turn = s.turn := by
  rw [(Released.releaseCells s l).shape]

theorem faultEntry_turn (s : State) (i : Nat) (cause : FaultCause) (n : Nat) (a : Word) :
    (s.faultEntry i cause n a).turn = s.turn := by
  unfold State.faultEntry
  split
  · rfl
  · split
    · exact (emit_turn _ _).trans (releaseCells_turn _ _)
    · split
      · rfl
      · exact (emit_turn _ _).trans (releaseCells_turn _ _)

theorem requestPayload_turn (s : State) (e : Entry) : (s.requestPayload e).turn = s.turn := by
  unfold State.requestPayload
  split
  · split
    · dsimp only
      split
      · rfl
      · exact faultEntry_turn s _ _ _ _
    · rfl
  · rfl

theorem settleRounds_turn (n : Nat) (s : State) : (settleRounds n s).turn = s.turn := by
  induction n generalizing s with
  | zero => rfl
  | succ n ih =>
    unfold settleRounds
    split
    · rfl
    · refine (ih _).trans ?_
      split
      · exact segmenterClaim_turn s _
      · exact requestPayload_turn s _

/-- The hold-off runs exactly where a frame could be sent on an OPEN line, and starts at its full length. -/
theorem finish_holdOff (s : State) :
    (s.finish.turn.holdOff.isSome = true ↔
      s.station.state = .active ∧ s.turn.condition = .opened ∧ s.finish.selectAny.isSome = true) ∧
    (s.turn.holdOff = none → ∀ n, s.finish.turn.holdOff = some n → n = 16 * s.ownNumber) := by
  have frame := EngineFrame.settleSegmenters s
  have turn : s.settleSegmenters.turn = s.turn := settleRounds_turn _ s
  have same : s.finish.selectAny = s.settleSegmenters.selectAny := rfl
  have shape : s.finish.turn.holdOff =
      if s.settleSegmenters.station.state = .active ∧ s.settleSegmenters.turn.condition = .opened ∧
        s.settleSegmenters.selectAny.isSome = true then
        some (s.settleSegmenters.turn.holdOff.getD (s.settleSegmenters.ownNumber * 16)) else none := rfl
  have own : s.settleSegmenters.ownNumber = s.ownNumber := by
    unfold State.ownNumber
    rw [frame.station]
  rw [same, shape, frame.station, turn, own]
  refine ⟨?_, fun stopped n => ?_⟩
  · split
    · next runs => exact ⟨fun _ => runs, fun _ => rfl⟩
    · next rests => exact ⟨nofun, fun runs => absurd runs rests⟩
  · rw [stopped]
    split
    · rintro ⟨⟩
      exact Nat.mul_comm _ _
    · exact nofun

/-! ### One entry that can go on -/

/-- No entry but the one at an index can claim or read. -/
def State.othersRest (s : State) (i : Nat) : Prop :=
  ∀ f ∈ s.table, f.index ≠ i → f.wantsClaim = false ∧ s.wantsRead f = false

theorem settleRounds_rest {s : State} (rest : s.segmentersRest) (n : Nat) : settleRounds n s = s := by
  cases n with
  | zero => rfl
  | succ n =>
    unfold settleRounds
    rw [show s.table.find? _ = none from rest]

theorem finish_rest {s : State} (rest : s.segmentersRest) : s.finish = s.settleHoldOff :=
  congrArg State.settleHoldOff (settleRounds_rest rest _)

/-- Where only one entry can go on, the next round serves it. -/
theorem settleRounds_serves {s : State} {e : Entry} (there : s.entryAt e.index = some e)
    (indexes : (s.table.map (·.index)).Nodup) (others : s.othersRest e.index)
    (works : (e.wantsClaim || s.wantsRead e) = true) (n : Nat) :
    settleRounds (n + 1) s =
      settleRounds n (if e.wantsClaim then s.segmenterClaim e.index else s.requestPayload e) := by
  have mem := List.mem_of_find?_eq_some there
  have found : s.table.find? (fun e => e.wantsClaim || s.wantsRead e) = some e := by
    cases eq : s.table.find? (fun e => e.wantsClaim || s.wantsRead e) with
    | none => exact absurd works (List.find?_eq_none.1 eq e mem)
    | some f =>
      have served : (f.wantsClaim || s.wantsRead f) = true := List.find?_some (p := fun e => e.wantsClaim || s.wantsRead e) eq
      by_cases same : f.index = e.index
      · rw [List.inj_on_of_nodup_map indexes (List.mem_of_find?_eq_some eq) mem same]
      · obtain ⟨claims, reads⟩ := others f (List.mem_of_find?_eq_some eq) same
        rw [claims, reads] at served
        exact nomatch served
  conv => lhs; unfold settleRounds
  rw [found]

theorem segmentersRest_of {s : State} {e : Entry} (there : s.entryAt e.index = some e)
    (indexes : (s.table.map (·.index)).Nodup) (others : s.othersRest e.index) (claims : e.wantsClaim = false)
    (reads : s.wantsRead e = false) : s.segmentersRest :=
  List.find?_eq_none.2 fun f mem => by
    by_cases same : f.index = e.index
    · rw [List.inj_on_of_nodup_map indexes mem (List.mem_of_find?_eq_some there) same, claims, reads]
      exact Bool.false_ne_true
    · obtain ⟨claims', reads'⟩ := others f mem same
      rw [claims', reads']
      exact Bool.false_ne_true

theorem State.othersRest.modifyPublish {s : State} {i : Nat} (h : s.othersRest i) (f : PublishEntry → PublishEntry) :
    (s.modifyPublish i f).othersRest i := by
  intro g mem other
  obtain ⟨g', mem', rfl⟩ := List.mem_map.1 mem
  by_cases same : g'.index = i
  · rw [if_pos same] at other
    exact absurd same other
  · rw [if_neg same]
    exact h g' mem' same

theorem outstanding_request {s : State} {p : Request → Bool} (busy : s.port.outstanding p = true) (r : Request) :
    (s.request .third r).port.outstanding p = true := by
  rw [HostPort.outstanding] at busy ⊢
  rw [State.request]
  dsimp only
  rw [List.any_append]
  revert busy
  cases s.port.firstClass.any p <;> cases s.port.secondClass.any p <;> cases s.port.thirdClass.any p <;> simp +contextual

theorem wantsRead_request {s : State} {f : Entry} (rests : s.wantsRead f = false) (r : Request) :
    (s.request .third r).wantsRead f = false := by
  unfold State.wantsRead at rests ⊢
  cases role : f.role with
  | subscribe u => rfl
  | publish p =>
    rw [role] at rests
    dsimp only at rests ⊢
    rcases Bool.and_eq_false_iff.1 rests with idle | busy
    · rw [idle, Bool.false_and]
    · rw [outstanding_request (by simpa using busy) r, Bool.not_true, Bool.and_false]

theorem State.othersRest.request {s : State} {i : Nat} (h : s.othersRest i) (r : Request) :
    (s.request .third r).othersRest i := fun f mem other => by
  obtain ⟨claims, reads⟩ := h f mem other
  exact ⟨claims, wantsRead_request reads r⟩

/-- A replay queue and a YIELD due have no part in what an entry can do. -/
theorem works_of_replayed {f : Entry} {r : Role} (h : f.role.replayed r) {s t : State} (port : t.port = s.port) :
    ({ f with role := r } : Entry).wantsClaim = f.wantsClaim ∧
      t.wantsRead { f with role := r } = s.wantsRead f := by
  unfold Entry.wantsClaim State.wantsRead
  cases role : f.role with
  | subscribe u =>
    rw [h.1 u role]
    dsimp only
    rw [role]
    exact ⟨rfl, rfl⟩
  | publish p =>
    obtain ⟨v, rfl, queue, due, rfl⟩ := h.2 p role
    dsimp only
    rw [port]
    refine ⟨?_, rfl⟩
    cases f.chain.current <;> rfl

theorem State.othersRest.replayed {s t : State} {i : Nat} (h : s.othersRest i) (entries : EntriesReplayed s t)
    (indexes : (s.table.map (·.index)).Nodup) (same : t.table.map (·.index) = s.table.map (·.index))
    (port : t.port = s.port) : t.othersRest i := by
  intro f mem other
  have here : f.index ∈ s.table.map (·.index) := same ▸ List.mem_map_of_mem mem
  obtain ⟨f', mem', index⟩ := List.mem_map.1 here
  obtain ⟨r, at', role⟩ := entries f'.index f' (CellFrame.entryAt_of_mem indexes mem')
  have eq : f = { f' with role := r } := by
    have found := CellFrame.entryAt_of_mem (s := t) (by rw [same]; exact indexes) mem
    rw [← index, at'] at found
    exact (Option.some.inj found).symm
  obtain ⟨claims, reads⟩ := works_of_replayed role port
  rw [eq, claims, reads]
  exact h f' mem' (index ▸ other)

/-! ### A READY entry claims a cell and asks for its bytes -/

/-- An entry that may take a cell for its current block: nothing else of it goes on (R90). -/
structure ClaimsNow (s : State) (e : Entry) (p : PublishEntry) (a : Word) (d : Descriptor) : Prop where
  indexes : (s.table.map (·.index)).Nodup
  entry : s.entryAt e.index = some e
  role : e.role = .publish p
  held : e.chain.current = .held a d
  claims : e.wantsClaim = true
  complete : ∀ c ∈ p.sendQueue, c.complete = true
  unread : s.port.outstanding (Request.payloadReadOf e.index) = false
  others : s.othersRest e.index

theorem wantsClaim_of {e : Entry} {p : PublishEntry} {a : Word} {d : Descriptor} (role : e.role = .publish p)
    (held : e.chain.current = .held a d) (ready : p.segmenter = .ready)
    (may : p.claim = .claiming ∨ p.claim = .owned ∨ (p.claim = .closing ∧ 0 < p.position)) (room : p.sendQueue.length < 8)
    (complete : ∀ c ∈ p.sendQueue, c.complete = true) : e.wantsClaim = true := by
  unfold Entry.wantsClaim
  rw [role, held]
  dsimp only
  rw [ready, decide_eq_true (p := p.sendQueue.length < Config.sendLimit) room, List.all_eq_true.2 complete]
  rcases may with claim | claim | ⟨claim, part⟩
  · rw [claim]; rfl
  · rw [claim]; rfl
  · rw [claim, (partlySegmented_iff p).2 (.inr part)]; rfl

/-- The entry once it has been given a cell. -/
def Entry.withCell (e : Entry) (p : PublishEntry) (a : Word) (d : Descriptor) (c : Nat) : Entry :=
  { e with role := .publish (p.joinedBy a d c) }

theorem withCell_claimless (e : Entry) (p : PublishEntry) (a : Word) (d : Descriptor) (c : Nat) :
    (e.withCell p a d c).wantsClaim = false := by
  unfold Entry.wantsClaim Entry.withCell
  dsimp only
  split
  · next q h _ =>
    obtain rfl := Role.publish.inj h
    rfl
  · rfl

/-- The cell given is the one whose bytes are asked for. -/
theorem find_incomplete {p : PublishEntry} (complete : ∀ c ∈ p.sendQueue, c.complete = true) (a : Word) (d : Descriptor)
    (c : Nat) : (p.joinedBy a d c).sendQueue.find? (fun x => !x.complete) = some (newSendCell p a d c) := by
  unfold PublishEntry.joinedBy
  dsimp only
  have none : p.sendQueue.find? (fun x => !x.complete) = none :=
    List.find?_eq_none.2 fun x mem => by
      rw [complete x mem]
      exact Bool.false_ne_true
  rw [List.find?_append, none]
  rfl

theorem requestPayload_withCell {e : Entry} {p : PublishEntry} {a : Word} {d : Descriptor}
    (held : e.chain.current = .held a d) (complete : ∀ c ∈ p.sendQueue, c.complete = true) (c : Nat) (s : State) :
    s.requestPayload (e.withCell p a d c) =
      if s.fence.contains (d.buffer.toNat + p.position) (newSendCell p a d c).decodedLength = true then
        s.request .third (.txPayload e.index c (BitVec.ofNat 32 (d.buffer.toNat + p.position))
          (newSendCell p a d c).decodedLength)
      else s.faultEntry e.index .fence (newSendCell p a d c).decodedLength a := by
  unfold State.requestPayload
  have role : (e.withCell p a d c).role = .publish (p.joinedBy a d c) := rfl
  have chain : (e.withCell p a d c).chain = e.chain := rfl
  rw [role, chain, held]
  dsimp only
  rw [find_incomplete complete]
  rfl

section
variable {s t : State} {e : Entry} {p v : PublishEntry} {a : Word} {d : Descriptor} {c : Nat}
  (h : ClaimsNow s e p a d) (claimed : s.claimCell = some (c, t)) (entries : EntriesReplayed s t)
  (same : t.table.map (·.index) = s.table.map (·.index)) (port : t.port = s.port)
  (at' : t.entryAt e.index = some { e with role := .publish v }) (replayed : p.replayed v)
include h claimed entries same port at'

/-- Two rounds serve the claim and the read of the cell given. -/
theorem settle_claim (n : Nat) : settleRounds (n + 2) s =
    settleRounds n ((t.modifyPublish e.index (·.joinedBy a d c)).requestPayload (e.withCell v a d c)) := by
  have first : settleRounds (n + 2) s = settleRounds (n + 1) (t.modifyPublish e.index (·.joinedBy a d c)) := by
    rw [settleRounds_serves h.entry h.indexes h.others (by rw [h.claims]; rfl), if_pos h.claims]
    rw [State.segmenterClaim, claimed]
    exact congrArg _ (joinSend_held at' rfl h.held c)
  have entry : (t.modifyPublish e.index (·.joinedBy a d c)).entryAt (e.withCell v a d c).index =
      some (e.withCell v a d c) := ((PublisherAt.refl at').modifyPublish rfl (·.joinedBy a d c)).entry
  have unread : t.port.outstanding (Request.payloadReadOf e.index) = false := by rw [port]; exact h.unread
  have reads : (t.modifyPublish e.index (·.joinedBy a d c)).wantsRead (e.withCell v a d c) = true := by
    show (true && !t.port.outstanding (Request.payloadReadOf e.index)) = true
    rw [unread]
    rfl
  rw [first, settleRounds_serves entry (by rw [modifyPublish_indexes, same]; exact h.indexes)
    ((h.others.replayed entries h.indexes same port).modifyPublish _) (by rw [reads, Bool.or_true]),
    if_neg (by rw [withCell_claimless]; exact Bool.false_ne_true)]

include replayed

/-- With the bytes inside the fence, they are asked for, and nothing is left to do. -/
theorem settle_claim_inside
    (inside : t.fence.contains (d.buffer.toNat + p.position) (newSendCell p a d c).decodedLength = true) :
    s.finish = ((t.modifyPublish e.index (·.joinedBy a d c)).request .third
      (.txPayload e.index c (BitVec.ofNat 32 (d.buffer.toNat + p.position))
        (newSendCell p a d c).decodedLength)).settleHoldOff := by
  have complete : ∀ x ∈ v.sendQueue, x.complete = true := by
    obtain ⟨queue, due, rfl⟩ := replayed
    exact h.complete
  have cell : (newSendCell v a d c).decodedLength = (newSendCell p a d c).decodedLength ∧ v.position = p.position := by
    obtain ⟨queue, due, rfl⟩ := replayed
    exact ⟨rfl, rfl⟩
  have asks := requestPayload_withCell h.held complete c (t.modifyPublish e.index (·.joinedBy a d c))
  have fence : (t.modifyPublish e.index (·.joinedBy a d c)).fence = t.fence := rfl
  rw [cell.1, cell.2, fence, if_pos inside] at asks
  have settled : settleRounds 160 s = _ := settle_claim h claimed entries same port at' 158
  rw [asks] at settled
  refine congrArg State.settleHoldOff (settled.trans (settleRounds_rest ?_ _))
  have entry : (t.modifyPublish e.index (·.joinedBy a d c)).entryAt (e.withCell v a d c).index =
      some (e.withCell v a d c) := ((PublisherAt.refl at').modifyPublish rfl (·.joinedBy a d c)).entry
  refine segmentersRest_of (s := (t.modifyPublish e.index (·.joinedBy a d c)).request .third _) entry
    (by show List.Nodup (List.map _ (t.modifyPublish e.index _).table)
        rw [modifyPublish_indexes, same]; exact h.indexes)
    (((h.others.replayed entries h.indexes same port).modifyPublish _).request _) (withCell_claimless _ _ _ _ _) ?_
  have busy : ((t.modifyPublish e.index (·.joinedBy a d c)).request .third
      (.txPayload e.index c (BitVec.ofNat 32 (d.buffer.toNat + p.position))
        (newSendCell p a d c).decodedLength)).port.outstanding (Request.payloadReadOf e.index) = true := by
    have last : (t.port.thirdClass ++ [Request.txPayload e.index c (BitVec.ofNat 32 (d.buffer.toNat + p.position))
        (newSendCell p a d c).decodedLength]).any (Request.payloadReadOf e.index) = true :=
      List.any_eq_true.2 ⟨_, List.mem_append_right _ (List.mem_singleton.2 rfl), beq_self_eq_true _⟩
    rw [HostPort.outstanding, State.request]
    dsimp only [State.modifyPublish]
    rw [last, Bool.or_true, Bool.true_or]
  show (true && !_) = false
  rw [Bool.true_and, Bool.not_eq_false']
  exact busy

/-- With the bytes outside the fence, the entry is in FAULT. -/
theorem settle_claim_outside (table : t.tableOk)
    (outside : t.fence.contains (d.buffer.toNat + p.position) (newSendCell p a d c).decodedLength = false) :
    EndedAt e.index e.stream ((v.joinedBy a d c).ended .fault p.claim.owns) s.finish := by
  have complete : ∀ x ∈ v.sendQueue, x.complete = true := by
    obtain ⟨queue, due, rfl⟩ := replayed
    exact h.complete
  have cell : (newSendCell v a d c).decodedLength = (newSendCell p a d c).decodedLength ∧ v.position = p.position ∧
      (v.joinedBy a d c).claim = p.claim := by
    obtain ⟨queue, due, rfl⟩ := replayed
    exact ⟨rfl, rfl, rfl⟩
  have asks := requestPayload_withCell h.held complete c (t.modifyPublish e.index (·.joinedBy a d c))
  have fence : (t.modifyPublish e.index (·.joinedBy a d c)).fence = t.fence := rfl
  rw [cell.1, cell.2.1, fence, if_neg (by rw [outside]; exact Bool.false_ne_true)] at asks
  have settled : settleRounds 160 s = _ := settle_claim h claimed entries same port at' 158
  rw [asks] at settled
  have ends := (((PublisherAt.refl at').modifyPublish rfl (·.joinedBy a d c)).faultEntry table rfl .fence
    (newSendCell p a d c).decodedLength a).1
  rw [cell.2.2] at ends
  have done := ends.settleRounds 158
  rw [← settled] at done
  exact ⟨done.1, done.2, done.3, done.4, done.5, done.6, done.7⟩

end

/-! ### Where the cell comes from (R79, R80, R83) -/

theorem claimCell_free {s : State} {c : Nat} {rest : List Nat} (free : s.pool.free = c :: rest) :
    s.claimCell = some (c, { s with pool := { s.pool with free := rest } }) := by
  rw [State.claimCell, free]

theorem claimCell_aged {s : State} {b : AgedCell} {more : List AgedCell} (free : s.pool.free = [])
    (aged : s.pool.aged = b :: more) : s.claimCell = some (b.cell, (s.leaveReplay b).bump .replayEvictions) := by
  rw [State.claimCell, free, aged]

theorem claimCell_none {s : State} (free : s.pool.free = []) (aged : s.pool.aged = []) : s.claimCell = none := by
  rw [State.claimCell, free, aged]

/-- Without a cell the claim waits, and nothing is left to do. -/
theorem settle_claim_waits {s : State} {e : Entry} {p : PublishEntry} {a : Word} {d : Descriptor}
    (h : ClaimsNow s e p a d) (none : s.claimCell = none) :
    s.finish = (({ s with pool := { s.pool with waiting := s.pool.waiting ++ [e.index] } } : State).modifyPublish e.index
      fun p => { p with segmenter := .waitCell }).settleHoldOff := by
  let t : State := { s with pool := { s.pool with waiting := s.pool.waiting ++ [e.index] } }
  have first : settleRounds 160 s = settleRounds 159 (t.modifyPublish e.index fun p => { p with segmenter := .waitCell }) := by
    rw [settleRounds_serves h.entry h.indexes h.others (by rw [h.claims]; rfl), if_pos h.claims]
    rw [State.segmenterClaim, none]
  refine congrArg State.settleHoldOff (first.trans (settleRounds_rest ?_ _))
  have entry := ((PublisherAt.refl (s := t) h.entry).modifyPublish h.role fun p => { p with segmenter := .waitCell }).entry
  have others : t.othersRest e.index := h.others
  refine segmentersRest_of (e := { e with role := .publish { p with segmenter := .waitCell } }) entry
    (by rw [modifyPublish_indexes]; exact h.indexes) (others.modifyPublish _) ?_ rfl
  unfold Entry.wantsClaim
  dsimp only
  rw [h.held]
  rfl

end Machine
end Sys2Proof
end

section
/-! Settling, and cells that are released to a waiting entry, as O53 states them. -/

namespace Sys2Proof
namespace Machine

/-- The bytes that a claim for a segment asks for: as many as the segment has, from the position on. -/
def Entry.segmentRead (e : Entry) (p : PublishEntry) (d : Descriptor) (c : Nat) : Request :=
  .txPayload e.index c (BitVec.ofNat 32 (d.buffer.toNat + p.position)) (min 240 (d.length - p.position))

section
variable {s : State} {e : Entry} {p : PublishEntry} {a : Word} {d : Descriptor} (h : ClaimsNow s e p a d)
include h

theorem settle_free {c : Nat} {rest : List Nat} (free : s.pool.free = c :: rest)
    (inside : s.fence.contains (d.buffer.toNat + p.position) (min 240 (d.length - p.position)) = true) :
    s.finish = ((({ s with pool := { s.pool with free := rest } } : State).modifyPublish e.index
      (·.joinedBy a d c)).request .third (e.segmentRead p d c)).settleHoldOff :=
  settle_claim_inside h (claimCell_free free) (.ofTable rfl) rfl rfl (h.entry.trans (by rw [← h.role]))
    p.replayed_refl inside

theorem settle_free_outside (table : s.tableOk) {c : Nat} {rest : List Nat} (free : s.pool.free = c :: rest)
    (outside : s.fence.contains (d.buffer.toNat + p.position) (min 240 (d.length - p.position)) = false) :
    EndedAt e.index e.stream ((p.joinedBy a d c).ended .fault p.claim.owns) s.finish :=
  settle_claim_outside h (claimCell_free free) (.ofTable rfl) rfl rfl (h.entry.trans (by rw [← h.role]))
    p.replayed_refl table outside

/-- The head of the age list is evicted for the claim. -/
theorem settle_evicts {b : AgedCell} {more : List AgedCell} (free : s.pool.free = []) (aged : s.pool.aged = b :: more)
    (inside : s.fence.contains (d.buffer.toNat + p.position) (min 240 (d.length - p.position)) = true) :
    ∃ v, p.replayed v ∧ (s.leaveReplay b).entryAt e.index = some { e with role := .publish v } ∧
      s.finish = ((((s.leaveReplay b).bump .replayEvictions).modifyPublish e.index (·.joinedBy a d b.cell)).request .third
        (e.segmentRead p d b.cell)).settleHoldOff := by
  obtain ⟨r, at', role⟩ := EntriesReplayed.leaveReplay s b e.index e h.entry
  obtain ⟨v, rfl, replayed⟩ := role.2 p h.role
  obtain ⟨-, port, -, -, -⟩ := leaveReplay_leaves s b
  have fence : ((s.leaveReplay b).bump .replayEvictions).fence = s.fence := (EngineFrame.leaveReplay s b).fence
  refine ⟨v, replayed, at', ?_⟩
  exact settle_claim_inside h (claimCell_aged free aged) (EntriesReplayed.leaveReplay s b)
    (CellFrame.leaveReplay s b).indexes port at' replayed (by rw [fence]; exact inside)

end

/-- Settles O53: the only claim there is is served in two rounds; a released cell goes to the entry that waits first. -/
theorem settlingTouchesPublishEntriesAndTheHoldOffAlone :
    Obligations.SettlingTouchesPublishEntriesAndTheHoldOffAlone := by
  unfold Obligations.SettlingTouchesPublishEntriesAndTheHoldOffAlone
  intro joined
  refine ⟨?_, fun s rest => finish_rest rest, fun s c idle => releaseCell_idle idle c, ?_, fun s table => ?_⟩
  · intro s e p a d table mem role held ready may room complete unread others t n start read
    have h : ClaimsNow s e p a d :=
      { indexes := table.indexes, entry := table.entryAt mem, role := role, held := held
        claims := wantsClaim_of role held ready may room complete, complete := complete, unread := unread
        others := fun f hf other => others f hf fun same => other (congrArg Entry.index same) }
    have place {w : State} {v : PublishEntry} (there : w.entryAt e.index = some { e with role := .publish v }) (c : Nat) :
        (w.modifyPublish e.index (·.joinedBy a d c)).publishAt e.index = some (v.joinedBy a d c) :=
      ((PublisherAt.refl there).modifyPublish rfl (·.joinedBy a d c)).publishAt rfl
    have entry : s.entryAt e.index = some { e with role := .publish p } := h.entry.trans (by rw [← role])
    refine ⟨fun c rest free => ⟨fun inside => ?_, fun outside => ?_⟩, fun b more free aged inside => ?_, fun free aged => ?_⟩
    · have settled : t = _ := settle_free h free inside
      rw [settled]
      refine ⟨place (w := { s with pool := { s.pool with free := rest } }) entry c, rfl, rfl, rfl, rfl, fun i other => ?_⟩
      refine (modifyPublish_entryAt _ e.index i _).trans ?_
      have here : State.entryAt { s with pool := { s.pool with free := rest } } i = s.entryAt i := rfl
      rw [here]
      cases at' : s.entryAt i with
      | none => rfl
      | some f => exact congrArg some (if_neg fun same => other ((entryAt_index at').symm.trans same))
    · have ends : EndedAt e.index e.stream _ t := settle_free_outside h table free outside
      exact ⟨_, ends.publishAt, ended_isEnded _ _ _, ends.forgets⟩
    · obtain ⟨v, replayed, at', settled⟩ := settle_evicts h free aged inside
      obtain ⟨-, port, pool, counters, lists⟩ := leaveReplay_leaves s b
      have settled' : t = _ := settled
      rw [settled']
      refine ⟨v.joinedBy a d b.cell, place (w := (s.leaveReplay b).bump .replayEvictions) at' b.cell, ?_, ?_, rfl, pool, ?_, ?_,
        lists⟩
      · obtain ⟨queue, due, rfl⟩ := replayed
        rfl
      · obtain ⟨queue, due, rfl⟩ := replayed
        rfl
      · have asked (w : HostPort) (same : w = s.port) :
            ({ w with thirdClass := w.thirdClass ++ [e.segmentRead p d b.cell] } : HostPort) = read b.cell := by
          rw [same]
          rfl
        exact asked _ port
      · show (s.leaveReplay b).counters.add .replayEvictions 1 = _
        rw [counters]
        rfl
    · have settled : t = _ := settle_claim_waits h (claimCell_none free aged)
      rw [settled]
      refine ⟨?_, rfl, rfl, rfl, rfl⟩
      exact ((PublisherAt.refl (s := { s with pool := { s.pool with waiting := s.pool.waiting ++ [e.index] } })
        h.entry).modifyPublish role fun p => { p with segmenter := .waitCell }).publishAt rfl
  · intro s c e p a d table mem role held pointer small waits first t
    have there := table.entryAt mem
    have given : t = _ := releaseCell_waiting there role held (nextAfter_waiting pointer small waits first) c
    rw [given]
    have moved := (PublisherAt.refl (s := { s with pool := { s.pool with
      waiting := s.pool.waiting.erase e.index, waitingPointer := e.index } }) there).modifyPublish role (·.joinedBy a d c)
    refine ⟨moved.publishAt rfl, rfl, rfl, rfl, fun i other => ?_⟩
    refine (modifyPublish_entryAt _ e.index i _).trans ?_
    have here : State.entryAt { s with pool := { s.pool with
      waiting := s.pool.waiting.erase e.index, waitingPointer := e.index } } i = s.entryAt i := rfl
    rw [here]
    cases at' : s.entryAt i with
    | none => rfl
    | some f => exact congrArg some (if_neg fun same => other ((entryAt_index at').symm.trans same))
  · have frame := CellFrame.finish s table.indexes
    obtain ⟨runs, starts⟩ := finish_holdOff s
    exact ⟨EngineFrame.finish s, frame.line, frame.subscribeAt, fun i u there =>
      ⟨frame.chainAt i, frame.first i (by rw [there]; rfl)⟩, runs, starts⟩

end Machine
end Sys2Proof
end

section
/-! A subscribe entry whose reception ends or is cut short: giving up a segment, closing the block, placing a piece (R113,
R115, R117, R129, R131, R142). -/

namespace Sys2Proof
namespace Machine

/-! ### Giving up the segment being placed -/

/-- From `s` to `w` the entry `e`, with fields `u`, has given up what it was placing, and has fields `v`; nothing of it
but its cells has changed, and of the station nothing but the table, the buffers and the pool. -/
structure GaveUp (s w : State) (e : Entry) (u v : SubscribeEntry) : Prop extends GivesUp s w e u v where
  table : w.tableOk
  entry : w.entryAt e.index = some { e with role := .subscribe v }
  fields : v = { u with
    placing := none, written := v.written, waiting := u.waiting.filter fun c => !u.places (.cell c.cell) }
  shape : w = { s with table := w.table, line := w.line, pool := w.pool }
  idle : s.pool.waiting = [] → w.pool.waiting = []
  unmoved : (∀ c, u.places (.cell c) = false) → w.pool = s.pool
  parked : s.pool.waiting = [] → ∀ c ∈ u.waiting, u.places (.cell c.cell) = true →
    s.port.outstanding (Request.writesFrom (.cell c.cell)) = false → w.pool.free = s.pool.free ++ [c.cell]

theorem places_of_none {u : SubscribeEntry} (none : u.placing = none) (k : SegmentSource) : u.places k = false := by
  unfold SubscribeEntry.places
  rw [none]
  rfl

theorem filter_unplaced {u : SubscribeEntry} (unplaced : ∀ c, u.places (.cell c) = false) :
    (u.waiting.filter fun c => !u.places (.cell c.cell)) = u.waiting :=
  List.filter_eq_self.2 fun c _ => by rw [unplaced]; rfl

theorem entry_with_role {e : Entry} {u : SubscribeEntry} (role : e.role = .subscribe u) :
    e = { e with role := .subscribe u } := by rw [← role]

theorem GaveUp.none {s : State} {e : Entry} {u : SubscribeEntry} (table : s.tableOk) (mem : e ∈ s.table)
    (role : e.role = .subscribe u) (placing : u.placing = none) : GaveUp s s e u u where
  placing := placing
  freed k h := absurd h (by rw [places_of_none placing]; exact Bool.false_ne_true)
  kept _ _ := rfl
  written c h := absurd h (by rw [places_of_none placing]; exact Bool.false_ne_true)
  others _ := rfl
  table := table
  entry := (table.entryAt mem).trans (congrArg some (entry_with_role role))
  fields := by
    rw [filter_unplaced fun c => places_of_none placing _, ← placing]
  shape := rfl
  idle := id
  unmoved _ := rfl
  parked _ c _ h := absurd h (by rw [places_of_none placing]; exact Bool.false_ne_true)

theorem source_cell_beq (c d : Nat) : (SegmentSource.cell c == .cell d) = (d == c) := by
  rw [Bool.eq_iff_iff, beq_iff_eq, beq_iff_eq, SegmentSource.cell.injEq]
  exact eq_comm

theorem places_some {u : SubscribeEntry} {pl : Placing} (placing : u.placing = some pl) (source : SegmentSource) :
    u.places source = (pl.source == source) := by
  unfold SubscribeEntry.places
  rw [placing]
  rfl

/-- The entry gives up a segment in a staging buffer. -/
theorem giveUp_staging {s : State} {e : Entry} {u : SubscribeEntry} {pl : Placing} {k : BufferId} (table : s.tableOk)
    (mem : e ∈ s.table) (role : e.role = .subscribe u) (placing : u.placing = some pl) (source : pl.source = .staging k) :
    GaveUp s (s.giveUp e.index) e u { u with placing := none } := by
  have there := table.entryAt mem
  have left := (AtEntry.refl there).modifySubscribe role fun u => { u with placing := none }
  obtain ⟨line, freed, same, -, done⟩ := freeBufferIfDone_line s
    (s.modifySubscribe e.index fun u => { u with placing := none }) e k _ _ table.indexes rfl rfl left.indexes left.entry rfl
    rfl fun g hm hi => ⟨g, left.others g hm hi, rfl, rfl⟩
  have gives : s.giveUp e.index = { s.modifySubscribe e.index fun u => { u with placing := none } with line := line } := by
    unfold State.giveUp
    rw [subscribeAt_of_entry there role, Option.bind_some, placing]
    dsimp only
    rw [source]
    exact freed
  have here (j : BufferId) : u.places (.staging j) = true ↔ j = k := by
    rw [places_some placing, source, beq_iff_eq, SegmentSource.staging.injEq]
    exact eq_comm
  have elsewhere (c : Nat) : u.places (.cell c) = false := by
    rw [places_some placing, source]
    rfl
  have frame := EngineFrame.giveUp s e.index
  have ok := tableOk_of_keys table frame.keys frame.serial
  rw [gives] at ok ⊢
  refine ⟨⟨rfl, fun j hj idle alone => ?_, fun j hj => same j ?_, fun c hc => ?_, fun _ => rfl⟩, ok, left.entry, ?_, rfl,
    id, fun _ => rfl, fun _ c _ hc => ?_⟩
  · obtain rfl := (here j).1 hj
    exact done idle alone
  · by_cases other : j = k
    · refine .inr (hj.elim (fun no => ?_) (other ▸ id))
      rw [(here j).2 other] at no
      exact nomatch no
    · exact .inl other
  · rw [elsewhere] at hc
    exact nomatch hc
  · rw [filter_unplaced elsewhere]
  · rw [elsewhere] at hc
    exact nomatch hc

/-- The entry gives up a segment in a cell. -/
theorem giveUp_cell {s : State} {e : Entry} {u : SubscribeEntry} {pl : Placing} {c : Nat} (table : s.tableOk)
    (mem : e ∈ s.table) (role : e.role = .subscribe u) (placing : u.placing = some pl) (source : pl.source = .cell c) :
    ∃ v, GaveUp s (s.giveUp e.index) e u v := by
  have there := table.entryAt mem
  have marked := ((AtEntry.refl there).modifySubscribe role fun u => { u with placing := none }).modifySubscribe rfl
    (·.markWritten c)
  have gives : s.giveUp e.index = ((s.modifySubscribe e.index fun u => { u with placing := none }).modifySubscribe e.index
      (·.markWritten c)).releaseIfWritten e.index c := by
    unfold State.giveUp
    rw [subscribeAt_of_entry there role, Option.bind_some, placing]
    dsimp only
    rw [source]
  obtain ⟨entry, -, -, -, line, released⟩ := marked.releaseIfWritten rfl c
    (busy := s.port.outstanding (Request.writesFrom (.cell c))) rfl
  rw [← gives] at entry line released
  have here (d : Nat) : u.places (.cell d) = (d == c) := by
    rw [places_some placing, source]
    exact source_cell_beq c d
  have frame := EngineFrame.giveUp s e.index
  have nowhere (k : BufferId) : u.places (.staging k) = false := by
    rw [places_some placing, source]
    rfl
  have shape : s.giveUp e.index =
      { s with table := (s.giveUp e.index).table, line := (s.giveUp e.index).line, pool := (s.giveUp e.index).pool } ∧
      (s.giveUp e.index).pool.waiting ⊆ s.pool.waiting := by
    rw [gives, State.releaseIfWritten]
    split
    · exact ⟨rfl, fun _ h => h⟩
    · split
      · have freed := Released.releaseCell (((s.modifySubscribe e.index fun u => { u with placing := none }).modifySubscribe
          e.index (·.markWritten c)).modifySubscribe e.index fun u =>
            { u with written := u.written.filter (·.cell != c) }) c
        refine ⟨?_, freed.waiting⟩
        conv => lhs; rw [freed.shape]
        rw [(CellFrame.releaseCell _ c).line]
        rfl
      · exact ⟨rfl, fun _ h => h⟩
  refine ⟨_, ⟨rfl, fun k hk => ?_, fun k _ => by rw [line], fun d hd => ?_, fun none => ?_⟩,
    tableOk_of_keys table frame.keys frame.serial, entry, ?_, shape.1, fun idle => ?_, fun none => ?_,
      fun idle d mem hd quiet => ?_⟩
  · rw [nowhere] at hk
    exact nomatch hk
  · have same : d = c := beq_iff_eq.1 ((here d).symm.trans hd)
    subst same
    show (if s.port.outstanding (Request.writesFrom (.cell d)) = true then
        u.written ++ u.waiting.filter fun a : ReorderCell => a.cell == d
      else (u.written ++ u.waiting.filter fun a : ReorderCell => a.cell == d).filter fun a : ReorderCell => a.cell != d) = _
    split
    · rfl
    · rw [List.filter_append, List.filter_filter]
      have nothing : (u.waiting.filter fun a => a.cell != d && a.cell == d) = [] :=
        List.filter_eq_nil_iff.2 fun a _ h => by
          obtain ⟨ne, eq⟩ := Bool.and_eq_true _ _ ▸ h
          exact bne_iff_ne.1 ne (beq_iff_eq.1 eq)
      rw [nothing, List.append_nil]
  · have := none c
    rw [here, beq_self_eq_true] at this
    exact nomatch this
  · simp only [here]
    rfl
  · exact List.eq_nil_of_subset_nil (idle ▸ shape.2)
  · have := none c
    rw [here, beq_self_eq_true] at this
    exact nomatch this
  · have same : d.cell = c := beq_iff_eq.1 ((here d.cell).symm.trans hd)
    rw [same] at quiet ⊢
    refine released (List.any_eq_true.2 ⟨d, List.mem_append_right _ (List.mem_filter.2 ⟨mem, ?_⟩), ?_⟩) quiet idle <;>
      exact beq_iff_eq.2 same

theorem giveUp_none {s : State} {i : Nat} {u : SubscribeEntry} (there : s.subscribeAt i = some u)
    (placing : u.placing = none) : s.giveUp i = s := by
  unfold State.giveUp
  rw [there, Option.bind_some, placing]

/-- Whatever a subscribe entry was placing, it is given up as `GaveUp` says. -/
theorem giveUp_gaveUp {s : State} {e : Entry} {u : SubscribeEntry} (table : s.tableOk) (mem : e ∈ s.table)
    (role : e.role = .subscribe u) : ∃ v, GaveUp s (s.giveUp e.index) e u v := by
  cases placing : u.placing with
  | none =>
    rw [giveUp_none (subscribeAt_of_entry (table.entryAt mem) role) placing]
    exact ⟨u, GaveUp.none table mem role placing⟩
  | some pl =>
    cases source : pl.source with
    | staging k => exact ⟨_, giveUp_staging table mem role placing source⟩
    | cell c => exact giveUp_cell table mem role placing source

/-! ### Closing the open block (R117) -/

theorem closeBlock_none {s : State} {e : Entry} {u : SubscribeEntry} (there : s.entryAt e.index = some e)
    (role : e.role = .subscribe u) (block : u.block = none) (status : BlockStatus) :
    s.closeBlock e.index status = s := by
  unfold State.closeBlock
  rw [there]
  dsimp only
  rw [role]
  split
  · next h _ =>
    obtain rfl := Role.subscribe.inj h
    rw [block]
  · rfl

/-- The closing write-back of an open block into the descriptor at an address. -/
def SubscribeEntry.closingWrite (u : SubscribeEntry) (i : Nat) (a : Word) (status : BlockStatus) (b : OpenBlock) : Request :=
  .rxWriteBack i
    { descriptor := a, used := u.writeOffset, start := u.firstOfBlock, endFlag := true, status := status
      sequence := u.descriptorSequence.getD b.sequence, closes := some b }

/-- The fields of an entry whose block has closed: the next descriptor is fresh. -/
def SubscribeEntry.blockClosed (u : SubscribeEntry) : SubscribeEntry :=
  { u with block := none, writeOffset := 0, firstOfBlock := false, descriptorSequence := none }

/-- The chain after a current descriptor is finished: a HELD look-ahead is current, and its link followed. -/
def Chain.finished (ch : Chain) (f : Fence) : Chain :=
  match ch.lookAhead with
  | .held h r => { ch with current := .held h r, lookAhead := f.lookAheadFor r.link }
  | _ => { ch with current := .none }

/-- The reads that go with it. -/
def Chain.finishReads (ch : Chain) (f : Fence) (i : Nat) : List Request :=
  match ch.lookAhead with
  | .held _ r => f.linkReads i r.link
  | _ => []

theorem Chain.finished_held {ch : Chain} {h : Word} {r : Descriptor} (look : ch.lookAhead = .held h r) (f : Fence)
    (i : Nat) : ch.finished f = { ch with current := .held h r, lookAhead := f.lookAheadFor r.link } ∧
      ch.finishReads f i = f.linkReads i r.link := by
  unfold Chain.finished Chain.finishReads
  rw [look]
  exact ⟨rfl, rfl⟩

theorem Chain.finished_other {ch : Chain} (other : ∀ h r, ch.lookAhead ≠ .held h r) (f : Fence) (i : Nat) :
    ch.finished f = { ch with current := .none } ∧ ch.finishReads f i = [] := by
  unfold Chain.finished Chain.finishReads
  split
  · next h r look => exact absurd look (other h r)
  · exact ⟨rfl, rfl⟩

/-- An open block closes, whatever the look-ahead. -/
theorem AtEntry.closesBlock {s t : State} {i : Nat} {f : Entry} {l : List Request} {u : SubscribeEntry} {a : Word}
    {d : Descriptor} {b : OpenBlock} (h : AtEntry s t i f l) (role : f.role = .subscribe u) (status : BlockStatus)
    (current : f.chain.current = .held a d) (block : u.block = some b) :
    AtEntry s (t.closeBlock i status) i
      { f with role := .subscribe u.blockClosed, chain := f.chain.finished s.fence }
      (l ++ u.closingWrite i a status b :: f.chain.finishReads s.fence i) := by
  by_cases held : ∃ x r, f.chain.lookAhead = .held x r
  · obtain ⟨x, r, look⟩ := held
    obtain ⟨chain, reads⟩ := Chain.finished_held look s.fence i
    have asked := ((h.request (u.closingWrite i a status b)).modifySubscribe role fun u => { u with block := none })
    have fresh := (asked.modifySubscribe rfl SubscribeEntry.freshDescriptor).makeCurrent rfl x r
    have closes : t.closeBlock i status = (((t.request .first (u.closingWrite i a status b)).modifySubscribe i fun u =>
        { u with block := none }).modifySubscribe i SubscribeEntry.freshDescriptor).makeCurrent i x r := by
      unfold State.closeBlock
      rw [h.entry]
      dsimp only
      rw [role, current]
      dsimp only
      rw [block]
      dsimp only
      unfold State.finishDescriptor
      dsimp only
      have seen := asked.entry
      unfold SubscribeEntry.closingWrite at seen
      rw [seen, Option.map_some]
      dsimp only
      rw [look]
      rfl
    rw [closes, chain, reads, ← List.singleton_append, ← List.append_assoc]
    exact fresh
  · have other : ∀ x r, f.chain.lookAhead ≠ .held x r := fun x r look => held ⟨x, r, look⟩
    obtain ⟨chain, reads⟩ := Chain.finished_other other s.fence i
    rw [chain, reads]
    exact h.closeBlock role status current block other

end Machine
end Sys2Proof
end

section
/-! Loss of the sequences from the expected one, and the draining that follows (R114, R117, R126, R129). -/

namespace Sys2Proof
namespace Machine

/-! ### A piece, at whatever write offset -/

/-- The bytes of a segment that go into the current descriptor now. -/
def SubscribeEntry.pieceLength (u : SubscribeEntry) (d : Descriptor) (pl : Placing) : Nat :=
  min (pl.length - pl.placed) (d.length - u.writeOffset)

/-- The write of that piece. -/
def SubscribeEntry.pieceWrite (u : SubscribeEntry) (i : Nat) (a : Word) (d : Descriptor) (pl : Placing) : Request :=
  .rxPayload i pl.source a (BitVec.ofNat 32 (d.buffer.toNat + u.writeOffset)) pl.placed (u.pieceLength d pl)

/-- The block once a piece is placed: it goes on, or opens with the segment. -/
def SubscribeEntry.blockWith (u : SubscribeEntry) (a : Word) (pl : Placing) (n : Nat) : OpenBlock :=
  match u.block with
  | some b => { b with bytes := b.bytes + n }
  | none => ⟨a, pl.sequence, n, pl.sender⟩

/-- The fields of an entry that has placed a piece. -/
def SubscribeEntry.withPiece (u : SubscribeEntry) (a : Word) (d : Descriptor) (pl : Placing) : SubscribeEntry :=
  { u with
    placing := some { pl with placed := pl.placed + u.pieceLength d pl }
    block := some (u.blockWith a pl (u.pieceLength d pl))
    firstOfBlock := u.firstOfBlock || u.block.isNone
    descriptorSequence := some (u.descriptorSequence.getD pl.sequence)
    writeOffset := u.writeOffset + u.pieceLength d pl
    starved := false }

theorem AtEntry.placesPiece {s t : State} {i : Nat} {f : Entry} {l : List Request} {u : SubscribeEntry}
    (h : AtEntry s t i f l) (role : f.role = .subscribe u) (a : Word) (d : Descriptor) (pl : Placing)
    (inside : s.fence.contains (d.buffer.toNat + u.writeOffset) (u.pieceLength d pl) = true) :
    AtEntry s (t.placePiece i a d u pl) i { f with role := .subscribe (u.withPiece a d pl) }
      (l ++ [u.pieceWrite i a d pl]) := by
  have piece : t.placePiece i a d u pl =
      (t.request .first (u.pieceWrite i a d pl)).modifySubscribe i fun v =>
        { v with
          placing := some { pl with placed := pl.placed + u.pieceLength d pl }
          block := some (u.blockWith a pl (u.pieceLength d pl))
          firstOfBlock := u.firstOfBlock || u.block.isNone
          descriptorSequence := some (u.descriptorSequence.getD pl.sequence)
          writeOffset := u.writeOffset + u.pieceLength d pl
          starved := false } := if_pos (by rw [h.fence]; exact inside)
  rw [piece]
  exact (h.request _).modifySubscribe role _

theorem placePiece_outside {s t : State} {i : Nat} {f : Entry} {l : List Request} {u : SubscribeEntry}
    (h : AtEntry s t i f l) (a : Word) (d : Descriptor) (pl : Placing)
    (outside : s.fence.contains (d.buffer.toNat + u.writeOffset) (u.pieceLength d pl) = false) :
    t.placePiece i a d u pl = t.faultEntry i .fence (u.pieceLength d pl) a :=
  if_neg (by
    show ¬t.fence.contains (d.buffer.toNat + u.writeOffset) (u.pieceLength d pl) = true
    rw [h.fence, outside]
    exact Bool.false_ne_true)

/-! ### What the settling of the repair state leaves -/

theorem settleRepair_shape (v : SubscribeEntry) : v.settleRepair = { v with
    repair := v.settleRepair.repair, repairTimer := v.settleRepair.repairTimer
    repairMark := v.settleRepair.repairMark, attempts := v.settleRepair.attempts
    requested := v.settleRepair.requested } := by
  unfold SubscribeEntry.settleRepair
  split
  · rfl
  · split <;> rfl

theorem settleRepair_noGap {v : SubscribeEntry} (noGap : v.highestSeen = none) : v.settleRepair = v.repairIdle := by
  unfold SubscribeEntry.settleRepair
  rw [noGap]
  rfl

theorem settleRepair_gap {v : SubscribeEntry} (gap : v.highestSeen ≠ none) :
    (v.repair = .idle → v.settleRepair.repair = .idle) ∧
    (v.repair = .waiting ∨ v.repair = .due → v.settleRepair.repair = .waiting ∧
      v.settleRepair.repairTimer = some 2048 ∧ v.settleRepair.repairMark = false ∧
      v.settleRepair.attempts = v.attempts) ∧
    (v.repair = .requested → v.settleRepair.repair = .requested ∧ v.settleRepair.repairTimer = some 8192 ∧
      v.settleRepair.attempts = 0 ∧ v.settleRepair.requested = v.requested) := by
  unfold SubscribeEntry.settleRepair
  rw [if_neg (by rw [Option.isNone_iff_eq_none]; exact gap)]
  cases repair : v.repair with
  | idle => exact ⟨fun _ => repair, nofun, nofun⟩
  | waiting => exact ⟨nofun, fun _ => ⟨rfl, rfl, rfl, rfl⟩, nofun⟩
  | due => exact ⟨nofun, fun _ => ⟨rfl, rfl, rfl, rfl⟩, nofun⟩
  | requested => exact ⟨nofun, nofun, fun _ => ⟨rfl, rfl, rfl, rfl⟩⟩

/-! ### The loss -/

/-- The fields after the sequences from `x` on are lost. -/
def SubscribeEntry.past (v : SubscribeEntry) (x : Seq) (n : Nat) : SubscribeEntry :=
  { v.moveExpected (x + BitVec.ofNat 12 n) with
    starved := false, waiting := v.waiting.filter fun c => !decide (forwardDistance x c.sequence < n) }

/-- The waiting segments among those that are lost. -/
def SubscribeEntry.lostCells (v : SubscribeEntry) (x : Seq) (n : Nat) : List Nat :=
  (v.waiting.filter fun c => decide (forwardDistance x c.sequence < n)).map ReorderCell.cell

/-- The state once the waiting segments in the range have left, and their cells are released. -/
def State.cutRange (s : State) (i : Nat) (x : Seq) (n : Nat) (cells : List Nat) : State :=
  (s.modifySubscribe i fun v =>
    { v with waiting := v.waiting.filter fun c => !decide (forwardDistance x c.sequence < n) }).releaseCells cells

/-- The state once expected has moved past the range, the event has told it, and the repair state is settled. -/
def State.passRange (s : State) (i : Nat) (x : Seq) (n : Nat) (ev : Event) : State :=
  ((s.modifySubscribe i fun v => { v.moveExpected (seqAfter x n) with starved := false }).emit ev).modifySubscribe i
    SubscribeEntry.settleRepair

/-- The state after a loss, before draining. -/
def State.lost (s : State) (e : Entry) (u v : SubscribeEntry) (x : Seq) (n : Nat) (cause : LossCause) : State :=
  (((s.giveUp e.index).closeBlock e.index .lost).cutRange e.index x n (v.lostCells x n)).passRange e.index x n
    (lostEvent e u cause x n)

theorem lose_eq {s : State} {e : Entry} {u v : SubscribeEntry} {x : Seq} {n : Nat} (there : s.entryAt e.index = some e)
    (role : e.role = .subscribe u) (expected : u.expected = some x) (pos : n ≠ 0)
    (closed : ((s.giveUp e.index).closeBlock e.index .lost).subscribeAt e.index = some v) (cause : LossCause) :
    s.lose e.index n cause = (s.lost e u v x n cause).placeOn e.index := by
  unfold State.lose
  rw [there]
  dsimp only
  rw [role]
  dsimp only
  rw [expected]
  dsimp only
  rw [if_neg pos, closed]
  rfl

/-- What closing the block after giving up leaves, with a block open or not. -/
theorem giveUp_closeBlock {s t : State} {e : Entry} {u v : SubscribeEntry} (gave : GaveUp s t e u v)
    (held : u.block.isSome = true → ∃ a d, e.chain.current = .held a d) (status : BlockStatus) :
    ∃ f l, AtEntry t (t.closeBlock e.index status) e.index f l ∧ f.stream = e.stream ∧
      (u.block = none → f.role = .subscribe v ∧ f.chain = e.chain ∧ l = []) ∧
      ∀ b a d, u.block = some b → e.chain.current = .held a d → f.role = .subscribe v.blockClosed ∧
        f.chain = e.chain.finished s.fence ∧
        l = u.closingWrite e.index a status b :: e.chain.finishReads s.fence e.index := by
  have same : v.block = u.block := by rw [gave.fields]
  have fence : t.fence = s.fence := by rw [gave.shape]
  cases block : u.block with
  | none =>
    have closes : t.closeBlock e.index status = t :=
      closeBlock_none (e := { e with role := .subscribe v }) gave.entry rfl (same.trans block) status
    rw [closes]
    exact ⟨_, [], AtEntry.refl gave.entry, rfl, fun _ => ⟨rfl, rfl, rfl⟩, nofun⟩
  | some b =>
    obtain ⟨a, d, current⟩ := held (by rw [block]; rfl)
    have closes := (AtEntry.refl gave.entry).closesBlock (d := d) rfl status current (same.trans block)
    refine ⟨_, _, closes, rfl, nofun, fun b' a' d' block' current' => ?_⟩
    cases block'
    rw [current] at current'
    cases current'
    have write : v.closingWrite e.index a status b = u.closingWrite e.index a status b := by rw [gave.fields]; rfl
    rw [write, fence]
    exact ⟨rfl, rfl, rfl⟩

/-- The sequences from the expected one are lost, nothing has been drained yet, and SEGMENTS_LOST has told it. -/
structure Lost (s w : State) (e : Entry) (u v : SubscribeEntry) (x : Seq) (n : Nat) (cause : LossCause) : Prop extends
    Loses s w e u v x n where
  table : w.tableOk
  there : w.subscribeAt e.index = some v
  publisher : v.publisher = u.publisher
  takes : v.takesFrames = u.takesFrames
  told : s.reports w [lostEvent e u cause x n]
  settles : s.lose e.index n cause = w.placeOn e.index

theorem cutRange_leaves {s t : State} {i : Nat} {f : Entry} {l : List Request} {v : SubscribeEntry} (h : AtEntry s t i f l)
    (role : f.role = .subscribe v) (table : t.tableOk) (x : Seq) (n : Nat) :
    (t.cutRange i x n (v.lostCells x n)).entryAt i = some { f with role := .subscribe { v with
      waiting := v.waiting.filter fun c => !decide (forwardDistance x c.sequence < n) } } ∧
    (t.cutRange i x n (v.lostCells x n)).tableOk ∧ (t.cutRange i x n (v.lostCells x n)).eventState = s.eventState ∧
    (t.cutRange i x n (v.lostCells x n)).fence = s.fence ∧ (t.cutRange i x n (v.lostCells x n)).line = s.line ∧
    (t.cutRange i x n (v.lostCells x n)).port.firstClass = s.port.firstClass ++ l ∧
    (s.pool.waiting = [] →
      (t.cutRange i x n (v.lostCells x n)).pool.free = s.pool.free ++ v.lostCells x n) := by
  have kept := h.modifySubscribe role fun v =>
    { v with waiting := v.waiting.filter fun c => !decide (forwardDistance x c.sequence < n) }
  have change := EngineFrame.modifySubscribe t i fun v =>
    { v with waiting := v.waiting.filter fun c => !decide (forwardDistance x c.sequence < n) }
  have ok := tableOk_of_keys table change.keys change.serial
  unfold State.cutRange
  generalize State.modifySubscribe _ _ _ = m at kept ok
  have released := Released.releaseCells m (v.lostCells x n)
  have frame := CellFrame.releaseCells m (v.lostCells x n)
  obtain ⟨events, fence⟩ := releaseCells_eventState (v.lostCells x n) m
  refine ⟨frame.subscribeEntry kept.entry rfl, ?_, events.trans kept.eventState, fence.trans kept.fence,
    frame.line.trans kept.line, ?_, fun idle => ?_⟩
  · exact tableOk_of_keys ok (released.keys ▸ List.Sublist.refl _) (by rw [released.shape])
  · rw [released.shape]
    exact congrArg HostPort.firstClass kept.port
  · rw [releaseCells_idle (by rw [kept.pool]; exact idle), kept.pool]

theorem passRange_leaves {r : State} {i : Nat} {f : Entry} {v : SubscribeEntry} (there : r.entryAt i = some f)
    (role : f.role = .subscribe v) (x : Seq) (n : Nat) (ev : Event) :
    (r.passRange i x n ev).entryAt i = some { f with
      role := .subscribe (SubscribeEntry.settleRepair { v.moveExpected (seqAfter x n) with starved := false }) } ∧
    (r.tableOk → (r.passRange i x n ev).tableOk) ∧ r.reports (r.passRange i x n ev) [ev] ∧
    (r.passRange i x n ev).pool = r.pool ∧ (r.passRange i x n ev).line = r.line ∧
    (r.passRange i x n ev).port.firstClass = r.port.firstClass := by
  have moved := (AtEntry.refl there).modifySubscribe role fun v => { v.moveExpected (seqAfter x n) with starved := false }
  have moves := EngineFrame.modifySubscribe r i fun v => { v.moveExpected (seqAfter x n) with starved := false }
  unfold State.passRange
  generalize State.modifySubscribe r _ _ = m at moved moves
  obtain ⟨unit, writes, lostCount, shape, -⟩ := emit_shape m ev
  have entry : (m.emit ev).entryAt i = some
      { f with role := .subscribe { v.moveExpected (seqAfter x n) with starved := false } } :=
    (congrArg (List.find? _) (emit_table m ev)).trans moved.entry
  have final := (AtEntry.refl entry).modifySubscribe rfl SubscribeEntry.settleRepair
  have frame := (moves.trans (EngineFrame.emit m ev)).trans
    (EngineFrame.modifySubscribe (m.emit ev) i SubscribeEntry.settleRepair)
  refine ⟨final.entry, fun table => tableOk_of_keys table frame.keys frame.serial,
    State.reports_congr moved.eventState moved.fence final.eventState (State.reports_emit m ev), ?_, ?_, ?_⟩
  · rw [final.pool, shape]
    exact moved.pool
  · rw [final.line, shape]
    exact moved.line
  · rw [final.port, shape, List.append_nil]
    show m.port.firstClass = _
    rw [moved.port, List.append_nil]

/-- The fields once the segment being placed is given up and the block is closed. -/
theorem giveUp_closeBlock_fields {s t : State} {e f : Entry} {u v : SubscribeEntry} {l : List Request}
    (gave : GaveUp s t e u v)
    (held : u.block.isSome = true → ∃ a d, e.chain.current = .held a d)
    (noBlock : u.block = none → f.role = .subscribe v ∧ f.chain = e.chain ∧ l = [])
    (withBlock : ∀ b a d, u.block = some b → e.chain.current = .held a d → f.role = .subscribe v.blockClosed ∧
      f.chain = e.chain.finished s.fence ∧
      l = u.closingWrite e.index a .lost b :: e.chain.finishReads s.fence e.index) :
    ∃ v₂, f.role = .subscribe v₂ ∧ v₂ = { v with
      block := none, writeOffset := v₂.writeOffset, firstOfBlock := v₂.firstOfBlock
      descriptorSequence := v₂.descriptorSequence } := by
  have same : v.block = u.block := by rw [gave.fields]
  cases block : u.block with
  | none => exact ⟨v, (noBlock block).1, by rw [← same.trans block]⟩
  | some b =>
    obtain ⟨a, d, current⟩ := held (by rw [block]; rfl)
    exact ⟨v.blockClosed, (withBlock b a d block current).1, rfl⟩

theorem lost_loses {s : State} {e : Entry} {u : SubscribeEntry} {x : Seq} {n : Nat} (table : s.tableOk) (mem : e ∈ s.table)
    (role : e.role = .subscribe u) (expected : u.expected = some x) (pos : n ≠ 0)
    (held : u.block.isSome = true → ∃ a d, e.chain.current = .held a d) (cause : LossCause) :
    ∃ w v, Lost s w e u v x n cause := by
  obtain ⟨v₁, gave⟩ := giveUp_gaveUp table mem role
  obtain ⟨f, l, closed, stream, noBlock, withBlock⟩ := giveUp_closeBlock gave held .lost
  obtain ⟨v₂, role₂, fields₂⟩ := giveUp_closeBlock_fields gave held noBlock withBlock
  have waiting₂ : v₂.waiting = u.waiting.filter fun c => !u.places (.cell c.cell) := by
    rw [fields₂]
    exact congrArg SubscribeEntry.waiting gave.fields
  have closes := EngineFrame.closeBlock (s.giveUp e.index) e.index .lost
  obtain ⟨entry₃, ok₃, events₃, fence₃, line₃, first₃, free₃⟩ :=
    cutRange_leaves closed role₂ (tableOk_of_keys gave.table closes.keys closes.serial) x n
  obtain ⟨entry, ok, told, pool, line, first⟩ := passRange_leaves entry₃ rfl x n (lostEvent e u cause x n)
  have settles := lose_eq (v := v₂) (table.entryAt mem) role expected pos (subscribeAt_of_entry closed.entry role₂) cause
  have shape := gave.shape
  rw [State.lost] at settles
  generalize State.cutRange _ _ _ _ _ = r at *
  generalize State.passRange _ _ _ _ _ = w at *
  have line : w.line = (s.giveUp e.index).line := line.trans line₃
  have first : w.port.firstClass = s.port.firstClass ++ l := by
    rw [first, first₃, shape]
  have told : s.reports w [lostEvent e u cause x n] :=
    State.reports_congr (events₃.trans (by rw [shape]; rfl)) (fence₃.trans (by rw [shape])) rfl told
  have fields := settleRepair_shape (v₂.past x n)
  have past : v₂.past x n = { u with
      placing := none, written := v₁.written, block := none, writeOffset := v₂.writeOffset
      firstOfBlock := v₂.firstOfBlock, descriptorSequence := v₂.descriptorSequence
      expected := some (x + BitVec.ofNat 12 n), partPlaced := 0, starved := false
      highestSeen := u.highestSeen.filter fun h => forwardDistance (x + BitVec.ofNat 12 n) h ≤ 2047
      waiting := v₂.waiting.filter fun c => !decide (forwardDistance x c.sequence < n) } := by
    rw [SubscribeEntry.past, fields₂, gave.fields]
    rfl
  refine ⟨w, (v₂.past x n).settleRepair, ⟨?_, ?_, ?_, ?_, ?_, ?_, ?_, ?_, ?_, ?_, ?_, ?_, ?_⟩, ok ok₃,
    subscribeAt_of_entry entry rfl, ?_, ?_, told, settles⟩
  · refine ⟨?_, fun k hk quiet alone => ?_, fun k hk => ?_, fun c hc => ?_, fun hc => ?_⟩
    · rw [fields, past]
    · rw [line]; exact gave.freed k hk quiet alone
    · rw [line]; exact gave.kept k hk
    · rw [fields, past]; exact gave.written c hc
    · rw [fields, past]; exact gave.others hc
  · rw [fields, past]
  · rw [fields, past]
  · rw [fields, past]
  · rw [fields, past]
  · rw [fields, past, waiting₂, List.filter_filter]
    refine List.filter_congr fun c _ => ?_
    rw [Bool.and_comm]
    simp only [← decide_not, Nat.not_lt]
  · intro idle unplaced
    rw [pool, free₃ (gave.idle idle), gave.unmoved unplaced, SubscribeEntry.lostCells, waiting₂, filter_unplaced unplaced]
  · intro idle c mem' placed quiet
    rw [pool, free₃ (gave.idle idle), gave.parked idle c mem' placed quiet, SubscribeEntry.lostCells, waiting₂,
      List.filter_filter,
      List.append_assoc, List.singleton_append]
    refine congrArg (fun l => s.pool.free ++ c.cell :: List.map ReorderCell.cell l) (List.filter_congr fun b _ => ?_)
    obtain ⟨pl, placing, source⟩ : ∃ pl, u.placing = some pl ∧ pl.source = .cell c.cell := by
      cases placing : u.placing with
      | none => rw [places_of_none placing] at placed; exact nomatch placed
      | some pl => exact ⟨pl, rfl, beq_iff_eq.1 ((places_some placing _).symm.trans placed)⟩
    rw [places_some placing, source, source_cell_beq, Bool.and_comm]
    rfl
  · rw [fields, past]
  · intro noGap
    have noGap' : (v₂.past x n).highestSeen = none := by rw [fields] at noGap; exact noGap
    rw [settleRepair_noGap noGap']
    exact ⟨rfl, rfl, rfl, rfl, rfl⟩
  · intro seen
    have seen' : (v₂.past x n).highestSeen ≠ none := by rw [fields] at seen; exact seen
    have gap := settleRepair_gap seen'
    rw [show (v₂.past x n).repair = u.repair by rw [past], show (v₂.past x n).attempts = u.attempts by rw [past],
      show (v₂.past x n).requested = u.requested by rw [past]] at gap
    exact gap
  · intro blockless
    obtain ⟨role', chain, -⟩ := noBlock blockless
    have same : v₂ = v₁ := Role.subscribe.inj (role₂.symm.trans role')
    refine ⟨?_, _, entry, rfl, chain⟩
    rw [fields, past, same, gave.fields]
  · intro b a d block current
    obtain ⟨role', chain, requests⟩ := withBlock b a d block current
    have same : v₂ = v₁.blockClosed := Role.subscribe.inj (role₂.symm.trans role')
    refine ⟨?_, ?_, _, entry, rfl, fun h r look => ?_, fun other => ?_⟩
    · rw [fields, past, same]
      rfl
    · rw [first, requests]
      exact List.mem_append_right _ List.mem_cons_self
    · show f.chain.current = _
      rw [chain, (Chain.finished_held look s.fence e.index).1]
    · show f.chain = _
      rw [chain, (Chain.finished_other other s.fence e.index).1]
  · rw [fields, past]
  · rw [fields, past]
    rfl

end Machine
end Sys2Proof
end

section
/-! One segment placed whole, and the draining of the reorder list (R114, R115, R129). -/

namespace Sys2Proof
namespace Machine

/-! ### The end of a segment's placing -/

/-- A segment with LAST ends its placing and closes its block OK, whatever the look-ahead. -/
theorem AtEntry.endsPlacingLast {s t : State} {i : Nat} {f : Entry} {l : List Request} {u : SubscribeEntry} {a : Word}
    {d : Descriptor} {b : OpenBlock} (h : AtEntry s t i f l) (role : f.role = .subscribe u) (pl : Placing) {r : Request}
    (asked : r ∈ l) (writes : Request.writesFrom pl.source r = true) (last : pl.last = true)
    (current : f.chain.current = .held a d) (block : u.block = some b) :
    AtEntry s (t.endPlacing i pl) i
      { f with role := .subscribe (u.segmentEnded pl.source).blockClosed.advance, chain := f.chain.finished s.fence }
      (l ++ u.closingWrite i a .ok b :: f.chain.finishReads s.fence i) := by
  obtain ⟨-, -, -, -, -, offset, block', first, sequence⟩ := u.segmentEnded_fields pl.source
  have ended := (h.modifySubscribe role fun u => u.segmentEnded pl.source).closesBlock rfl .ok current
    (block'.trans block)
  have write : (u.segmentEnded pl.source).closingWrite i a .ok b = u.closingWrite i a .ok b := by
    unfold SubscribeEntry.closingWrite
    rw [offset, first, sequence]
  rw [write] at ended
  have moved := ended.modifySubscribe rfl SubscribeEntry.advance
  rw [endPlacing_eq, if_pos last, moved.sourceWritten pl.source (List.mem_append_left _ asked) writes]
  exact moved

/-! ### A segment that fits -/

theorem pieceWrite_mem (l : List Request) (u : SubscribeEntry) (i : Nat) (a : Word) (d : Descriptor) (pl : Placing) :
    u.pieceWrite i a d pl ∈ l ++ [u.pieceWrite i a d pl] ∧
    Request.writesFrom pl.source (u.pieceWrite i a d pl) = true :=
  ⟨List.mem_append_right _ (List.mem_singleton.2 rfl), beq_self_eq_true _⟩

section
variable {s t : State} {i : Nat} {f : Entry} {l : List Request} {u : SubscribeEntry} {pl : Placing} {a : Word}
  {d : Descriptor} (h : AtEntry s t i f l) (role : f.role = .subscribe u) (takes : u.takesFrames = true)
  (placing : u.placing = some pl) (left : pl.placed < pl.length) (current : f.chain.current = .held a d)
  (opens : (u.block.isSome || pl.first) = true)
include h role takes placing left current opens

/-- A round places a piece of it. -/
theorem placeRounds_places (room : u.writeOffset < d.length)
    (inside : s.fence.contains (d.buffer.toNat + u.writeOffset) (u.pieceLength d pl) = true) (n : Nat) :
    ∃ t', placeRounds i (n + 1) t = placeRounds i n t' ∧
      AtEntry s t' i { f with role := .subscribe (u.withPiece a d pl) } (l ++ [u.pieceWrite i a d pl]) := by
  refine ⟨t.placePiece i a d u pl, ?_, h.placesPiece role a d pl inside⟩
  rw [placeRounds_piece t i f u pl a d n h.entry role takes placing left current room, if_pos opens]

variable (fits : u.writeOffset + (pl.length - pl.placed) ≤ d.length)
  (inside : s.fence.contains (d.buffer.toNat + u.writeOffset) (pl.length - pl.placed) = true)
include fits inside

/-- What of a segment fits is placed in one piece, and no byte is left. -/
theorem placeRounds_fits (n : Nat) :
    ∃ t', placeRounds i (n + 2) t = placeRounds i n (t'.endPlacing i { pl with placed := pl.length }) ∧
      AtEntry s t' i { f with role := .subscribe (u.withPiece a d pl) } (l ++ [u.pieceWrite i a d pl]) := by
  have piece : u.pieceLength d pl = pl.length - pl.placed := Nat.min_eq_left (by omega)
  obtain ⟨t', first, placed⟩ := placeRounds_places h role takes placing left current opens (by omega)
    (by rw [piece]; exact inside) (n + 1)
  have whole : pl.placed + u.pieceLength d pl = pl.length := by rw [piece]; omega
  have placing' : (u.withPiece a d pl).placing = some { pl with placed := pl.length } := by
    rw [SubscribeEntry.withPiece, whole]
  refine ⟨t', first.trans ?_, placed⟩
  exact placeRounds_end t' i _ (u.withPiece a d pl) { pl with placed := pl.length } n placed.entry rfl takes placing'
    (Nat.le_refl _)

/-- Without LAST the block stays open. -/
theorem placeRounds_inner (last : pl.last = false) (n : Nat) :
    ∃ t', placeRounds i (n + 2) t = placeRounds i n t' ∧
      AtEntry s t' i { f with role := .subscribe ((u.withPiece a d pl).segmentEnded pl.source).advance }
        (l ++ [u.pieceWrite i a d pl]) := by
  obtain ⟨t', rounds, placed⟩ := placeRounds_fits h role takes placing left current opens fits inside n
  obtain ⟨mem, writes⟩ := pieceWrite_mem l u i a d pl
  exact ⟨_, rounds, placed.endPlacing rfl { pl with placed := pl.length } mem writes last⟩

/-- With LAST it closes OK. -/
theorem placeRounds_last (last : pl.last = true) (n : Nat) :
    ∃ t', placeRounds i (n + 2) t = placeRounds i n t' ∧
      AtEntry s t' i
        { f with role := .subscribe ((u.withPiece a d pl).segmentEnded pl.source).blockClosed.advance
                 chain := f.chain.finished s.fence }
        (l ++ u.pieceWrite i a d pl :: (u.withPiece a d pl).closingWrite i a .ok (u.blockWith a pl (u.pieceLength d pl)) ::
          f.chain.finishReads s.fence i) := by
  obtain ⟨t', rounds, placed⟩ := placeRounds_fits h role takes placing left current opens fits inside n
  obtain ⟨mem, writes⟩ := pieceWrite_mem l u i a d pl
  have ended := placed.endsPlacingLast rfl { pl with placed := pl.length } mem writes last current rfl
  rw [List.append_assoc, List.singleton_append] at ended
  exact ⟨_, rounds, ended⟩

end

/-! ### Draining (R114) -/

/-- The segment of a waiting cell, as one that is placed. -/
def ReorderCell.asPlacing (c : ReorderCell) : Placing :=
  { source := .cell c.cell, sequence := c.sequence, first := c.first, last := c.last, sender := c.sender
    length := c.bytes.length, placed := 0 }

/-- A round where the first waiting segment stands at the expected sequence. -/
theorem placeRounds_waiting {t : State} {i : Nat} {f : Entry} {u : SubscribeEntry} {c : ReorderCell}
    {rest : List ReorderCell} (there : t.entryAt i = some f) (role : f.role = .subscribe u) (takes : u.takesFrames = true)
    (placing : u.placing = none) (starved : u.starved = false) (waiting : u.waiting = c :: rest)
    (expected : u.expected = some c.sequence) (n : Nat) :
    placeRounds i (n + 1) t = placeRounds i n
      (if (u.block.isSome || c.first) = true then t.startPlacing i u c.asPlacing
      else ((t.modifySubscribe i fun v => SubscribeEntry.advance { v with waiting := v.waiting.drop 1 }).bump
        .orphanSegments).releaseCell c.cell) := by
  conv => lhs; unfold placeRounds
  rw [there]
  dsimp only
  rw [role]
  dsimp only
  rw [takes, if_neg (by decide), placing]
  dsimp only
  rw [starved, if_neg Bool.false_ne_true, waiting]
  dsimp only
  rw [if_pos expected]
  split
  · rfl
  · rfl

/-- A segment without FIRST, or with FIRST and no open block, starts its placing at part placed. -/
theorem startPlacing_eq {t : State} {i : Nat} {f : Entry} {u : SubscribeEntry} (there : t.entryAt i = some f)
    (role : f.role = .subscribe u) {pl : Placing} (opens : pl.first = true → u.block = none) :
    t.startPlacing i u pl = t.modifySubscribe i fun v => { v with placing := some { pl with placed := u.partPlaced } } := by
  have closes : t.closeForFirst i pl.first = t := by
    unfold State.closeForFirst
    split
    · next first =>
      have index : f.index = i := entryAt_index there
      subst index
      exact closeBlock_none there role (opens first) .lost
    · rfl
  rw [State.startPlacing, closes]

theorem AtEntry.startsPlacing {s t : State} {i : Nat} {f : Entry} {l : List Request} {u : SubscribeEntry}
    (h : AtEntry s t i f l) (role : f.role = .subscribe u) {pl : Placing} (opens : pl.first = true → u.block = none) :
    AtEntry s (t.startPlacing i u pl) i
      { f with role := .subscribe { u with placing := some { pl with placed := u.partPlaced } } } l := by
  rw [startPlacing_eq h.entry role opens]
  exact h.modifySubscribe role _

theorem filter_cell_self {c : ReorderCell} {rest : List ReorderCell} (apart : ∀ b ∈ rest, b.cell ≠ c.cell) :
    (c :: rest).filter (fun b => SegmentSource.cell c.cell == .cell b.cell) = [c] ∧
      (c :: rest).filter (fun b => SegmentSource.cell c.cell != .cell b.cell) = rest := by
  have here : (SegmentSource.cell c.cell == .cell c.cell) = true := beq_self_eq_true _
  have other {b : ReorderCell} (mem : b ∈ rest) : (SegmentSource.cell c.cell == .cell b.cell) = false := by
    rw [source_cell_beq]
    exact beq_eq_false_iff_ne.2 (apart b mem)
  constructor
  · rw [List.filter_cons_of_pos (p := fun b : ReorderCell => SegmentSource.cell c.cell == .cell b.cell) here,
      List.filter_eq_nil_iff.2 fun b mem => by rw [other mem]; exact Bool.false_ne_true]
  · rw [List.filter_cons_of_neg (p := fun b : ReorderCell => SegmentSource.cell c.cell != .cell b.cell)
      (by rw [bne, here]; exact Bool.false_ne_true)]
    exact List.filter_eq_self.2 fun b mem => by rw [bne, other mem]; rfl

/-- Without FIRST and without a block the first waiting segment is an orphan; draining stops behind it. -/
theorem placeOn_orphan {w : State} {e f : Entry} {v : SubscribeEntry} {c : ReorderCell} {rest : List ReorderCell} {y : Seq}
    (there : w.entryAt e.index = some f) (role : f.role = .subscribe v) (takes : v.takesFrames = true)
    (placing : v.placing = none) (starved : v.starved = false) (expected : v.expected = some y) (block : v.block = none)
    (waiting : v.waiting = c :: rest) (here : c.sequence = y) (inner : c.first = false)
    (stops : ∀ d more, rest = d :: more → d.sequence ≠ y + 1) :
    w.reports (w.placeOn e.index) [] ∧
    (w.placeOn e.index).counters = { w.counters with orphanSegments := w.counters.orphanSegments + 1 } ∧
    (w.pool.waiting = [] → (w.placeOn e.index).pool.free = w.pool.free ++ [c.cell]) ∧
    ∃ r, (w.placeOn e.index).subscribeAt e.index = some r ∧ r.expected = some (y + 1) ∧ r.waiting = rest ∧
      r.written = v.written ∧ r.placing = none ∧ r.block = none := by
  have moved := (AtEntry.refl there).modifySubscribe role fun v =>
    SubscribeEntry.advance { v with waiting := v.waiting.drop 1 }
  generalize moves : (w.modifySubscribe e.index fun v => SubscribeEntry.advance { v with waiting := v.waiting.drop 1 }) = m
    at moved
  obtain ⟨exp, -, plac, starv, wait, writ, -, blk, -, -⟩ :=
    SubscribeEntry.advance_fields { v with waiting := v.waiting.drop 1 } y expected
  have frame := CellFrame.releaseCell (m.bump .orphanSegments) c.cell
  have entry := frame.subscribeEntry (show (m.bump .orphanSegments).entryAt e.index = _ from moved.entry) rfl
  have dropped : v.waiting.drop 1 = rest := by rw [waiting]; rfl
  have settled : w.placeOn e.index = (m.bump .orphanSegments).releaseCell c.cell := by
    have round := placeRounds_waiting there role takes placing starved waiting (by rw [here]; exact expected) 63
    rw [if_neg (by rw [block, inner]; exact Bool.false_ne_true), moves] at round
    refine round.trans (placeRounds_stop _ e.index _ _ (y + 1) entry rfl (plac.trans placing) (starv.trans starved) exp
      (fun d more same => stops d more ?_) 63)
    rw [← dropped, ← same]
    exact wait.symm
  have idle : w.pool.waiting = [] → (m.bump .orphanSegments).pool.waiting = [] := fun idle => by
    show m.pool.waiting = []
    rw [moved.pool, idle]
  rw [settled]
  refine ⟨State.reports_nil ?_, ?_, fun none => ?_, _, subscribeAt_of_entry entry rfl, exp, wait.trans dropped, writ,
    plac.trans placing, blk.trans block⟩
  · rw [(releaseCell_eventState _ _).1]
    exact moved.eventState
  · rw [releaseCell_counters]
    show m.counters.add .orphanSegments 1 = _
    rw [moved.counters]
    rfl
  · rw [releaseCell_free _ _ (idle none)]
    show m.pool.free ++ _ = _
    rw [moved.pool]

/-- With FIRST it opens a block, where it fits in the current descriptor; draining stops behind it. -/
theorem placeOn_opens {w : State} {e f : Entry} {v : SubscribeEntry} {c : ReorderCell} {rest : List ReorderCell} {y : Seq}
    {a : Word} {d : Descriptor} (there : w.entryAt e.index = some f) (role : f.role = .subscribe v)
    (takes : v.takesFrames = true) (placing : v.placing = none) (starved : v.starved = false) (part : v.partPlaced = 0)
    (expected : v.expected = some y) (block : v.block = none) (waiting : v.waiting = c :: rest) (here : c.sequence = y)
    (first : c.first = true) (inner : c.last = false) (stops : ∀ b more, rest = b :: more → b.sequence ≠ y + 1)
    (apart : ∀ b ∈ rest, b.cell ≠ c.cell) (current : f.chain.current = .held a d) (some : 1 ≤ c.bytes.length)
    (fits : v.writeOffset + c.bytes.length ≤ d.length)
    (inside : w.fence.contains (d.buffer.toNat + v.writeOffset) c.bytes.length = true) :
    ∃ r, AtEntry w (w.placeOn e.index) e.index { f with role := .subscribe r }
        [.rxPayload e.index (.cell c.cell) a (BitVec.ofNat 32 (d.buffer.toNat + v.writeOffset)) 0 c.bytes.length] ∧
      r.expected = .some (y + 1) ∧ r.waiting = rest ∧ r.written = v.written ++ [c] ∧ r.placing = none ∧
      r.writeOffset = v.writeOffset + c.bytes.length ∧ r.block = .some ⟨a, c.sequence, c.bytes.length, c.sender⟩ := by
  have started := (AtEntry.refl there).startsPlacing role (pl := c.asPlacing) fun _ => block
  have round := placeRounds_waiting there role takes placing starved waiting (by rw [here]; exact expected) 63
  rw [if_pos (by rw [first, Bool.or_true])] at round
  have same : ({ c.asPlacing with placed := v.partPlaced } : Placing) = c.asPlacing := by rw [part]; rfl
  rw [same] at started
  generalize w.startPlacing e.index v c.asPlacing = t₁ at started round
  let u : SubscribeEntry := { v with placing := .some c.asPlacing }
  have piece : u.pieceLength d c.asPlacing = c.bytes.length := Nat.min_eq_left (by
    show c.bytes.length - 0 ≤ d.length - v.writeOffset
    omega)
  obtain ⟨t₂, rounds, ended⟩ := placeRounds_inner (u := u) (pl := c.asPlacing) started rfl takes rfl some current
    (by show (v.block.isSome || c.first) = true
        rw [first, Bool.or_true]) fits inside inner 61
  obtain ⟨exp, plac, starv, wait, writ, offs, blk, -, -⟩ :=
    (u.withPiece a d c.asPlacing).segmentEnded_fields c.asPlacing.source
  obtain ⟨exp', -, plac', starv', wait', writ', offs', blk', -, -⟩ :=
    ((u.withPiece a d c.asPlacing).segmentEnded c.asPlacing.source).advance_fields y (exp.trans expected)
  obtain ⟨own, others⟩ := filter_cell_self apart
  have waits : ((u.withPiece a d c.asPlacing).segmentEnded c.asPlacing.source).advance.waiting = rest := by
    rw [wait', wait]
    show v.waiting.filter _ = rest
    rw [waiting]
    exact others
  have settled : w.placeOn e.index = t₂ := round.trans (rounds.trans (placeRounds_stop t₂ e.index _ _ (y + 1) ended.entry rfl
    (plac'.trans plac) (starv'.trans starv) exp' (fun b more same => stops b more (waits.symm.trans same)) 61))
  have write : u.pieceWrite e.index a d c.asPlacing =
      .rxPayload e.index (.cell c.cell) a (BitVec.ofNat 32 (d.buffer.toNat + v.writeOffset)) 0 c.bytes.length := by
    unfold SubscribeEntry.pieceWrite
    rw [piece]
    rfl
  rw [settled]
  rw [write] at ended
  refine ⟨_, ended, exp', waits, ?_, plac'.trans plac, ?_, ?_⟩
  · rw [writ', writ]
    show v.written ++ v.waiting.filter _ = _
    rw [waiting]
    exact congrArg (v.written ++ ·) own
  · rw [offs', offs]
    show v.writeOffset + u.pieceLength d c.asPlacing = _
    rw [piece]
  · rw [blk', blk]
    show Option.some (u.blockWith a c.asPlacing (u.pieceLength d c.asPlacing)) = _
    rw [piece, SubscribeEntry.blockWith]
    show Option.some (match v.block with
      | .some b => { b with bytes := b.bytes + c.bytes.length }
      | .none => (⟨a, c.sequence, c.bytes.length, c.sender⟩ : OpenBlock)) = _
    rw [block]

/-- Placing on at an entry whose expected sequence has moved drains its reorder list. -/
theorem placeOn_drains {w : State} {e : Entry} {v : SubscribeEntry} {y : Seq}
    (there : w.subscribeAt e.index = some v) (takes : v.takesFrames = true) (placing : v.placing = none)
    (starved : v.starved = false) (part : v.partPlaced = 0) (expected : v.expected = some y) (block : v.block = none) :
    Drains w (w.placeOn e.index) e v y := by
  obtain ⟨f, entry, role⟩ := subscribeAt_entry there
  refine ⟨rfl, fun stops => placeRounds_stop w e.index f v y entry role placing starved expected stops 64,
    fun c rest waiting here inner stops => placeOn_orphan entry role takes placing starved expected block waiting here
      inner stops, fun c rest g a d waiting here first inner stops apart entry' current some fits inside => ?_⟩
  obtain rfl : f = g := Option.some.inj (entry.symm.trans entry')
  obtain ⟨r, placed, fields⟩ := placeOn_opens entry role takes placing starved part expected block waiting here first inner
    stops apart current some fits inside
  exact ⟨State.reports_nil placed.eventState, placed.counters, placed.pool, placed.port, r,
    subscribeAt_of_entry placed.entry rfl, fields⟩

end Machine
end Sys2Proof
end

section
/-! Losses that a GONE, a repair timer and a heard YIELD bring (R114, R122, R123, R125 to R129). -/

namespace Sys2Proof
namespace Machine

/-! ### A loss after the record or the timer of an entry changed -/

/-- `t` is `s` but for the publisher recorded and the repair timer of the entry, `e` before and `e'` after, and for what
an event can change. -/
structure SameButRecord (s t : State) (e e' : Entry) (u u' : SubscribeEntry) : Prop where
  index : e'.index = e.index
  chain : e'.chain = e.chain
  pool : t.pool = s.pool
  line : t.line = s.line
  writes : ∀ source, t.port.outstanding (Request.writesFrom source) = s.port.outstanding (Request.writesFrom source)
  others : ∀ f ∈ s.table, f ≠ e → f ∈ t.table ∧ f ≠ e'
  back : ∀ f ∈ t.table, f ≠ e' → f ∈ s.table ∧ f ≠ e
  fields : u' = { u with publisher := u'.publisher, repairTimer := u'.repairTimer }

/-- What giving up a segment means depends on the buffers, the writes and the other entries, and on what `e` places. -/
theorem GivesUp.congr {s t w : State} {e e' : Entry} {u u' v : SubscribeEntry} (line : t.line = s.line)
    (writes : ∀ source, t.port.outstanding (Request.writesFrom source) = s.port.outstanding (Request.writesFrom source))
    (back : ∀ f ∈ t.table, f ≠ e' → f ∈ s.table ∧ f ≠ e) (placing : u'.placing = u.placing)
    (written : u'.written = u.written) (waiting : u'.waiting = u.waiting) (h : GivesUp t w e' u' v) : GivesUp s w e u v := by
  have places (k : SegmentSource) : u'.places k = u.places k := by unfold SubscribeEntry.places; rw [placing]
  refine ⟨h.placing, fun k hk quiet alone => ?_, fun k hk => ?_, fun c hc => ?_, fun hc => ?_⟩
  · refine h.freed k ((places _).trans hk) ((writes _).trans quiet) fun f r mem other role => ?_
    obtain ⟨mem', other'⟩ := back f mem other
    exact alone f r mem' other' role
  · rw [← line]
    exact h.kept k (hk.imp (places _).trans (writes _).trans)
  · rw [← writes, ← written, ← waiting]
    exact h.written c ((places _).trans hc)
  · rw [← written]
    exact h.others fun c => (places _).trans (hc c)

theorem GivesUp.before {s t w : State} {e e' : Entry} {u u' v : SubscribeEntry} (same : SameButRecord s t e e' u u')
    (h : GivesUp t w e' u' v) : GivesUp s w e u v := by
  obtain ⟨-, -, -, line, writes, -, back, fields⟩ := same
  exact h.congr line writes back (by rw [fields]) (by rw [fields]) (by rw [fields])

theorem Loses.before {s t w : State} {e e' : Entry} {u u' v : SubscribeEntry} {x : Seq} {n : Nat}
    (same : SameButRecord s t e e' u u') (h : Loses t w e' u' v x n) : Loses s w e u v x n := by
  have gave := h.toGivesUp.before same
  obtain ⟨index, chain, pool, -, writes, -, -, fields⟩ := same
  have placing : u'.placing = u.placing := by rw [fields]
  have places (k : SegmentSource) : u'.places k = u.places k := by unfold SubscribeEntry.places; rw [placing]
  have waiting : u'.waiting = u.waiting := by rw [fields]
  have block : u'.block = u.block := by rw [fields]
  have offset : u'.writeOffset = u.writeOffset := by rw [fields]
  refine { gave with
    expected := h.expected, partPlaced := h.partPlaced, starved := h.starved, block := h.block, noGap := h.noGap
    waiting := ?_, cells := ?_, parked := ?_, highestSeen := ?_, gap := ?_, noBlock := ?_, closed := ?_ }
  · have := h.waiting
    simp only [places, waiting] at this
    exact this
  · have := h.cells
    simp only [places, waiting, pool] at this
    exact this
  · have := h.parked
    simp only [places, waiting, pool, writes] at this
    exact this
  · have := h.highestSeen
    rw [show u'.highestSeen = u.highestSeen by rw [fields]] at this
    exact this
  · have := h.gap
    rw [show u'.repair = u.repair by rw [fields], show u'.attempts = u.attempts by rw [fields],
      show u'.requested = u.requested by rw [fields]] at this
    exact this
  · have := h.noBlock
    rw [block, offset, chain, index] at this
    exact this
  · have := h.closed
    rw [block, offset, chain, index, show u'.firstOfBlock = u.firstOfBlock by rw [fields],
      show u'.descriptorSequence = u.descriptorSequence by rw [fields]] at this
    exact this

theorem Drains.before {w t : State} {e e' : Entry} {v : SubscribeEntry} {y : Seq} (index : e'.index = e.index)
    (h : Drains w t e' v y) : Drains w t e v y := by
  obtain ⟨placed, stays, orphan, opens⟩ := h
  rw [index] at placed orphan opens
  exact ⟨placed, stays, orphan, opens⟩

/-- An update of the entry's record or timer is such a change. -/
theorem modifySubscribe_sameButRecord {s : State} {e : Entry} {u : SubscribeEntry} (table : s.tableOk) (mem : e ∈ s.table)
    (role : e.role = .subscribe u) {f : SubscribeEntry → SubscribeEntry}
    (fields : f u = { u with publisher := (f u).publisher, repairTimer := (f u).repairTimer }) :
    SameButRecord s (s.modifySubscribe e.index f) e { e with role := .subscribe (f u) } u (f u) := by
  have entry := ((AtEntry.refl (table.entryAt mem)).modifySubscribe role f).entry
  have indexes : ((s.modifySubscribe e.index f).table.map (·.index)).Nodup := by
    rw [modifySubscribe_indexes]
    exact table.indexes
  refine ⟨rfl, rfl, rfl, rfl, fun _ => rfl, fun g hg other => ?_, fun g hg other => ?_, fields⟩
  · have apart : g.index ≠ e.index := fun same => other (List.inj_on_of_nodup_map table.indexes hg mem same)
    exact ⟨List.mem_map.2 ⟨g, hg, if_neg apart⟩, by rintro rfl; exact apart rfl⟩
  · have apart : g.index ≠ e.index := fun same =>
      other (List.inj_on_of_nodup_map indexes hg (List.mem_of_find?_eq_some entry) same)
    exact ⟨(AtEntry.refl (table.entryAt mem)).others_map (fun e => { e with role := e.role.mapSubscribe f }) (fun _ => rfl) g
      hg apart, fun same => apart (congrArg Entry.index same)⟩

/-- So it is with an event asked for after it. -/
theorem SameButRecord.emit {s t : State} {e e' : Entry} {u u' : SubscribeEntry} (h : SameButRecord s t e e' u u')
    (ev : Event) : SameButRecord s (t.emit ev) e e' u u' := by
  obtain ⟨-, line, -, table, pool, -⟩ := emit_rest t ev
  obtain ⟨index, chain, pool', line', writes, others, back, fields⟩ := h
  refine ⟨index, chain, pool.trans pool', line.trans line',
    fun source => (emit_outstanding t ev source).trans (writes source),
    ?_, ?_, fields⟩
  · rw [table]; exact others
  · rw [table]; exact back

/-! ### A loss and its draining, at one entry -/

/-- From `s` the entry `e` has lost `n` sequences, and its list has been drained in `t`. -/
def State.losesTo (s t : State) (e : Entry) (u : SubscribeEntry) (x : Seq) (n : Nat) (publisher : Option Nat)
    (asked : List Event) : Prop :=
  ∃ (w : State) (v : SubscribeEntry), w.subscribeAt e.index = some v ∧ Loses s w e u v x n ∧ v.publisher = publisher ∧
    s.reports w asked ∧ Drains w t e v (x + BitVec.ofNat 12 n) ∧ w.tableOk

theorem lose_losesTo {s t : State} {e e' : Entry} {u u' : SubscribeEntry} {x : Seq} {n : Nat} {asked : List Event}
    (table : t.tableOk) (mem : e' ∈ t.table) (role : e'.role = .subscribe u') (same : SameButRecord s t e e' u u')
    (takes : u.takesFrames = true) (expected : u.expected = some x) (pos : n ≠ 0)
    (held : u.block.isSome = true → ∃ a d, e.chain.current = .held a d) (cause : LossCause) (fence : t.fence = s.fence)
    (told : s.reports t asked) :
    s.losesTo (t.lose e.index n cause) e u x n u'.publisher (asked ++ [lostEvent e' u' cause x n]) := by
  have fields := same.fields
  obtain ⟨w, v, lost⟩ := lost_loses table mem role (x := x) (by rw [fields]; exact expected) pos
    (by rw [fields, same.chain]; exact held) cause
  have takes' : v.takesFrames = true := lost.takes.trans (by rw [fields]; exact takes)
  have drains := placeOn_drains lost.there takes' lost.placing lost.starved lost.partPlaced lost.expected lost.block
  refine ⟨w, v, same.index ▸ lost.there, lost.toLoses.before same, lost.publisher,
    State.reports_append fence told lost.told, ?_, lost.table⟩
  rw [← same.index, lost.settles]
  exact drains.before same.index

/-- Draining keeps the entry as far as a command's settling is concerned. -/
theorem State.losesTo.finish {s t : State} {e : Entry} {u : SubscribeEntry} {x : Seq} {n : Nat} {publisher : Option Nat}
    {asked : List Event} (h : s.losesTo t e u x n publisher asked) : t.finish.subscribeAt e.index =
      t.subscribeAt e.index := by
  obtain ⟨w, v, -, -, -, -, drains, table⟩ := h
  have frame := EngineFrame.placeOn w e.index
  rw [← drains.placed] at frame
  exact (CellFrame.finish t (tableOk_of_keys table frame.keys frame.serial).indexes).subscribeAt e.index

theorem range_end {q x : Seq} {n : Nat} (covers : forwardDistance q x < n) :
    x + BitVec.ofNat 12 (n - forwardDistance q x) = q + BitVec.ofNat 12 n := by
  unfold forwardDistance at covers ⊢
  apply BitVec.eq_of_toNat_eq
  rw [BitVec.toNat_add, BitVec.toNat_add, BitVec.toNat_ofNat, BitVec.toNat_ofNat]
  have dist : (x - q).toNat = (4096 - q.toNat + x.toNat) % 4096 := BitVec.toNat_sub x q
  have hx := x.isLt
  have hq := q.isLt
  omega

/-! ### A clean GONE (R128) -/

/-- Settles O21: a GONE that covers the expected sequence loses the rest of its range, any other does nothing. -/
theorem aCleanGoneGivesUpTheRangeFromExpected : Obligations.ACleanGoneGivesUpTheRangeFromExpected := by
  intro s e u y n q x table mem role takes expected hears
  have judged : s.judged.tableOk := table
  have heard := goneHeard_subscribe (s := s.judged) judged mem role expected y q n
  have atTable : s.atTable (.gone y e.stream q n) = goneHeard s.judged y e.stream q n := rfl
  refine ⟨fun publisher covers held => ?_, fun misses => ?_⟩
  · intro before done past
    have lost : s.judged.losesTo done e u x (n - forwardDistance q x) u.publisher
        [lostEvent e u .gone x (n - forwardDistance q x)] := by
      have loses : done = s.judged.lose e.index (n - forwardDistance q x) .gone := by
        refine heard.trans (if_pos ?_)
        rw [takes, publisher, beq_self_eq_true]
        exact decide_eq_true covers
      rw [loses]
      exact lose_losesTo (s := s.judged) (asked := []) judged mem role
        ⟨rfl, rfl, rfl, rfl, fun _ => rfl, fun _ hf other => ⟨hf, other⟩, fun _ hf other => ⟨hf, other⟩, rfl⟩ takes expected
        (by omega) held .gone rfl (State.reports_refl _)
    obtain ⟨w, v, there, loses, publisher', told, drains, -⟩ := lost
    have pastEq : x + BitVec.ofNat 12 (n - forwardDistance q x) = past := range_end covers
    have event : lostEvent e u .gone x (n - forwardDistance q x) =
        streamEvent .segmentsLost 1 e.stream y x.toNat (n - forwardDistance q x) 0 := by
      unfold lostEvent
      rw [publisher]
      rfl
    rw [pastEq] at drains
    obtain ⟨t, run, frame⟩ := clean_taken table hears
    exact ⟨⟨w, v, there, loses, loses.expected.trans (congrArg some pastEq), publisher',
      State.reports_congr (s := s.judged) rfl rfl rfl (event ▸ told), drains⟩, t, run, frame.subscribeAt e.index⟩
  · have same : s.atTable (.gone y e.stream q n) = s.judged := by
      refine heard.trans (if_neg fun h => ?_)
      rw [Bool.and_eq_true, Bool.and_eq_true, beq_iff_eq] at h
      obtain ⟨⟨-, publisher⟩, covers⟩ := h
      have covers : forwardDistance q x < n := of_decide_eq_true covers
      rcases misses with other | beyond
      · exact other publisher
      · omega
    obtain ⟨t, run, untouched, -⟩ := clean_untouched table hears same
    exact ⟨t, run, (untouched e.index).trans (subscribeAt_of_entry (table.entryAt mem) role)⟩

end Machine
end Sys2Proof
end

section
/-! The repair timers, and a YIELD heard while a REPAIR is due (R122 to R126, R129). -/

namespace Sys2Proof
namespace Machine

/-! ### The expiries -/

theorem repairRuns_iff (s : State) (u : SubscribeEntry) (state : RepairState) : s.repairRuns u state = true ↔
    u.repair = state ∧ u.repairTimer.isSome = true ∧ s.station.state.receiving = true ∧ u.starved = false := by
  unfold State.repairRuns State.repairPaused
  rw [Bool.and_eq_true, Bool.and_eq_true, beq_iff_eq, Bool.not_eq_true', Bool.or_eq_false_iff, Bool.not_eq_false',
    and_assoc]

theorem repairDelayExpiry_eq {s : State} {i : Nat} {u : SubscribeEntry} (there : s.subscribeAt i = some u) :
    exec (.repairDelayExpiry i) s =
      .next (if s.repairRuns u .waiting = true then (s.fallDue i u).finish else s) := by
  show Host.Outcome.next (repairDelayExpiry i s) = _
  rw [repairDelayExpiry, there]

theorem repairWaitExpiry_eq {s : State} {i : Nat} {u : SubscribeEntry} (there : s.subscribeAt i = some u) :
    exec (.repairWaitExpiry i) s = .next (if s.repairRuns u .requested = true then
      (if u.attempts < 3 then s.fallDue i u else s.loseRequested i u).finish else s) := by
  show Host.Outcome.next (repairWaitExpiry i s) = _
  rw [repairWaitExpiry, there]
  rfl

/-- The fields of an entry that would ask for an empty range. -/
def SubscribeEntry.emptyAsk (u : SubscribeEntry) : SubscribeEntry :=
  if u.highestSeen = none then
    { u with repair := .idle, repairTimer := none, repairMark := false, attempts := 0, requested := none }
  else { u with repair := .waiting, repairTimer := some 2048, repairMark := false }

theorem asksNothing_eq (u : SubscribeEntry) : u.asksNothing = u.emptyAsk := by
  unfold SubscribeEntry.asksNothing SubscribeEntry.emptyAsk
  simp only [Option.isNone_iff_eq_none]
  rfl

theorem emptyAsk_timer (u : SubscribeEntry) : ({ u with repairTimer := none } : SubscribeEntry).emptyAsk = u.emptyAsk := by
  unfold SubscribeEntry.emptyAsk
  split <;> rfl

theorem stopTimer_tableOk {s : State} (table : s.tableOk) (i : Nat) :
    (s.modifySubscribe i fun v => { v with repairTimer := none }).tableOk :=
  have frame := EngineFrame.modifySubscribe s i fun v => { v with repairTimer := none }
  tableOk_of_keys table frame.keys frame.serial

section
variable {s : State} {e : Entry} {u : SubscribeEntry} {x : Seq} (table : s.tableOk) (mem : e ∈ s.table)
  (role : e.role = .subscribe u) (expected : u.expected = some x)
include table mem role

/-- The state once the entry's repair timer is stopped. -/
theorem stopTimer_sameButRecord : SameButRecord s (s.modifySubscribe e.index fun v => { v with repairTimer := none }) e
    { e with role := .subscribe { u with repairTimer := none } } u { u with repairTimer := none } :=
  modifySubscribe_sameButRecord table mem role rfl

theorem stopTimer_entry : (s.modifySubscribe e.index fun v => { v with repairTimer := none }).entryAt e.index =
    some { e with role := .subscribe { u with repairTimer := none } } :=
  ((AtEntry.refl (table.entryAt mem)).modifySubscribe role fun v => { v with repairTimer := none }).entry

/-- With the timer stopped, the entry loses the sequences. -/
theorem stopTimer_loses (takes : u.takesFrames = true) (expected : u.expected = some x) {n : Nat} (pos : n ≠ 0)
    (held : u.block.isSome = true → ∃ a d, e.chain.current = .held a d) (cause : LossCause) :
    s.losesTo ((s.modifySubscribe e.index fun v => { v with repairTimer := none }).lose e.index n cause) e u x n u.publisher
      [streamEvent .segmentsLost cause.code e.stream (u.publisher.getD 0) x.toNat n 0] :=
  lose_losesTo (asked := []) (stopTimer_tableOk table e.index)
    (List.mem_of_find?_eq_some (stopTimer_entry table mem role)) rfl
    (stopTimer_sameButRecord table mem role) takes expected pos held cause rfl (State.reports_refl s)

/-- With a recorded publisher the entry is DUE. -/
theorem fallDue_asks (publisher : u.publisher.isSome = true) : (s.fallDue e.index u).finish.subscribeAt e.index =
    some { u with repair := .due, repairMark := false, repairTimer := none } := by
  have stopped := (AtEntry.refl (table.entryAt mem)).modifySubscribe role fun v => { v with repairTimer := none }
  have due := stopped.modifySubscribe rfl fun v => { v with repair := .due, repairMark := false }
  obtain ⟨y, publisher⟩ := Option.isSome_iff_exists.1 publisher
  have falls : s.fallDue e.index u = (s.modifySubscribe e.index fun v => { v with repairTimer := none }).modifySubscribe
      e.index fun v => { v with repair := .due, repairMark := false } := by
    unfold State.fallDue
    rw [publisher]
  rw [falls]
  exact ((CellFrame.finish _ (due.nodup table.indexes)).subscribeAt e.index).trans (subscribeAt_of_entry due.entry rfl)

include expected

omit table mem role in
theorem fallDue_nobody (publisher : u.publisher = none) : s.fallDue e.index u =
    (s.modifySubscribe e.index fun v => { v with repairTimer := none }).loseOrWait e.index
      (u.repairCount x) .noPublisher := by
  unfold State.fallDue
  rw [publisher, expected]

/-- Without one, and with nothing to ask for, it waits or is IDLE. -/
theorem fallDue_empty (publisher : u.publisher = none) (empty : u.repairCount x = 0) :
    (s.fallDue e.index u).finish.subscribeAt e.index = some u.emptyAsk := by
  have stopped := (AtEntry.refl (table.entryAt mem)).modifySubscribe role fun v => { v with repairTimer := none }
  have waits := stopped.modifySubscribe rfl SubscribeEntry.asksNothing
  rw [fallDue_nobody expected publisher, State.loseOrWait, if_pos empty]
  refine ((CellFrame.finish _ (waits.nodup table.indexes)).subscribeAt e.index).trans ?_
  rw [subscribeAt_of_entry waits.entry rfl, asksNothing_eq, emptyAsk_timer]

/-- Else it loses the range a REPAIR would have asked for. -/
theorem fallDue_loses (takes : u.takesFrames = true) (publisher : u.publisher = none) (some : 1 ≤ u.repairCount x)
    (held : u.block.isSome = true → ∃ a d, e.chain.current = .held a d) :
    s.losesTo (s.fallDue e.index u) e u x (u.repairCount x) u.publisher
      [streamEvent .segmentsLost 3 e.stream 0 x.toNat (u.repairCount x) 0] := by
  have pos : u.repairCount x ≠ 0 := by omega
  have loses := stopTimer_loses table mem role takes expected pos held .noPublisher
  rw [fallDue_nobody expected publisher, State.loseOrWait, if_neg pos]
  rw [publisher] at loses ⊢
  exact loses

/-- After the last attempt it loses what is left of the requested range. -/
theorem loseRequested_loses (takes : u.takesFrames = true) {q : Seq} {n : Nat} (requested : u.requested = some (q, n))
    (covers : forwardDistance q x < n) (held : u.block.isSome = true → ∃ a d, e.chain.current = .held a d) :
    s.losesTo (s.loseRequested e.index u) e u x (n - forwardDistance q x) u.publisher
      [streamEvent .segmentsLost 2 e.stream (u.publisher.getD 0) x.toNat (n - forwardDistance q x) 0] := by
  have falls : s.loseRequested e.index u = (s.modifySubscribe e.index fun v => { v with repairTimer := none }).lose e.index
      (n - forwardDistance q x) .noAnswer := by
    unfold State.loseRequested
    rw [requested, expected]
    rfl
  rw [falls]
  exact stopTimer_loses table mem role takes expected (by omega) held .noAnswer

end

/-! ### A YIELD of the publisher while a REPAIR is due (R123) -/

section
variable {s : State} {e : Entry} {u : SubscribeEntry} {x : Seq} {y : Nat} (table : s.tableOk) (mem : e ∈ s.table)
  (role : e.role = .subscribe u) (expected : u.expected = some x) (takes : u.takesFrames = true)
  (publisher : u.publisher = some y)
include table mem role

theorem publisherChanged_sameButRecord (new : Option Nat) (code : Nat) : SameButRecord s (s.publisherChanged e new code) e
    { e with role := .subscribe { u with publisher := new } } u { u with publisher := new } :=
  (modifySubscribe_sameButRecord table mem role (f := fun v => { v with publisher := new }) rfl).emit _

theorem publisherChanged_entry (new : Option Nat) (code : Nat) : (s.publisherChanged e new code).entryAt e.index =
    some { e with role := .subscribe { u with publisher := new } } :=
  (congrArg (List.find? _) (emit_table _ _)).trans
    ((AtEntry.refl (table.entryAt mem)).modifySubscribe role fun v => { v with publisher := new }).entry

omit mem role in
theorem publisherChanged_tableOk (new : Option Nat) (code : Nat) : (s.publisherChanged e new code).tableOk := by
  have first := EngineFrame.modifySubscribe s e.index fun v => { v with publisher := new }
  have both := first.trans (.emit _ (streamEvent .publisherSet code e.stream (new.getD 0) 0 0 0))
  exact tableOk_of_keys table both.keys both.serial

include expected takes publisher

theorem yieldHeard_due (due : u.repair = .due) : yieldHeard s y e.stream =
    (s.publisherChanged e none 6).loseOrWait e.index (u.repairCount x) .noPublisher := by
  unfold yieldHeard
  rw [table.entryOf mem]
  dsimp only
  rw [role]
  dsimp only
  rw [takes, publisher, if_pos (by rw [beq_self_eq_true]; rfl), due, expected, setPublisher_eq, publisher,
    if_neg nofun]

theorem yieldHeard_loses (due : u.repair = .due) (some : 1 ≤ u.repairCount x)
    (held : u.block.isSome = true → ∃ a d, e.chain.current = .held a d) :
    s.losesTo (yieldHeard s y e.stream) e u x (u.repairCount x) none
      [streamEvent .publisherSet 6 e.stream 0 0 0 0,
        streamEvent .segmentsLost 3 e.stream 0 x.toNat (u.repairCount x) 0] := by
  have pos : u.repairCount x ≠ 0 := by omega
  have told : s.reports (s.publisherChanged e none 6) [streamEvent .publisherSet 6 e.stream 0 0 0 0] :=
    State.reports_congr (s := s.modifySubscribe e.index fun v => { v with publisher := none }) rfl rfl rfl
      (State.reports_emit _ _)
  rw [yieldHeard_due table mem role expected takes publisher due, State.loseOrWait, if_neg pos]
  exact lose_losesTo (publisherChanged_tableOk table none 6)
    (List.mem_of_find?_eq_some (publisherChanged_entry table mem role none 6)) rfl
    (publisherChanged_sameButRecord table mem role none 6) takes expected pos held .noPublisher
    (EngineFrame.emit _ _).fence told

theorem yieldHeard_empty (due : u.repair = .due) (empty : u.repairCount x = 0) :
    (yieldHeard s y e.stream).subscribeAt e.index = some ({ u with publisher := none } : SubscribeEntry).emptyAsk := by
  rw [yieldHeard_due table mem role expected takes publisher due, State.loseOrWait, if_pos empty, modifySubscribe_subscribeAt,
    subscribeAt_of_entry (publisherChanged_entry table mem role none 6) rfl, Option.map_some, asksNothing_eq]

end

/-- Settles O46: at an expiry by the publisher, the attempts and what a REPAIR would ask for; so at a heard YIELD. -/
theorem theRepairTimersAskOrGiveUp : Obligations.TheRepairTimersAskOrGiveUp := by
  intro s e u x table mem role expected held past lost
  have there := subscribeAt_of_entry (table.entryAt mem) role
  refine ⟨fun timer => ?_, fun y due takes publisher hears => ?_⟩
  · intro runs loses asks
    have losing {c : Instr} {t : State} {n cause station : Nat} (run : exec c s = .next t.finish)
        (h : s.losesTo t e u x n u.publisher [lost cause station n]) : loses c n cause station := by
      have stays := h.finish
      obtain ⟨w, v, at', lose, publisher, told, drains, -⟩ := h
      exact ⟨w, t, v, at', lose, publisher, told, drains, run, stays⟩
    have falling {c : Instr} (run : exec c s = .next (s.fallDue e.index u).finish) : asks c := by
      refine ⟨fun publisher => ⟨_, run, fallDue_asks table mem role publisher⟩, fun publisher takes some => ?_,
        fun publisher empty => ⟨_, run, fallDue_empty table mem role expected publisher empty⟩⟩
      exact losing run (fallDue_loses table mem role expected takes publisher some held)
    refine ⟨fun running waiting => falling ?_, fun running requested few => falling ?_,
      fun running requested all q n range covers takes => ⟨(range_end covers).symm, losing ?_
        (loseRequested_loses table mem role expected takes range covers held)⟩, fun paused => ⟨?_, ?_⟩⟩
    · rw [repairDelayExpiry_eq there, if_pos ((repairRuns_iff s u .waiting).2 ⟨waiting, timer, running⟩)]
    · rw [repairWaitExpiry_eq there, if_pos ((repairRuns_iff s u .requested).2 ⟨requested, timer, running⟩), if_pos few]
    · rw [repairWaitExpiry_eq there, if_pos ((repairRuns_iff s u .requested).2 ⟨requested, timer, running⟩),
        if_neg (Nat.not_lt.2 all)]
    · rw [repairDelayExpiry_eq there, if_neg fun h => paused ((repairRuns_iff s u .waiting).1 h).2.2]
    · rw [repairWaitExpiry_eq there, if_neg fun h => paused ((repairRuns_iff s u .requested).1 h).2.2]
  · intro heard done
    have judged : s.judged.tableOk := table
    obtain ⟨t, run, frame⟩ := clean_taken table hears
    refine ⟨fun some => ⟨?_, t, run, frame.subscribeAt e.index⟩, fun empty => ⟨t, run, (frame.subscribeAt e.index).trans ?_⟩⟩
    · obtain ⟨w, v, at', lose, publisher', told, drains, -⟩ :=
        yieldHeard_loses (s := s.judged) judged mem role expected takes publisher due some held
      exact ⟨w, v, at', lose, publisher', State.reports_congr (s := s.judged) rfl rfl rfl told, drains⟩
    · exact yieldHeard_empty (s := s.judged) judged mem role expected takes publisher due empty

end Machine
end Sys2Proof
end

section
/-! CLOSE of a subscribe entry (R58, R70, R74, R108, R131). -/

namespace Sys2Proof
namespace Machine

theorem closeBlock_other {s : State} {e : Entry} (there : s.entryAt e.index = some e)
    (other : ∀ a d, e.chain.current ≠ .held a d) (status : BlockStatus) : s.closeBlock e.index status = s := by
  unfold State.closeBlock
  rw [there]
  dsimp only
  split
  · next current => exact absurd current (other _ _)
  · rfl

/-- The entry, once its reception has ended: its repair is idle and it closes. -/
theorem beginClosing_eq (u : SubscribeEntry) : u.beginClosing =
    { u.repairIdle with closing := true, partPlaced := (u.placing.map (·.placed)).getD u.partPlaced } := rfl

/-- `w` is `s` after the reception of the entry `e`, with fields `u`, has ended, and before the check whether it is freed;
its fields are `v`, and it has asked for the writes `l`. -/
structure ReceptionEnded (s w : State) (e : Entry) (u v : SubscribeEntry) (l : List Request) : Prop where
  table : w.tableOk
  entry : ∃ chain, w.entryAt e.index = some { e with chain := chain, role := .subscribe v }
  gives : GivesUp s w e u v
  fields : v = { u.beginClosing with
    placing := none, written := v.written, waiting := v.waiting, block := v.block, writeOffset := v.writeOffset
    firstOfBlock := v.firstOfBlock, descriptorSequence := v.descriptorSequence }
  reports : s.reports w []
  port : w.port = { s.port with firstClass := s.port.firstClass ++ l }
  settles : s.closeSubscribe e.index = w.closeProgress e.index
  fence : w.fence = s.fence
  blockless : u.block = none → v.block = none ∧ l = []
  closed : ∀ b a d, u.block = some b → e.chain.current = .held a d → v.block = none ∧
    u.closingWrite e.index a .aborted b ∈ l
  unplaced : u.placing = none → u.block = none → v = { u.repairIdle with closing := true }

theorem closeSubscribe_ends {s : State} {e : Entry} {u : SubscribeEntry} (table : s.tableOk) (mem : e ∈ s.table)
    (role : e.role = .subscribe u) : ∃ w v l, ReceptionEnded s w e u v l := by
  have begun := (AtEntry.refl (table.entryAt mem)).modifySubscribe role SubscribeEntry.beginClosing
  have frame := EngineFrame.modifySubscribe s e.index SubscribeEntry.beginClosing
  have ok := tableOk_of_keys table frame.keys frame.serial
  have shape : s.closeSubscribe e.index = (((s.modifySubscribe e.index SubscribeEntry.beginClosing).giveUp
      e.index).closeBlock e.index .aborted).closeProgress e.index := rfl
  generalize s.modifySubscribe e.index SubscribeEntry.beginClosing = t at begun ok shape frame
  obtain ⟨v₁, gave⟩ := giveUp_gaveUp (e := { e with role := .subscribe u.beginClosing }) ok
    (List.mem_of_find?_eq_some begun.entry) rfl
  generalize (t.giveUp e.index) = r at shape gave
  have line : t.line = s.line := begun.line
  have port : t.port = s.port := begun.port.trans (by rw [List.append_nil])
  have gives : GivesUp s r e u v₁ := by
    refine GivesUp.congr (u' := u.beginClosing) line (fun _ => by rw [port]) (fun f hf other => ?_) rfl rfl rfl
      gave.toGivesUp
    have apart : f.index ≠ e.index := fun same =>
      other (List.inj_on_of_nodup_map ok.indexes hf (List.mem_of_find?_eq_some begun.entry) same)
    exact ⟨begun.others f hf apart, by rintro rfl; exact apart rfl⟩
  have block₁ : v₁.block = u.block := by rw [gave.fields]; rfl
  have rEq : r.port = s.port ∧ r.eventState = s.eventState ∧ r.fence = s.fence := by
    rw [gave.shape]
    exact ⟨port, begun.eventState, begun.fence⟩
  -- where no block closes
  have plain (closes : r.closeBlock e.index .aborted = r) (open_ : u.block = none ∨ ∀ a d, e.chain.current ≠ .held a d) :
      ReceptionEnded s r e u v₁ [] := by
    refine ⟨gave.table, ⟨_, gave.entry⟩, gives, ?_, State.reports_nil rEq.2.1, by rw [rEq.1, List.append_nil],
      by rw [shape, closes], rEq.2.2, fun none => ⟨block₁.trans none, rfl⟩, fun b a d block current => ?_,
      fun none _ => ?_⟩
    · rw [gave.fields]
    · rcases open_ with none | other
      · rw [none] at block
        exact nomatch block
      · exact absurd current (other a d)
    · have waiting : (u.waiting.filter fun c => !u.places (.cell c.cell)) = u.waiting :=
        filter_unplaced fun c => places_of_none none _
      have written : v₁.written = u.written := gives.others fun c => places_of_none none _
      have fields : v₁ = { u.beginClosing with
        placing := Option.none, written := v₁.written, waiting :=
          u.waiting.filter fun c => !u.places (.cell c.cell) } := gave.fields
      rw [waiting, written] at fields
      refine fields.trans ?_
      simp only [SubscribeEntry.beginClosing, SubscribeEntry.repairIdle, none, Option.map_none, Option.getD_none]
  cases block : u.block with
  | none =>
    exact ⟨r, v₁, [], plain (closeBlock_none (e := { e with role := .subscribe v₁ }) gave.entry rfl (block₁.trans block)
      .aborted) (.inl block)⟩
  | some b =>
    by_cases held : ∃ a d, e.chain.current = .held a d
    · obtain ⟨a, d, current⟩ := held
      have closes := (AtEntry.refl gave.entry).closesBlock (d := d) rfl .aborted current (block₁.trans block)
      have frame' := EngineFrame.closeBlock r e.index .aborted
      have write : v₁.closingWrite e.index a .aborted b = u.closingWrite e.index a .aborted b := by
        rw [gave.fields]
        rfl
      rw [write] at closes
      refine ⟨_, v₁.blockClosed, _, tableOk_of_keys gave.table frame'.keys frame'.serial, ⟨_, closes.entry⟩,
        ⟨gives.placing, fun k hk quiet alone => ?_, fun k hk => ?_, gives.written, gives.others⟩, ?_,
        State.reports_nil (closes.eventState.trans rEq.2.1), closes.port.trans (by rw [rEq.1]), shape,
        closes.fence.trans rEq.2.2, fun none => ?_, fun b' a' d' block' current' => ⟨rfl, ?_⟩, fun _ none => ?_⟩
      · rw [closes.line]
        exact gives.freed k hk quiet alone
      · rw [closes.line]
        exact gives.kept k hk
      · rw [gave.fields]
        rfl
      · rw [block] at none
        exact nomatch none
      · rw [block] at block'
        cases block'
        rw [current] at current'
        cases current'
        exact List.mem_append_right _ List.mem_cons_self
      · rw [block] at none
        exact nomatch none
    · have other : ∀ a d, e.chain.current ≠ .held a d := fun a d current => held ⟨a, d, current⟩
      exact ⟨r, v₁, [], plain (closeBlock_other (e := { e with role := .subscribe v₁ }) gave.entry other .aborted)
        (.inr other)⟩

namespace ReceptionEnded

variable {s w : State} {e : Entry} {u v : SubscribeEntry} {l : List Request} (h : ReceptionEnded s w e u v l)
include h

theorem there : w.subscribeAt e.index = some v := by
  obtain ⟨chain, entry⟩ := h.entry
  exact subscribeAt_of_entry entry rfl

theorem closing : v.closing = true := by rw [h.fields]; rfl

/-- With nothing outstanding, the entry is freed. -/
theorem frees (nothing : w.port.outstanding (Request.receiveWriteOf e.index) = false) :
    s.closeSubscribe e.index = w.freeEntry e.index .close := by
  rw [h.settles, closeProgress_eq h.there, if_pos ⟨h.closing, nothing⟩]

/-- Else it stays. -/
theorem stays (busy : w.port.outstanding (Request.receiveWriteOf e.index) = true) : s.closeSubscribe e.index = w := by
  rw [h.settles, closeProgress_eq h.there, if_neg fun k => by rw [busy] at k; exact nomatch k.2]

/-- What is left of a freed entry. -/
theorem freed : let t := w.freeEntry e.index .close
    t.entryAt e.index = none ∧ t.forgets e.index e.stream ∧
      s.reports t [streamEvent .streamClosed 1 e.stream (u.publisher.getD 0) ((u.expected.map BitVec.toNat).getD 0) 0 0] := by
  intro t
  obtain ⟨chain, entry⟩ := h.entry
  obtain ⟨gone, -, forgets, -, -, told, -⟩ := freeEntry_frees h.table (List.mem_of_find?_eq_some entry) .close
  have event : ({ e with chain := chain, role := .subscribe v } : Entry).closedEvent .close = streamEvent .streamClosed 1
      e.stream (u.publisher.getD 0) ((u.expected.map BitVec.toNat).getD 0) 0 0 := by
    rw [h.fields]
    rfl
  exact ⟨gone, forgets, event ▸ State.reports_append h.fence h.reports told⟩

end ReceptionEnded

/-- Freeing an entry leaves a free buffer free. -/
theorem freeEntry_buffer {s : State} {e : Entry} (there : s.entryAt e.index = some e) (how : CloseHow) {k : BufferId}
    (free : s.line.buffer k = .free) : (s.freeEntry e.index how).line.buffer k = .free := by
  obtain ⟨-, line, -⟩ := emit_rest ((s.withoutEntry e.index e.stream).releaseCells e.cells) (e.closedEvent how)
  have bare : (s.withoutEntry e.index e.stream).line.buffer k = (s.line.buffer k).discardHeldOf e.stream := by
    cases k <;> rfl
  rw [freeEntry_eq there, line, (Released.releaseCells _ _).shape, bare, free]
  rfl

theorem closeEffect_subscribe (s : State) {e : Entry} {u : SubscribeEntry} (role : e.role = .subscribe u) :
    closeEffect e s = if u.state = .fault then s.freeEntry e.index .close
      else if u.closing = true then s else s.closeSubscribe e.index := by
  unfold Machine.closeEffect
  rw [role]

/-- A closing entry lets no clean frame of its stream do anything. -/
theorem atTable_closing {s : State} {e : Entry} {chain : Chain} {v : SubscribeEntry} (table : s.tableOk)
    (entry : s.entryAt e.index = some { e with chain := chain, role := .subscribe v }) (closing : v.closing = true)
    (f : Frame) (stream : f.stream = e.stream) : s.atTable f = s.judged :=
  atTable_closed table (List.mem_of_find?_eq_some entry) rfl (by
    unfold SubscribeEntry.takesFrames
    rw [closing]
    exact Bool.and_false _) stream

/-- Settles O37: by the state of the entry, its block, and what is outstanding of it. -/
theorem closeOfASubscribeEntryEndsItsReception : Obligations.CloseOfASubscribeEntryEndsItsReception := by
  intro n s e u table attached stream mem named role
  have there := table.entryAt mem
  refine ⟨(closeEffect e s).answer .done,
    congrArg Host.Outcome.next (onEntry_found closeEntry table attached stream mem named), ?_, ?_⟩
  · rw [(State.answer_rest _ _).1, (EngineFrame.closeEffect e s).window]
  intro closed
  rw [closeEffect_subscribe s role]
  refine ⟨fun fault => ?_, fun opened closing => ?_, fun opened w at' f stream => ?_, fun opened running => ?_⟩
  · obtain ⟨gone, -, -, -, -, told, -⟩ := freeEntry_frees table mem .close
    have event : e.closedEvent .close = closed := by
      unfold Entry.closedEvent
      rw [role]
      rfl
    rw [if_pos fault]
    exact ⟨gone, event ▸ told⟩
  · rw [if_neg (by rw [opened]; exact nofun), if_pos closing]
    rfl
  · rw [if_neg (by rw [opened]; exact nofun)] at at' ⊢
    by_cases closing : u.closing = true
    · rw [if_pos closing]
      exact atTable_closing (s := s.answer .done) (e := e) (chain := e.chain) (v := u) table
        (there.trans (congrArg some (entry_with_role role))) closing f stream
    · rw [if_neg closing] at at' ⊢
      obtain ⟨t, v, l, ended⟩ := closeSubscribe_ends table mem role
      cases busy : t.port.outstanding (Request.receiveWriteOf e.index) with
      | false =>
        rw [ended.frees busy] at at'
        have gone : (t.freeEntry e.index .close).subscribeAt e.index = none := by
          unfold State.subscribeAt
          rw [ended.freed.1]
          rfl
        exact nomatch gone.symm.trans at'
      | true =>
        rw [ended.stays busy]
        obtain ⟨chain, entry⟩ := ended.entry
        exact atTable_closing (s := t.answer .done) ended.table entry ended.closing f stream
  · rw [if_neg (by rw [opened]; exact nofun), if_neg (by rw [running]; exact Bool.false_ne_true)]
    obtain ⟨t, v, l, ended⟩ := closeSubscribe_ends table mem role
    have only {w : SubscribeEntry} (at' : ((s.closeSubscribe e.index).answer .done).subscribeAt e.index = some w) :
        s.closeSubscribe e.index = t ∧ w = v := by
      cases busy : t.port.outstanding (Request.receiveWriteOf e.index) with
      | false =>
        rw [ended.frees busy] at at'
        have gone : (t.freeEntry e.index .close).subscribeAt e.index = none := by
          unfold State.subscribeAt
          rw [ended.freed.1]
          rfl
        exact nomatch gone.symm.trans at'
      | true =>
        rw [ended.stays busy] at at'
        exact ⟨ended.stays busy, (Option.some.inj (ended.there.symm.trans at')).symm⟩
    have asIs (none : u.block = none) : t.port.outstanding (Request.receiveWriteOf e.index) =
        s.port.outstanding (Request.receiveWriteOf e.index) := by
      rw [ended.port, (ended.blockless none).2, List.append_nil]
    refine ⟨fun w at' => ?_, fun pl k placing source quiet alone => ?_, fun none nothing => ?_, fun none busy => ?_,
      fun b a d block current => ?_⟩
    · obtain ⟨same, rfl⟩ := only at'
      rw [same]
      exact ⟨ended.gives.placing, ended.gives.freed, ended.gives.kept, ended.gives.written, ended.gives.others⟩
    · have free : t.line.buffer k = .free := by
        refine ended.gives.freed k (by rw [places_some placing, source]; exact beq_self_eq_true _) quiet
          fun f r hf other hr => ?_
        cases placed : r.placing with
        | none => exact places_of_none placed _
        | some q =>
          rw [places_some placed]
          exact beq_eq_false_iff_ne.2 (alone f r q hf other hr placed)
      cases busy : t.port.outstanding (Request.receiveWriteOf e.index) with
      | false =>
        rw [ended.frees busy]
        obtain ⟨chain, entry⟩ := ended.entry
        exact freeEntry_buffer (e := { e with chain := chain, role := .subscribe v }) entry .close free
      | true =>
        rw [ended.stays busy]
        exact free
    · rw [ended.frees ((asIs none).trans nothing)]
      exact ended.freed
    · rw [ended.stays ((asIs none).trans busy)]
      refine ⟨fun placing => ended.there.trans (congrArg some (ended.unplaced placing none)), ended.reports, v, ended.there,
        ended.closing, ended.gives.placing, (ended.blockless none).1, fun pl placing => ?_⟩
      rw [ended.fields, beginClosing_eq, placing]
      rfl
    · obtain ⟨closes, write⟩ := ended.closed b a d block current
      have asked : u.closingWrite e.index a .aborted b ∈ t.port.firstClass := by
        rw [ended.port]
        exact List.mem_append_right _ write
      have busy : t.port.outstanding (Request.receiveWriteOf e.index) = true := by
        have first : t.port.firstClass.any (Request.receiveWriteOf e.index) = true :=
          List.any_eq_true.2 ⟨_, asked, beq_self_eq_true _⟩
        rw [HostPort.outstanding, first]
        rfl
      rw [ended.stays busy]
      refine ⟨⟨v, ended.there, ended.closing, closes, ?_, ended.gives.placing⟩, asked⟩
      rw [ended.fields]
      rfl

end Machine
end Sys2Proof
end

section
/-! A segment is taken by its distance from the expected one: behind, in order, ahead, far (R109 to R113). -/

namespace Sys2Proof
namespace Machine

/-! ### The cases of a segment -/

theorem takeSegment_unsynced {s : State} {i : Nat} {u : SubscribeEntry} (there : s.subscribeAt i = some u)
    (expected : u.expected = none) (k : BufferId) (g : StagedSegment) : s.takeSegment i k g =
      if g.first = true then (s.modifySubscribe i fun v => { v with expected := some g.sequence }).takeInOrder i k g
      else (s.setBuffer k .free).bump .orphanSegments := by
  unfold State.takeSegment
  rw [there]
  dsimp only
  rw [expected]
  rfl

/-- A far segment is taken after all that was held is given up (R113). -/
def State.takeFar (t : State) (i : Nat) (k : BufferId) (g : StagedSegment) : State :=
  if g.first = true then (t.modifySubscribe i fun v => { v with expected := some g.sequence }).takeInOrder i k g
  else (t.modifySubscribe i fun v => { v with expected := none }).setBuffer k .free

theorem takeSegment_synced {s : State} {i : Nat} {u : SubscribeEntry} {x : Seq} (there : s.subscribeAt i = some u)
    (expected : u.expected = some x) (k : BufferId) (g : StagedSegment) : s.takeSegment i k g =
      if forwardDistance x g.sequence = 0 then
        if (u.placing.isSome || (u.starved && (u.waiting.head?.map (·.sequence)) == some x)) = true then
          (s.setBuffer k .free).bump .staleDuplicates
        else s.takeInOrder i k g
      else if forwardDistance x g.sequence ≤ 127 then
        if u.waiting.any (·.sequence == g.sequence) = true then (s.setBuffer k .free).bump .staleDuplicates
        else s.takeAhead i k g x
      else if forwardDistance x g.sequence ≤ 2047 then (s.farJump i x g.sequence).takeFar i k g
      else if g.replayed = true then s.setBuffer k .free
      else (s.setBuffer k .free).bump .staleDuplicates := by
  unfold State.takeSegment
  rw [there]
  dsimp only
  rw [expected]
  rfl

theorem forwardDistance_self (x : Seq) : forwardDistance x x = 0 := by
  unfold forwardDistance
  rw [BitVec.sub_self]
  rfl

theorem forwardDistance_inj {x a b : Seq} (h : forwardDistance x a = forwardDistance x b) : a = b := by
  unfold forwardDistance at h
  exact (BitVec.sub_left_inj x).1 (BitVec.eq_of_toNat_eq h)

section
variable {s : State} {i : Nat} {u : SubscribeEntry} {x : Seq} {k : BufferId} {g : StagedSegment}
  (there : s.subscribeAt i = some u) (expected : u.expected = some x)
include there expected

theorem takeSegment_behind (behind : 2048 ≤ forwardDistance x g.sequence) : s.takeSegment i k g =
    if g.replayed = true then s.setBuffer k .free else (s.setBuffer k .free).bump .staleDuplicates := by
  rw [takeSegment_synced there expected, if_neg (by omega), if_neg (by omega), if_neg (by omega)]

theorem takeSegment_copy (inOrder : g.sequence = x)
    (copy : (u.placing.isSome || (u.starved && (u.waiting.head?.map (·.sequence)) == some x)) = true) :
    s.takeSegment i k g = (s.setBuffer k .free).bump .staleDuplicates := by
  rw [takeSegment_synced there expected, if_pos (by rw [inOrder]; exact forwardDistance_self x), if_pos copy]

theorem takeSegment_inOrder (inOrder : g.sequence = x) (placing : u.placing = none)
    (fresh : u.starved = false ∨ (u.waiting.all fun c => c.sequence != x) = true) :
    s.takeSegment i k g = s.takeInOrder i k g := by
  rw [takeSegment_synced there expected, if_pos (by rw [inOrder]; exact forwardDistance_self x), if_neg]
  rw [placing]
  rcases fresh with starved | others
  · rw [starved]
    exact Bool.false_ne_true
  · intro h
    have held : u.waiting.head?.map (·.sequence) = some x := eq_of_beq (Bool.and_eq_true _ _ ▸ h).2
    obtain ⟨c, head, same⟩ := Option.map_eq_some_iff.1 held
    exact bne_iff_ne.1 (List.all_eq_true.1 others c (List.mem_of_mem_head? head)) same

theorem takeSegment_ahead (near : 1 ≤ forwardDistance x g.sequence) (ahead : forwardDistance x g.sequence ≤ 127) :
    s.takeSegment i k g = if u.waiting.any (·.sequence == g.sequence) = true then
      (s.setBuffer k .free).bump .staleDuplicates else s.takeAhead i k g x := by
  rw [takeSegment_synced there expected, if_neg (by omega), if_pos ahead]

theorem takeSegment_far (ahead : 128 ≤ forwardDistance x g.sequence) (far : forwardDistance x g.sequence ≤ 2047) :
    s.takeSegment i k g = (s.farJump i x g.sequence).takeFar i k g := by
  rw [takeSegment_synced there expected, if_neg (by omega), if_neg (by omega), if_pos far]

end

/-! ### An orphan in order (R111) -/

theorem takeInOrder_orphan {s : State} {e : Entry} {u : SubscribeEntry} {x : Seq} {k : BufferId} {g : StagedSegment}
    (there : s.entryAt e.index = some e) (role : e.role = .subscribe u) (expected : u.expected = some x)
    (placing : u.placing = none) (starved : u.starved = false) (waiting : u.waiting = []) (block : u.block = none)
    (inner : g.first = false) :
    ∃ v, (s.takeInOrder e.index k g).subscribeAt e.index = some v ∧ v.expected = some (x + 1) ∧ v.placing = none ∧
      v.block = none ∧ v.waiting = [] ∧ (s.takeInOrder e.index k g).line.buffer k = .free ∧
      (s.takeInOrder e.index k g).counters = { s.counters with orphanSegments := s.counters.orphanSegments + 1 } := by
  have moved := (AtEntry.refl (s := (s.setBuffer k .free).bump .orphanSegments) there).modifySubscribe role
    SubscribeEntry.advance
  obtain ⟨exp, -, plac, starv, wait, -, -, blk, -, -⟩ := u.advance_fields x expected
  have settled : s.takeInOrder e.index k g =
      ((s.setBuffer k .free).bump .orphanSegments).modifySubscribe e.index SubscribeEntry.advance := by
    unfold State.takeInOrder
    rw [subscribeAt_of_entry there role]
    dsimp only
    rw [starved, if_neg Bool.false_ne_true, block, inner, if_neg (by decide)]
    refine placeRounds_stop _ e.index _ _ (x + 1) moved.entry rfl (plac.trans placing) (starv.trans starved) exp
      (fun c rest same => ?_) 64
    rw [wait, waiting] at same
    exact nomatch same
  rw [settled]
  refine ⟨_, subscribeAt_of_entry moved.entry rfl, exp, plac.trans placing, blk.trans block, wait.trans waiting, ?_, ?_⟩
  · rw [moved.line]
    exact buffer_setBuffer _ _ _
  · rw [moved.counters]
    rfl

/-! ### A segment ahead (R112) -/

theorem insertWaiting_sorted {x : Seq} {new : ReorderCell} {list : List ReorderCell}
    (fresh : ∀ c ∈ list, c.sequence ≠ new.sequence)
    (sorted : list.Pairwise fun a b => forwardDistance x a.sequence < forwardDistance x b.sequence) :
    (insertWaiting x new list).Pairwise fun a b => forwardDistance x a.sequence < forwardDistance x b.sequence := by
  induction list with
  | nil => exact List.pairwise_singleton _ _
  | cons c rest ih =>
    obtain ⟨after, sorted'⟩ := List.pairwise_cons.1 sorted
    unfold insertWaiting
    split
    · next before =>
      refine List.pairwise_cons.2 ⟨fun b mem => ?_, sorted⟩
      rcases List.mem_cons.1 mem with rfl | mem
      · exact before
      · exact Nat.lt_trans before (after b mem)
    · next behind =>
      have apart : forwardDistance x c.sequence ≠ forwardDistance x new.sequence := fun same =>
        fresh c List.mem_cons_self (forwardDistance_inj same)
      refine List.pairwise_cons.2 ⟨fun b mem => ?_, ih (fun b mem => fresh b (List.mem_cons_of_mem _ mem)) sorted'⟩
      rcases List.mem_cons.1 ((insertWaiting_perm x new rest).mem_iff.1 mem) with rfl | mem
      · omega
      · exact after b mem

/-- What highest seen and the repair state are after a segment ahead is seen. -/
theorem see_noticeGap (u : SubscribeEntry) (x q : Seq) (waiting : List ReorderCell) :
    let v := SubscribeEntry.noticeGap { u.see x q with waiting := waiting }
    v.expected = u.expected ∧ v.placing = u.placing ∧ v.waiting = waiting ∧
      (∃ h, v.highestSeen = some h ∧ forwardDistance x q ≤ forwardDistance x h) ∧
      (u.repair = .idle → v.repair = .waiting ∧ v.repairTimer = some 2048) ∧
      (u.repair ≠ .idle → v.repair = u.repair ∧ v.repairTimer = u.repairTimer) := by
  intro v
  have highest : v.highestSeen = (u.see x q).highestSeen := by
    unfold v SubscribeEntry.noticeGap
    split <;> rfl
  have seen : ∃ h, (u.see x q).highestSeen = some h ∧ forwardDistance x q ≤ forwardDistance x h := by
    unfold SubscribeEntry.see
    dsimp only
    split
    · exact ⟨q, rfl, Nat.le_refl _⟩
    · next h _ =>
      split
      · exact ⟨q, rfl, Nat.le_refl _⟩
      · next further => exact ⟨h, rfl, Nat.le_of_not_lt further⟩
  rw [highest]
  by_cases idle : u.repair = .idle
  · have noticed : v = { ({ u.see x q with waiting := waiting } : SubscribeEntry) with
        repair := .waiting, repairTimer := some 2048 } := if_pos idle
    rw [noticed]
    exact ⟨rfl, rfl, rfl, seen, fun _ => ⟨rfl, rfl⟩, fun other => absurd idle other⟩
  · have noticed : v = { u.see x q with waiting := waiting } := if_neg idle
    rw [noticed]
    exact ⟨rfl, rfl, rfl, seen, fun same => absurd same idle, fun _ => ⟨rfl, rfl⟩⟩

section
variable {s t : State} {e : Entry} {u : SubscribeEntry} {x : Seq} {k : BufferId} {g : StagedSegment}

/-- The state in which highest seen has risen to a segment. -/
def State.seeing (s : State) (i : Nat) (x q : Seq) : State := s.modifySubscribe i (·.see x q)

/-- The segment waits in the cell that its claim was given. -/
def State.holdAhead (t : State) (i : Nat) (k : BufferId) (g : StagedSegment) (x : Seq) (c : Nat) : State :=
  ((t.modifySubscribe i fun v => { v with waiting := insertWaiting x (g.inCell c) v.waiting }).setBuffer k
    .free).modifySubscribe i SubscribeEntry.noticeGap

theorem takeAhead_holds (there : s.subscribeAt e.index = some u) {c : Nat}
    (claimed : (s.seeing e.index x g.sequence).receiveClaim u = some (c, t)) :
    s.takeAhead e.index k g x = t.holdAhead e.index k g x c := by
  unfold State.takeAhead
  rw [there]
  dsimp only
  have claimed' : (s.modifySubscribe e.index (·.see x g.sequence)).receiveClaim u = some (c, t) := claimed
  rw [claimed']
  rfl

theorem takeAhead_drops (there : s.subscribeAt e.index = some u)
    (refused : (s.seeing e.index x g.sequence).receiveClaim u = none) :
    s.takeAhead e.index k g x = ((((s.seeing e.index x g.sequence).bump .reorderDrops).setBuffer k .free).modifySubscribe
      e.index SubscribeEntry.noticeGap) := by
  unfold State.takeAhead
  rw [there]
  dsimp only
  have refused' : (s.modifySubscribe e.index (·.see x g.sequence)).receiveClaim u = none := refused
  rw [refused']
  rfl

/-- The fields after a segment ahead, with the waiting segments given. -/
def SubscribeEntry.noticed (u : SubscribeEntry) (x q : Seq) (waiting : List ReorderCell) : SubscribeEntry :=
  SubscribeEntry.noticeGap { u.see x q with waiting := waiting }

theorem holdAhead_subscribeAt (there : t.subscribeAt e.index = some (u.see x g.sequence)) (c : Nat) :
    (t.holdAhead e.index k g x c).subscribeAt e.index =
      some (u.noticed x g.sequence (insertWaiting x (g.inCell c) u.waiting)) := by
  rw [State.holdAhead, modifySubscribe_subscribeAt]
  have held : State.subscribeAt ((t.modifySubscribe e.index fun v =>
      { v with waiting := insertWaiting x (g.inCell c) v.waiting }).setBuffer k .free) e.index = _ :=
    modifySubscribe_subscribeAt t e.index fun v => { v with waiting := insertWaiting x (g.inCell c) v.waiting }
  rw [held, there]
  rfl

theorem holdAhead_line (t : State) (i : Nat) (k : BufferId) (g : StagedSegment) (x : Seq) (c : Nat) :
    (t.holdAhead i k g x c).line.buffer k = .free := buffer_setBuffer _ _ _

theorem receiveClaim_room {w : State} (room : u.written.length + u.waiting.length < 8) :
    w.receiveClaim u = w.claimCell := if_pos room

theorem receiveClaim_none {w : State}
    (none : 8 ≤ u.written.length + u.waiting.length ∨ (w.pool.free = [] ∧ w.pool.aged = [])) :
    w.receiveClaim u = Option.none := by
  unfold State.receiveClaim
  split
  · next room =>
    rcases none with full | ⟨free, aged⟩
    · exact absurd room (Nat.not_lt.2 full)
    · exact claimCell_none free aged
  · rfl

end

/-! ### A far segment (R113) -/

/-- `w` is `s` after a far jump, where the entry `e`, with fields `u`, has given up all it held; it has fields `v`. -/
structure Jumped (s w : State) (e : Entry) (u v : SubscribeEntry) (x far : Seq) : Prop where
  there : w.subscribeAt e.index = some v
  jump : s.farJump e.index x far = w
  gives : GivesUp s w e u v
  waiting : v.waiting = []
  block : v.block = none
  part : v.partPlaced = 0
  starved : v.starved = false
  repair : v.highestSeen = none ∧ v.repair = .idle ∧ v.repairTimer = none
  publisher : v.publisher = u.publisher
  closed : ∀ b a d, u.block = some b → e.chain.current = .held a d →
    u.closingWrite e.index a .lost b ∈ w.port.firstClass
  cells : u.placing = none → s.pool.waiting = [] → w.pool.free = s.pool.free ++ u.waiting.map ReorderCell.cell
  reports : s.reports w [streamEvent .segmentsLost 4 e.stream (u.publisher.getD 0) x.toNat (forwardDistance x far) 0]

/-- An update of the entry with the block closed, if one was open. -/
theorem closeBlock_atEntry {s : State} {e : Entry} {u : SubscribeEntry} (there : s.entryAt e.index = some e)
    (role : e.role = .subscribe u) (held : u.block.isSome = true → ∃ a d, e.chain.current = .held a d)
    (status : BlockStatus) :
    ∃ chain u' l, AtEntry s (s.closeBlock e.index status) e.index { e with chain := chain, role := .subscribe u' } l ∧
      u' = { u with block := none, writeOffset := u'.writeOffset, firstOfBlock := u'.firstOfBlock
                    descriptorSequence := u'.descriptorSequence } ∧
      (∀ r ∈ l, ∀ source, Request.writesFrom source r = false) ∧
      ∀ b a d, u.block = some b → e.chain.current = .held a d → u.closingWrite e.index a status b ∈ l := by
  cases block : u.block with
  | none =>
    rw [closeBlock_none there role block]
    exact ⟨e.chain, u, [], AtEntry.refl (there.trans (congrArg some (entry_with_role role))), by rw [← block], nofun, nofun⟩
  | some b =>
    obtain ⟨a, d, current⟩ := held (by rw [block]; rfl)
    have closes := (AtEntry.refl there).closesBlock role status current block
    refine ⟨_, _, _, closes, rfl, fun r mem source => ?_, fun b' a' d' block' current' => ?_⟩
    · rcases List.mem_cons.1 mem with rfl | mem
      · rfl
      · unfold Chain.finishReads at mem
        split at mem
        · exact Fence.linkReads_write_nothing _ _ _ r mem source
        · exact nomatch mem
    · cases block'
      rw [current] at current'
      cases current'
      exact List.mem_append_right _ List.mem_cons_self

/-- `t` is `s` after the entry's block has closed LOST and it has given up the segment it was placing. -/
structure CutShort (s t : State) (e : Entry) (u v : SubscribeEntry) : Prop where
  entry : ∃ chain, t.entryAt e.index = some { e with chain := chain, role := .subscribe v }
  gives : GivesUp s t e u v
  block : v.block = none
  publisher : v.publisher = u.publisher
  eventState : t.eventState = s.eventState
  fence : t.fence = s.fence
  closed : ∀ b a d, u.block = some b → e.chain.current = .held a d → u.closingWrite e.index a .lost b ∈ t.port.firstClass
  unplaced : u.placing = none → t.pool = s.pool ∧ v.waiting = u.waiting

theorem closeBlock_giveUp {s : State} {e : Entry} {u : SubscribeEntry} (table : s.tableOk) (mem : e ∈ s.table)
    (role : e.role = .subscribe u) (held : u.block.isSome = true → ∃ a d, e.chain.current = .held a d) :
    ∃ v, CutShort s ((s.closeBlock e.index .lost).giveUp e.index) e u v := by
  obtain ⟨chain, u₁, l, closes, fields, silent, closed⟩ := closeBlock_atEntry (table.entryAt mem) role held .lost
  have frame := EngineFrame.closeBlock s e.index .lost
  have ok := tableOk_of_keys table frame.keys frame.serial
  generalize s.closeBlock e.index .lost = t at closes ok
  obtain ⟨v, gave⟩ := giveUp_gaveUp (e := { e with chain := chain, role := .subscribe u₁ }) ok
    (List.mem_of_find?_eq_some closes.entry) rfl
  refine ⟨v, ⟨chain, gave.entry⟩, ?_, ?_, ?_, ?_, ?_, fun b a d block current => ?_, fun placing => ?_⟩
  · refine GivesUp.congr (u' := u₁) closes.line (fun source => ?_) (fun f hf other => ?_) (by rw [fields]) (by rw [fields])
      (by rw [fields]) gave.toGivesUp
    · have quiet : l.any (Request.writesFrom source) = false := List.any_eq_false.2 fun r mem => by
        rw [silent r mem source]
        exact Bool.false_ne_true
      rw [closes.port]
      simp only [HostPort.outstanding, List.any_append, quiet, Bool.or_false]
    · have apart : f.index ≠ e.index := fun same =>
        other (List.inj_on_of_nodup_map ok.indexes hf (List.mem_of_find?_eq_some closes.entry) same)
      exact ⟨closes.others f hf apart, by rintro rfl; exact apart rfl⟩
  · rw [gave.fields, fields]
  · rw [gave.fields, fields]
  · rw [gave.shape]
    exact closes.eventState
  · rw [gave.shape]
    exact closes.fence
  · rw [gave.shape]
    show _ ∈ t.port.firstClass
    rw [closes.port]
    exact List.mem_append_right _ (closed b a d block current)
  · have placing₁ : u₁.placing = none := by rw [fields]; exact placing
    refine ⟨(gave.unmoved fun c => places_of_none placing₁ _).trans closes.pool, ?_⟩
    rw [gave.fields, filter_unplaced fun c => places_of_none placing₁ _, fields]

theorem farJump_eq {s : State} {e : Entry} {u v : SubscribeEntry} (there : s.entryAt e.index = some e)
    (role : e.role = .subscribe u) (given : ((s.closeBlock e.index .lost).giveUp e.index).subscribeAt e.index = some v)
    (x far : Seq) : s.farJump e.index x far =
      (((((s.closeBlock e.index .lost).giveUp e.index).modifySubscribe e.index fun v =>
        { v with waiting := [] }).releaseCells (v.waiting.map ReorderCell.cell)).modifySubscribe e.index fun v =>
        { v.repairIdle with partPlaced := 0, starved := false, highestSeen := none }).emit
        (lostEvent e u .farJump x (forwardDistance x far)) := by
  unfold State.farJump
  rw [there]
  dsimp only
  rw [role]
  dsimp only
  rw [given]

theorem farJump_jumps {s : State} {e : Entry} {u : SubscribeEntry} (table : s.tableOk) (mem : e ∈ s.table)
    (role : e.role = .subscribe u) (held : u.block.isSome = true → ∃ a d, e.chain.current = .held a d) (x far : Seq) :
    ∃ w v, Jumped s w e u v x far := by
  obtain ⟨v₁, cut⟩ := closeBlock_giveUp table mem role held
  obtain ⟨chain, entry₁⟩ := cut.entry
  have jump := farJump_eq (table.entryAt mem) role (subscribeAt_of_entry entry₁ rfl) x far
  generalize (s.closeBlock e.index .lost).giveUp e.index = t₁ at cut entry₁ jump
  -- all waiting segments are released
  have emptied := (AtEntry.refl entry₁).modifySubscribe rfl fun v => { v with waiting := [] }
  generalize (t₁.modifySubscribe e.index fun v => { v with waiting := [] }) = t₂ at emptied jump
  have frame := CellFrame.releaseCells t₂ (v₁.waiting.map ReorderCell.cell)
  have released := Released.releaseCells t₂ (v₁.waiting.map ReorderCell.cell)
  have events := releaseCells_eventState (v₁.waiting.map ReorderCell.cell) t₂
  have idle := fun none : t₂.pool.waiting = [] => releaseCells_idle none (v₁.waiting.map ReorderCell.cell)
  generalize t₂.releaseCells (v₁.waiting.map ReorderCell.cell) = t₃ at frame released events jump idle
  -- and the repair state goes
  have cleared := (AtEntry.refl (frame.subscribeEntry emptied.entry rfl)).modifySubscribe rfl fun v =>
    { v.repairIdle with partPlaced := 0, starved := false, highestSeen := none }
  generalize (t₃.modifySubscribe e.index fun v =>
    { v.repairIdle with partPlaced := 0, starved := false, highestSeen := none }) = t₄ at cleared jump
  obtain ⟨unit, writes, lost, emitted, -⟩ := emit_shape t₄ (lostEvent e u .farJump x (forwardDistance x far))
  have told := State.reports_congr
    (cleared.eventState.trans (events.1.trans (emptied.eventState.trans cut.eventState)))
    (cleared.fence.trans (events.2.trans (emptied.fence.trans cut.fence))) rfl
    (State.reports_emit t₄ (lostEvent e u .farJump x (forwardDistance x far)))
  have line : (t₄.emit (lostEvent e u .farJump x (forwardDistance x far))).line = t₁.line := by
    rw [emitted]
    exact cleared.line.trans (frame.line.trans emptied.line)
  have port : (t₄.emit (lostEvent e u .farJump x (forwardDistance x far))).port.firstClass = t₁.port.firstClass := by
    rw [emitted]
    show t₄.port.firstClass = _
    rw [cleared.port, released.shape]
    show t₂.port.firstClass ++ [] = _
    rw [emptied.port, List.append_nil]
    exact List.append_nil _
  refine ⟨_, _, subscribeAt_of_entry ((congrArg (List.find? _) (emit_table t₄ _)).trans cleared.entry) rfl, jump,
    ⟨cut.gives.placing, fun k hk quiet alone => ?_, fun k hk => ?_, cut.gives.written, cut.gives.others⟩, rfl, cut.block,
    rfl, rfl, ⟨rfl, rfl, rfl⟩, cut.publisher, fun b a d block current => ?_, fun placing none => ?_, told⟩
  · rw [line]
    exact cut.gives.freed k hk quiet alone
  · rw [line]
    exact cut.gives.kept k hk
  · rw [port]
    exact cut.closed b a d block current
  · obtain ⟨pool, waiting⟩ := cut.unplaced placing
    have none₂ : t₂.pool.waiting = [] := by rw [emptied.pool, pool, none]
    rw [emitted]
    show t₄.pool.free = _
    rw [cleared.pool, idle none₂, ← waiting]
    show t₂.pool.free ++ _ = _
    rw [emptied.pool, pool]

end Machine
end Sys2Proof
end

section
/-! What a segment ahead leaves, and O22. -/

namespace Sys2Proof
namespace Machine

section
variable {s : State} {e : Entry} {u : SubscribeEntry} {x : Seq} {g : StagedSegment}
  (there : s.subscribeAt e.index = some u)
include there

theorem seeing_subscribeAt : (s.seeing e.index x g.sequence).subscribeAt e.index = some (u.see x g.sequence) := by
  rw [State.seeing, modifySubscribe_subscribeAt, there]
  rfl

/-- The segment waits in the head of the free list. -/
theorem takeAhead_free (k : BufferId) {c : Nat} {rest : List Nat} (free : s.pool.free = c :: rest)
    (room : u.written.length + u.waiting.length < 8) :
    ∃ t : State, s.takeAhead e.index k g x = t.holdAhead e.index k g x c ∧ t.pool = { s.pool with free := rest } ∧
      t.subscribeAt e.index = some (u.see x g.sequence) := by
  have claimed := (receiveClaim_room (w := s.seeing e.index x g.sequence) room).trans (claimCell_free free)
  exact ⟨_, takeAhead_holds there claimed, rfl, seeing_subscribeAt there⟩

/-- Without a free cell it waits in an evicted one. -/
theorem takeAhead_aged (k : BufferId) {a : AgedCell} {rest : List AgedCell} (free : s.pool.free = [])
    (aged : s.pool.aged = a :: rest) (room : u.written.length + u.waiting.length < 8) :
    ∃ t : State, s.takeAhead e.index k g x = t.holdAhead e.index k g x a.cell ∧
      t.pool = { s.pool with aged := s.pool.aged.filter (fun b => b.cell != a.cell) } ∧
      t.subscribeAt e.index = some (u.see x g.sequence) ∧
      t.counters = { s.counters with replayEvictions := s.counters.replayEvictions + 1 } ∧
      ∀ f p c, s.entryAt a.index = some f → f.role = .publish p →
        p.replayQueue.find? (fun c => c.cell == a.cell) = some c →
        t.lists = s.listsWithout a.index f.stream c.sequence := by
  have claimed := (receiveClaim_room (w := s.seeing e.index x g.sequence) room).trans (claimCell_aged free aged)
  obtain ⟨-, -, pool, counters, lists⟩ := leaveReplay_leaves (s.seeing e.index x g.sequence) a
  have frame := CellFrame.leaveReplay (s.seeing e.index x g.sequence) a
  refine ⟨_, takeAhead_holds there claimed, pool, (frame.subscribeAt e.index).trans (seeing_subscribeAt there), ?_,
    fun f p c hf role found => lists f p c ?_ role found⟩
  · show ((s.seeing e.index x g.sequence).leaveReplay a).counters.add .replayEvictions 1 = _
    rw [counters]
    rfl
  · rw [State.seeing, modifySubscribe_entryAt, hf, Option.map_some]
    split
    · cases f
      cases role
      rfl
    · rfl

/-- Without a cell, or with a full list, it is dropped. -/
theorem takeAhead_dropped (k : BufferId)
    (none : 8 ≤ u.written.length + u.waiting.length ∨ (s.pool.free = [] ∧ s.pool.aged = [])) :
    (s.takeAhead e.index k g x).line.buffer k = .free ∧ (s.takeAhead e.index k g x).pool = s.pool ∧
      (s.takeAhead e.index k g x).counters = { s.counters with reorderDrops := s.counters.reorderDrops + 1 } ∧
      (s.takeAhead e.index k g x).subscribeAt e.index = some (u.noticed x g.sequence u.waiting) := by
  have drops := takeAhead_drops (k := k) there (receiveClaim_none (w := s.seeing e.index x g.sequence) none)
  rw [drops]
  refine ⟨buffer_setBuffer _ _ _, rfl, rfl, ?_⟩
  rw [modifySubscribe_subscribeAt]
  have seen : State.subscribeAt (((s.seeing e.index x g.sequence).bump .reorderDrops).setBuffer k .free) e.index = _ :=
    seeing_subscribeAt there
  rw [seen]
  rfl

end

/-- Settles O22: the distance decides the case, and a claim the cell. -/
theorem aSegmentIsTakenByItsDistanceFromExpected : Obligations.ASegmentIsTakenByItsDistanceFromExpected := by
  intro s e u k g table mem role stale
  have there := subscribeAt_of_entry (table.entryAt mem) role
  refine ⟨fun takes publisher stream => ?_, fun expected inner => ?_, fun expected first => ?_, fun x expected =>
    ⟨takeSegment_behind there expected, fun inOrder => ⟨fun placing => ?_, fun c rest starved waiting here => ?_,
      fun placing starved waiting block inner => ?_⟩, fun near ahead => ?_, fun ahead far held => ?_⟩⟩
  · rw [dataHeard_subscribe table mem role (some k) stream, takes, if_neg (by decide), publisher]
    exact if_pos rfl
  · rw [takeSegment_unsynced there expected, if_neg (by rw [inner]; exact Bool.false_ne_true)]
  · intro synced
    have syncedAt : synced.subscribeAt e.index = some { u with expected := some g.sequence } := by
      unfold synced
      rw [modifySubscribe_subscribeAt, there]
      rfl
    have taken : s.takeSegment e.index k g = synced.takeInOrder e.index k g := by
      rw [takeSegment_unsynced there expected, if_pos first]
    exact ⟨syncedAt, taken, fun placing fresh => taken.trans (takeSegment_inOrder syncedAt rfl rfl placing fresh).symm⟩
  · exact takeSegment_copy there expected inOrder (by rw [placing]; rfl)
  · refine takeSegment_copy there expected inOrder ?_
    rw [starved, waiting]
    have head : ((c :: rest).head?.map fun c => c.sequence) = some x := congrArg some here
    rw [head, beq_self_eq_true]
    exact Bool.or_true _
  · rw [takeSegment_inOrder there expected inOrder placing (.inl starved)]
    exact takeInOrder_orphan (table.entryAt mem) role expected placing starved waiting block inner
  · intro seen waits
    have taken := takeSegment_ahead (k := k) there expected near ahead
    have noticed (waiting : List ReorderCell) : seen (u.noticed x g.sequence waiting) ∧
        (u.noticed x g.sequence waiting).waiting = waiting := by
      obtain ⟨exp, plac, wait, highest, idle, busy⟩ := see_noticeGap u x g.sequence waiting
      exact ⟨⟨exp.trans expected, plac, highest, idle, busy⟩, wait⟩
    refine ⟨fun copy => by rw [taken, if_pos copy], fun fresh => ?_⟩
    rw [if_neg (by rw [fresh]; exact Bool.false_ne_true)] at taken
    have holds (c : Nat) : waits c (u.noticed x g.sequence (insertWaiting x (g.inCell c) u.waiting)) := by
      have waiting := (noticed (insertWaiting x (g.inCell c) u.waiting)).2
      unfold waits
      rw [waiting]
      refine ⟨insertWaiting_perm x (g.inCell c) u.waiting, insertWaiting_sorted fun b hb same => ?_⟩
      exact List.any_eq_false.1 fresh b hb (beq_iff_eq.2 same)
    refine ⟨fun c rest free room => ?_, fun a rest free aged room => ?_, fun none => ?_⟩
    · obtain ⟨t, eq, pool, at'⟩ := takeAhead_free (x := x) (g := g) there k free room
      exact ⟨_, _, taken.trans eq, holdAhead_line _ _ _ _ _ _, pool, holdAhead_subscribeAt at' c, (noticed _).1, holds c⟩
    · obtain ⟨t, eq, pool, at', counters, lists⟩ := takeAhead_aged (x := x) (g := g) there k free aged room
      refine ⟨_, _, taken.trans eq, holdAhead_line _ _ _ _ _ _, ?_, ?_, lists, counters, holdAhead_subscribeAt at' a.cell,
        (noticed _).1, holds a.cell⟩
      · show t.pool.free = []
        rw [pool]
        exact free
      · show t.pool.aged = _
        rw [pool]
    · obtain ⟨line, pool, counters, at'⟩ := takeAhead_dropped (x := x) (g := g) there k none
      exact ⟨_, _, taken, line, pool, counters, at', (noticed _).1, (noticed _).2⟩
  · obtain ⟨w, v, jumped⟩ := farJump_jumps table mem role held x g.sequence
    have taken := takeSegment_far (k := k) there expected ahead far
    rw [jumped.jump] at taken
    obtain ⟨highest, repair, timer⟩ := jumped.repair
    refine ⟨w, v, jumped.there, jumped.gives, jumped.waiting, jumped.block, jumped.part, jumped.starved, highest, repair,
      timer, jumped.publisher, jumped.closed, jumped.cells, jumped.reports, fun first => ?_, fun inner => ?_⟩
    · intro synced
      have syncedAt : synced.subscribeAt e.index = some { v with expected := some g.sequence } := by
        unfold synced
        rw [modifySubscribe_subscribeAt, jumped.there]
        rfl
      have inOrder : s.takeSegment e.index k g = synced.takeInOrder e.index k g := by
        rw [taken, State.takeFar, if_pos first]
      exact ⟨syncedAt, inOrder, inOrder.trans
        (takeSegment_inOrder syncedAt rfl rfl jumped.gives.placing (.inl jumped.starved)).symm⟩
    · rw [taken, State.takeFar, if_neg (by rw [inner]; exact Bool.false_ne_true)]

end Machine
end Sys2Proof
end

section
/-! Starvation: a segment that finds no descriptor waits in a cell, or is dropped (R81, R119, R144). -/

namespace Sys2Proof
namespace Machine

/-! ### Other entries than the one that changed -/

theorem AtEntry.entryAt_other {s t : State} {i : Nat} {f : Entry} {l : List Request} (h : AtEntry s t i f l)
    (indexes : (s.table.map (·.index)).Nodup) {j : Nat} (other : j ≠ i) : t.entryAt j = s.entryAt j := by
  cases there : s.entryAt j with
  | none =>
    refine entryAt_isNone fun mem => ?_
    have mem' : j ∈ s.table.map (·.index) := h.indexes ▸ mem
    obtain ⟨g, hg, same⟩ := List.mem_map.1 mem'
    have found := CellFrame.entryAt_of_mem indexes hg
    rw [same, there] at found
    exact nomatch found
  | some g =>
    have mem : j ∈ t.table.map (·.index) := by
      rw [h.indexes, ← entryAt_index there]
      exact List.mem_map_of_mem (List.mem_of_find?_eq_some there)
    obtain ⟨g', hg', same⟩ := List.mem_map.1 mem
    have inS := h.others g' hg' (by rw [same]; exact other)
    have eq : g' = g := List.inj_on_of_nodup_map indexes inS (List.mem_of_find?_eq_some there)
      (same.trans (entryAt_index there).symm)
    have found := CellFrame.entryAt_of_mem (s := t) (h.nodup indexes) hg'
    rw [same] at found
    exact found.trans (congrArg some eq)

/-! ### The steps of a starvation -/

/-- The fields of an entry that has become starved while it places a segment. -/
def SubscribeEntry.starving (u : SubscribeEntry) (pl : Placing) (look : LookAhead) : SubscribeEntry :=
  { u with starved := true, partPlaced := pl.placed, chainEnded := u.chainEnded || look == .ended }

/-- What RX_STARVED tells of an entry. -/
def Entry.starvedEvent (e : Entry) (u : SubscribeEntry) : Event :=
  streamEvent .rxStarved 0 e.stream (u.publisher.getD 0) ((u.expected.map BitVec.toNat).getD 0) u.waiting.length
    (e.chain.tail.getD 0)

/-- The state once the starvation is recorded and told. -/
def State.starves (s : State) (e : Entry) (u : SubscribeEntry) (pl : Placing) : State :=
  (s.modifySubscribe e.index fun v =>
    { v with starved := true, partPlaced := pl.placed, chainEnded := v.chainEnded || e.chain.lookAhead == .ended }).emit
    (e.starvedEvent u)

/-- The state once the starved segment waits in a cell. -/
def State.starvedIn (t : State) (i : Nat) (k : BufferId) (g : StagedSegment) (pl : Placing) (c : Nat) : State :=
  (t.modifySubscribe i fun v =>
    { v with waiting := g.inCell c :: v.waiting, placing := some { pl with source := .cell c } }).freeBufferIfDone k

section
variable {s : State} {e : Entry} {u : SubscribeEntry} {pl : Placing} (there : s.entryAt e.index = some e)
  (role : e.role = .subscribe u) (placing : u.placing = some pl) (fed : u.starved = false)
include there role placing fed

theorem starve_cell {c : Nat} (source : pl.source = .cell c) : s.starve e.index = s.starves e u pl := by
  unfold State.starve
  rw [there]
  dsimp only
  rw [role]
  dsimp only
  rw [placing]
  dsimp only
  rw [fed, source]
  rfl

variable {k : BufferId} {g : StagedSegment} (source : pl.source = .staging k) (held : s.line.buffer k = .held g)
include source held

theorem starve_claims {c : Nat} {t : State} (claimed : (s.starves e u pl).receiveClaim u = some (c, t)) :
    s.starve e.index = t.starvedIn e.index k g pl c := by
  have segment : s.heldSegment k = some g := by rw [State.heldSegment, held]
  unfold State.starve
  rw [there]
  dsimp only
  rw [role]
  dsimp only
  rw [placing]
  dsimp only
  rw [fed, source]
  dsimp only
  rw [segment, if_neg Bool.false_ne_true]
  unfold State.starves Entry.starvedEvent at claimed
  rw [claimed]
  rfl

theorem starve_drops (refused : (s.starves e u pl).receiveClaim u = none) : s.starve e.index =
    (((s.starves e u pl).modifySubscribe e.index fun v => { v with placing := none }).bump
      .reorderDrops).freeBufferIfDone k := by
  have segment : s.heldSegment k = some g := by rw [State.heldSegment, held]
  unfold State.starve
  rw [there]
  dsimp only
  rw [role]
  dsimp only
  rw [placing]
  dsimp only
  rw [fed, source]
  dsimp only
  rw [segment, if_neg Bool.false_ne_true]
  unfold State.starves Entry.starvedEvent at refused
  rw [refused]
  rfl

end

/-! ### What a starvation leaves -/

/-- `t` has the entry `e` starved, with fields `v`; other subscribe entries are as in `s`, and so are the buffers and
what writes from them; RX_STARVED has told it. -/
structure StarvedAt (s t : State) (e : Entry) (v : SubscribeEntry) (l : List Request) (ev : Event) : Prop where
  entry : ∃ f, t.entryAt e.index = some f ∧ f.role = .subscribe v
  indexes : t.table.map (·.index) = s.table.map (·.index)
  others : ∀ g ∈ t.table, g.index ≠ e.index → ∃ h ∈ s.table, h.index = g.index ∧ h.subscribe? = g.subscribe?
  line : t.line = s.line
  first : t.port.firstClass = s.port.firstClass ++ l
  writes : ∀ source, t.port.outstanding (Request.writesFrom source) = s.port.outstanding (Request.writesFrom source)
  reports : s.reports t [ev]

theorem StarvedAt.modify {s t : State} {e : Entry} {v : SubscribeEntry} {l : List Request} {ev : Event}
    (h : StarvedAt s t e v l ev) (f : SubscribeEntry → SubscribeEntry) :
    StarvedAt s (t.modifySubscribe e.index f) e (f v) l ev := by
  obtain ⟨g, entry, role⟩ := h.entry
  have index := entryAt_index entry
  have moved := (AtEntry.refl entry).modifySubscribe role f
  refine ⟨⟨_, moved.entry, rfl⟩, moved.indexes.trans h.indexes, fun g' mem other => ?_, h.line, h.first, h.writes, h.reports⟩
  exact h.others g' (moved.others g' mem other) other

/-- `w` is `s` after the entry `e` has starved and left the staging buffer `k`, with fields `v`. -/
structure StarvedTo (s w : State) (e : Entry) (v : SubscribeEntry) (k : BufferId) (l : List Request) (ev : Event) : Prop where
  there : w.subscribeAt e.index = some v
  first : w.port.firstClass = s.port.firstClass ++ l
  reports : s.reports w [ev]
  written : s.port.outstanding (Request.writesFrom (.staging k)) = true → w.line = s.line
  freed : s.port.outstanding (Request.writesFrom (.staging k)) = false →
    (∀ f r, f ∈ s.table → f ≠ e → f.role = .subscribe r → r.places (.staging k) = false) → w.line.buffer k = .free

/-- The buffer is freed once it is not used; nothing else changes. -/
theorem StarvedAt.freeBuffer {s t : State} {e : Entry} {v : SubscribeEntry} {l : List Request} {ev : Event}
    (h : StarvedAt s t e v l ev) (nodup : (s.table.map (·.index)).Nodup) {k : BufferId}
      (away : v.places (.staging k) = false) :
    StarvedTo s (t.freeBufferIfDone k) e v k l ev ∧ (t.freeBufferIfDone k).pool = t.pool ∧
      (t.freeBufferIfDone k).counters = t.counters ∧ (t.freeBufferIfDone k).lists = t.lists := by
  obtain ⟨f, entry, role⟩ := h.entry
  obtain ⟨line, freed, -, kept, done⟩ := freeBufferIfDone_line s t e k f v nodup (h.writes _) h.line h.indexes entry role away
    h.others
  rw [freed]
  exact ⟨⟨subscribeAt_of_entry entry role, h.first, h.reports, kept, done⟩, rfl, rfl, rfl⟩

theorem role_of_subscribe? {e : Entry} {u : SubscribeEntry} (fields : e.subscribe? = some u) : e.role = .subscribe u := by
  unfold Entry.subscribe? at fields
  split at fields
  · exact nomatch fields
  · next v role => rw [role, Option.some.inj fields]

/-- A replay cell that leaves its queue does not touch it. -/
theorem StarvedAt.leaveReplay {s t : State} {e : Entry} {v : SubscribeEntry} {l : List Request} {ev : Event}
    (h : StarvedAt s t e v l ev) (c : AgedCell) : StarvedAt s (t.leaveReplay c) e v l ev := by
  have frame := CellFrame.leaveReplay t c
  obtain ⟨events, port, -, -, -⟩ := leaveReplay_leaves t c
  obtain ⟨f, entry, role⟩ := h.entry
  have same (r : State) : r.table.map (·.index) = (r.table.map Entry.still).map (·.1.1) := by
    rw [List.map_map]
    rfl
  refine ⟨?_, ?_, fun g mem other => ?_, frame.line.trans h.line, (congrArg HostPort.firstClass port).trans h.first,
    fun source => ?_,
    State.reports_congr rfl rfl events h.reports⟩
  · have kept := frame.at_still e.index
    rw [entry] at kept
    obtain ⟨g, found, still⟩ := Option.map_eq_some_iff.1 kept
    have sub : g.subscribe? = f.subscribe? := congrArg (·.2.2) still
    have fields : f.subscribe? = some v := by rw [Entry.subscribe?, role]
    exact ⟨g, found, role_of_subscribe? (sub.trans fields)⟩
  · rw [same, frame.entries, ← same]
    exact h.indexes
  · have inT : g.still ∈ t.table.map Entry.still := frame.entries ▸ List.mem_map_of_mem mem
    obtain ⟨g', mem', still⟩ := List.mem_map.1 inT
    have index : g'.index = g.index := congrArg (·.1.1) still
    obtain ⟨q, inS, at', sub⟩ := h.others g' mem' (by rw [index]; exact other)
    exact ⟨q, inS, at'.trans index, sub.trans (congrArg (·.2.2) still)⟩
  · rw [port]
    exact h.writes source

/-- The starvation recorded and told. -/
theorem AtEntry.starves {s t : State} {e f : Entry} {l : List Request} {u : SubscribeEntry} (h : AtEntry s t e.index f l)
    (role : f.role = .subscribe u) (silent : ∀ r ∈ l, ∀ source, Request.writesFrom source r = false) (pl : Placing) :
    StarvedAt s (t.starves f u pl) e (u.starving pl f.chain.lookAhead) l (f.starvedEvent u) ∧
      (t.starves f u pl).pool = s.pool ∧ (t.starves f u pl).lists = s.lists ∧
      (t.starves f u pl).counters = { s.counters with eventsLost := (t.starves f u pl).counters.eventsLost } ∧
      (t.starves f u pl).nextSerial = s.nextSerial ∧
      ∀ j, j ≠ e.index → (s.table.map (·.index)).Nodup → (t.starves f u pl).entryAt j = s.entryAt j := by
  have index : f.index = e.index := entryAt_index h.entry
  have recorded := h.modifySubscribe role fun v =>
    { v with starved := true, partPlaced := pl.placed, chainEnded := v.chainEnded || f.chain.lookAhead == .ended }
  have shape : t.starves f u pl = (t.modifySubscribe e.index fun v =>
      { v with starved := true, partPlaced := pl.placed, chainEnded := v.chainEnded || f.chain.lookAhead == .ended }).emit
      (f.starvedEvent u) := by rw [State.starves, index]
  rw [shape]
  generalize (t.modifySubscribe e.index fun v =>
    { v with starved := true, partPlaced := pl.placed, chainEnded := v.chainEnded || f.chain.lookAhead == .ended }) = r
    at recorded
  obtain ⟨unit, writes, lost, emitted, -⟩ := emit_shape r (f.starvedEvent u)
  have quiet (source : SegmentSource) : l.any (Request.writesFrom source) = false := List.any_eq_false.2 fun q mem => by
    rw [silent q mem source]
    exact Bool.false_ne_true
  have table := emit_table r (f.starvedEvent u)
  refine ⟨⟨⟨_, (congrArg (List.find? _) table).trans recorded.entry, rfl⟩, ?_, fun g mem other => ?_, ?_, ?_,
    fun source => ?_,
    State.reports_congr recorded.eventState recorded.fence rfl (State.reports_emit r _)⟩, ?_, ?_, ?_, ?_,
      fun j other nodup => ?_⟩
  · rw [table]
    exact recorded.indexes
  · rw [table] at mem
    exact ⟨g, recorded.others g mem other, rfl, rfl⟩
  · rw [emitted]
    exact recorded.line
  · rw [emitted]
    show r.port.firstClass = _
    rw [recorded.port]
  · rw [emit_outstanding, recorded.port]
    simp only [HostPort.outstanding, List.any_append, quiet, Bool.or_false]
  · rw [emitted]
    exact recorded.pool
  · rw [emitted]
    show r.lists = s.lists
    rw [recorded.eq]
  · rw [emitted]
    show ({ r.counters with eventsLost := lost } : Counters) = _
    rw [recorded.counters]
  · rw [emitted]
    show r.nextSerial = s.nextSerial
    rw [recorded.eq]
  · exact (congrArg (List.find? _) table).trans (recorded.entryAt_other nodup other)

/-- The counters of `s` but for the events lost on the way. -/
def State.countersBut (s w : State) : Counters := { s.counters with eventsLost := w.counters.eventsLost }

/-- The fields of a starving entry whose segment waits in a cell. -/
def SubscribeEntry.starvingIn (u : SubscribeEntry) (pl : Placing) (look : LookAhead) (g : StagedSegment) (c : Nat) :
    SubscribeEntry :=
  { u.starving pl look with waiting := g.inCell c :: u.waiting, placing := some { pl with source := .cell c } }

/-- The fields of a starving entry whose segment is dropped. -/
def SubscribeEntry.starvingWithout (u : SubscribeEntry) (pl : Placing) (look : LookAhead) : SubscribeEntry :=
  { u.starving pl look with placing := none }

section
variable {s t : State} {e f : Entry} {l : List Request} {u : SubscribeEntry} {pl : Placing} {k : BufferId} {g : StagedSegment}
  (h : AtEntry s t e.index f l) (role : f.role = .subscribe u) (nodup : (s.table.map (·.index)).Nodup)
  (placing : u.placing = some pl) (fed : u.starved = false)
  (source : pl.source = .staging k) (held : s.line.buffer k = .held g)
include h role nodup placing fed source held

/-- The segment waits in the cell of a claim. -/
theorem starve_into {c : Nat} {r : State} (claimed : (t.starves f u pl).receiveClaim u = some (c, r))
    (at' : StarvedAt s r e (u.starving pl f.chain.lookAhead) l (f.starvedEvent u)) :
    StarvedTo s (t.starve e.index) e (u.starvingIn pl f.chain.lookAhead g c) k l (f.starvedEvent u) ∧
      (t.starve e.index).pool = r.pool ∧ (t.starve e.index).counters = r.counters ∧ (t.starve e.index).lists = r.lists := by
  have index : f.index = e.index := entryAt_index h.entry
  have starves := starve_claims (s := t) (e := f) (g := g) (by rw [index]; exact h.entry) role placing fed source
    (by rw [h.line]; exact held) claimed
  rw [index] at starves
  rw [starves]
  exact (at'.modify fun v =>
    { v with waiting := g.inCell c :: v.waiting, placing := some { pl with source := .cell c } }).freeBuffer nodup rfl

/-- Without a cell it is dropped. -/
theorem starve_without (silent : ∀ r ∈ l, ∀ source, Request.writesFrom source r = false)
    (without : 8 ≤ u.written.length + u.waiting.length ∨ (s.pool.free = [] ∧ s.pool.aged = [])) :
    StarvedTo s (t.starve e.index) e (u.starvingWithout pl f.chain.lookAhead) k l (f.starvedEvent u) ∧
      (t.starve e.index).pool = s.pool ∧ (t.starve e.index).counters =
        { s.countersBut (t.starve e.index) with reorderDrops := s.counters.reorderDrops + 1 } := by
  have index : f.index = e.index := entryAt_index h.entry
  obtain ⟨at', pool, -, counters, -, -⟩ := h.starves role silent pl
  have starves := starve_drops (s := t) (e := f) (g := g) (by rw [index]; exact h.entry) role placing fed source
    (by rw [h.line]; exact held) (receiveClaim_none (by rw [pool]; exact without))
  rw [index] at starves
  obtain ⟨entry, indexes, others, line, first, writes, reports⟩ := at'.modify fun v => { v with placing := none }
  have dropped : StarvedAt s (((t.starves f u pl).modifySubscribe e.index fun v => { v with placing := none }).bump
      .reorderDrops) e (u.starvingWithout pl f.chain.lookAhead) l (f.starvedEvent u) :=
    ⟨entry, indexes, others, line, first, writes, reports⟩
  obtain ⟨starved, pool', counters', -⟩ := dropped.freeBuffer nodup (k := k) rfl
  rw [starves]
  refine ⟨starved, pool'.trans pool, ?_⟩
  rw [State.countersBut, counters']
  show { (t.starves f u pl).counters with reorderDrops := (t.starves f u pl).counters.reorderDrops + 1 } =
    { s.counters with eventsLost := (t.starves f u pl).counters.eventsLost, reorderDrops := s.counters.reorderDrops + 1 }
  rw [counters]

/-- With the free list's head it waits there. -/
theorem starve_free (silent : ∀ r ∈ l, ∀ source, Request.writesFrom source r = false)
    (room : u.written.length + u.waiting.length < 8) {c : Nat} {rest : List Nat} (free : s.pool.free = c :: rest) :
    StarvedTo s (t.starve e.index) e (u.starvingIn pl f.chain.lookAhead g c) k l (f.starvedEvent u) ∧
      (t.starve e.index).pool = { s.pool with free := rest } ∧
      (t.starve e.index).counters = s.countersBut (t.starve e.index) := by
  obtain ⟨at', pool, -, counters, -, -⟩ := h.starves role silent pl
  have claim := receiveClaim_room (w := t.starves f u pl) room
  rw [claimCell_free (by rw [pool]; exact free)] at claim
  obtain ⟨starved, pool', counters', -⟩ := starve_into h role nodup placing fed source held claim
    ⟨at'.entry, at'.indexes, at'.others, at'.line, at'.first, at'.writes, at'.reports⟩
  refine ⟨starved, pool'.trans (congrArg (fun p : Pool => { p with free := rest }) pool), ?_⟩
  rw [State.countersBut, counters']
  exact counters

/-- With an evicted cell it waits there. -/
theorem starve_aged (there : s.entryAt e.index = some e) (receives : e.subscribe?.isSome = true)
    (silent : ∀ r ∈ l, ∀ source, Request.writesFrom source r = false)
    (room : u.written.length + u.waiting.length < 8) (free : s.pool.free = []) {c : AgedCell} {rest : List AgedCell}
    (aged : s.pool.aged = c :: rest) :
    StarvedTo s (t.starve e.index) e (u.starvingIn pl f.chain.lookAhead g c.cell) k l (f.starvedEvent u) ∧
      (t.starve e.index).pool = { s.pool with aged := s.pool.aged.filter (fun d => d.cell != c.cell) } ∧
      (t.starve e.index).counters =
        { s.countersBut (t.starve e.index) with replayEvictions := s.counters.replayEvictions + 1 } ∧
      ∀ f q d, s.entryAt c.index = some f → f.role = .publish q →
        q.replayQueue.find? (fun d => d.cell == c.cell) = some d →
        (t.starve e.index).lists = s.listsWithout c.index f.stream d.sequence := by
  obtain ⟨at', pool, lists, counters, serial, elsewhere⟩ := h.starves role silent pl
  have claim := receiveClaim_room (w := t.starves f u pl) room
  rw [claimCell_aged (by rw [pool]; exact free) (by rw [pool]; exact aged)] at claim
  have left := at'.leaveReplay c
  obtain ⟨-, -, evicted, uncounted, unlisted⟩ := leaveReplay_leaves (t.starves f u pl) c
  obtain ⟨starved, pool', counters', lists'⟩ := starve_into h role nodup placing fed source held claim
    ⟨left.entry, left.indexes, left.others, left.line, left.first, left.writes, left.reports⟩
  refine ⟨starved, pool'.trans (evicted.trans ?_), ?_, fun p q d found publishes cell => ?_⟩
  · rw [pool]
  · rw [State.countersBut, counters']
    show { ((t.starves f u pl).leaveReplay c).counters with
        replayEvictions := ((t.starves f u pl).leaveReplay c).counters.replayEvictions + 1 } =
      { s.counters with
        eventsLost := ((t.starves f u pl).leaveReplay c).counters.eventsLost
        replayEvictions := s.counters.replayEvictions + 1 }
    rw [uncounted, counters]
  · have other : c.index ≠ e.index := fun same => by
      have eq : e = p := Option.some.inj (there.symm.trans (same ▸ found))
      rw [eq, Entry.subscribe?, publishes] at receives
      exact Bool.false_ne_true receives
    refine (lists'.trans (unlisted p q d ((elsewhere c.index other nodup).trans found) publishes cell)).trans ?_
    rw [State.listsWithout, State.listsWithout, lists, serial]

/-- What a starvation with its segment in a staging buffer leaves. -/
theorem starve_staged (there : s.entryAt e.index = some e) (receives : e.subscribe?.isSome = true)
    (silent : ∀ r ∈ l, ∀ source, Request.writesFrom source r = false) :
    ∃ v, StarvedTo s (t.starve e.index) e v k l (f.starvedEvent u) ∧
      v = { u.starving pl f.chain.lookAhead with waiting := v.waiting, placing := v.placing } ∧
      (∀ c rest, s.pool.free = c :: rest → u.written.length + u.waiting.length < 8 →
        (v.waiting = g.inCell c :: u.waiting ∧ v.placing = some { pl with source := .cell c }) ∧
          (t.starve e.index).pool = { s.pool with free := rest } ∧
          (t.starve e.index).counters = s.countersBut (t.starve e.index)) ∧
      (∀ c rest, s.pool.free = [] → s.pool.aged = c :: rest → u.written.length + u.waiting.length < 8 →
        (v.waiting = g.inCell c.cell :: u.waiting ∧ v.placing = some { pl with source := .cell c.cell }) ∧
          (t.starve e.index).pool = { s.pool with aged := s.pool.aged.filter (fun d => d.cell != c.cell) } ∧
          (t.starve e.index).counters =
            { s.countersBut (t.starve e.index) with replayEvictions := s.counters.replayEvictions + 1 } ∧
          ∀ f q d, s.entryAt c.index = some f → f.role = .publish q →
            q.replayQueue.find? (fun d => d.cell == c.cell) = some d →
            (t.starve e.index).lists = s.listsWithout c.index f.stream d.sequence) ∧
      (8 ≤ u.written.length + u.waiting.length ∨ (s.pool.free = [] ∧ s.pool.aged = []) →
        v.waiting = u.waiting ∧ v.placing = none ∧ (t.starve e.index).pool = s.pool ∧
          (t.starve e.index).counters =
            { s.countersBut (t.starve e.index) with reorderDrops := s.counters.reorderDrops + 1 }) := by
  by_cases full : 8 ≤ u.written.length + u.waiting.length
  · obtain ⟨starved, left⟩ := starve_without h role nodup placing fed source held silent (.inl full)
    exact ⟨_, starved, rfl, fun _ _ _ room => absurd full (Nat.not_le.2 room),
      fun _ _ _ _ room => absurd full (Nat.not_le.2 room), fun _ => ⟨rfl, rfl, left⟩⟩
  · have room := Nat.not_le.1 full
    cases free : s.pool.free with
    | cons c rest =>
      obtain ⟨starved, left⟩ := starve_free h role nodup placing fed source held silent room free
      refine ⟨_, starved, rfl, fun c' rest' eq _ => ?_, nofun, fun without => (without.elim full fun n => nomatch n.1).elim⟩
      obtain ⟨rfl, rfl⟩ := List.cons.inj eq
      exact ⟨⟨rfl, rfl⟩, left⟩
    | nil =>
      cases aged : s.pool.aged with
      | cons c rest =>
        obtain ⟨starved, left⟩ := starve_aged h role nodup placing fed source held there receives silent room free aged
        refine ⟨_, starved, rfl, nofun, fun c' rest' _ eq _ => ?_, fun without =>
          (without.elim full fun n => nomatch n.2).elim⟩
        obtain ⟨rfl, rfl⟩ := List.cons.inj eq
        exact ⟨⟨rfl, rfl⟩, aged ▸ left⟩
      | nil =>
        obtain ⟨starved, left⟩ := starve_without h role nodup placing fed source held silent (.inr ⟨free, aged⟩)
        exact ⟨_, starved, rfl, nofun, nofun, fun _ => ⟨rfl, rfl, left⟩⟩

end

end Machine
end Sys2Proof
end

section
/-! An in-order segment placed at the write offset (R111, R114, R115, R117). -/

namespace Sys2Proof
namespace Machine

/-! ### A segment whose last byte is placed -/

/-- The fields `v` of an entry with fields `u`, once the rest of a segment at `x` is placed in the descriptor at `a` and
no block closes with it. -/
structure SubscribeEntry.PlacedIn (u v : SubscribeEntry) (x : Seq) (a : Word) (d : Descriptor) (pl : Placing) : Prop where
  expected : v.expected = some (x + 1)
  placing : v.placing = none
  part : v.partPlaced = 0
  starved : v.starved = false
  waiting : v.waiting = u.waiting.filter fun c => pl.source != .cell c.cell
  written : v.written = u.written ++ u.waiting.filter fun c => pl.source == .cell c.cell
  offset : v.writeOffset = u.writeOffset + (pl.length - pl.placed)
  block : v.block = some (u.blockWith a pl (pl.length - pl.placed))
  first : v.firstOfBlock = (u.firstOfBlock || u.block.isNone)
  sequence : v.descriptorSequence = some (u.descriptorSequence.getD pl.sequence)
  takes : v.takesFrames = u.takesFrames

theorem SubscribeEntry.PlacedIn.unplaced {u v : SubscribeEntry} {p : Option Placing} {n : Nat} {x : Seq} {a : Word}
    {d : Descriptor} {pl : Placing} (h : SubscribeEntry.PlacedIn
      { u with placing := p, partPlaced := n } v x a d pl) : u.PlacedIn v x a d pl :=
  ⟨h.expected, h.placing, h.part, h.starved, h.waiting, h.written, h.offset, h.block, h.first, h.sequence, h.takes⟩

theorem SubscribeEntry.advance_takesFrames (u : SubscribeEntry) : u.advance.takesFrames = u.takesFrames := by
  unfold SubscribeEntry.advance
  split
  · rw [settleRepair_shape]
    rfl
  · rfl

theorem SubscribeEntry.segmentEnded_takesFrames (u : SubscribeEntry) (source : SegmentSource) :
    (u.segmentEnded source).takesFrames = u.takesFrames := by
  cases source <;> rfl

theorem SubscribeEntry.placedIn_of_fits {u : SubscribeEntry} {x : Seq} {a : Word} {d : Descriptor} {pl : Placing}
    (expected : u.expected = some x) (fits : u.writeOffset + (pl.length - pl.placed) ≤ d.length) :
    u.PlacedIn ((u.withPiece a d pl).segmentEnded pl.source).advance x a d pl := by
  have piece : u.pieceLength d pl = pl.length - pl.placed := Nat.min_eq_left (by omega)
  obtain ⟨exp, plac, fed, wait, writ, offs, blk, fst, seq⟩ := (u.withPiece a d pl).segmentEnded_fields pl.source
  obtain ⟨exp', part, plac', fed', wait', writ', offs', blk', fst', seq'⟩ :=
    ((u.withPiece a d pl).segmentEnded pl.source).advance_fields x (exp.trans expected)
  exact ⟨exp', plac'.trans plac, part, fed'.trans fed, wait'.trans wait, writ'.trans writ,
    (offs'.trans offs).trans (by rw [← piece]; rfl), (blk'.trans blk).trans (by rw [← piece]; rfl), fst'.trans fst,
    seq'.trans seq, by rw [SubscribeEntry.advance_takesFrames, SubscribeEntry.segmentEnded_takesFrames]; rfl⟩

/-- The write of what is left of a segment. -/
def SubscribeEntry.restWrite (u : SubscribeEntry) (i : Nat) (a : Word) (d : Descriptor) (pl : Placing) : Request :=
  .rxPayload i pl.source a (BitVec.ofNat 32 (d.buffer.toNat + u.writeOffset)) pl.placed (pl.length - pl.placed)

/-- The write-back that closes the block of a segment with LAST, once what is left of it is placed. -/
def SubscribeEntry.restWriteBack (u : SubscribeEntry) (i : Nat) (a : Word) (pl : Placing) : Request :=
  .rxWriteBack i
    { descriptor := a, used := u.writeOffset + (pl.length - pl.placed), start := u.firstOfBlock || u.block.isNone
      endFlag := true, status := .ok, sequence := u.descriptorSequence.getD pl.sequence
      closes := some (u.blockWith a pl (pl.length - pl.placed)) }

section
variable {s t : State} {i : Nat} {f : Entry} {l : List Request} {u : SubscribeEntry} {pl : Placing} {a : Word}
  {d : Descriptor} {x : Seq} (h : AtEntry s t i f l) (role : f.role = .subscribe u) (takes : u.takesFrames = true)
  (placing : u.placing = some pl) (left : pl.placed < pl.length) (current : f.chain.current = .held a d)
  (opens : (u.block.isSome || pl.first) = true) (expected : u.expected = some x)
  (fits : u.writeOffset + (pl.length - pl.placed) ≤ d.length)
  (inside : s.fence.contains (d.buffer.toNat + u.writeOffset) (pl.length - pl.placed) = true)
include h role takes placing left current opens expected fits inside

/-- Without LAST the segment ends in the descriptor. -/
theorem placeRounds_ends (last : pl.last = false) (n : Nat) :
    ∃ t' v, placeRounds i (n + 2) t = placeRounds i n t' ∧
      AtEntry s t' i { f with role := .subscribe v } (l ++ [u.restWrite i a d pl]) ∧ u.PlacedIn v x a d pl := by
  have piece : u.pieceLength d pl = pl.length - pl.placed := Nat.min_eq_left (by omega)
  have write : u.pieceWrite i a d pl = u.restWrite i a d pl := by
    rw [SubscribeEntry.pieceWrite, piece, SubscribeEntry.restWrite]
  obtain ⟨t', rounds, placed⟩ := placeRounds_inner h role takes placing left current opens fits inside last n
  rw [write] at placed
  exact ⟨t', _, rounds, placed, SubscribeEntry.placedIn_of_fits expected fits⟩

/-- And placing stops after it, with no other segment at the next sequence. -/
theorem placeRounds_ends_stops (last : pl.last = false)
    (stops : ∀ c rest, (u.waiting.filter fun c => pl.source != .cell c.cell) = c :: rest → c.sequence ≠ x + 1) (n : Nat) :
    ∃ v, AtEntry s (placeRounds i (n + 2) t) i { f with role := .subscribe v } (l ++ [u.restWrite i a d pl]) ∧
      u.PlacedIn v x a d pl := by
  obtain ⟨t', v, rounds, placed, fields⟩ :=
    placeRounds_ends h role takes placing left current opens expected fits inside last n
  rw [rounds, placeRounds_stop t' i _ v (x + 1) placed.entry rfl fields.placing fields.starved fields.expected
    (fun c rest eq => stops c rest (fields.waiting.symm.trans eq)) n]
  exact ⟨v, placed, fields⟩

/-- With LAST its block closes OK with it. -/
theorem placeRounds_closes (last : pl.last = true)
    (stops : ∀ c rest, (u.waiting.filter fun c => pl.source != .cell c.cell) = c :: rest → c.sequence ≠ x + 1) (n : Nat) :
    ∃ v, AtEntry s (placeRounds i (n + 2) t) i { f with role := .subscribe v, chain := f.chain.finished s.fence }
        (l ++ u.restWrite i a d pl :: u.restWriteBack i a pl :: f.chain.finishReads s.fence i) ∧
      v.expected = some (x + 1) ∧ v.placing = none ∧ v.block = none ∧ v.writeOffset = 0 := by
  have piece : u.pieceLength d pl = pl.length - pl.placed := Nat.min_eq_left (by omega)
  have write : u.pieceWrite i a d pl = u.restWrite i a d pl := by
    rw [SubscribeEntry.pieceWrite, piece, SubscribeEntry.restWrite]
  have back : (u.withPiece a d pl).closingWrite i a .ok (u.blockWith a pl (u.pieceLength d pl)) =
      u.restWriteBack i a pl := by
    rw [piece, SubscribeEntry.restWriteBack, ← piece]
    rfl
  obtain ⟨t', rounds, placed⟩ := placeRounds_last h role takes placing left current opens fits inside last n
  rw [write, back] at placed
  obtain ⟨exp, plac, fed, wait, -⟩ := (u.withPiece a d pl).segmentEnded_fields pl.source
  obtain ⟨exp', -, plac', fed', wait', -, offs', blk', -⟩ :=
    ((u.withPiece a d pl).segmentEnded pl.source).blockClosed.advance_fields x (exp.trans expected)
  rw [rounds, placeRounds_stop t' i _ _ (x + 1) placed.entry rfl (plac'.trans plac) (fed'.trans fed) exp'
    (fun c rest eq => stops c rest ((wait'.trans wait).symm.trans eq)) n]
  exact ⟨_, placed, exp', plac'.trans plac, blk', offs'⟩

end

theorem Fence.linkReads_zero (f : Fence) (i : Nat) {link : Word} (none : link = 0) :
    f.lookAheadFor link = .ended ∧ f.linkReads i link = [] := by
  have ended : f.lookAheadFor link = .ended := by rw [Fence.lookAheadFor, if_pos none]
  refine ⟨ended, ?_⟩
  rw [Fence.linkReads, ended, if_neg nofun]

/-- Where the descriptor is full the segment goes on in the HELD look-ahead, a last one, and ends there. -/
theorem placeRounds_moves {s t : State} {e f : Entry} {l : List Request} {u : SubscribeEntry} {pl : Placing} {a a' : Word}
    {d d' : Descriptor} {x : Seq} {b : OpenBlock} (h : AtEntry s t e.index f l) (role : f.role = .subscribe u)
    (same : f.chain = e.chain) (takes : u.takesFrames = true)
    (placing : u.placing = some pl) (left : pl.placed < pl.length) (current : e.chain.current = .held a d)
    (full : d.length ≤ u.writeOffset) (look : e.chain.lookAhead = .held a' d') (link : d'.link = 0)
    (block : u.block = some b) (expected : u.expected = some x) (fits : pl.length - pl.placed ≤ d'.length)
    (inside : s.fence.contains d'.buffer.toNat (pl.length - pl.placed) = true) (last : pl.last = false)
    (stops : ∀ c rest, (u.waiting.filter fun c => pl.source != .cell c.cell) = c :: rest → c.sequence ≠ x + 1) (n : Nat) :
    ∃ v, AtEntry s (placeRounds e.index (n + 3) t) e.index
        { f with role := .subscribe v, chain := { e.chain with current := .held a' d', lookAhead := .ended } }
        (l ++ [.rxWriteBack e.index
          { descriptor := a, used := d.length, start := u.firstOfBlock, endFlag := false, status := .ok
            sequence := u.descriptorSequence.getD b.sequence, closes := none },
          .rxPayload e.index pl.source a' d'.buffer pl.placed (pl.length - pl.placed)]) ∧
      u.freshDescriptor.PlacedIn v x a' d' pl := by
  have round := placeRounds_full t e.index f u pl (n + 2) h.entry role takes placing left
    (.inr ⟨a, d, by rw [same]; exact current, full⟩)
  rw [same, look] at round
  obtain ⟨ended, unread⟩ := s.fence.linkReads_zero e.index link
  have moved := h.takeHeld role (congrArg Chain.current same) a' d'
  rw [ended, unread, same, List.append_nil, Entry.leaving, block, current] at moved
  have begins : (u.freshDescriptor.block.isSome || pl.first) = true := by
    show (u.block.isSome || pl.first) = true
    rw [block]
    rfl
  obtain ⟨v, placed, fields⟩ := placeRounds_ends_stops moved rfl takes placing left rfl begins expected
    (by show 0 + _ ≤ _; rw [Nat.zero_add]; exact fits) inside last stops n
  have write : u.freshDescriptor.restWrite e.index a' d' pl =
      .rxPayload e.index pl.source a' d'.buffer pl.placed (pl.length - pl.placed) := by
    show Request.rxPayload _ _ _ (BitVec.ofNat 32 d'.buffer.toNat) _ _ = _
    rw [BitVec.ofNat_toNat, BitVec.setWidth_eq]
  rw [write, List.append_assoc] at placed
  rw [round]
  exact ⟨v, placed, fields⟩

/-! ### The state that starts to place -/

/-- The segment in a staging buffer as one that is placed, from a byte. -/
def StagedSegment.asPlacing (g : StagedSegment) (k : BufferId) (placed : Nat) : Placing :=
  ⟨.staging k, g.sequence, g.first, g.last, g.sender, g.bytes.length, placed⟩

theorem takeInOrder_starts {s : State} {i : Nat} {u : SubscribeEntry} (there : s.subscribeAt i = some u)
    (fed : u.starved = false) {g : StagedSegment} (begins : (u.block.isSome || g.first) = true) (k : BufferId) :
    s.takeInOrder i k g = (s.startPlacing i u (g.asPlacing k 0)).placeOn i := by
  unfold State.takeInOrder
  rw [there]
  dsimp only
  rw [fed, if_neg Bool.false_ne_true, if_pos begins]
  rfl

/-- The segment continues the open block, or opens one. -/
def StagedSegment.Opens (g : StagedSegment) (u : SubscribeEntry) : Prop :=
  (g.first = false ∧ u.block.isSome = true) ∨ (g.first = true ∧ u.block = none)

theorem StagedSegment.Opens.begins {g : StagedSegment} {u : SubscribeEntry} (opens : g.Opens u) :
    (u.block.isSome || g.first) = true := by
  rcases opens with ⟨-, block⟩ | ⟨first, -⟩
  · rw [block, Bool.true_or]
  · rw [first, Bool.or_true]

theorem StagedSegment.Opens.unopened {g : StagedSegment} {u : SubscribeEntry} (opens : g.Opens u) (first : g.first = true) :
    u.block = none := by
  rcases opens with ⟨inner, -⟩ | ⟨-, block⟩
  · exact nomatch inner.symm.trans first
  · exact block

/-- The fields of an entry that places the segment in a staging buffer. -/
def SubscribeEntry.placingStaged (u : SubscribeEntry) (k : BufferId) (g : StagedSegment) : SubscribeEntry :=
  { u with placing := some (g.asPlacing k u.partPlaced) }

end Machine
end Sys2Proof
end

section
/-! How the placing of an in-order segment goes by the chain (R111, R115, R117, R119, R138, R142, R144). -/

namespace Sys2Proof
namespace Machine

theorem filter_staging (k : BufferId) (list : List ReorderCell) :
    (list.filter fun c => SegmentSource.staging k != .cell c.cell) = list ∧
      (list.filter fun c => SegmentSource.staging k == .cell c.cell) = [] :=
  ⟨List.filter_eq_self.2 fun _ _ => rfl, List.filter_eq_nil_iff.2 fun _ _ => Bool.false_ne_true⟩

theorem SubscribeEntry.blockWith_add (u : SubscribeEntry) (a : Word) (pl : Placing) (m n : Nat) :
    { u.blockWith a pl m with bytes := (u.blockWith a pl m).bytes + n } = u.blockWith a pl (m + n) := by
  unfold SubscribeEntry.blockWith
  cases u.block with
  | none => rfl
  | some b => exact congrArg (fun bytes => { b with bytes := bytes }) (Nat.add_assoc _ _ _)

theorem unplaced_of_placingFrom {s : State} {k : BufferId} (none : s.placingFrom k = false) {f : Entry} {r : SubscribeEntry}
    (mem : f ∈ s.table) (role : f.role = .subscribe r) : r.places (.staging k) = false := by
  have here := List.any_eq_false.1 none f mem
  rw [Entry.subscribe?, role] at here
  exact Bool.eq_false_iff.2 here

theorem isFaulted_faulted (u : SubscribeEntry) : u.faulted.isFaulted := ⟨rfl, rfl, rfl, rfl, rfl, rfl⟩

section
variable {s : State} {e : Entry} {u : SubscribeEntry} {k : BufferId} {g : StagedSegment} (there : s.entryAt e.index = some e)
  (role : e.role = .subscribe u) (takes : u.takesFrames = true) (expected : u.expected = some g.sequence)
  (placing : u.placing = none) (fed : u.starved = false) (opens : g.Opens u)
include there role expected placing fed opens

/-- It becomes the segment that is being placed, and placing goes on. -/
theorem takeSegment_starts : ∃ t, s.takeSegment e.index k g = placeRounds e.index 64 t ∧
    AtEntry s t e.index { e with role := .subscribe (u.placingStaged k g) } [] ∧
    t = s.modifySubscribe e.index fun v => { v with placing := some (g.asPlacing k u.partPlaced) } := by
  have at' := subscribeAt_of_entry there role
  refine ⟨_, ?_, (AtEntry.refl there).startsPlacing role (pl := g.asPlacing k 0) opens.unopened,
    startPlacing_eq there role opens.unopened⟩
  rw [takeSegment_inOrder at' expected rfl placing (.inl fed), takeInOrder_starts at' fed opens.begins]
  rfl

include takes

/-- The next piece would leave the fence. -/
theorem takeSegment_outside {a : Word} {d : Descriptor} (left : u.partPlaced < g.bytes.length)
    (current : e.chain.current = .held a d) (room : u.writeOffset < d.length)
    (outside : s.fence.contains (d.buffer.toNat + u.writeOffset)
      (min (g.bytes.length - u.partPlaced) (d.length - u.writeOffset)) = false) :
    (∃ v, (s.takeSegment e.index k g).subscribeAt e.index = some v ∧ v.isFaulted) ∧
      s.reports (s.takeSegment e.index k g) [streamEvent .streamFault 2 e.stream (u.publisher.getD 0)
        g.sequence.toNat (min (g.bytes.length - u.partPlaced) (d.length - u.writeOffset)) a] := by
  obtain ⟨t, taken, started, -⟩ := takeSegment_starts (k := k) there role expected placing fed opens
  have piece := placeRounds_piece t e.index _ (u.placingStaged k g)
    (g.asPlacing k u.partPlaced) a d 63 started.entry rfl takes
    rfl left current room
  have begins : ((u.placingStaged k g).block.isSome || (g.asPlacing k u.partPlaced).first) = true := opens.begins
  have faults := placePiece_outside (u := u.placingStaged k g) started a d (g.asPlacing k u.partPlaced) outside
  rw [if_pos begins, faults] at piece
  obtain ⟨faulted, told⟩ := faultEntry_subscribe t e.index _ (u.placingStaged k g) started.entry rfl
    ((takesFrames_iff u).1 takes).2 .fence (min (g.bytes.length - u.partPlaced) (d.length - u.writeOffset)) a
  have synced : (u.placingStaged k g).expected = some g.sequence := expected
  rw [synced] at told
  have final := taken.trans (piece.trans (placeRounds_faulted _ e.index 63 faulted rfl))
  rw [final]
  refine ⟨⟨_, faulted, isFaulted_faulted _⟩, ?_⟩
  exact State.reports_congr started.eventState started.fence rfl told

section
variable {a : Word} {d : Descriptor} (left : u.partPlaced < g.bytes.length)
  (current : e.chain.current = .held a d) (fits : u.writeOffset + (g.bytes.length - u.partPlaced) ≤ d.length)
  (inside : s.fence.contains (d.buffer.toNat + u.writeOffset) (g.bytes.length - u.partPlaced) = true)
include left current fits inside

/-- A segment without LAST that fits is placed whole. -/
theorem takeSegment_fits (waiting : u.waiting = []) (last : g.last = false) :
    ∃ v, AtEntry s (s.takeSegment e.index k g) e.index { e with role := .subscribe v }
        [u.restWrite e.index a d (g.asPlacing k u.partPlaced)] ∧
      u.PlacedIn v g.sequence a d (g.asPlacing k u.partPlaced) := by
  obtain ⟨t, taken, started, -⟩ := takeSegment_starts (k := k) there role expected placing fed opens
  obtain ⟨v, placed, fields⟩ := placeRounds_ends_stops started rfl takes rfl left current opens.begins expected fits inside
    last
    (fun _ _ eq => nomatch waiting.symm.trans ((filter_staging k u.waiting).1.symm.trans eq)) 62
  rw [taken]
  exact ⟨v, placed, fields.unplaced⟩

/-- One with LAST closes its block OK. -/
theorem takeSegment_closes (waiting : u.waiting = []) (last : g.last = true) :
    ∃ v, AtEntry s (s.takeSegment e.index k g) e.index
        { e with role := .subscribe v, chain := e.chain.finished s.fence }
        (u.restWrite e.index a d (g.asPlacing k u.partPlaced) ::
          u.restWriteBack e.index a (g.asPlacing k u.partPlaced) :: e.chain.finishReads s.fence e.index) ∧
      v.expected = some (g.sequence + 1) ∧ v.placing = none ∧ v.block = none ∧ v.writeOffset = 0 := by
  obtain ⟨t, taken, started, -⟩ := takeSegment_starts (k := k) there role expected placing fed opens
  rw [taken]
  exact placeRounds_closes started rfl takes rfl left current opens.begins expected fits inside
    last
    (fun _ _ eq => nomatch waiting.symm.trans ((filter_staging k u.waiting).1.symm.trans eq)) 62

/-- The first waiting segment stands next to it, and is placed behind it. -/
theorem takeSegment_drains {c : ReorderCell} (waiting : u.waiting = [c]) (last : g.last = false)
    (next : c.sequence = g.sequence + 1) (inner : c.first = false) (more : c.last = false) (some : 1 ≤ c.bytes.length)
    (both : u.writeOffset + (g.bytes.length - u.partPlaced) + c.bytes.length ≤ d.length)
    (within : s.fence.contains (d.buffer.toNat + (u.writeOffset + (g.bytes.length - u.partPlaced))) c.bytes.length = true) :
    ∃ v r, AtEntry s (s.takeSegment e.index k g) e.index { e with role := .subscribe r }
        [u.restWrite e.index a d (g.asPlacing k u.partPlaced), v.restWrite e.index a d c.asPlacing] ∧
      u.PlacedIn v g.sequence a d (g.asPlacing k u.partPlaced) ∧ v.PlacedIn r c.sequence a d c.asPlacing := by
  obtain ⟨t, taken, started, -⟩ := takeSegment_starts (k := k) there role expected placing fed opens
  obtain ⟨t₁, v, rounds, placed, fields⟩ :=
    placeRounds_ends started rfl takes rfl left current opens.begins expected fits inside last 62
  have waits : v.waiting = [c] := fields.waiting.trans ((filter_staging k _).1.trans waiting)
  have here : v.expected = .some c.sequence := fields.expected.trans (congrArg Option.some next.symm)
  have takes' : v.takesFrames = true := fields.takes.trans takes
  have begins : (v.block.isSome || c.first) = true := by
    rw [fields.block]
    rfl
  have round := placeRounds_waiting placed.entry rfl takes' fields.placing fields.starved waits here 61
  rw [if_pos begins] at round
  have next' := placed.startsPlacing rfl (pl := c.asPlacing) fun first => nomatch inner.symm.trans first
  rw [fields.part] at next'
  obtain ⟨r, final, fields'⟩ := placeRounds_ends_stops next' rfl takes' rfl some current begins here
    (by rw [fields.offset]; exact both) (by rw [fields.offset]; exact within) more
    (fun b rest eq => by
      rw [waits] at eq
      exact nomatch (filter_cell_self (c := c) (rest := []) nofun).2.symm.trans eq) 59
  rw [taken, rounds, round]
  exact ⟨v, r, final, fields.unplaced, fields'.unplaced⟩

end

/-- It fills the descriptor and goes on in the HELD look-ahead. -/
theorem takeSegment_splits {a a' : Word} {d d' : Descriptor} (whole : u.partPlaced = 0) (waiting : u.waiting = [])
    (last : g.last = false) (current : e.chain.current = .held a d) (look : e.chain.lookAhead = .held a' d')
    (link : d'.link = 0) (room : u.writeOffset < d.length) (beyond : d.length < u.writeOffset + g.bytes.length)
    (fits : u.writeOffset + g.bytes.length ≤ d.length + d'.length)
    (inside : s.fence.contains (d.buffer.toNat + u.writeOffset) (d.length - u.writeOffset) = true)
    (within : s.fence.contains d'.buffer.toNat (g.bytes.length - (d.length - u.writeOffset)) = true) :
    ∃ v, AtEntry s (s.takeSegment e.index k g) e.index
        { e with role := .subscribe v, chain := { e.chain with current := .held a' d', lookAhead := .ended } }
        [.rxPayload e.index (.staging k) a (BitVec.ofNat 32 (d.buffer.toNat + u.writeOffset)) 0 (d.length - u.writeOffset),
          .rxWriteBack e.index
            { descriptor := a, used := d.length, start := u.firstOfBlock || u.block.isNone, endFlag := false,
              status := .ok, sequence := u.descriptorSequence.getD g.sequence, closes := none },
          .rxPayload e.index (.staging k) a' d'.buffer (d.length - u.writeOffset)
            (g.bytes.length - (d.length - u.writeOffset))] ∧
      v.expected = some (g.sequence + 1) ∧ v.placing = none ∧
      v.writeOffset = g.bytes.length - (d.length - u.writeOffset) ∧ v.firstOfBlock = false ∧
      v.descriptorSequence = some g.sequence ∧ v.block = some (u.blockWith a (g.asPlacing k 0) g.bytes.length) := by
  obtain ⟨t, taken, started, -⟩ := takeSegment_starts (k := k) there role expected placing fed opens
  have fields : u.placingStaged k g = { u with placing := some (g.asPlacing k 0) } := by
    rw [SubscribeEntry.placingStaged, whole]
  rw [fields] at started
  have piece : SubscribeEntry.pieceLength { u with placing := some (g.asPlacing k 0) } d (g.asPlacing k 0) =
      d.length - u.writeOffset := Nat.min_eq_right (show d.length - u.writeOffset ≤ g.bytes.length - 0 by omega)
  obtain ⟨t₁, first, placed⟩ := placeRounds_places started rfl takes rfl (show 0 < g.bytes.length by omega) current
    opens.begins room (by rw [piece]; exact inside) 63
  obtain ⟨v, moved, fields⟩ := placeRounds_moves (e := e) placed rfl rfl takes rfl
    (show 0 + _ < g.bytes.length by rw [piece]; omega) current
      (show d.length ≤ u.writeOffset + _ by rw [piece]; omega) look link
    rfl expected (show g.bytes.length - (0 + _) ≤ d'.length by rw [piece]; omega)
    (show s.fence.contains _ (g.bytes.length - (0 + _)) = true by rw [piece, Nat.zero_add]; exact within) last
    (fun _ _ eq => nomatch waiting.symm.trans ((filter_staging k u.waiting).1.symm.trans eq)) 60
  rw [taken, first]
  refine ⟨v, ?_, fields.expected, fields.placing, ?_, ?_, ?_, ?_⟩
  · have one : SubscribeEntry.pieceWrite { u with placing := some (g.asPlacing k 0) } e.index a d (g.asPlacing k 0) =
        .rxPayload e.index (.staging k) a (BitVec.ofNat 32 (d.buffer.toNat + u.writeOffset)) 0
          (d.length - u.writeOffset) := by
      rw [SubscribeEntry.pieceWrite, piece]
      rfl
    have two (m : Nat) (eq : m = d.length - u.writeOffset) :
        Request.rxPayload e.index (.staging k) a' d'.buffer (0 + m) (g.bytes.length - (0 + m)) =
          .rxPayload e.index (.staging k) a' d'.buffer (d.length - u.writeOffset)
            (g.bytes.length - (d.length - u.writeOffset)) := by
      rw [eq, Nat.zero_add]
    exact Eq.mp (congrArg₂ (fun p q => AtEntry s _ e.index _ [p, _, q]) one (two _ piece)) moved
  · exact fields.offset.trans (by show 0 + (g.bytes.length - (0 + _)) = _; rw [piece, Nat.zero_add, Nat.zero_add])
  · exact fields.first
  · exact fields.sequence
  · refine fields.block.trans (congrArg some ((u.blockWith_add a (g.asPlacing k 0) _ (g.bytes.length - (0 + _))).trans ?_))
    rw [piece]
    exact congrArg (u.blockWith a _) (by omega)

/-- With the descriptor full on arrival it is placed in the HELD look-ahead. -/
theorem takeSegment_moves {a a' : Word} {d d' : Descriptor} {b : OpenBlock} (left : u.partPlaced < g.bytes.length)
    (waiting : u.waiting = []) (last : g.last = false) (current : e.chain.current = .held a d)
    (look : e.chain.lookAhead = .held a' d') (link : d'.link = 0) (full : d.length ≤ u.writeOffset) (block : u.block = some b)
    (fits : g.bytes.length - u.partPlaced ≤ d'.length)
    (inside : s.fence.contains d'.buffer.toNat (g.bytes.length - u.partPlaced) = true) :
    ∃ v, AtEntry s (s.takeSegment e.index k g) e.index
        { e with role := .subscribe v, chain := { e.chain with current := .held a' d', lookAhead := .ended } }
        [.rxWriteBack e.index
          { descriptor := a, used := d.length, start := u.firstOfBlock, endFlag := false, status := .ok
            sequence := u.descriptorSequence.getD b.sequence, closes := none },
          .rxPayload e.index (.staging k) a' d'.buffer u.partPlaced (g.bytes.length - u.partPlaced)] ∧
      u.freshDescriptor.PlacedIn v g.sequence a' d' (g.asPlacing k u.partPlaced) := by
  obtain ⟨t, taken, started, -⟩ := takeSegment_starts (k := k) there role expected placing fed opens
  obtain ⟨v, moved, fields⟩ := placeRounds_moves (e := e) started rfl rfl takes rfl left current full look link block expected
    fits inside last (fun _ _ eq => nomatch waiting.symm.trans ((filter_staging k u.waiting).1.symm.trans eq)) 61
  rw [taken]
  exact ⟨v, moved, SubscribeEntry.PlacedIn.unplaced (u := u.freshDescriptor) fields⟩

/-- All its bytes have been placed before: its placing ends at once. -/
theorem takeSegment_done (indexes : (s.table.map (·.index)).Nodup) (done : g.bytes.length ≤ u.partPlaced)
    (waiting : u.waiting = []) (last : g.last = false) :
    ∃ v, (s.takeSegment e.index k g).port = s.port ∧ (s.takeSegment e.index k g).pool = s.pool ∧
      (s.takeSegment e.index k g).counters = s.counters ∧ (s.takeSegment e.index k g).subscribeAt e.index = some v ∧
      v.expected = some (g.sequence + 1) ∧ v.placing = none ∧ v.partPlaced = 0 ∧ v.writeOffset = u.writeOffset ∧
      v.block = u.block ∧ (s.port.outstanding (Request.writesFrom (.staging k)) = false → s.placingFrom k = false →
        (s.takeSegment e.index k g).line.buffer k = .free) := by
  obtain ⟨t, taken, started, -⟩ := takeSegment_starts (k := k) there role expected placing fed opens
  have ended := placeRounds_end t e.index _ (u.placingStaged k g)
    (g.asPlacing k u.partPlaced) 63 started.entry rfl takes rfl done
  obtain ⟨exp, plac, fed', wait, -, offs, blk, -⟩ := (u.placingStaged k g).segmentEnded_fields (.staging k)
  obtain ⟨exp', part', plac', fed'', wait', -, offs', blk', -⟩ :=
    ((u.placingStaged k g).segmentEnded (.staging k)).advance_fields g.sequence (exp.trans expected)
  have moved := (started.modifySubscribe rfl fun u => u.segmentEnded (.staging k)).modifySubscribe rfl SubscribeEntry.advance
  have inner : ¬(g.asPlacing k u.partPlaced).last = true := fun h => nomatch last.symm.trans h
  rw [endPlacing_eq, if_neg inner] at ended
  change placeRounds e.index 64 t = placeRounds e.index 63 (State.freeBufferIfDone
    ((t.modifySubscribe e.index fun u => u.segmentEnded (.staging k)).modifySubscribe e.index SubscribeEntry.advance) k) at ended
  generalize State.modifySubscribe _ _ _ = w at moved ended
  obtain ⟨line, freed, -, -, free⟩ := freeBufferIfDone_line s w e k _ _ indexes
    (by rw [moved.port, List.append_nil]) moved.line moved.indexes moved.entry rfl
    (places_of_none (plac'.trans plac) _) fun g' mem other => ⟨g', moved.others g' mem other, rfl, rfl⟩
  have entry : ({ w with line := line } : State).entryAt e.index = _ := moved.entry
  have stays := placeRounds_stop { w with line := line } e.index _ _ (g.sequence + 1) entry rfl (plac'.trans plac)
    (fed''.trans fed') exp'
    (fun _ _ eq => nomatch waiting.symm.trans ((filter_staging k u.waiting).1.symm.trans
      ((wait'.trans wait).symm.trans eq))) 63
  have final := taken.trans (ended.trans ((congrArg (placeRounds e.index 63) freed).trans stays))
  rw [final]
  refine ⟨_, moved.port.trans (by rw [List.append_nil]), moved.pool, moved.counters,
    subscribeAt_of_entry entry rfl, exp', plac'.trans plac, part', offs'.trans offs,
    blk'.trans blk, fun unwritten unplaced => free unwritten fun f r mem _ receives => ?_⟩
  exact unplaced_of_placingFrom unplaced mem receives

end

end Machine
end Sys2Proof
end

section
/-! An in-order segment that finds no room, or a starved entry (R111, R117, R119, R138, R142, R144). -/

namespace Sys2Proof
namespace Machine

theorem placeRounds_reading {t : State} {i : Nat} {f : Entry} {u : SubscribeEntry} {pl : Placing} {a : Word}
    (there : t.entryAt i = some f) (role : f.role = .subscribe u) (takes : u.takesFrames = true)
    (placing : u.placing = some pl) (left : pl.placed < pl.length) (current : f.chain.current = .reading a) (n : Nat) :
    placeRounds i (n + 1) t = t := by
  unfold placeRounds
  rw [there]
  dsimp only
  rw [role]
  dsimp only
  rw [takes, placing, current]
  exact (if_neg (by decide)).trans (if_neg (Nat.not_le.2 left))

section
variable {s : State} {e : Entry} {u : SubscribeEntry} {k : BufferId} {g : StagedSegment} (there : s.entryAt e.index = some e)
  (role : e.role = .subscribe u) (takes : u.takesFrames = true) (expected : u.expected = some g.sequence)
  (placing : u.placing = none) (fed : u.starved = false) (opens : g.Opens u) (left : u.partPlaced < g.bytes.length)
include there role takes expected placing fed opens left

section
variable (full : e.chain.current = .none ∨ ∃ a d, e.chain.current = .held a d ∧ d.length ≤ u.writeOffset)
include full

/-- At the chain's end the tail is looked at again. -/
theorem takeSegment_looks (look : e.chain.lookAhead = .ended) (ended : u.chainEnded = false) :
    AtEntry s (s.takeSegment e.index k g) e.index
      { e with role := .subscribe (u.placingStaged k g), chain := { e.chain with lookAhead := .looking } }
      [.lastLook e.index (e.chain.tail.getD 0)] := by
  obtain ⟨t, taken, started, -⟩ := takeSegment_starts (k := k) there role expected placing fed opens
  have round := placeRounds_full t e.index _ (u.placingStaged k g) _ 63 started.entry rfl takes rfl left full
  rw [look] at round
  dsimp only at round
  rw [if_neg (by rw [show (u.placingStaged k g).starved = false from fed]; exact Bool.false_ne_true),
    if_neg (by rw [show (u.placingStaged k g).chainEnded = false from ended]; exact Bool.false_ne_true)] at round
  rw [taken, round]
  exact started.lookAgain rfl _

/-- Without a look-ahead, or at an end that has been found before, it starves. -/
theorem takeSegment_starves (look : e.chain.lookAhead = .none ∨ (e.chain.lookAhead = .ended ∧ u.chainEnded = true)) :
    ∃ t, s.takeSegment e.index k g = t.starve e.index ∧
      AtEntry s t e.index { e with role := .subscribe (u.placingStaged k g) } [] := by
  obtain ⟨t, taken, started, -⟩ := takeSegment_starts (k := k) there role expected placing fed opens
  have round := placeRounds_full t e.index _ (u.placingStaged k g) _ 63 started.entry rfl takes rfl left full
  refine ⟨t, taken.trans (round.trans ?_), started⟩
  rcases look with look | ⟨look, ended⟩
  · rw [look]
  · rw [look]
    dsimp only
    rw [if_neg (by rw [show (u.placingStaged k g).starved = false from fed]; exact Bool.false_ne_true)]
    exact if_pos ended

/-- A FAULTY look-ahead puts it in FAULT. -/
theorem takeSegment_faults {h : Word} {cause : FaultCause} (look : e.chain.lookAhead = .faulty h cause) :
    (∃ v, (s.takeSegment e.index k g).subscribeAt e.index = some v ∧ v.isFaulted) ∧
      s.reports (s.takeSegment e.index k g) [streamEvent .streamFault cause.code e.stream (u.publisher.getD 0)
        g.sequence.toNat (if cause = .busError then 16 else 0) h] := by
  obtain ⟨t, taken, started, -⟩ := takeSegment_starts (k := k) there role expected placing fed opens
  have round := placeRounds_full t e.index _ (u.placingStaged k g) _ 63 started.entry rfl takes rfl left full
  rw [look] at round
  dsimp only at round
  obtain ⟨faulted, told⟩ := faultEntry_subscribe t e.index _ (u.placingStaged k g) started.entry rfl
    ((takesFrames_iff u).1 takes).2 cause cause.lookAheadBytes h
  have synced : (u.placingStaged k g).expected = some g.sequence := expected
  rw [synced] at told
  rw [taken, round, ← lookAheadBytes_eq]
  exact ⟨⟨_, faulted, isFaulted_faulted _⟩, State.reports_congr started.eventState started.fence rfl told⟩

end

/-- While a descriptor it needs is read it waits. -/
theorem takeSegment_waits (reads : (∃ h, e.chain.current = .reading h) ∨
    ((e.chain.current = .none ∨ ∃ a d, e.chain.current = .held a d ∧ d.length ≤ u.writeOffset) ∧
      ((∃ h, e.chain.lookAhead = .reading h) ∨ e.chain.lookAhead = .looking))) :
    s.takeSegment e.index k g =
      s.modifySubscribe e.index fun v => { v with placing := some (g.asPlacing k u.partPlaced) } := by
  obtain ⟨t, taken, started, eq⟩ := takeSegment_starts (k := k) there role expected placing fed opens
  rw [← eq, taken]
  rcases reads with ⟨h, current⟩ | ⟨full, looks⟩
  · exact placeRounds_reading started.entry rfl takes rfl left current 63
  · rw [placeRounds_full t e.index _ (u.placingStaged k g) _ 63 started.entry rfl takes rfl left full]
    rcases looks with ⟨h, look⟩ | look <;> rw [look]

end

/-! ### A FIRST over an open block -/

/-- A FIRST closes the open block as LOST and is placed then. -/
theorem takeSegment_first {s : State} {e : Entry} {u : SubscribeEntry} {k : BufferId} {g : StagedSegment} {a : Word}
    {d : Descriptor} {b : OpenBlock} (there : s.entryAt e.index = some e) (role : e.role = .subscribe u)
    (expected : u.expected = some g.sequence) (placing : u.placing = none) (fed : u.starved = false)
    (current : e.chain.current = .held a d) (block : u.block = some b) (first : g.first = true) :
    (s.closeBlock e.index .lost).subscribeAt e.index = some u.blockClosed ∧
      u.closingWrite e.index a .lost b ∈ (s.closeBlock e.index .lost).port.firstClass ∧
      s.takeSegment e.index k g = ((s.closeBlock e.index .lost).modifySubscribe e.index fun v =>
        { v with placing := some (g.asPlacing k u.partPlaced) }).placeOn e.index := by
  have at' := subscribeAt_of_entry there role
  have closed := (AtEntry.refl there).closesBlock role .lost current block
  refine ⟨subscribeAt_of_entry closed.entry rfl, ?_, ?_⟩
  · rw [closed.port]
    exact List.mem_append_right _ List.mem_cons_self
  · rw [takeSegment_inOrder at' expected rfl placing (.inl fed), takeInOrder_starts at' fed (by rw [first, Bool.or_true])]
    have closes : s.closeForFirst e.index (g.asPlacing k 0).first = s.closeBlock e.index .lost := if_pos first
    rw [State.startPlacing, closes]
    rfl

/-! ### A starved entry -/

/-- The cell of the free list's head holds the segment of a starved entry. -/
theorem takeInOrder_holds {s : State} {i : Nat} {u : SubscribeEntry} (there : s.subscribeAt i = some u)
    (starved : u.starved = true) {c : Nat} {rest : List Nat} (free : s.pool.free = c :: rest)
    (room : u.written.length + u.waiting.length < 8) (k : BufferId) (g : StagedSegment) :
    s.takeInOrder i k g =
      ((({ s with pool := { s.pool with free := rest } } : State).closeForFirst i g.first).modifySubscribe i fun v =>
        { v with
          waiting := g.inCell c :: v.waiting
          placing := some { g.asPlacing k v.partPlaced with source := .cell c } }).setBuffer k .free := by
  unfold State.takeInOrder
  rw [there]
  dsimp only
  rw [if_pos starved, receiveClaim_room room, claimCell_free free]
  rfl

/-- A FIRST closes an open block, where there is one; nothing else does. -/
theorem closeForFirst_atEntry {s : State} {e : Entry} {u : SubscribeEntry} (there : s.entryAt e.index = some e)
    (role : e.role = .subscribe u) (first : Bool) :
    ∃ f v l, AtEntry s (s.closeForFirst e.index first) e.index f l ∧ f.role = .subscribe v ∧
      (u.block = none ∨ first = false → v = u ∧ l = []) ∧
      v = { u with block := v.block, writeOffset := v.writeOffset, firstOfBlock := v.firstOfBlock
                   descriptorSequence := v.descriptorSequence } ∧
      ∀ b a d, u.block = some b → e.chain.current = .held a d → first = true →
        v.block = none ∧ u.closingWrite e.index a .lost b ∈ l := by
  cases first with
  | false =>
    exact ⟨e, u, [], AtEntry.refl there, role, fun _ => ⟨rfl, rfl⟩, rfl, nofun⟩
  | true =>
    have closes : s.closeForFirst e.index true = s.closeBlock e.index .lost := rfl
    rw [closes]
    have stays (same : s.closeBlock e.index .lost = s) (never : ∀ b a d, u.block = some b → e.chain.current ≠ .held a d) :
        ∃ f v l, AtEntry s (s.closeBlock e.index .lost) e.index f l ∧ f.role = .subscribe v ∧
          (u.block = none ∨ true = false → v = u ∧ l = []) ∧
          v = { u with block := v.block, writeOffset := v.writeOffset, firstOfBlock := v.firstOfBlock
                       descriptorSequence := v.descriptorSequence } ∧
          ∀ b a d, u.block = some b → e.chain.current = .held a d → true = true →
            v.block = none ∧ u.closingWrite e.index a .lost b ∈ l :=
      ⟨e, u, [], same.symm ▸ AtEntry.refl there, role, fun _ => ⟨rfl, rfl⟩, rfl,
        fun b a d block current => absurd current (never b a d block)⟩
    by_cases held : ∃ a d, e.chain.current = .held a d
    · obtain ⟨a, d, current⟩ := held
      cases block : u.block with
      | none => exact block ▸ stays (closeBlock_none there role block .lost) fun b _ _ some => nomatch block.symm.trans some
      | some b =>
        refine ⟨_, _, _, (AtEntry.refl there).closesBlock role .lost current block, rfl, nofun, rfl,
          fun b' a' d' same current' _ => ?_⟩
        obtain rfl := Option.some.inj same
        rw [current] at current'
        obtain ⟨rfl, rfl⟩ := CurrentDescriptor.held.inj current'
        exact ⟨rfl, List.mem_cons_self⟩
    · exact stays (closeBlock_other there (fun a d current => held ⟨a, d, current⟩) .lost)
        fun _ a d _ current => held ⟨a, d, current⟩

end Machine
end Sys2Proof
end

section
/-! An in-order segment (R111, R114, R115, R117, R119, R138, R142, R144). -/

namespace Sys2Proof
namespace Machine

theorem blockWith_opened {u : SubscribeEntry} {b : OpenBlock} (block : u.block = some b) (a a' : Word) (pl : Placing)
    (n : Nat) :
    u.blockWith a pl n = u.blockWith a' pl n := by
  unfold SubscribeEntry.blockWith
  rw [block]

/-- What a segment that starves on arrival leaves. -/
theorem takeSegment_starved {s : State} {e : Entry} {u : SubscribeEntry} {k : BufferId} {g : StagedSegment}
    (table : s.tableOk) (mem : e ∈ s.table) (role : e.role = .subscribe u) (takes : u.takesFrames = true)
    (expected : u.expected = some g.sequence) (placing : u.placing = none) (fed : u.starved = false) (opens : g.Opens u)
    (left : u.partPlaced < g.bytes.length) (held : s.line.buffer k = .held g)
    (full : e.chain.current = .none ∨ ∃ a d, e.chain.current = .held a d ∧ d.length ≤ u.writeOffset)
    (look : e.chain.lookAhead = .none ∨ (e.chain.lookAhead = .ended ∧ u.chainEnded = true))
    (unwritten : s.port.outstanding (Request.writesFrom (.staging k)) = false) (unplaced : s.placingFrom k = false) :
    ∃ v, (s.takeSegment e.index k g).subscribeAt e.index = some v ∧ v.starved = true ∧ v.chainEnded = u.chainEnded ∧
      (s.takeSegment e.index k g).port.firstClass = s.port.firstClass ∧ v.partPlaced = u.partPlaced ∧
      v.expected = u.expected ∧ (s.takeSegment e.index k g).line.buffer k = .free ∧
      s.reports (s.takeSegment e.index k g) [streamEvent .rxStarved 0 e.stream (u.publisher.getD 0) g.sequence.toNat
        u.waiting.length (e.chain.tail.getD 0)] ∧
      (∀ c rest, s.pool.free = c :: rest → u.written.length + u.waiting.length < 8 →
        (s.takeSegment e.index k g).pool = { s.pool with free := rest } ∧ v.waiting = g.inCell c :: u.waiting ∧
        v.placing = some { g.asPlacing k u.partPlaced with source := .cell c }) ∧
      (8 ≤ u.written.length + u.waiting.length ∨ (s.pool.free = [] ∧ s.pool.aged = []) →
        (s.takeSegment e.index k g).pool = s.pool ∧ v.waiting = u.waiting ∧ v.placing = none ∧
        (s.takeSegment e.index k g).counters.reorderDrops = s.counters.reorderDrops + 1) := by
  have there := table.entryAt mem
  obtain ⟨t, taken, started⟩ := takeSegment_starves (k := k) there role takes expected placing fed opens left full look
  obtain ⟨v, starved, fields, free, -, dropped⟩ := starve_staged started rfl table.indexes rfl fed rfl held there
    (by rw [Entry.subscribe?, role]; rfl) nofun
  rw [← taken] at starved free dropped
  have ends : (u.chainEnded || e.chain.lookAhead == .ended) = u.chainEnded := by
    rcases look with look | ⟨look, ended⟩
    · rw [look]
      exact Bool.or_false _
    · rw [ended]
      rfl
  have told := starved.reports
  have synced : (u.placingStaged k g).expected = some g.sequence := expected
  rw [Entry.starvedEvent, synced] at told
  refine ⟨v, starved.there, by rw [fields]; rfl, by rw [fields]; exact ends, starved.first.trans (List.append_nil _),
    by rw [fields]; rfl, by rw [fields]; rfl,
    starved.freed unwritten fun f r mem _ receives => unplaced_of_placingFrom unplaced mem receives,
    told, fun c rest some room => ?_, fun without => ?_⟩
  · obtain ⟨⟨waiting, place⟩, pool, -⟩ := free c rest some room
    exact ⟨pool, waiting, place⟩
  · obtain ⟨waiting, place, pool, counters⟩ := dropped without
    exact ⟨pool, waiting, place, congrArg Counters.reorderDrops counters⟩

/-- Settles O23, by the rounds of placing for each way the chain stands. -/
theorem anInOrderSegmentIsPlacedAtTheWriteOffset : Obligations.AnInOrderSegmentIsPlacedAtTheWriteOffset := by
  intro s e u k g table mem role takes expected placing held some n block opens piece
  have there := table.entryAt mem
  have at' := subscribeAt_of_entry there role
  refine ⟨fun a d fed whole current opens => ?_, fun a d fed placed current opens waiting _ last => ?_,
    fun b a d fed current block first => ?_, fun fed whole opens full => ?_, fun fed opens reads left => ?_,
    fun starved fresh c rest free room => ?_⟩
  · intro at_
    have left : u.partPlaced < g.bytes.length := whole ▸ some
    have start : g.asPlacing k u.partPlaced = g.asPlacing k 0 := congrArg (g.asPlacing k) whole
    refine ⟨fun room outside => ?_, fun fits inside => ⟨fun waiting _ last => ?_, fun waiting last other => ?_,
      fun h r waiting last look link => ?_, fun c waiting next inner more last someC both within => ?_⟩,
      fun a' d' waiting last look link room beyond fits => ?_,
        fun a' d' b q waiting last look link full opened sequence fits inside => ?_⟩
    · have fault := takeSegment_outside (k := k) there role takes expected placing fed opens left current room
        (by rw [whole]; exact outside)
      rw [whole] at fault
      exact fault
    · obtain ⟨v, fitted, fields⟩ := takeSegment_fits (k := k) there role takes expected placing fed opens left current
        (by rw [whole]; exact fits) (by rw [whole]; exact inside) waiting last
      rw [start] at fitted fields
      exact ⟨_, v, rfl, fitted.line, fitted.pool, fitted.counters, fitted.port, subscribeAt_of_entry fitted.entry rfl,
        fields.expected, fields.placing, fields.part, fields.offset, fields.starved, fields.waiting.trans
          (by rw [waiting]; rfl),
        fields.sequence, fields.block, fields.first⟩
    · obtain ⟨v, closed, fields⟩ := takeSegment_closes (k := k) there role takes expected placing fed opens left current
        (by rw [whole]; exact fits) (by rw [whole]; exact inside) waiting last
      obtain ⟨chain, reads⟩ := Chain.finished_other other s.fence e.index
      rw [start, chain, reads] at closed
      exact ⟨_, v, _, rfl, closed.line, closed.pool, closed.counters, closed.port, closed.entry, rfl, rfl, fields⟩
    · obtain ⟨v, closed, fields⟩ := takeSegment_closes (k := k) there role takes expected placing fed opens left current
        (by rw [whole]; exact fits) (by rw [whole]; exact inside) waiting last
      obtain ⟨chain, reads⟩ := Chain.finished_held look s.fence e.index
      obtain ⟨ended, unread⟩ := s.fence.linkReads_zero e.index link
      rw [start, chain, reads, ended, unread] at closed
      exact ⟨_, v, _, rfl, closed.line, closed.pool, closed.counters, closed.port, closed.entry, rfl, rfl, fields⟩
    · obtain ⟨v, r, drained, one, two⟩ := takeSegment_drains (k := k) there role takes expected placing fed opens left current
        (by rw [whole]; exact fits) (by rw [whole]; exact inside) waiting last next inner more someC
          (by rw [whole]; exact both)
        (by rw [whole]; exact within)
      rw [start] at drained one
      have write : v.restWrite e.index a d c.asPlacing = .rxPayload e.index (.cell c.cell) a
          (BitVec.ofNat 32 (d.buffer.toNat + (u.writeOffset + n))) 0 c.bytes.length := by
        rw [SubscribeEntry.restWrite, one.offset]
        rfl
      rw [write] at drained
      obtain ⟨own, others⟩ := filter_cell_self (c := c) (rest := []) nofun
      obtain ⟨outside, inCell⟩ := filter_staging k u.waiting
      have waits : v.waiting = [c] := one.waiting.trans (outside.trans waiting)
      have writes : v.written = u.written := one.written.trans ((congrArg (u.written ++ ·) inCell).trans (List.append_nil _))
      refine ⟨_, r, rfl, drained.line, drained.pool, drained.counters, drained.port, subscribeAt_of_entry drained.entry rfl,
        two.expected.trans (by rw [next]), two.placing, two.waiting.trans ?_, two.written.trans ?_,
        two.offset.trans (by rw [one.offset]; rfl), two.block.trans ?_⟩
      · rw [waits]
        exact others
      · rw [waits, writes]
        exact congrArg (u.written ++ ·) own
      · rw [SubscribeEntry.blockWith, one.block]
        rfl
    · intro _ inside within
      obtain ⟨v, split, fields⟩ := takeSegment_splits (k := k) there role takes expected placing fed opens whole waiting
        last current look link room beyond fits inside within
      exact ⟨_, v, _, rfl, split.line, split.pool, split.counters, split.port, split.entry, rfl, rfl, fields⟩
    · obtain ⟨v, moved, fields⟩ := takeSegment_moves (k := k) there role takes expected placing fed opens left waiting
        last current look link full opened (by rw [whole]; exact fits) (by rw [whole]; exact inside)
      rw [sequence, whole] at moved
      rw [whole] at fields
      exact ⟨_, v, _, rfl, moved.line, moved.pool, moved.counters, moved.port, moved.entry, rfl, rfl, fields.expected,
        fields.placing, fields.offset.trans (Nat.zero_add _), fields.first.trans
          (by rw [show u.freshDescriptor.block = _ from opened]; rfl),
        fields.sequence, fields.block.trans (congrArg Option.some
          (blockWith_opened (u := u) opened a' a (g.asPlacing k 0) n))⟩
  · intro rest at_
    refine ⟨fun left fits inside => ?_, fun done => ?_⟩
    · obtain ⟨v, fitted, fields⟩ := takeSegment_fits (k := k) there role takes expected placing fed opens left current
        fits inside waiting last
      exact ⟨_, v, rfl, fitted.line, fitted.pool, fitted.counters, fitted.port, subscribeAt_of_entry fitted.entry rfl,
        fields.expected, fields.placing, fields.part, fields.offset, fields.starved, fields.sequence, fields.block⟩
    · obtain ⟨v, port, pool, counters, ended⟩ := takeSegment_done
        (k := k) there role takes expected placing fed opens table.indexes
        done waiting last
      exact ⟨_, v, rfl, port, pool, counters, ended⟩
  · obtain ⟨closed, asked, taken⟩ := takeSegment_first (k := k) there role expected placing fed current block first
    exact ⟨_, _, closed, rfl, rfl, rfl, rfl, placing, asked, taken⟩
  · have left : u.partPlaced < g.bytes.length := whole ▸ some
    have start : g.asPlacing k u.partPlaced = g.asPlacing k 0 := congrArg (g.asPlacing k) whole
    refine ⟨fun look ended => ?_, fun look unwritten unplaced => ?_, fun h cause look => ?_⟩
    · have looks := takeSegment_looks (k := k) there role takes expected placing fed opens left full look ended
      exact ⟨_, _, _, rfl, looks.entry, rfl, rfl, fed, rfl, looks.line, looks.port⟩
    · obtain ⟨v, at'', starved, ended, first, part, sync, freed, told, cell, drop⟩ :=
        takeSegment_starved table mem role takes expected
        placing fed opens left held full look unwritten unplaced
      rw [start] at cell
      exact ⟨_, v, rfl, at'', starved, ended, first, part.trans whole, sync, freed, told, cell, drop⟩
    · exact takeSegment_faults (k := k) there role takes expected placing fed opens left full look
  · exact takeSegment_waits there role takes expected placing fed opens left reads
  · have taken := (takeSegment_inOrder (k := k) at' expected rfl placing (.inr fresh)).trans
      (takeInOrder_holds at' starved free room k g)
    obtain ⟨f, v, l, closed, role', same, shape, closes⟩ :=
      closeForFirst_atEntry (s := { s with pool := { s.pool with free := rest } }) (e := e) there role g.first
    have waiting : v.waiting = u.waiting := by rw [shape]
    have part : v.partPlaced = u.partPlaced := by rw [shape]
    have moved := closed.modifySubscribe role' fun v =>
      { v with
        waiting := g.inCell c :: v.waiting
        placing := Option.some { g.asPlacing k v.partPlaced with source := .cell c } }
    refine ⟨_, _, taken, buffer_setBuffer _ _ _, moved.pool, subscribeAt_of_entry moved.entry rfl, congrArg _ waiting, ?_,
      fun stays => ?_, fun b a d block current first => ?_⟩
    · exact congrArg (fun m => Option.some { g.asPlacing k m with source := .cell c }) part
    · obtain ⟨unchanged, nothing⟩ := same stays
      refine ⟨by rw [unchanged], moved.port.trans ?_⟩
      rw [nothing, List.append_nil]
    · obtain ⟨none, asked⟩ := closes b a d block current first
      have fed : v.starved = true := by rw [shape]; exact starved
      have sync : v.expected = u.expected := by rw [shape]
      have requests := congrArg HostPort.firstClass moved.port
      exact ⟨none, fed, sync, part, requests.symm ▸ List.mem_append_right _ asked⟩

end Machine
end Sys2Proof
end

section
/-! The end of a head's read (R121, R136, R138, R140, R141, R142, R147). -/

namespace Sys2Proof
namespace Machine

/-! ### The look-ahead that a link gives -/

theorem Fence.lookAheadFor_misaligned (f : Fence) (i : Nat) {link : Word} (some : link ≠ 0)
    (misaligned : link.toNat % 16 ≠ 0) :
    f.lookAheadFor link = .faulty link .badDescriptor ∧ f.linkReads i link = [] := by
  have look : f.lookAheadFor link = .faulty link .badDescriptor := by
    rw [Fence.lookAheadFor, if_neg some, if_pos misaligned]
  exact ⟨look, by rw [Fence.linkReads, look, if_neg nofun]⟩

theorem Fence.lookAheadFor_inside (f : Fence) (i : Nat) {link : Word} (some : link ≠ 0) (aligned : link.toNat % 16 = 0)
    (inside : f.contains link.toNat 16 = true) :
    f.lookAheadFor link = .reading link ∧ f.linkReads i link = [.lookAheadRead i link] := by
  have look : f.lookAheadFor link = .reading link := by
    rw [Fence.lookAheadFor, if_neg some, if_neg (fun h => h aligned), if_pos inside]
  exact ⟨look, by rw [Fence.linkReads, look, if_pos rfl]⟩

theorem Fence.lookAheadFor_outside (f : Fence) (i : Nat) {link : Word} (some : link ≠ 0) (aligned : link.toNat % 16 = 0)
    (outside : f.contains link.toNat 16 = false) :
    f.lookAheadFor link = .faulty link .fence ∧ f.linkReads i link = [] := by
  have look : f.lookAheadFor link = .faulty link .fence := by
    rw [Fence.lookAheadFor, if_neg some, if_neg (fun h => h aligned), if_neg (by rw [outside]; exact Bool.false_ne_true)]
  exact ⟨look, by rw [Fence.linkReads, look, if_neg nofun]⟩

theorem Fence.linkReads_index {f : Fence} {i : Nat} {link : Word} {r : Request} (asked : r ∈ f.linkReads i link) :
    r.index? = some i := by
  unfold Fence.linkReads at asked
  split at asked
  · rw [List.mem_singleton.1 asked]
    rfl
  · exact nomatch asked

theorem Role.descriptorOf_length (role : Role) (b : List Byte) :
    (role.descriptorOf b).length = (Machine.descriptorOf b).length := by
  cases role <;> rfl

theorem PublishEntry.headHeld_eq (p : PublishEntry) :
    p.headHeld = { p with segmenter := if p.segmenter = .noChain then .ready else p.segmenter } := by
  unfold PublishEntry.headHeld
  split
  · rfl
  · rfl

/-! ### The receive engine after a change of the chain (R121, R142) -/

section
variable {t : State} {i : Nat} {f : Entry} {u : SubscribeEntry} (there : t.entryAt i = some f) (role : f.role = .subscribe u)
include there role

theorem receiveAdvance_rests (rests : (u.placing = none ∧ u.starved = false) ∨ u.takesFrames = false) :
    t.receiveAdvance i = t := by
  unfold State.receiveAdvance
  rw [there]
  dsimp only
  rw [role]
  dsimp only
  rcases rests with ⟨placing, starved⟩ | closed
  · rw [placing, starved]
    exact ite_self _
  · rw [closed]
    rfl

theorem receiveAdvance_places (takes : u.takesFrames = true) {pl : Placing} (placing : u.placing = some pl) :
    t.receiveAdvance i = placeRounds i 64 t := by
  unfold State.receiveAdvance
  rw [there]
  dsimp only
  rw [role]
  dsimp only
  rw [takes, placing]
  rfl

theorem receiveAdvance_empty (takes : u.takesFrames = true) (placing : u.placing = none) (starved : u.starved = true) :
    t.receiveAdvance i = t.endEmptyStarvation i f u := by
  unfold State.receiveAdvance
  rw [there]
  dsimp only
  rw [role]
  dsimp only
  rw [takes, placing, starved]
  rfl

end

/-- Room in the current descriptor ends an empty starvation. -/
theorem endEmptyStarvation_room {f : Entry} {u : SubscribeEntry} {a : Word} {d : Descriptor}
    (current : f.chain.current = .held a d) (room : u.writeOffset < d.length) (t : State) (i : Nat) :
    t.endEmptyStarvation i f u = t.modifySubscribe i fun v => { v with starved := false } := by
  unfold State.endEmptyStarvation
  rw [current]
  exact if_pos room

/-- A publish entry has nothing to do there. -/
theorem receiveAdvance_publish {t : State} {i : Nat} {f : Entry} {p : PublishEntry} (there : t.entryAt i = some f)
    (role : f.role = .publish p) : t.receiveAdvance i = t := by
  unfold State.receiveAdvance
  rw [there]
  dsimp only
  rw [role]

theorem modifySubscribe_keys (s : State) (i : Nat) (f : SubscribeEntry → SubscribeEntry) :
    (s.modifySubscribe i f).table.map Entry.key = s.table.map Entry.key := by
  rw [State.modifySubscribe, List.map_map]
  refine List.map_congr_left fun e _ => ?_
  rw [Function.comp_apply]
  split
  · obtain ⟨_, _, _, _, role⟩ := e
    cases role <;> rfl
  · rfl

theorem PublisherAt.modifySubscribe {s t : State} {i : Nat} {f : Entry} {l : List Request} {p : PublishEntry}
    (h : PublisherAt s t i f l) (role : f.role = .publish p) (change : SubscribeEntry → SubscribeEntry) :
    PublisherAt s (t.modifySubscribe i change) i f l := by
  refine ⟨?_, (modifySubscribe_keys t i change).trans h.keys, ?_⟩
  · rw [State.modifySubscribe]
    conv => lhs; rw [h.eq]
  · rw [modifySubscribe_entryAt, h.entry, Option.map_some, if_pos (entryAt_index h.entry)]
    refine congrArg some ?_
    obtain ⟨_, _, _, _, publish⟩ := f
    obtain rfl : publish = _ := role
    rfl

/-! ### The head taken -/

/-- The record of a head's read becomes current. -/
def State.headTaken (s : State) (i : Nat) (a : Word) (d : Descriptor) : State :=
  (((s.modifyChain i fun ch => { ch with tail := some a }).modifyPublish i PublishEntry.headHeld).modifySubscribe i
    SubscribeEntry.freshDescriptor).makeCurrent i a d

theorem headRead_valid {s : State} {i : Nat} {e : Entry} (there : s.entryAt i = some e) {b : List Byte}
    (valid : (e.role.descriptorOf b).length ≠ 0) (a : Word) :
    headRead i a (.ok b) s = (s.headTaken i a (e.role.descriptorOf b)).receiveAdvance i := by
  unfold headRead State.recordFor
  rw [there]
  exact if_neg valid

theorem headRead_empty {s : State} {i : Nat} {e : Entry} (there : s.entryAt i = some e) {b : List Byte}
    (empty : (e.role.descriptorOf b).length = 0) (a : Word) :
    headRead i a (.ok b) s = s.faultEntry i .badDescriptor 0 a := by
  unfold headRead State.recordFor
  rw [there]
  exact if_pos empty

theorem AtEntry.headTaken {s t : State} {i : Nat} {f : Entry} {l : List Request} {u : SubscribeEntry} (h : AtEntry s t i f l)
    (role : f.role = .subscribe u) (a : Word) (d : Descriptor) :
    AtEntry s (t.headTaken i a d) i
      { f with role := .subscribe u.freshDescriptor
               chain := { f.chain with current := .held a d, lookAhead := s.fence.lookAheadFor d.link, tail := some a } }
      (l ++ s.fence.linkReads i d.link) :=
  ((((h.modifyChain fun ch => { ch with tail := some a }).modifyPublish role PublishEntry.headHeld).modifySubscribe role
    SubscribeEntry.freshDescriptor).makeCurrent rfl a d)

theorem PublisherAt.headTaken {s t : State} {i : Nat} {f : Entry} {l : List Request} {p : PublishEntry}
    (h : PublisherAt s t i f l) (role : f.role = .publish p) (a : Word) (d : Descriptor) :
    PublisherAt s (t.headTaken i a d) i
      { f with role := .publish p.headHeld
               chain := { f.chain with current := .held a d, lookAhead := s.fence.lookAheadFor d.link, tail := some a } }
      (l ++ s.fence.linkReads i d.link) :=
  ((((h.modifyChain fun ch => { ch with tail := some a }).modifyPublish role PublishEntry.headHeld).modifySubscribe rfl
    SubscribeEntry.freshDescriptor).makeCurrent rfl a d)

/-! ### What the end of the read leaves -/

section
variable {s : State} {g : Granted} {e : Entry} {a : Word} (table : s.tableOk) (mem : e ∈ s.table)
  (granted : s.port.granted = some g) (wanted : g.discarded = false) (request : g.request = .headRead e.index a)
include table mem granted wanted request

omit table mem in
theorem headRead_run (c : ReadCompletion) (fits : c.isDescriptor = true) :
    exec (.headDescriptorReadEnd c) s = .next (headRead e.index a c s.freePort).finish := by
  rw [headDescriptorReadEnd_eq granted request fits, endTransfer_wanted wanted]

section
variable {b : List Byte} (length : b.length = 16)
include length

theorem headRead_run_valid (valid : (e.role.descriptorOf b).length ≠ 0) :
    exec (.headDescriptorReadEnd (.ok b)) s =
      .next ((s.freePort.headTaken e.index a (e.role.descriptorOf b)).receiveAdvance e.index).finish := by
  rw [headRead_run granted wanted request (.ok b) (beq_iff_eq.2 length),
    headRead_valid (s := s.freePort) (table.entryAt mem) valid]

/-- At a subscribe entry that places nothing the descriptor is current and a starvation ends. -/
theorem headRead_fresh {u : SubscribeEntry} (role : e.role = .subscribe u) (placing : u.placing = none)
    (valid : (rxDescriptorOf b).length ≠ 0) :
    ∃ w v, exec (.headDescriptorReadEnd (.ok b)) s = .next w.finish ∧
      AtEntry s.freePort w e.index { e with
        role := .subscribe v
        chain := { e.chain with current := .held a (rxDescriptorOf b), tail := some a
                                lookAhead := s.fence.lookAheadFor (rxDescriptorOf b).link } }
        (s.fence.linkReads e.index (rxDescriptorOf b).link) ∧
      (u.takesFrames = true → v.starved = false) ∧ v.placing = none ∧ v.writeOffset = 0 := by
  have run := headRead_run_valid table mem granted wanted request length (by rw [role]; exact valid)
  have taken := (AtEntry.refl (s := s.freePort) (table.entryAt mem)).headTaken role a (e.role.descriptorOf b)
  rw [role] at run taken
  by_cases empty : u.takesFrames = true ∧ u.starved = true
  · obtain ⟨takes, starved⟩ := empty
    rw [receiveAdvance_empty taken.entry rfl takes placing starved,
      endEmptyStarvation_room rfl (Nat.pos_of_ne_zero valid)] at run
    exact ⟨_, _, run, taken.modifySubscribe rfl _, fun _ => rfl, placing, rfl⟩
  · have rests : (u.placing = none ∧ u.starved = false) ∨ u.takesFrames = false := by
      cases takes : u.takesFrames with
      | false => exact .inr rfl
      | true => exact .inl ⟨placing, Bool.eq_false_iff.2 fun starved => empty ⟨takes, starved⟩⟩
    rw [receiveAdvance_rests taken.entry rfl rests] at run
    refine ⟨_, _, run, taken, fun takes => ?_, placing, rfl⟩
    exact Bool.eq_false_iff.2 fun starved => empty ⟨takes, starved⟩

end

/-- A read that brings no descriptor puts the entry in FAULT, a closing one aside. -/
theorem headRead_fails {c : ReadCompletion} {cause : FaultCause} {count : Nat} (fits : c.isDescriptor = true)
    (fails : headRead e.index a c s.freePort = s.freePort.faultEntry e.index cause count a) :
    ∃ w : State, exec (.headDescriptorReadEnd c) s = .next w.finish ∧
      (∀ p, e.role = .publish p → (∃ v, w.publishAt e.index = some v ∧ v.isEnded .fault p.claim.owns ∧
        w.forgets e.index e.stream) ∧
        s.reports w [streamEvent .streamFault cause.code e.stream s.ownNumber p.nextSequence.toNat count a]) ∧
      (∀ u, e.role = .subscribe u → u.closing = false →
        (∃ v, w.subscribeAt e.index = some v ∧ v.isFaulted) ∧
        s.reports w [streamEvent .streamFault cause.code e.stream (u.publisher.getD 0)
          ((u.expected.map BitVec.toNat).getD 0) count a]) ∧
      (∀ u, e.role = .subscribe u → u.closing = true → w.entryAt e.index = some e ∧ s.reports w []) := by
  have there : s.freePort.entryAt e.index = some e := table.entryAt mem
  have run := headRead_run granted wanted request c fits
  rw [fails] at run
  refine ⟨_, run, fun p role => ?_, fun u role openEntry => ?_, fun u role closing => ?_⟩
  · obtain ⟨ends, told⟩ := (PublisherAt.refl there).faultEntry table role cause count a
    exact ⟨⟨_, ends.publishAt, ended_isEnded _ _ _, ends.forgets⟩, reports_of_freePort told⟩
  · obtain ⟨faulted, told⟩ := faultEntry_subscribe s.freePort e.index e u there role openEntry cause count a
    exact ⟨⟨_, faulted, isFaulted_faulted _⟩, reports_of_freePort told⟩
  · have same : s.freePort.faultEntry e.index cause count a = s.freePort := by
      unfold State.faultEntry
      rw [there]
      dsimp only
      rw [role]
      exact if_pos closing
    rw [same]
    exact ⟨there, State.reports_nil rfl⟩

end

/-- Settles O48, by the role of the entry and what the read brings. -/
theorem aHeadReadEndsWithTheDescriptorHeld : Obligations.AHeadReadEndsWithTheDescriptorHeld := by
  intro s g e a table mem granted wanted request taken
  have there : s.freePort.entryAt e.index = some e := table.entryAt mem
  have takes {f : Entry} {d : Descriptor} {requests : List Request}
      (chain : f.chain = { e.chain with current := .held a d, lookAhead := s.fence.lookAheadFor d.link, tail := some a })
      (asked : ∀ r ∈ s.fence.linkReads e.index d.link, r ∈ requests) : taken f d requests := by
    unfold taken
    rw [chain]
    refine ⟨rfl, rfl, fun none => (s.fence.linkReads_zero e.index none).1,
      fun some misaligned => (s.fence.lookAheadFor_misaligned e.index some misaligned).1, fun some aligned inside => ?_,
      fun some aligned outside => (s.fence.lookAheadFor_outside e.index some aligned outside).1⟩
    obtain ⟨look, reads⟩ := s.fence.lookAheadFor_inside e.index some aligned inside
    exact ⟨look, asked _ (by rw [reads]; exact List.mem_singleton.2 rfl)⟩
  refine ⟨fun b u role placing length valid => ?_, fun b u pl x role takesFrames placing left expected length valid => ?_,
    fun b p role length valid => ?_, fun c cause count how => ?_⟩
  · obtain ⟨w, v, run, at', fed, unplaced, offset⟩ :=
      headRead_fresh table mem granted wanted request length role placing valid
    obtain ⟨stays, kept⟩ := finish_subscribe w e.index _ v (at'.nodup table.indexes) at'.entry rfl
    refine ⟨_, _, v, run, stays, rfl, fed, unplaced, offset, takes rfl fun r asked => kept r ?_ ?_⟩
    · rw [at'.port]
      exact List.mem_append_right _ asked
    · exact Fence.linkReads_index asked
  · have run := headRead_run_valid table mem granted wanted request length (by rw [role]; exact valid)
    have at' := (AtEntry.refl there).headTaken role a (e.role.descriptorOf b)
    rw [role] at run at'
    rw [receiveAdvance_places at'.entry rfl takesFrames placing] at run
    exact ⟨_, run, placeRounds_takesUp table at' rfl rfl rfl (fun g' same source => by
      obtain rfl := Option.some.inj (granted.symm.trans same)
      rw [request]
      rfl) nofun takesFrames placing left expected valid 60⟩
  · have run := headRead_run_valid table mem granted wanted request length (by rw [role]; exact valid)
    have at' := (PublisherAt.refl there).headTaken role a (e.role.descriptorOf b)
    rw [role] at run at'
    rw [receiveAdvance_publish at'.entry rfl] at run
    refine ⟨_, _, _, run, at'.entry, rfl, p.headHeld_eq, takes rfl fun r asked => ?_⟩
    rw [at'.port]
    exact List.mem_append_right _ asked
  · rcases how with ⟨rfl, rfl, rfl⟩ | ⟨⟨b, rfl, length, empty⟩, rfl, rfl⟩
    · exact headRead_fails table mem granted wanted request rfl rfl (cause := .busError)
    · exact headRead_fails table mem granted wanted request (beq_iff_eq.2 length)
        (headRead_empty there ((e.role.descriptorOf_length b).trans empty) a) (cause := .badDescriptor)

end Machine
end Sys2Proof
end

section
/-! The end of a read that settles the look-ahead (R119, R121, R139, R141, R142, R143, R144, R145). -/

namespace Sys2Proof
namespace Machine

/-! ### The publish engine after a change of the chain -/

/-- A publish entry without a current block takes the next descriptor: it is READY, or NO_CHAIN (R142, R145). -/
def PublishEntry.Takes (p : PublishEntry) (ch : Chain) : Prop :=
  ch.current = .none ∧ (p.segmenter = .ready ∨ p.segmenter = .noChain)

section
variable {t : State} {i : Nat} {f : Entry} {p : PublishEntry} (there : t.entryAt i = some f) (role : f.role = .publish p)
include there role

theorem publishAdvance_takes (takes : p.Takes f.chain) : t.publishAdvance i = t.publishTake i := by
  obtain ⟨current, free⟩ := takes
  unfold State.publishAdvance
  rw [there]
  dsimp only
  rw [role, current]
  exact if_pos free

theorem publishAdvance_rests (rests : ¬p.Takes f.chain) : t.publishAdvance i = t := by
  unfold State.publishAdvance
  rw [there]
  dsimp only
  rw [role]
  cases current : f.chain.current with
  | none => exact if_neg fun free => rests ⟨current, free⟩
  | reading a => rfl
  | held a d => rfl

theorem publishStillEnded_ready (current : f.chain.current = .none) (ready : p.segmenter = .ready) :
    t.publishStillEnded i = t.chainEnds i := by
  unfold State.publishStillEnded
  rw [there]
  dsimp only
  rw [role, current]
  exact if_pos ready

theorem publishStillEnded_rests (rests : f.chain.current = .none → p.segmenter ≠ .ready) : t.publishStillEnded i = t := by
  unfold State.publishStillEnded
  rw [there]
  dsimp only
  rw [role]
  cases current : f.chain.current with
  | none => exact if_neg (rests current)
  | reading a => rfl
  | held a d => rfl

theorem chainAdvanced_publish : t.chainAdvanced i = t.publishAdvance i := by
  unfold State.chainAdvanced
  rw [there, Option.map_some, role]

theorem stillEnded_publish : t.stillEnded i = t.publishStillEnded i := by
  unfold State.stillEnded
  rw [there, Option.map_some, role]

end

/-! ### The receive engine after a change of the look-ahead -/

/-- A placing, or an empty starvation, that waits for the next descriptor (R121, R142). -/
def SubscribeEntry.Wants (u : SubscribeEntry) (ch : Chain) : Prop :=
  u.takesFrames = true ∧ (ch.current = .none ∨ ∃ h d, ch.current = .held h d ∧ d.length ≤ u.writeOffset) ∧
    ((∃ pl, u.placing = some pl ∧ pl.placed < pl.length) ∨ (u.placing = none ∧ u.starved = true))

section
variable {t : State} {i : Nat} {f : Entry} {u : SubscribeEntry} (there : t.entryAt i = some f) (role : f.role = .subscribe u)
include there role

theorem chainAdvanced_subscribe : t.chainAdvanced i = t.receiveAdvance i := by
  unfold State.chainAdvanced
  rw [there, Option.map_some, role]

theorem stillEnded_subscribe : t.stillEnded i = t.receiveStillEnded i := by
  unfold State.stillEnded
  rw [there, Option.map_some, role]

theorem receiveStillEnded_rests (rests : (u.placing = none ∧ u.starved = false) ∨ u.takesFrames = false) :
    t.receiveStillEnded i = t := by
  unfold State.receiveStillEnded
  rw [subscribeAt_of_entry there role]
  dsimp only
  rcases rests with ⟨placing, starved⟩ | closed
  · rw [placing, starved]
    exact ite_self _
  · rw [closed]
    rfl

theorem receiveStillEnded_starves (takes : u.takesFrames = true) (fed : u.starved = false) {pl : Placing}
    (placing : u.placing = some pl) : t.receiveStillEnded i = t.starve i := by
  unfold State.receiveStillEnded
  rw [subscribeAt_of_entry there role]
  dsimp only
  rw [takes, fed, placing]
  rfl

omit there role in
theorem endEmptyStarvation_full
    (full : f.chain.current = .none ∨ ∃ h d, f.chain.current = .held h d ∧ d.length ≤ u.writeOffset) :
    (∀ a d, f.chain.lookAhead = .held a d → t.endEmptyStarvation i f u =
      (t.takeHeld i a d).modifySubscribe i fun v => { v with starved := false }) ∧
    (∀ a cause, f.chain.lookAhead = .faulty a cause →
      t.endEmptyStarvation i f u = t.faultEntry i cause cause.lookAheadBytes a) ∧
    (∀ a, f.chain.lookAhead = .reading a → t.endEmptyStarvation i f u = t) := by
  unfold State.endEmptyStarvation
  rcases full with current | ⟨h, d, current, full⟩
  · rw [current]
    exact ⟨fun _ _ look => by rw [look], fun _ _ look => by rw [look], fun _ look => by rw [look]⟩
  · rw [current]
    dsimp only
    rw [if_neg (Nat.not_lt.2 full)]
    exact ⟨fun _ _ look => by rw [look], fun _ _ look => by rw [look], fun _ look => by rw [look]⟩

/-- What waits for a descriptor still waits while the look-ahead is read, and enters FAULT with a FAULTY one. -/
theorem receiveAdvance_wants (wants : u.Wants f.chain) :
    (∀ a cause, f.chain.lookAhead = .faulty a cause →
      t.receiveAdvance i = t.faultEntry i cause cause.lookAheadBytes a) ∧
    (∀ a, f.chain.lookAhead = .reading a → t.receiveAdvance i = t) := by
  obtain ⟨takes, full, ⟨pl, placing, left⟩ | ⟨placing, starved⟩⟩ := wants
  · have round := placeRounds_full t i f u pl 63 there role takes placing left full
    rw [receiveAdvance_places there role takes placing]
    exact ⟨fun a cause look => round.trans (by rw [look]), fun a look => round.trans (by rw [look])⟩
  · rw [receiveAdvance_empty there role takes placing starved]
    exact (endEmptyStarvation_full full).2

end

/-! ### The look-ahead settled -/

/-- The entry `e` with its look-ahead and its tail changed. -/
def Entry.looked (e : Entry) (l : LookAhead) (tail : Option Word) : Entry :=
  { e with chain := { e.chain with lookAhead := l, tail := tail } }

/-- `t` is `s` with the port freed, the look-ahead and the tail of `e` changed, and `reqs` asked for. -/
structure LookedAt (s t : State) (e : Entry) (l : LookAhead) (tail : Option Word) (reqs : List Request) : Prop where
  publisher : ∀ p, e.role = .publish p → PublisherAt s.freePort t e.index (e.looked l tail) reqs
  subscriber : ∀ u, e.role = .subscribe u → AtEntry s.freePort t e.index (e.looked l tail) reqs

/-- What waits for the chain at an entry: a take, a placing or an empty starvation. -/
def Entry.Waits (e : Entry) : Prop :=
  (∃ p, e.role = .publish p ∧ p.Takes e.chain) ∨ ∃ u, e.role = .subscribe u ∧ u.Wants e.chain

/-- Nothing at an entry waits for the chain. -/
def Entry.GoesOn (e : Entry) : Prop :=
  (∃ p, e.role = .publish p ∧ ¬p.Takes e.chain) ∨
    ∃ u, e.role = .subscribe u ∧ ((u.placing = none ∧ u.starved = false) ∨ u.takesFrames = false)

theorem lookedAt_modifyChain {s : State} {e : Entry} (there : s.entryAt e.index = some e) (change : Chain → Chain)
    {l : LookAhead} {tail : Option Word} (changed : change e.chain = { e.chain with lookAhead := l, tail := tail }) :
    LookedAt s (s.freePort.modifyChain e.index change) e l tail [] := by
  have looked : e.looked l tail = { e with chain := change e.chain } := by rw [changed, Entry.looked]
  exact ⟨fun _ _ => looked ▸ (PublisherAt.refl (s := s.freePort) there).modifyChain change,
    fun _ _ => looked ▸ (AtEntry.refl (s := s.freePort) there).modifyChain change⟩

theorem lookedAt_followLink {s : State} {e : Entry} (there : s.entryAt e.index = some e) (link : Word) :
    LookedAt s (s.freePort.followLink e.index link) e (s.fence.lookAheadFor link) e.chain.tail
      (s.fence.linkReads e.index link) :=
  ⟨fun _ role => (PublisherAt.refl (s := s.freePort) there).followLink role link,
    fun _ role => (AtEntry.refl (s := s.freePort) there).followLink role link⟩

theorem asked_of_publisher {s t : State} {e f : Entry} {p : PublishEntry} {reqs : List Request} (role : e.role = .publish p)
    (h : PublisherAt s.freePort t e.index f reqs) : t.port = { s.port with
      granted := none
      firstClass := s.port.firstClass ++ (if e.publish?.isSome then [] else reqs)
      thirdClass := s.port.thirdClass ++ (if e.publish?.isSome then reqs else []) } := by
  rw [h.port, Entry.publish?, role]
  exact congrArg (fun first => ({ s.port with
    granted := none, firstClass := first, thirdClass := s.port.thirdClass ++ reqs } : HostPort)) (List.append_nil _).symm

theorem asked_of_subscriber {s t : State} {e f : Entry} {u : SubscribeEntry} {reqs : List Request}
    (role : e.role = .subscribe u) (h : AtEntry s.freePort t e.index f reqs) : t.port = { s.port with
      granted := none
      firstClass := s.port.firstClass ++ (if e.publish?.isSome then [] else reqs)
      thirdClass := s.port.thirdClass ++ (if e.publish?.isSome then reqs else []) } := by
  rw [h.port, Entry.publish?, role]
  exact congrArg (fun third => ({ s.port with
    granted := none, firstClass := s.port.firstClass ++ reqs, thirdClass := third } : HostPort)) (List.append_nil _).symm

namespace LookedAt

section
variable {s t : State} {e : Entry} {l : LookAhead} {tail : Option Word} {reqs : List Request}
  (h : LookedAt s t e l tail reqs)
include h

theorem entry : t.entryAt e.index = some (e.looked l tail) := by
  cases role : e.role with
  | publish p => exact (h.publisher p role).entry
  | subscribe u => exact (h.subscriber u role).entry

theorem reports : s.reports t [] := by
  cases role : e.role with
  | publish p => exact reports_of_freePort (h.publisher p role).reports
  | subscribe u => exact State.reports_nil (h.subscriber u role).eventState

theorem port : t.port = { s.port with
    granted := none
    firstClass := s.port.firstClass ++ (if e.publish?.isSome then [] else reqs)
    thirdClass := s.port.thirdClass ++ (if e.publish?.isSome then reqs else []) } := by
  cases role : e.role with
  | publish p => exact asked_of_publisher role (h.publisher p role)
  | subscribe u => exact asked_of_subscriber role (h.subscriber u role)

theorem finish_entry (table : s.tableOk) (receives : e.publish?.isSome = false) :
    t.finish.entryAt e.index = some (e.looked l tail) := by
  cases role : e.role with
  | publish p =>
    rw [Entry.publish?, role] at receives
    exact nomatch receives
  | subscribe u =>
    have at' := h.subscriber u role
    exact (finish_subscribe t e.index _ u (at'.nodup table.indexes) at'.entry role).1

/-- Where nothing waits the entry goes on unchanged. -/
theorem chainAdvanced_goesOn (goesOn : e.GoesOn) : t.chainAdvanced e.index = t := by
  rcases goesOn with ⟨p, role, rests⟩ | ⟨u, role, rests⟩
  · rw [chainAdvanced_publish h.entry role]
    exact publishAdvance_rests h.entry role rests
  · rw [chainAdvanced_subscribe h.entry role]
    exact receiveAdvance_rests h.entry role rests

theorem stillEnded_goesOn (goesOn : e.GoesOn) : t.stillEnded e.index = t := by
  rcases goesOn with ⟨p, role, rests⟩ | ⟨u, role, rests⟩
  · rw [stillEnded_publish h.entry role]
    exact publishStillEnded_rests h.entry role fun current ready => rests ⟨current, .inl ready⟩
  · rw [stillEnded_subscribe h.entry role]
    exact receiveStillEnded_rests h.entry role rests

end

section
variable {s t : State} {e : Entry} {a : Word} {tail : Option Word} {reqs : List Request} (waits : e.Waits)
include waits

/-- While the next descriptor is read what waits goes on waiting. -/
theorem chainAdvanced_reading (h : LookedAt s t e (.reading a) tail reqs) : t.chainAdvanced e.index = t := by
  rcases waits with ⟨p, role, takes⟩ | ⟨u, role, wants⟩
  · rw [chainAdvanced_publish h.entry role, publishAdvance_takes h.entry role takes]
    exact (h.publisher p role).publishTake_waits (.inl ⟨a, rfl⟩)
  · rw [chainAdvanced_subscribe h.entry role]
    exact (receiveAdvance_wants h.entry role wants).2 a rfl

/-- With a FAULTY one the entry is in FAULT. -/
theorem chainAdvanced_faulty {cause : FaultCause} (h : LookedAt s t e (.faulty a cause) tail reqs) (table : s.tableOk) :
    (∀ p, e.role = .publish p →
      (∃ v, (t.chainAdvanced e.index).publishAt e.index = some v ∧ v.isEnded .fault p.claim.owns) ∧
      (t.chainAdvanced e.index).forgets e.index e.stream ∧
      s.reports (t.chainAdvanced e.index) [streamEvent .streamFault cause.code e.stream s.ownNumber p.nextSequence.toNat
        cause.lookAheadBytes a]) ∧
    ∀ u, e.role = .subscribe u → (∃ v, (t.chainAdvanced e.index).subscribeAt e.index = some v ∧ v.isFaulted) ∧
      s.reports (t.chainAdvanced e.index) [streamEvent .streamFault cause.code e.stream (u.publisher.getD 0)
        ((u.expected.map BitVec.toNat).getD 0) cause.lookAheadBytes a] := by
  rcases waits with ⟨p, role, takes⟩ | ⟨u, role, wants⟩
  · have at' := h.publisher p role
    rw [chainAdvanced_publish h.entry role, publishAdvance_takes h.entry role takes, at'.publishTake_faulty rfl]
    obtain ⟨ends, told⟩ := at'.faultEntry table role cause cause.lookAheadBytes a
    refine ⟨fun q same => ?_, fun u other => nomatch role.symm.trans other⟩
    obtain rfl := Role.publish.inj (role.symm.trans same)
    exact ⟨⟨_, ends.publishAt, ended_isEnded _ _ _⟩, ends.forgets, reports_of_freePort told⟩
  · have at' := h.subscriber u role
    rw [chainAdvanced_subscribe h.entry role, (receiveAdvance_wants h.entry role wants).1 a cause rfl]
    obtain ⟨faulted, told⟩ := faultEntry_subscribe t e.index _ u at'.entry role ((takesFrames_iff u).1 wants.1).2 cause
      cause.lookAheadBytes a
    refine ⟨fun p other => (nomatch role.symm.trans other), fun q same => ?_⟩
    obtain rfl := Role.subscribe.inj (role.symm.trans same)
    exact ⟨⟨_, faulted, isFaulted_faulted _⟩, State.reports_congr at'.eventState at'.fence rfl told⟩

end

end LookedAt

end Machine
end Sys2Proof
end

section
/-! A look-ahead read and a second read of the tail (R81, R115, R117, R119, R121, R139, R141, R142, R143, R144, R145). -/

namespace Sys2Proof
namespace Machine

/-! ### What a read leaves before the engine goes on -/

section
variable {s : State} {g : Granted} {e : Entry} {a : Word} (there : s.entryAt e.index = some e)
  (granted : s.port.granted = some g) (wanted : g.discarded = false)
include there granted wanted

section
variable (request : g.request = .lookAheadRead e.index a)
include request

theorem lookAheadRead_run {c : ReadCompletion} (fits : c.isDescriptor = true) :
    exec (.lookAheadReadEnd c) s = .next ((s.freePort.modifyChain e.index fun ch =>
      ch.afterLookAhead a (lookAheadOf e.role.descriptorOf a c)).chainAdvanced e.index).finish := by
  have record : s.freePort.recordFor e.index = e.role.descriptorOf := funext fun b => by
    unfold State.recordFor
    rw [show s.freePort.entryAt e.index = _ from there]
  rw [lookAheadReadEnd_eq granted request fits, endTransfer_wanted wanted, lookAheadRead, record]

theorem lookAheadRead_fails {c : ReadCompletion} (fits : c.isDescriptor = true) {cause : FaultCause}
    (fails : lookAheadOf e.role.descriptorOf a c = .faulty a cause) :
    ∃ t, exec (.lookAheadReadEnd c) s = .next (t.chainAdvanced e.index).finish ∧
      LookedAt s t e (.faulty a cause) e.chain.tail [] := by
  refine ⟨_, lookAheadRead_run there granted wanted request fits, lookedAt_modifyChain there _ ?_⟩
  rw [fails]
  rfl

theorem lookAheadRead_holds {b : List Byte} (length : b.length = 16) (valid : (e.role.descriptorOf b).length ≠ 0) :
    ∃ t, exec (.lookAheadReadEnd (.ok b)) s = .next (t.chainAdvanced e.index).finish ∧
      LookedAt s t e (.held a (e.role.descriptorOf b)) (some a) [] := by
  refine ⟨_, lookAheadRead_run there granted wanted request (beq_iff_eq.2 length), lookedAt_modifyChain there _ ?_⟩
  rw [show lookAheadOf e.role.descriptorOf a (.ok b) = .held a (e.role.descriptorOf b) from if_neg valid]
  rfl

end

section
variable (request : g.request = .lastLook e.index a)
include request

theorem lastLook_fails : ∃ t, exec (.lastLookEnd .error) s = .next (t.chainAdvanced e.index).finish ∧
    LookedAt s t e (.faulty a .busError) e.chain.tail [] := by
  refine ⟨_, ?_, lookedAt_modifyChain there (fun ch => { ch with lookAhead := .faulty a .busError }) rfl⟩
  rw [lastLookEnd_eq granted request rfl, endTransfer_wanted wanted]
  rfl

theorem lastLook_linked {b : List Byte} (length : b.length = 16) (linked : (descriptorOf b).link ≠ 0) :
    ∃ t, exec (.lastLookEnd (.ok b)) s = .next (t.chainAdvanced e.index).finish ∧
      LookedAt s t e (s.fence.lookAheadFor (descriptorOf b).link) e.chain.tail
        (s.fence.linkReads e.index (descriptorOf b).link) := by
  refine ⟨_, ?_, lookedAt_followLink there _⟩
  rw [lastLookEnd_eq granted request (d := .ok b) (beq_iff_eq.2 length), endTransfer_wanted wanted]
  exact congrArg (fun t : State => Host.Outcome.next t.finish) (if_neg linked)

theorem lastLook_ended {b : List Byte} (length : b.length = 16) (ended : (descriptorOf b).link = 0) :
    ∃ t, exec (.lastLookEnd (.ok b)) s = .next (t.stillEnded e.index).finish ∧
      LookedAt s t e .ended e.chain.tail [] := by
  have looked := lookedAt_followLink there (descriptorOf b).link
  obtain ⟨look, unread⟩ := s.fence.linkReads_zero e.index ended
  rw [look, unread] at looked
  refine ⟨_, ?_, looked⟩
  rw [lastLookEnd_eq granted request (d := .ok b) (beq_iff_eq.2 length), endTransfer_wanted wanted]
  exact congrArg (fun t : State => Host.Outcome.next t.finish) (if_pos ended)

end

end

namespace LookedAt

section
variable {s t : State} {e : Entry} {tail : Option Word}

/-! ### A take at a publish entry -/

theorem publish_takes {a : Word} {d : Descriptor} {p : PublishEntry} (h : LookedAt s t e (.held a d) tail [])
    (role : e.role = .publish p) (takes : p.Takes e.chain) :
    PublisherAt s.freePort (t.chainAdvanced e.index) e.index
      { e with role := .publish { p with segmenter := .ready }
               chain := { e.chain with current := .held a d, lookAhead := s.fence.lookAheadFor d.link, tail := tail } }
      (s.fence.linkReads e.index d.link) := by
  rw [chainAdvanced_publish h.entry role, publishAdvance_takes h.entry role takes]
  exact (h.publisher p role).publishTake_held role rfl

theorem publish_ends {p : PublishEntry} (h : LookedAt s t e .ended tail [])
    (role : e.role = .publish p) (current : e.chain.current = .none) (ready : p.segmenter = .ready) :
    (t.stillEnded e.index).entryAt e.index =
      some { e.looked .ended tail with role := .publish { p with segmenter := .noChain } } ∧
    s.reports (t.stillEnded e.index) [streamEvent .txChainEnd 0 e.stream s.ownNumber p.nextSequence.toNat
      p.sendQueue.length (tail.getD 0)] := by
  rw [stillEnded_publish h.entry role, publishStillEnded_ready h.entry role current ready]
  obtain ⟨entry, told⟩ := (h.publisher p role).chainEnds_leaves role
  exact ⟨entry, reports_of_freePort told⟩

/-! ### A starvation at a subscribe entry -/

section
variable {u : SubscribeEntry} {pl : Placing} (h : LookedAt s t e .ended tail []) (role : e.role = .subscribe u)
  (takes : u.takesFrames = true) (fed : u.starved = false) (placing : u.placing = some pl)
include h role takes fed placing

theorem starves_cell {c : Nat} (source : pl.source = .cell c) :
    (t.stillEnded e.index).subscribeAt e.index = some (u.starving pl .ended) ∧
      s.reports (t.stillEnded e.index) [(e.looked .ended tail).starvedEvent u] := by
  have at' := h.subscriber u role
  have starved := starve_cell (e := e.looked .ended tail) at'.entry role placing fed source
  rw [stillEnded_subscribe h.entry role, receiveStillEnded_starves h.entry role takes fed placing]
  obtain ⟨left, -⟩ := at'.starves role nofun pl
  obtain ⟨f, entry, fields⟩ := left.entry
  have final : t.starve e.index = t.starves (e.looked .ended tail) u pl := starved
  rw [final]
  exact ⟨subscribeAt_of_entry entry fields, reports_of_freePort left.reports⟩

end

/-! ### A HELD look-ahead at a subscribe entry -/

section
variable {a : Word} {d : Descriptor} {u : SubscribeEntry} (h : LookedAt s t e (.held a d) tail [])
  (role : e.role = .subscribe u)
  (takes : u.takesFrames = true)
  (full : e.chain.current = .none ∨ ∃ h d, e.chain.current = .held h d ∧ d.length ≤ u.writeOffset)
include h role takes full

/-- An empty starvation ends with it. -/
theorem empty_ends (placing : u.placing = none) (starved : u.starved = true) :
    AtEntry s.freePort (t.chainAdvanced e.index) e.index
      { e with role := .subscribe { u.freshDescriptor with starved := false }
               chain := { e.chain with current := .held a d, lookAhead := s.fence.lookAheadFor d.link, tail := tail } }
      (e.leaving u ++ s.fence.linkReads e.index d.link) := by
  have taken := (h.subscriber u role).takeHeld role rfl a d
  rw [chainAdvanced_subscribe h.entry role, receiveAdvance_empty h.entry role takes placing starved,
    (endEmptyStarvation_full (f := e.looked (.held a d) tail) full).1 a d rfl]
  exact taken.modifySubscribe rfl _

/-- The segment being placed goes on in it. -/
theorem placing_goesOn (table : s.tableOk) {g : Granted} (granted : s.port.granted = some g)
    (silent : ∀ source, Request.writesFrom source g.request = false) {pl : Placing} {x : Seq} (placing : u.placing = some pl)
    (left : pl.placed < pl.length) (expected : u.expected = some x) (valid : d.length ≠ 0) (last : tail = some a) :
    s.takesUp (t.chainAdvanced e.index) e u pl x a d (e.leaving u) := by
  have taken := (h.subscriber u role).takeHeld role rfl a d
  have round := placeRounds_full t e.index _ u pl 63 h.entry role takes placing left full
  rw [chainAdvanced_subscribe h.entry role, receiveAdvance_places h.entry role takes placing, round]
  subst last
  exact placeRounds_takesUp table taken rfl rfl rfl (fun g' same source => by
    obtain rfl := Option.some.inj (granted.symm.trans same)
    exact silent source) (e.leaving_write_nothing u) takes placing left expected valid 59

end

end

end LookedAt

end Machine
end Sys2Proof
end

section
/-! A look-ahead read settles the look-ahead (R81, R119, R121, R139, R141, R142, R143, R144, R145, R147). -/

namespace Sys2Proof
namespace Machine

theorem SubscribeEntry.starving_ended (u : SubscribeEntry) (pl : Placing) :
    u.starving pl .ended = { u with starved := true, partPlaced := pl.placed, chainEnded := true } := by
  have ends : (u.chainEnded || LookAhead.ended == .ended) = true := Bool.or_true _
  rw [SubscribeEntry.starving, ends]

/-- A link that fails its check. -/
theorem Fence.lookAheadFor_bad (f : Fence) (i : Nat) {link : Word} (some : link ≠ 0)
    (bad : ¬(link.toNat % 16 = 0 ∧ f.contains link.toNat 16 = true)) :
    f.lookAheadFor link = .faulty link (if link.toNat % 16 ≠ 0 then .badDescriptor else .fence) ∧
      f.linkReads i link = [] := by
  by_cases aligned : link.toNat % 16 = 0
  · rw [if_neg (fun h => h aligned)]
    exact f.lookAheadFor_outside i some aligned (Bool.eq_false_iff.2 fun inside => bad ⟨aligned, inside⟩)
  · rw [if_pos aligned]
    exact f.lookAheadFor_misaligned i some aligned

/-- Settles O49, by the role of the entry, what waits at it, and what the read brings. -/
theorem aLookAheadReadSettlesTheLookAhead : Obligations.ALookAheadReadSettlesTheLookAhead := by
  intro s g e a table mem granted wanted publishes recordOf full takes wants waits goesOn asked look faults linkCause linkOk
  have there := table.entryAt mem
  have record (b : List Byte) : recordOf b = e.role.descriptorOf b := by
    unfold recordOf publishes Entry.publish?
    cases e.role <;> rfl
  have stands {c : Instr} {t : State} {l : LookAhead} {tail : Option Word} {reqs : List Request}
      (run : exec c s = .next t.finish) (h : LookedAt s t e l tail reqs) : look c l tail reqs :=
    ⟨t, _, run, h.entry, rfl, rfl, h.port, h.reports, h.finish_entry table⟩
  have goes {c : Instr} {t : State} {l : LookAhead} {tail : Option Word} {reqs : List Request}
      (run : exec c s = .next (t.chainAdvanced e.index).finish) (h : LookedAt s t e l tail reqs) (rests : e.GoesOn) :
      look c l tail reqs := stands (by rw [run, h.chainAdvanced_goesOn rests]) h
  have fails {c : Instr} {t : State} {cause : FaultCause} {address : Word} {tail : Option Word} {reqs : List Request}
      (run : exec c s = .next (t.chainAdvanced e.index).finish) (h : LookedAt s t e (.faulty address cause) tail reqs)
      (waiting : e.Waits) : faults c cause cause.lookAheadBytes address :=
    ⟨_, run, LookedAt.chainAdvanced_faulty waiting h table⟩
  refine ⟨fun request => ?_, fun request => ?_, fun u role takesFrames b length => ?_⟩
  · obtain ⟨t, run, failed⟩ := lookAheadRead_fails there granted wanted request (c := .error) rfl rfl
    refine ⟨goes run failed, fails run failed, fun b length => ?_⟩
    have invalid (empty : (recordOf b).length = 0) :=
      lookAheadRead_fails there granted wanted request (c := .ok b) (beq_iff_eq.2 length) (cause := .badDescriptor)
        (if_pos ((congrArg Descriptor.length (record b)).symm.trans empty))
    have holds (valid : (recordOf b).length ≠ 0) :=
      lookAheadRead_holds there granted wanted request length (by rw [← record b]; exact valid)
    refine ⟨fun rests valid => ?_, fun rests empty => ?_, fun waiting empty => ?_, fun p role takesNow valid => ?_⟩
    · obtain ⟨t, run, held⟩ := holds valid
      rw [record b]
      exact goes run held rests
    · obtain ⟨t, run, failed⟩ := invalid empty
      exact goes run failed rests
    · obtain ⟨t, run, failed⟩ := invalid empty
      exact fails run failed waiting
    · intro link
      obtain ⟨t, run, held⟩ := holds valid
      have same : link = (e.role.descriptorOf b).link := congrArg Descriptor.link (record b)
      clear_value link
      subst same
      rw [record b]
      have taken := held.publish_takes role takesNow
      have port := asked_of_publisher role taken
      refine ⟨_, _, run, taken.entry, rfl, rfl, rfl, reports_of_freePort taken.reports, fun none => ?_, fun some ok => ?_,
        fun some bad => ?_⟩
      · obtain ⟨ended, unread⟩ := s.fence.linkReads_zero e.index none
        rw [unread] at port
        exact ⟨ended, port⟩
      · obtain ⟨aligned, inside⟩ := ok
        obtain ⟨reading, reads⟩ := s.fence.lookAheadFor_inside e.index some aligned inside
        rw [reads] at port
        exact ⟨reading, port⟩
      · obtain ⟨faulty, unread⟩ := s.fence.lookAheadFor_bad e.index some bad
        rw [unread] at port
        exact ⟨faulty, port⟩
  · obtain ⟨t, run, failed⟩ := lastLook_fails there granted wanted request
    refine ⟨goes run failed, fails run failed, fun b length => ?_⟩
    intro link
    have linked (some : link ≠ 0) := lastLook_linked there granted wanted request length some
    have ended (none : link = 0) := lastLook_ended there granted wanted request length none
    refine ⟨fun rests none => ?_, fun either some ok => ?_, fun rests some bad => ?_, fun waiting some bad => ?_,
      fun p role current none => ⟨fun chainless => ?_, fun ready => ?_⟩⟩
    · obtain ⟨t, run, looked⟩ := ended none
      rw [looked.stillEnded_goesOn rests] at run
      exact stands run looked
    · obtain ⟨t, run, looked⟩ := linked some
      obtain ⟨reading, reads⟩ := s.fence.lookAheadFor_inside e.index some ok.1 ok.2
      rw [show s.fence.lookAheadFor (descriptorOf b).link = _ from reading,
        show s.fence.linkReads e.index (descriptorOf b).link = _ from reads] at looked
      rcases either with rests | waiting
      · exact goes run looked rests
      · rw [LookedAt.chainAdvanced_reading waiting looked] at run
        exact stands run looked
    · obtain ⟨t, run, looked⟩ := linked some
      obtain ⟨bad, unread⟩ := s.fence.lookAheadFor_bad e.index some bad
      rw [show s.fence.lookAheadFor (descriptorOf b).link = _ from bad,
        show s.fence.linkReads e.index (descriptorOf b).link = _ from unread] at looked
      exact goes run looked rests
    · obtain ⟨t, run, looked⟩ := linked some
      obtain ⟨bad, unread⟩ := s.fence.lookAheadFor_bad e.index some bad
      have none : (linkCause link).lookAheadBytes = 0 := Fence.lookAheadBytes_of_link bad
      rw [show s.fence.lookAheadFor (descriptorOf b).link = _ from bad] at looked
      rw [← none]
      exact fails run looked waiting
    · obtain ⟨t, run, looked⟩ := ended none
      have rests : t.stillEnded e.index = t := by
        rw [stillEnded_publish looked.entry role]
        exact publishStillEnded_rests looked.entry role fun _ ready => nomatch chainless.symm.trans ready
      rw [rests] at run
      exact stands run looked
    · obtain ⟨t, run, looked⟩ := ended none
      obtain ⟨entry, told⟩ := looked.publish_ends role current ready
      exact ⟨_, _, run, entry, rfl, rfl, told⟩
  · have silent (source : SegmentSource) (request : g.request = .lastLook e.index a ∨ g.request = .lookAheadRead e.index a) :
        Request.writesFrom source g.request = false := by
      rcases request with request | request <;> rw [request] <;> rfl
    refine ⟨fun pl c placing source fed request none => ?_, fun pl k r placing source held fed request none => ?_,
      fun request isFull => ?_⟩
    · obtain ⟨t, run, looked⟩ := lastLook_ended there granted wanted request length none
      obtain ⟨at', told⟩ := looked.starves_cell role takesFrames fed placing source
      rw [u.starving_ended pl] at at'
      exact ⟨_, run, at', told⟩
    · obtain ⟨t, run, looked⟩ := lastLook_ended there granted wanted request length none
      obtain ⟨v, starved, fields, free, aged, dropped⟩ := starve_staged
        (looked.subscriber u role) role table.indexes placing fed
        source held there (by rw [Entry.subscribe?, role]; rfl) nofun
      rw [stillEnded_subscribe looked.entry role, receiveStillEnded_starves looked.entry role takesFrames fed placing] at run
      have outstanding := (AtEntry.refl (s := s.freePort) there).outstanding nofun (fun g' same source => by
        obtain rfl := Option.some.inj (granted.symm.trans same)
        exact silent source (.inl request)) (.staging k)
      have ends : (e.looked .ended e.chain.tail).chain.lookAhead = .ended := rfl
      rw [ends, u.starving_ended pl] at fields
      exact ⟨_, v, run, starved.there, fields, reports_of_freePort starved.reports,
        fun written => starved.written (outstanding.trans written),
          fun unwritten => starved.freed (outstanding.trans unwritten),
        free, aged, dropped⟩
    · intro wide valid
      have own : e.role.descriptorOf b = rxDescriptorOf b := by rw [role]; rfl
      obtain ⟨t, run, held⟩ := lookAheadRead_holds there granted wanted request length (by rw [own]; exact valid)
      rw [own] at held
      refine ⟨fun placing starved => ?_, fun pl x placing left expected => ?_⟩
      · have taken := held.empty_ends role takesFrames isFull placing starved
        have stays := (finish_subscribe _ e.index _ _ (taken.nodup table.indexes) taken.entry rfl).1
        exact ⟨_, _, run, taken.entry, stays, rfl, rfl, asked_of_subscriber role taken, State.reports_nil taken.eventState⟩
      · exact ⟨_, run, held.placing_goesOn role takesFrames isFull table granted (fun source => silent source (.inr request))
          placing left expected valid rfl⟩

end Machine
end Sys2Proof
end
